-- ==== Sys2Proof/Word.lean ====
section
/-! DEFINITION. The word types of the KX-4 and their plainest arithmetic (R5, R11, R218). -/

namespace Sys2Proof

/-- One byte of memory (R5). -/
abbrev Byte := BitVec 8
/-- One 32-bit core word, vector lane or token lane (R11, R94, R218). -/
abbrev Word := BitVec 32
/-- One 64-bit register, CSR, tag or accumulator cell (R90, R218). -/
abbrev DWord := BitVec 64
/-- One 128-bit station word (R210). -/
abbrev SWord := BitVec 128

/-- Number of a general register g0 to g31 (R218). -/
abbrev GReg := Fin 32
/-- Number of a predicate register p0 to p7 (R218). -/
abbrev PReg := Fin 8
/-- Number of a vector register v0 to v15 (R218). -/
abbrev VReg := Fin 16
/-- Number of a stream register s0 to s7 (R218). -/
abbrev SReg := Fin 8

end Sys2Proof
end

