-- ==== Sys2Proof/Config.lean ====
section
/-! DEFINITION. What an implementation fixes and the spec leaves open: constants with no body. Nothing in
Lean can evaluate one or prove a value of it, so a claim about the model holds for every value. -/

namespace Sys2Proof.Config

/-- The agent that moves next when the agenda is empty: its place among those that can move, modulo their number, at the
n-th step (log entry 3). R105 and R178 leave the order open. -/
opaque order : Nat → Nat

/-- A choice that an agent makes within the n-th step, where the spec leaves it free (log entry 3). -/
opaque choose : Nat → Nat

/-- The die, context and address whose walk may end at the n-th step and leave its leaf in a translation cache (R152; log
entry 8). -/
opaque walks : Nat → Fin 8 × Byte × Nat

/-- How many cycles of the 1.4 GHz clock the n-th step takes (log entry 4). -/
opaque stepCycles : Nat → Nat

/-- The bytes that a result undefined for its context leaves (R3, R312, R340, R366; log entry 10): the n-th
free byte. -/
opaque freeByte : Nat → Byte

/-- How far a core's own cycle count is from the model's clock when both start: CYCLE is not comparable between
cores (R357; log entry 4). -/
opaque cycleSkew : Nat → Nat

/-- SHAKE256 with a 64-byte output (R398; log entry 13). -/
opaque shake256 : List Byte → BitVec 512

/-- The Ed448 check of a signature over a digest under the fused key (R398; log entry 13). -/
opaque ed448Verify : BitVec 512 → List Byte → Bool

/-- The Ed448 signature that the security engine makes over a SHAKE256 transcript (R399; log entry 13). -/
opaque ed448Sign : BitVec 512 → List Byte

/-- Bytes 20 to 210 of the identity record: serial number, date, key and signature, written once at manufacture (R393; log
entry 86). -/
opaque identityByte : Nat → Byte

end Sys2Proof.Config
end

