-- ==== Sys2Proof/Machine/Bits.lean ====
section
/-! DEFINITION. The pseudocode helpers of Table 00-1 (R10), bit fields, byte order (R5) and sparse maps in one
canonical form. -/

namespace Sys2Proof.Machine

/-! ## Table 00-1 -/

/-- trunc(x, n) of R10. -/
def trunc (x : Int) (n : Nat) : Nat := (x % (2 ^ n : Int)).toNat

/-- sext(x, n) of R10. -/
def sext (x : Int) (n : Nat) : Int :=
  if 2 * trunc x n < 2 ^ n then (trunc x n : Int) else (trunc x n : Int) - 2 ^ n

/-- wrap(x, n) of R10. -/
def wrap (x : Int) (n : Nat) : Int := sext (trunc x n) n

/-- ceil(a / b) of two naturals. -/
def ceilDiv (a b : Nat) : Nat := (a + b - 1) / b

/-! ## Fields -/

/-- Bits [hi:lo] of w (R5). -/
def fld (w hi lo : Nat) : Nat := w / 2 ^ lo % 2 ^ (hi + 1 - lo)

/-- Bit i of w. -/
def bitOf (w i : Nat) : Bool := w / 2 ^ i % 2 == 1

/-- 1 for true. -/
def b2n (b : Bool) : Nat := if b then 1 else 0

/-- w with bits [hi:lo] replaced. -/
def setFld (w hi lo v : Nat) : Nat :=
  w - fld w hi lo * 2 ^ lo + v % 2 ^ (hi + 1 - lo) * 2 ^ lo

/-- Number of 1 bits among the low n bits of w. -/
def popcount : Nat → Nat → Nat
  | 0, _ => 0
  | n + 1, w => w % 2 + popcount n (w / 2)

/-- Number of leading 0 bits of w within n bits; n for 0 (R257, R303). -/
def clz : Nat → Nat → Nat
  | 0, _ => 0
  | n + 1, w => if bitOf w n then 0 else 1 + clz n w

/-- Number of trailing 0 bits of w within n bits; n for 0 (R257, R303). -/
def ctz : Nat → Nat → Nat
  | 0, _ => 0
  | n + 1, w => if w % 2 == 1 then 0 else 1 + ctz n (w / 2)

/-- Bit j moves to bit n - 1 - j (R257, R303). -/
def brev : Nat → Nat → Nat
  | 0, _ => 0
  | n + 1, w => w % 2 * 2 ^ n + brev n (w / 2)

/-- x rotated left by s within w bits (R257). -/
def rotl (x s w : Nat) : Nat :=
  let k := s % w
  (x * 2 ^ k % 2 ^ w) + x % 2 ^ w / 2 ^ (w - k)

/-- The number of bits of n: 0 for 0, else floor(log2 n) + 1. -/
def bitLen (n : Nat) : Nat := if n = 0 then 0 else Nat.log2 n + 1

/-- Integer square root: n bits of the root, from the top. -/
def isqrtGo (x : Nat) : Nat → Nat → Nat
  | 0, r => r
  | n + 1, r =>
    let c := r + 2 ^ n
    isqrtGo x n (if c * c ≤ x then c else r)

/-- floor(sqrt x). -/
def isqrt (x : Nat) : Nat := isqrtGo x (bitLen x / 2 + 1) 0

/-! ## Byte order (R5) -/

/-- The n bytes of v, lowest first. -/
def leBytes : Nat → Nat → List Byte
  | 0, _ => []
  | n + 1, v => BitVec.ofNat 8 v :: leBytes n (v / 256)

/-- The value of bytes, lowest first. -/
def leValue : List Byte → Nat
  | [] => 0
  | b :: bs => b.toNat + 256 * leValue bs

/-- bs cut into groups of n, in order (the last may be shorter); fuel bounds the number of groups. -/
def groups {α : Type} (n : Nat) : Nat → List α → List (List α)
  | 0, _ => []
  | _, [] => []
  | f + 1, bs => bs.take n :: groups n f (bs.drop n)

/-! ## Sparse maps: strictly rising keys, no entry equal to the default -/

/-- The value at key k, d where none is listed. -/
def spGet {α : Type} (d : α) : List (Nat × α) → Nat → α
  | [], _ => d
  | (j, x) :: m, k => if j = k then x else if k < j then d else spGet d m k

/-- The value listed at key k. -/
def spFind {α : Type} : List (Nat × α) → Nat → Option α
  | [], _ => none
  | (j, x) :: m, k => if j = k then some x else if k < j then none else spFind m k

/-- Key k removed. -/
def spErase {α : Type} : List (Nat × α) → Nat → List (Nat × α)
  | [], _ => []
  | (j, x) :: m, k => if j = k then m else if k < j then (j, x) :: m else (j, x) :: spErase m k

/-- Key k given value x, listed. -/
def spInsert {α : Type} : List (Nat × α) → Nat → α → List (Nat × α)
  | [], k, x => [(k, x)]
  | (j, y) :: m, k, x =>
    if j = k then (k, x) :: m else if k < j then (k, x) :: (j, y) :: m else (j, y) :: spInsert m k x

/-- Key k given value x; a value equal to the default removes the entry, so equal maps are equal lists. -/
def spSet {α : Type} [DecidableEq α] (d : α) (m : List (Nat × α)) (k : Nat) (x : α) : List (Nat × α) :=
  if x = d then spErase m k else spInsert m k x

/-- Keys strictly above b and rising, no entry equal to the default. -/
def spWfFrom {α : Type} [DecidableEq α] (d : α) : Option Nat → List (Nat × α) → Bool
  | _, [] => true
  | b, (j, x) :: m =>
    (match b with | none => true | some b => decide (b < j)) && decide (x ≠ d) && spWfFrom d (some j) m

/-- The canonical form of a sparse map. -/
def spWf {α : Type} [DecidableEq α] (d : α) (m : List (Nat × α)) : Bool := spWfFrom d none m

/-! ## Lists -/

/-- Element n replaced by f of it; the list is unchanged where there is none. -/
def listModify {α : Type} (f : α → α) : Nat → List α → List α
  | _, [] => []
  | 0, a :: as => f a :: as
  | n + 1, a :: as => a :: listModify f n as

/-- Element n removed. -/
def listRemove {α : Type} : Nat → List α → List α
  | _, [] => []
  | 0, _ :: as => as
  | n + 1, a :: as => a :: listRemove n as

/-- The first element that satisfies p, with its place. -/
def findIdx {α : Type} (p : α → Bool) : List α → Option (Nat × α)
  | [] => none
  | a :: as => if p a then some (0, a) else (findIdx p as).map fun (n, x) => (n + 1, x)

/-- An element put before the first one that le does not put before it. -/
def insertBy {α : Type} (le : α → α → Bool) (a : α) : List α → List α
  | [] => [a]
  | b :: l => if le b a then b :: insertBy le a l else a :: b :: l

/-- A list in order; elements that le orders both ways keep their places. -/
def sortBy {α : Type} (le : α → α → Bool) (l : List α) : List α := l.foldl (fun acc a => insertBy le a acc) []

/-- a, a + 1, ..., a + n - 1. -/
def range (a n : Nat) : List Nat := (List.range n).map (a + ·)

/-- Sum of a list of integers. -/
def isum (l : List Int) : Int := l.foldl (· + ·) 0

/-- floor(n / 2) pairs of a list combined in order, a last odd one kept (one level of the tree of R197). -/
def treeLevel {α : Type} (f : α → α → α) : List α → List α
  | [] => []
  | [a] => [a]
  | a :: b :: l => f a b :: treeLevel f l

/-- The fixed tree of R197 over at least one element; fuel is the number of levels. -/
def tree {α : Type} (f : α → α → α) (d : α) : Nat → List α → α
  | 0, l => l.headD d
  | n + 1, l => match l with
    | [] => d
    | [a] => a
    | l => tree f d n (treeLevel f l)

end Sys2Proof.Machine
end

