-- ==== Sys2Proof/Syntax.lean ====
section
/-! DEFINITION. The instruction set as syntax: one constructor of Instr for each row of spec/opcode_table.json, with
the operands of its word (station words, core words) or the unit and item it names (the rows that are
operations of the module's units, file 95). -/

namespace Sys2Proof

/-- A number format of Table 03-1 (R58). -/
inductive Fmt where
  | int4 | int8 | int16 | int32 | int64 | uint8 | uint16 | uint32
  | bsi2 | bsi3 | bsi4 | bsi6 | bsi8 | bsi12 | bsi16
  | e2m1b | e4m3 | e5m2 | bf16 | fp32 | fp16 | fp64 | wide
  deriving DecidableEq, Repr

/-- A guard: predicate and its negation (R208). -/
structure Guard where
  p : PReg
  neg : Bool
  deriving DecidableEq, Repr

/-- A scope (R169). -/
inductive Scope where
  | stn | core | die | dev | sys
  deriving DecidableEq, Repr

/-- The functions of BITC (R257, R303). -/
inductive BitFn where
  | popc | clz | ctz | brev
  deriving DecidableEq, Repr

/-- The bitwise functions of Table 11-3, in code order 0x0 to 0x5. -/
inductive LogicFn where
  | and | or | xor | andn | orn | xnor
  deriving DecidableEq, Repr

/-- The relations of CMP R, codes 0x0 to 0x9 (R304); CMP I has eq, ne, lt and ge. -/
inductive CRel where
  | eq | ne | lt | le | gt | ge | ltu | leu | gtu | geu
  deriving DecidableEq, Repr

/-- The forms of PLOG (R305). -/
inductive PlogOp where
  | bool (f : LogicFn) (pd pa pb : PReg)
  | fromg (pd : PReg) (a : GReg)
  | tog (d : GReg) (pa : PReg)
  deriving DecidableEq, Repr

/-- The variants of LD (R309). -/
inductive LdVar where
  | plain | sext | fg | metaTag
  deriving DecidableEq, Repr

/-- The vector type codes of Table 13-8, in code order. -/
inductive VTy where
  | int32 | uint32 | fp32 | bf16 | int16 | int8 | e4m3 | e5m2
  deriving DecidableEq, Repr

/-- The functions of FBADV (R316). -/
inductive FbFn where
  | next | peek | pos
  deriving DecidableEq, Repr

/-- The functions of RNG (R269, R354). -/
inductive RngFn where
  | sr16 | unif | bits
  deriving DecidableEq, Repr

/-- The participant sets of BAR (R337). -/
inductive BarSet where
  | access | drain | all
  deriving DecidableEq, Repr

/-- A destination of a station word (R88, R89): station field, slot, port and action. -/
structure Dest where
  stn : BitVec 16
  slot : BitVec 4
  port : BitVec 2
  act : BitVec 2
  deriving DecidableEq, Repr

/-- The fields that every station word has (Table 09-3), the opcode, type, mode, iflags, aux and imm32 apart. -/
structure Head where
  arity : BitVec 2
  tagop : BitVec 3
  level : BitVec 2
  d0 : Option Dest
  d1 : Option Dest
  deriving DecidableEq, Repr

/-- The aux and imm32 fields of a memory node (Table 10-4). -/
structure NodeF where
  pred : BitVec 7
  succ : BitVec 7
  carried : Bool
  ord : BitVec 2
  scope : Scope
  node : BitVec 7
  func : BitVec 4
  fg : Bool
  off : BitVec 11
  deriving DecidableEq, Repr

/-- The row and table fields that SGP, DMAC and SPMC share (Table 12-1). -/
structure RowSel where
  rsel : BitVec 3
  row : BitVec 5
  t : BitVec 2
  deriving DecidableEq, Repr

/-- A helper core or collier, by kind, die and core (R16, R18; a collier has core 0). -/
inductive CoreKind where
  | access | drain | collier
  deriving DecidableEq, Repr

/-- An agent that runs core words. -/
structure Agent where
  kind : CoreKind
  die : Fin 8
  core : Fin 128
  deriving DecidableEq, Repr

/-- A host access to BAR0 (R388): offset, size in bytes, and the value written or none for a read. -/
structure BarAccess where
  off : Nat
  size : Nat
  value : Option Nat
  deriving DecidableEq, Repr

/-- A host CXL.mem access (R185, R161): the decoder window, PA, and the bytes written or the length read. -/
structure CxlAccess where
  window : Fin 16
  pa : Nat
  write : List Byte
  readLen : Nat
  deriving DecidableEq, Repr

/-- What firmware asks of the memory system and the ports: an untranslated read or write at a home controller (R159, R161), the
contents of a key slot (R161), a peer port's route entry (R390). -/
inductive HomeAccess where
  | read (pa len : Nat)
  | write (pa : Nat) (bytes : List Byte)
  | slot (n : Nat) (key : BitVec 512)
  | route (p : Fin 18) (en : Bool) (serial : Nat) (ctxin : Byte)
  deriving DecidableEq, Repr

/-- A message at the management port (R392 to R394, R397 to R399): an EVICT with its port, the neighbour's state and the device
memory ranges it lists (PA, length, address at the neighbour), a scan read-out, a firmware image, an SPDM transcript (over MCTP or over
CXL.io DOE), a read of the identity record, a record for the service log. -/
inductive MgmtMsg where
  | evict (port : Fin 18) (ready : Bool) (ranges : List (Nat × Nat × Nat))
  | scan (offset len : Nat)
  | firmware (image : Fin 4) (bytes sig : List Byte)
  | spdm (transcript : List Byte) (doe : Bool)
  | eeprom (offset len : Nat)
  | service (rec : BitVec 256)
  deriving DecidableEq, Repr

/-- A peer flit (R389): kind, payload bytes used, sequence, address and payload. -/
structure Flit where
  kind : Nat
  used : Nat
  seq : Nat
  addr : Nat
  payload : List Byte
  deriving DecidableEq, Repr

/-- A link that can go down (R454). -/
inductive LinkId where
  | host
  | peer (p : Fin 18)
  | ide
  deriving DecidableEq, Repr

/-- The instruction set: one constructor for each row of the opcode table. -/
inductive Instr where
  -- chapter 10: tokens, tags, runs and memory nodes
  | pass (h : Head) (ty : Fmt)
  | steer (h : Head) (ty : Fmt)
  | merge (h : Head) (ty : Fmt)
  | gate (h : Head) (ty : Fmt)
  | join (h : Head) (n : BitVec 32)
  | const (h : Head) (ty : Fmt) (exp : BitVec 8) (value : BitVec 32)
  | sink (h : Head) (ty : Fmt) (count : BitVec 32)
  | count (h : Head) (ty : Fmt) (value : BitVec 32)
  | purge (h : Head) (ty : Fmt)
  | wadv (h : Head) (ty : Fmt)
  | nest (h : Head) (ty : Fmt)
  | unnest (h : Head) (ty : Fmt)
  | tset (h : Head) (ty : Fmt) (k : BitVec 2)
  | tget (h : Head) (field : BitVec 3)
  | rsplit (h : Head) (ty : Fmt) (p : BitVec 32)
  | rlen (h : Head)
  | expand (h : Head) (ty : Fmt)
  | pack (h : Head) (ty : Fmt)
  | xmit (h : Head) (ty : Fmt)
  | xmitQueueRoom (stn : Nat)
  | ldn (h : Head) (ty : Fmt) (f : NodeF)
  | stn (h : Head) (ty : Fmt) (f : NodeF)
  | amon (h : Head) (ty : Fmt) (f : NodeF)
  | famn (h : Head) (f : NodeF)
  | memoryNodeAccessPerformed (stn n : Nat)
  -- chapter 11: arithmetic, conversion and reduction
  | iadd (h : Head) (ty : Fmt) (mode : BitVec 4) (imm : BitVec 32)
  | isub (h : Head) (ty : Fmt) (mode : BitVec 4) (imm : BitVec 32)
  | imul (h : Head) (ty : Fmt) (mode : BitVec 4) (imm : BitVec 32)
  | imac (h : Head) (ty : Fmt) (mode : BitVec 4) (form : Bool) (c : BitVec 32)
  | imin (h : Head) (ty : Fmt) (imm : BitVec 32)
  | imax (h : Head) (ty : Fmt) (imm : BitVec 32)
  | iabs (h : Head) (ty : Fmt) (mode : BitVec 4)
  | logic (h : Head) (ty : Fmt) (fn : BitVec 4) (imm : BitVec 32)
  | shift (h : Head) (ty : Fmt) (fn : BitVec 4) (imm : BitVec 32)
  | icmp (h : Head) (ty : Fmt) (fn : BitVec 4) (imm : BitVec 32)
  | sel (h : Head) (ty : Fmt)
  | slotBitc (h : Head) (ty : Fmt) (fn : BitVec 4)
  | fadd (h : Head) (ty : Fmt) (rnd : BitVec 4) (neg : Bool) (imm : BitVec 32)
  | fmul (h : Head) (ty : Fmt) (rnd : BitVec 4) (imm : BitVec 32)
  | ffma (h : Head) (ty : Fmt) (rnd : BitVec 4) (form negp : Bool) (c : BitVec 32)
  | fmin (h : Head) (ty : Fmt) (fn : BitVec 4) (imm : BitVec 32)
  | fmax (h : Head) (ty : Fmt) (fn : BitVec 4) (imm : BitVec 32)
  | fcmp (h : Head) (ty : Fmt) (fn : BitVec 4) (imm : BitVec 32)
  | fspec (h : Head) (ty : Fmt) (fn : BitVec 4)
  | cvt (h : Head) (ty : Fmt) (rnd : BitVec 4) (sat : Bool)
  | bqnt (h : Head) (ty : Fmt) (rnd : BitVec 4) (c : BitVec 32)
  | dqnt (h : Head) (ty : Fmt) (rnd : BitVec 4) (adj : BitVec 8)
  | redu (h : Head) (ty : Fmt) (fn : BitVec 4) (c : BitVec 32)
  | scan (h : Head) (ty : Fmt) (fn : BitVec 4) (c : BitVec 32)
  | slotRng (h : Head) (ty : Fmt) (fn : RngFn) (posv : Bool) (seqf : BitVec 3) (d : BitVec 32)
  -- chapter 12: segments, tables and accumulators
  | segt (h : Head) (ty : Fmt) (mu : BitVec 5) (tau : BitVec 8) (kr : BitVec 16) (lmax : BitVec 16)
  | sgpN32 (h : Head) (ty : Fmt) (r : RowSel)
  | sgpN64 (h : Head) (ty : Fmt) (r : RowSel)
  | dmacN32 (h : Head) (ty : Fmt) (r : RowSel)
  | dmacN64 (h : Head) (ty : Fmt) (r : RowSel)
  | spmc (h : Head) (ty : Fmt) (wide : Bool) (r : RowSel)
  | isect (h : Head) (fn : BitVec 4)
  | tbld (h : Head) (t : BitVec 2)
  | tableBuildComplete (stn n : Nat)
  | tupd (h : Head) (ty : Fmt) (fold : Bool) (t : BitVec 2)
  | pupd (h : Head) (ty : Fmt) (fold : Bool) (t : BitVec 2)
  | pupdUpdateMessage (n : Nat)
  | pupdAcknowledge (n : Nat)
  | pbind (h : Head) (ty : Fmt) (tr : Bool) (pt t : BitVec 2) (partner gen : BitVec 16)
  | pbindMessage (n : Nat)
  | pbindConfirm (n : Nat)
  | tfold (h : Head) (ty : Fmt) (all : Bool) (t : BitVec 2)
  | foldComplete (stn n : Nat)
  | tsum (h : Head) (ty : Fmt) (t : BitVec 2)
  | trd (h : Head) (ty : Fmt) (fn : BitVec 4) (col : BitVec 5) (t : BitVec 2)
  | aclr (h : Head) (ty : Fmt) (fn : BitVec 4) (rsel : BitVec 3) (row : BitVec 5) (eacc : BitVec 12)
  | aemit (h : Head) (ty : Fmt) (rnd : BitVec 4) (seg clear : Bool) (slot : BitVec 4) (rsel : BitVec 3)
      (row : BitVec 5) (adj : BitVec 8) (ncols : BitVec 6) (kbase : BitVec 16)
  | ownershipService (stn : Nat)
  -- the fabric, launches, counters and queues
  | tokenArrival (n : Nat)
  | damperQuiescence (lid : Nat)
  | hostTailWrite (q : Nat) (tail : BitVec 32)
  | arming (queue : Option Nat) (die : Nat)
  | ageCountExpiry (lid : Nat)
  | loadComplete (lid : Nat)
  | saveComplete (lid : Nat)
  | launchClose (lid : Nat)
  | replicaApply (die : Fin 8)
  | eqEntryAccept (die : Fin 8) (n : Nat)
  | queueFireOnFill (die : Fin 8) (q : Fin 256)
  | queueFireOnAge (die : Fin 8) (q : Fin 256)
  | queueDispatch (die : Fin 8)
  | patternRequestArrival (die : Fin 8)
  | patternCompileComplete (die : Fin 8)
  | copyComplete (n : Nat)
  | dieApplyWrite (die : Fin 8) (n : Nat)
  | memoryAccessComplete (n : Nat)
  | translationWalkComplete (die : Fin 8) (ctx : BitVec 8) (va : Nat)
  | streamWordRead (a : Agent) (s : SReg)
  | barrierComplete (lid : Nat) (set : BarSet)
  | continuationDispatch (n : Nat)
  -- faults and the collier's services
  | faultStopComplete (lid : Nat)
  | fqheadWrite (die : Fin 8) (v : DWord)
  | lctlResume (die : Fin 8) (lid : Nat)
  | lctlResumeSkip (die : Fin 8) (lid : Nat)
  | lctlEnd (die : Fin 8) (lid : Nat)
  | pairsvcReplay (die : Fin 8) (stn : Nat) (t : BitVec 2)
  | pairsvcRetract (die : Fin 8) (stn : Nat) (t : BitVec 2)
  | pairsvcUnbind (die : Fin 8) (stn : Nat) (t : BitVec 2)
  | wdataAccess (die : Fin 8) (value : Option DWord)
  | lcancelWrite (die : Fin 8) (v : DWord)
  | fpctlWrite (a : Agent) (v : DWord)
  | scrub (die : Fin 8)
  -- links, host, peers, management
  | linkRetryThreshold (die : Fin 8) (m : Fin 4)
  | linkDown (l : LinkId)
  | peerFlitReceive (p : Fin 18) (f : Flit)
  -- chapter 13: scalar, control, memory and vector
  | addR (x : Guard) (d a b : GReg)
  | subR (x : Guard) (d a b : GReg)
  | mulR (x : Guard) (d a b : GReg)
  | mulhR (x : Guard) (u : Bool) (d a b : GReg)
  | divR (x : Guard) (u : Bool) (d a b : GReg)
  | remR (x : Guard) (u : Bool) (d a b : GReg)
  | andR (x : Guard) (d a b : GReg)
  | orR (x : Guard) (d a b : GReg)
  | xorR (x : Guard) (d a b : GReg)
  | andnR (x : Guard) (d a b : GReg)
  | shlR (x : Guard) (d a b : GReg)
  | shrR (x : Guard) (d a b : GReg)
  | sraR (x : Guard) (d a b : GReg)
  | minR (x : Guard) (u : Bool) (d a b : GReg)
  | maxR (x : Guard) (u : Bool) (d a b : GReg)
  | sltR (x : Guard) (u : Bool) (d a b : GReg)
  | addI (x : Guard) (d a : GReg) (imm : BitVec 11)
  | subI (x : Guard) (d a : GReg) (imm : BitVec 11)
  | mulI (x : Guard) (d a : GReg) (imm : BitVec 11)
  | mulhI (x : Guard) (d a : GReg) (imm : BitVec 11)
  | divI (x : Guard) (d a : GReg) (imm : BitVec 11)
  | remI (x : Guard) (d a : GReg) (imm : BitVec 11)
  | andI (x : Guard) (d a : GReg) (imm : BitVec 11)
  | orI (x : Guard) (d a : GReg) (imm : BitVec 11)
  | xorI (x : Guard) (d a : GReg) (imm : BitVec 11)
  | andnI (x : Guard) (d a : GReg) (imm : BitVec 11)
  | shlI (x : Guard) (d a : GReg) (imm : BitVec 11)
  | shrI (x : Guard) (d a : GReg) (imm : BitVec 11)
  | sraI (x : Guard) (d a : GReg) (imm : BitVec 11)
  | minI (x : Guard) (d a : GReg) (imm : BitVec 11)
  | maxI (x : Guard) (d a : GReg) (imm : BitVec 11)
  | sltI (x : Guard) (d a : GReg) (imm : BitVec 11)
  | bitc (x : Guard) (fn : BitFn) (d a : GReg)
  | cmpR (x : Guard) (rel : CRel) (pd : PReg) (a b : GReg)
  | cmpI (x : Guard) (rel : CRel) (pd : PReg) (a : GReg) (imm : BitVec 11)
  | plog (x : Guard) (op : PlogOp)
  | limm (imm : BitVec 25) (i : Instr)
  | br (x : Guard) (off : BitVec 21)
  | jmp (x : Guard) (a : GReg)
  | callB (x : Guard) (off : BitVec 21)
  | callR (x : Guard) (d a : GReg)
  | ret (x : Guard) (a : GReg)
  | loopI (x : Guard) (n : Fin 2) (c : GReg) (imm : BitVec 11)
  | loopSet (x : Guard) (n : Fin 2) (c e : GReg)
  | loopWlc (x : Guard) (n : Fin 2) (a : GReg)
  | loopWls (x : Guard) (n : Fin 2) (b : GReg)
  | loopWle (x : Guard) (n : Fin 2) (b : GReg)
  | ld (x : Guard) (v : LdVar) (w : BitVec 2) (acq : Bool) (sc : Scope) (d a : GReg)
  | st (x : Guard) (w : BitVec 2) (rel : Bool) (sc : Scope) (d a : GReg)
  | pfetch (x : Guard) (sc : Scope) (a : GReg)
  | cpyMem (x : Guard) (d a b : GReg)
  | cpyAout (x : Guard) (d a b : GReg)
  | cpyAin (x : Guard) (d a b : GReg)
  | cpyTbl (x : Guard) (d a b : GReg)
  | drainCm (x : Guard)
  | drainTbl (x : Guard)
  | drainAcc (x : Guard)
  | fbopen (x : Guard) (s : SReg) (a b : GReg)
  | fbadv (x : Guard) (fn : FbFn) (d : GReg) (s : SReg)
  | fbend (x : Guard) (pd : PReg) (s : SReg)
  | fbclose (x : Guard) (s : SReg)
  | vld (x : Guard) (acq : Bool) (sc : Scope) (d : VReg) (a : GReg)
  | vst (x : Guard) (rel : Bool) (sc : Scope) (d : VReg) (a : GReg)
  | vgath (x : Guard) (fg : Bool) (d a : VReg) (m : PReg) (g : GReg)
  | vscat (x : Guard) (d a : VReg) (m : PReg) (g : GReg)
  | vadd (x : Guard) (ty : VTy) (sub : BitVec 3) (d a b : VReg) (m : PReg)
  | vsub (x : Guard) (ty : VTy) (sub : BitVec 3) (d a b : VReg) (m : PReg)
  | vmul (x : Guard) (ty : VTy) (sub : BitVec 3) (d a b : VReg) (m : PReg)
  | vfma (x : Guard) (ty : VTy) (sub : BitVec 3) (d a b : VReg) (m : PReg)
  | vmin (x : Guard) (ty : VTy) (sub : BitVec 3) (d a b : VReg) (m : PReg)
  | vmax (x : Guard) (ty : VTy) (sub : BitVec 3) (d a b : VReg) (m : PReg)
  | vlogic (x : Guard) (ty : VTy) (sub : BitVec 3) (d a b : VReg) (m : PReg)
  | vcmp (x : Guard) (ty : VTy) (rel : BitVec 3) (pd : PReg) (a b : VReg) (m : PReg)
  | vsel (x : Guard) (d a b : VReg) (m : PReg)
  | vcmprs (x : Guard) (d a : VReg) (m : PReg) (g : GReg)
  | vbcastG (x : Guard) (d : VReg) (m : PReg) (g : GReg)
  | vbcastLane (x : Guard) (d a : VReg) (m : PReg) (k : Fin 32)
  | vred (x : Guard) (ty : VTy) (sub : BitVec 3) (d a : VReg) (m : PReg)
  | vcvt (x : Guard) (dty sty : VTy) (rnd : BitVec 3) (sat : Bool) (d a : VReg) (m : PReg)
  -- chapter 14: synchronisation, queues, launch and system
  | amo (x : Guard) (fn : BitVec 3) (dw : Bool) (ord : BitVec 2) (sc : Scope) (d a : GReg)
  | famo (x : Guard) (rel : Bool) (sc : Scope) (d a : GReg)
  | acell (x : Guard) (bf clr acq : Bool) (sc : Scope) (d a : GReg)
  | stmc (x : Guard) (w : BitVec 2) (rel : Bool) (sc : Scope) (n : BitVec 2) (d a : GReg)
  | fence (x : Guard) (seqc : Bool) (sc : Scope)
  | xfence (x : Guard) (sc : Scope)
  | bar (x : Guard) (set : BarSet)
  | pcincR (x : Guard) (a b : GReg)
  | pcincI (x : Guard) (a : GReg) (imm : BitVec 11)
  | pcsetR (x : Guard) (a b : GReg)
  | pcsetI (x : Guard) (a : GReg) (imm : BitVec 11)
  | pcwaitR (x : Guard) (a b : GReg)
  | pcwaitI (x : Guard) (a : GReg) (imm : BitVec 11)
  | qpush (x : Guard) (d a b : GReg)
  | qpop (x : Guard) (d a b : GReg)
  | eqcfg (x : Guard) (a b : GReg)
  | eqpush (x : Guard) (a b : GReg)
  | eqpop (x : Guard) (d a b : GReg)
  | fread (x : Guard) (d a b : GReg)
  | fwrite (x : Guard) (a b : GReg)
  | lpatch (x : Guard) (a b : GReg) (u : BitVec 5)
  | larm (x : Guard) (a : GReg)
  | shapeRequest (x : Guard) (d a b : GReg)
  | shapeQuery (x : Guard) (d a b : GReg)
  | gcfg (x : Guard) (a : GReg)
  | tinjR (x : Guard) (run : Bool) (ty : BitVec 4) (t a b : GReg)
  | tinjV (x : Guard) (ty : BitVec 4) (desc : Fin 16) (a : VReg) (t : Fin 16) (m : PReg)
  | trcvTake (x : Guard) (d t : GReg)
  | trcvPeek (x : Guard) (d t : GReg)
  | trcvV (x : Guard) (d : VReg) (t : Fin 16) (b : Fin 16) (h : GReg)
  | rngR (x : Guard) (fn : RngFn) (d a b : GReg)
  | rngV (x : Guard) (fn : RngFn) (d : VReg) (k dr : Fin 16) (m : PReg)
  | sclone (x : Guard) (a b : GReg)
  | trap (x : Guard) (imm : BitVec 11)
  | rte (x : Guard)
  | csrr (x : Guard) (d a : GReg) (imm : BitVec 11)
  | csrw (x : Guard) (d a : GReg) (imm : BitVec 11)
  | yield (x : Guard)
  | wfe (x : Guard) (d a b : GReg)
  | tlbiPage (x : Guard) (a b : GReg)
  | tlbiCtx (x : Guard) (b : GReg)
  | tlbiAll (x : Guard)
  | freeze (x : Guard)
  | lnkctlStatus (x : Guard) (d a b : GReg)
  | lnkctlPause (x : Guard) (d a b : GReg)
  | lnkctlResume (x : Guard) (d a b : GReg)
  | lnkctlRemap (x : Guard) (d a b : GReg)
  | lnkctlRetrain (x : Guard) (d a b : GReg)
  | lnkctlClear (x : Guard) (d a b : GReg)
  | halt (x : Guard)
  | amoCas (x : Guard) (dw : Bool) (ord : BitVec 2) (sc : Scope) (d a b : GReg)
  | illegalEncoding (w0 w1 : Word)
  | receiveQueueArrival (n : Nat)
  | flitRetry (die : Fin 8) (m : Fin 4) (lane : Fin 64)
  | linkTrainingComplete (die : Fin 8) (m : Fin 4)
  -- operations whose input, if any, waits in the state (spec file 95)
  | schedulerSelect
  | counterWriteAtIod
  | fencingComplete
  | movingComplete
  | drainingComplete
  | evictTimeout
  | evictAbort
  | unlatch
  | freezeMessage
  | pldmMonitoring
  | moduleReset
  | governorCheck
  | evictRequest
  | scanReadOut
  | pldmFirmwareUpdate
  | spdmMessage
  | cxlMemRequest
  | hostBar0Write
  | configRegistration
  | homeControllerAccess
  deriving DecidableEq, Repr

end Sys2Proof
end

