-- ==== Sys2Proof/Machine/Formats.lean ====
section
/-! DEFINITION. Number formats, their decodes and the one rounding function of chapter 03 (R58 to R85). -/

namespace Sys2Proof.Machine

/-! ## Flags: NX [4], UF [3], OF [2], DZ [1], NV [0], the order of R292 and of FPCTL [20:16] -/

/-- Sticky floating-point flags (R71, Table 03-7). -/
abbrev Flags := BitVec 5

/-- Invalid. -/
def fNV : Flags := 1
/-- Division by zero. -/
def fDZ : Flags := 2
/-- Overflow. -/
def fOF : Flags := 4
/-- Underflow. -/
def fUF : Flags := 8
/-- Inexact. -/
def fNX : Flags := 16

/-- f when b, else none. -/
def flagIf (b : Bool) (f : Flags) : Flags := if b then f else 0

/-! ## Exact magnitudes -/

/-- A real given exactly or just above a dyadic: its magnitude is mag * 2^exp when sticky is false and lies strictly
between mag * 2^exp and (mag + 1) * 2^exp when it is true. Zero keeps the sign of the format's zero. -/
structure Exact where
  neg : Bool
  mag : Nat
  exp : Int
  sticky : Bool := false
  deriving DecidableEq, Repr

/-- Zero of either sign. -/
def Exact.isZero (x : Exact) : Bool := x.mag == 0 && !x.sticky

/-- An integer times 2^e. -/
def Exact.ofInt (n : Int) (e : Int := 0) : Exact := ⟨decide (n < 0), n.natAbs, e, false⟩

/-- The same real times 2^k. -/
def Exact.scale (x : Exact) (k : Int) : Exact := { x with exp := x.exp + k }

/-- The signed integer m of two dyadics brought to one exponent. -/
def Exact.at (x : Exact) (e : Int) : Int :=
  let m : Int := x.mag * 2 ^ (x.exp - e).toNat
  if x.neg then -m else m

/-- The lower exponent of two dyadics. -/
def minExp (x y : Exact) : Int := if x.exp ≤ y.exp then x.exp else y.exp

/-- x + y of exact dyadics; the sign of a zero result is set by the caller (R260). -/
def Exact.add (x y : Exact) : Exact :=
  let e := minExp x y
  Exact.ofInt (x.at e + y.at e) e

/-- x * y of exact dyadics; a zero product has the xor of the signs (R260). -/
def Exact.mul (x y : Exact) : Exact := ⟨x.neg != y.neg, x.mag * y.mag, x.exp + y.exp, false⟩

/-- x < y in the real order, of exact dyadics. -/
def Exact.lt (x y : Exact) : Bool :=
  let e := minExp x y
  decide (x.at e < y.at e)

/-- x = y as reals, of exact dyadics (so -0 equals +0). -/
def Exact.eq (x y : Exact) : Bool :=
  let e := minExp x y
  decide (x.at e = y.at e)

/-- floor(log2 |x|) of a nonzero x: its leading bit's place. -/
def Exact.log2 (x : Exact) : Int := (Nat.log2 x.mag : Int) + x.exp

/-! ## Rounding (R69, R73) -/

/-- A rounding mode with, for SR, its 16-bit random value (R69, R76). -/
inductive Rm where
  | rne | rtz | rup | rdn
  | sr (z : Nat)
  deriving DecidableEq, Repr

/-- |x| rounded to a multiple of 2^ge in the mode, as a count of those multiples, and whether it differs from x.
rne, sign(x) * g * floor(abs(x)/g), ceil, floor and sr of R10 and R73, on the magnitude. -/
def roundMag (x : Exact) (ge : Int) (rm : Rm) : Nat × Bool :=
  if ge ≤ x.exp then (x.mag * 2 ^ (x.exp - ge).toNat, x.sticky)
  else
    let sh := (ge - x.exp).toNat
    let q := x.mag / 2 ^ sh
    let r := x.mag % 2 ^ sh
    let inexact := r != 0 || x.sticky
    let up := match rm with
      | .rne => decide (2 * r > 2 ^ sh) || (2 * r == 2 ^ sh && (x.sticky || q % 2 == 1))
      | .rtz => false
      | .rup => inexact && !x.neg
      | .rdn => inexact && x.neg
      | .sr z => decide (r * 2 ^ 16 / 2 ^ sh + z ≥ 2 ^ 16)
    (if up then q + 1 else q, inexact)

/-- The integer nearest to x in the mode (g = 1, R75), and whether it differs from x. -/
def roundInt (x : Exact) (rm : Rm) : Int × Bool :=
  let (q, ix) := roundMag x 0 rm
  (if x.neg then -(q : Int) else q, ix)

/-- The rounding formats of Table 03-8. -/
inductive FF where
  | fp32 | bf16 | e4m3 | e5m2 | e2m1
  deriving DecidableEq, Repr

/-- Precision P of Table 03-8. -/
def FF.P : FF → Nat
  | .fp32 => 24 | .bf16 => 8 | .e4m3 => 4 | .e5m2 => 3 | .e2m1 => 2

/-- Emin of Table 03-8. -/
def FF.Emin : FF → Int
  | .fp32 => -126 | .bf16 => -126 | .e4m3 => -6 | .e5m2 => -14 | .e2m1 => 0

/-- Emax of Table 03-8. -/
def FF.Emax : FF → Int
  | .fp32 => 127 | .bf16 => 127 | .e4m3 => 8 | .e5m2 => 16 | .e2m1 => 2

/-- Total width of a code. -/
def FF.width : FF → Nat
  | .fp32 => 32 | .bf16 => 16 | .e4m3 => 8 | .e5m2 => 8 | .e2m1 => 4

/-- FP32 and BF16 have infinities and signed zeros (R68); the others have neither (R63, R66). -/
def FF.ieee : FF → Bool
  | .fp32 => true | .bf16 => true | _ => false

/-- Bit of the sign. -/
def FF.signBit (f : FF) : Nat := 2 ^ (f.width - 1)

/-- Code of the largest finite magnitude (R63, R66, R68). -/
def FF.largest : FF → Nat
  | .fp32 => 0x7F7FFFFF | .bf16 => 0x7F7F | .e4m3 => 0x7F | .e5m2 => 0x7F | .e2m1 => 7

/-- Code of +infinity in FP32 and BF16 (R68). -/
def FF.infCode : FF → Nat
  | .fp32 => 0x7F800000 | .bf16 => 0x7F80 | f => f.largest

/-- The canonical NaN (R68); E2M1 has none and converts it to 0 (R74). -/
def FF.nanCode : FF → Nat
  | .fp32 => 0x7FC00000 | .bf16 => 0x7FC0 | .e4m3 => 0x80 | .e5m2 => 0x80 | .e2m1 => 0

/-- A code with its sign. -/
def FF.signed (f : FF) (neg : Bool) (c : Nat) : Nat := if neg then f.signBit + c else c

/-- Zero of f with a sign: +0 in the eight-bit formats and E2M1 (R73). -/
def FF.zero (f : FF) (neg : Bool) : Nat := if f.ieee then f.signed neg 0 else 0

/-- The overflow result of Table 03-9 (R74). -/
def FF.overflow (f : FF) (neg : Bool) (rm : Rm) : Nat :=
  if f.ieee then
    match rm with
    | .rne | .sr _ => f.signed neg f.infCode
    | .rtz => f.signed neg f.largest
    | .rup => if neg then f.signed true f.largest else f.infCode
    | .rdn => if neg then f.signed true f.infCode else f.largest
  else f.signed neg f.largest

/-- round_fmt of R73: the code and the flags it sets. fzo is the FZO bit of the format's class (R70). -/
def roundFmt (x : Exact) (f : FF) (rm : Rm) (fzo : Bool) : Nat × Flags :=
  if x.isZero then (f.zero x.neg, 0)
  else
    let tiny := decide (x.mag = 0 ∨ x.log2 < f.Emin)
    if fzo && tiny then (f.zero x.neg, fUF ||| fNX)
    else
      let E : Int := if tiny then f.Emin else x.log2
      let ge : Int := E - f.P + 1
      let (q, ix) := roundMag x ge rm
      let fl := flagIf ix fNX ||| flagIf (ix && tiny) fUF
      if decide (q ≥ 2 ^ (f.Emax + 1 - ge).toNat) then
        (f.overflow x.neg rm, fl ||| fOF ||| fNX)
      else if q = 0 then (f.zero x.neg, fl)
      else (f.signed x.neg ((E - f.Emin).toNat * 2 ^ (f.P - 1) + q), fl)

/-! ## Decoding (R61 to R68) -/

/-- A decoded value. -/
inductive FVal where
  | nan
  | inf (neg : Bool)
  | num (x : Exact)
  deriving DecidableEq, Repr

/-- The value of a code of f; fzi is the FZI bit of its class: a subnormal then reads as zero (R72). -/
def decodeF (f : FF) (code : Nat) (fzi : Bool) : FVal :=
  let c := code % 2 ^ f.width
  let neg := decide (f.signBit ≤ c)
  let m := c % f.signBit
  let e := m / 2 ^ (f.P - 1)
  let frac := m % 2 ^ (f.P - 1)
  if f.ieee && decide (f.infCode < m) then .nan
  else if f.ieee && m == f.infCode then .inf neg
  else if !f.ieee && f != .e2m1 && c == 0x80 then .nan
  else if m == 0 then .num ⟨neg && f.ieee, 0, 0, false⟩
  else if e == 0 then
    if fzi then .num ⟨neg && f.ieee, 0, 0, false⟩
    else .num ⟨neg, frac, f.Emin - (f.P - 1), false⟩
  else .num ⟨neg, 2 ^ (f.P - 1) + frac, (e : Int) - 1 + f.Emin - (f.P - 1), false⟩

/-- An infinite or NaN input converted to f (R74), or a real rounded (R73). -/
def convertF (v : FVal) (f : FF) (rm : Rm) (fzo : Bool) : Nat × Flags :=
  match v with
  | .nan => (f.nanCode, flagIf (f == .e2m1) fNV)
  | .inf neg => if f.ieee then (f.signed neg f.infCode, 0) else (f.signed neg f.largest, fOF)
  | .num x => roundFmt x f rm fzo

/-- R75: a float or BSI value to an integer of w bits: round with g = 1, clamp; NX when the rounded value differs,
NV when clamped or NaN. An infinity clamps to the end of its sign. -/
def toIntClamp (v : FVal) (lo hi : Int) (rm : Rm) : Int × Flags :=
  match v with
  | .nan => (0, fNV)
  | .inf neg => (if neg then lo else hi, fNV)
  | .num x =>
    let (y, ix) := roundInt x rm
    let fx := flagIf ix fNX
    if y < lo then (lo, fx ||| fNV) else if hi < y then (hi, fx ||| fNV) else (y, fx)

/-! ## Formats by code -/

/-- The float format of a code, with the flush class (0: FP32, 1: BF16, 2: eight-bit and E2M1). -/
def fmtFF : Fmt → Option FF
  | .fp32 => some .fp32
  | .bf16 => some .bf16
  | .e4m3 => some .e4m3
  | .e5m2 => some .e5m2
  | _ => none

/-- Width in bits of an integer format, and whether it is signed (R61). -/
def fmtInt : Fmt → Option (Nat × Bool)
  | .int4 => some (4, true)
  | .int8 => some (8, true)
  | .int16 => some (16, true)
  | .int32 => some (32, true)
  | .int64 => some (64, true)
  | .uint8 => some (8, false)
  | .uint16 => some (16, false)
  | .uint32 => some (32, false)
  | _ => none

/-- Mantissa width of a BSI format (R62). -/
def fmtBsi : Fmt → Option Nat
  | .bsi2 => some 2
  | .bsi3 => some 3
  | .bsi4 => some 4
  | .bsi6 => some 6
  | .bsi8 => some 8
  | .bsi12 => some 12
  | .bsi16 => some 16
  | _ => none

/-- A format this part has no hardware for (R58). -/
def fmtEmulated : Fmt → Bool
  | .fp16 => true
  | .fp64 => true
  | _ => false

/-- Lowest value of an integer format. -/
def intLo (w : Nat) (signed : Bool) : Int := if signed then -(2 ^ (w - 1) : Int) else 0
/-- Highest value of an integer format. -/
def intHi (w : Nat) (signed : Bool) : Int := if signed then 2 ^ (w - 1) - 1 else 2 ^ w - 1

/-- The value of w bits, signed or unsigned (R61). -/
def readInt (w : Nat) (signed : Bool) (bits : Nat) : Int :=
  if signed then sext bits w else (bits % 2 ^ w : Nat)

/-- x cut to w bits: wrap for signed, trunc for unsigned (R256). -/
def cutInt (w : Nat) (signed : Bool) (x : Int) : Int :=
  if signed then wrap x w else trunc x w

/-! ## FPCTL (R70, R71) -/

/-- The flush bits and rounding mode of an FPCTL (Table 03-7). -/
structure FpMode where
  rm : Nat
  fzi32 : Bool
  fzo32 : Bool
  fzi16 : Bool
  fzo16 : Bool
  fzi8 : Bool
  fzo8 : Bool
  deriving DecidableEq, Repr

/-- The fields of an FPCTL value. -/
def fpMode (c : DWord) : FpMode :=
  let n := c.toNat
  ⟨fld n 2 0, bitOf n 3, bitOf n 4, bitOf n 5, bitOf n 6, bitOf n 7, bitOf n 8⟩

/-- FZI of a format's class. -/
def FpMode.fzi (m : FpMode) : FF → Bool
  | .fp32 => m.fzi32
  | .bf16 => m.fzi16
  | _ => m.fzi8

/-- FZO of a format's class. -/
def FpMode.fzo (m : FpMode) : FF → Bool
  | .fp32 => m.fzo32
  | .bf16 => m.fzo16
  | _ => m.fzo8

/-- RM as a mode: SR rounds by RNE (R70, R71). -/
def FpMode.dyn (m : FpMode) : Rm :=
  match m.rm with
  | 1 => .rtz
  | 2 => .rup
  | 3 => .rdn
  | _ => .rne

/-! ## Arithmetic of R260, R261 -/

/-- Zero of a sum: the common sign of two zeros of one sign, else -0 under RDN and +0 otherwise (R260). -/
def zeroSumNeg (x y : Exact) (rm : Rm) : Bool :=
  if x.isZero && y.isZero && x.neg == y.neg then x.neg else decide (rm = .rdn)

/-- x + y of decoded values, rounded once (R260). -/
def addF (f : FF) (rm : Rm) (fzo : Bool) (x y : FVal) : Nat × Flags :=
  match x, y with
  | .nan, _ => (f.nanCode, 0)
  | _, .nan => (f.nanCode, 0)
  | .inf a, .inf b => if a = b then (f.signed a f.infCode, 0) else (f.nanCode, fNV)
  | .inf a, _ => (f.signed a f.infCode, 0)
  | _, .inf b => (f.signed b f.infCode, 0)
  | .num a, .num b =>
    let t := a.add b
    if t.isZero then (f.zero (zeroSumNeg a b rm), 0) else roundFmt t f rm fzo

/-- The negated value. -/
def negF : FVal → FVal
  | .nan => .nan
  | .inf a => .inf (!a)
  | .num x => .num { x with neg := !x.neg }

/-- x * y before rounding; none stands for the invalid 0 * infinity (R260). -/
def mulExact (x y : FVal) : Option FVal :=
  match x, y with
  | .nan, _ => some .nan
  | _, .nan => some .nan
  | .inf a, .inf b => some (.inf (a != b))
  | .inf a, .num y => if y.isZero then none else some (.inf (a != y.neg))
  | .num x, .inf b => if x.isZero then none else some (.inf (x.neg != b))
  | .num x, .num y => some (.num (x.mul y))

/-- x * y rounded once (R260). -/
def mulF (f : FF) (rm : Rm) (fzo : Bool) (x y : FVal) : Nat × Flags :=
  match mulExact x y with
  | none => (f.nanCode, fNV)
  | some v => convertF v f rm fzo

/-- (x * y, negated when neg) + z, fused (R260). A NaN among the operands comes first and sets no flag. -/
def fmaF (f : FF) (rm : Rm) (fzo : Bool) (neg : Bool) (x y z : FVal) : Nat × Flags :=
  if x = .nan ∨ y = .nan ∨ z = .nan then (f.nanCode, 0)
  else match mulExact x y with
    | none => (f.nanCode, fNV)
    | some p => addF f rm fzo (if neg then negF p else p) z

/-- The order of FMIN and FMAX: the real order with -0 below +0, infinities at the ends (R261). -/
def fLess (x y : FVal) : Bool :=
  match x, y with
  | .nan, _ => false
  | _, .nan => false
  | .inf a, .inf b => a && !b
  | .inf a, .num _ => a
  | .num _, .inf b => !b
  | .num x, .num y => if x.isZero && y.isZero then x.neg && !y.neg else x.lt y

/-- The code of a decoded value that is one of f's own (no rounding is needed). -/
def encodeF (f : FF) (v : FVal) : Nat := (convertF v f .rne false).1

/-- FMIN (mx false) or FMAX (mx true); nanForm selects the nan form (R261). -/
def minMaxF (mx nanForm : Bool) (x y : FVal) : FVal :=
  match x, y with
  | .nan, y => if nanForm then .nan else y
  | x, .nan => if nanForm then .nan else x
  | x, y => if mx then (if fLess x y then y else x) else (if fLess y x then y else x)

/-- A compare relation (Table 11-4). -/
inductive Rel where
  | eq | ne | lt | le | gt | ge | un
  deriving DecidableEq, Repr

/-- A float compare and its flags: -0 equals +0; an ordered compare of a NaN sets NV (Table 11-4). -/
def cmpF (r : Rel) (x y : FVal) : Bool × Flags :=
  if x = .nan ∨ y = .nan then
    match r with
    | .eq => (false, 0)
    | .ne => (true, 0)
    | .un => (true, 0)
    | _ => (false, fNV)
  else
    let lt : Bool := match x, y with
      | .inf a, .inf b => a && !b
      | .inf a, _ => a
      | _, .inf b => !b
      | .num x, .num y => x.lt y
      | _, _ => false
    let eq : Bool := match x, y with
      | .inf a, .inf b => a == b
      | .num x, .num y => x.eq y
      | _, _ => false
    (match r with
      | .eq => eq
      | .ne => !eq
      | .lt => lt
      | .le => lt || eq
      | .gt => !(lt || eq)
      | .ge => !lt
      | .un => false, 0)

/-- An integer compare (Table 11-4; un is no relation of ICMP). -/
def cmpI (r : Rel) (x y : Int) : Bool :=
  match r with
  | .eq => decide (x = y)
  | .ne => decide (x ≠ y)
  | .lt => decide (x < y)
  | .le => decide (x ≤ y)
  | .gt => decide (y < x)
  | .ge => decide (y ≤ x)
  | .un => false

/-! ## Random values (R78 to R81) -/

/-- One round of ember (R78): K and M of Table 03-11. -/
def emberRound (ctr : Nat) (x k m : Nat) : Nat :=
  let a := (x + ctr + k) % 2 ^ 64
  let b := a ^^^ (a / 2 ^ 29)
  b * m % 2 ^ 64

/-- ember(key, ctr) of R78. -/
def ember (key ctr : Nat) : Nat :=
  let x := key % 2 ^ 64
  let x := emberRound ctr x 0x9E3779B97F4A7C15 0xA5B3000000000001
  let x := emberRound ctr x 0x3C6EF372FE94F82A 0x6C8F000000000001
  let x := emberRound ctr x 0xDAA66D2C7DDF743F 0xD2E1000000000001
  x ^^^ (x / 2 ^ 32)

/-- The key of R80. -/
def emberKey (seed seq pos : Nat) : Nat := (seed ^^^ (seq * 2 ^ 40) ^^^ pos) % 2 ^ 64

/-- The 16 bits of draw d (R269, R81). -/
def emberSr16 (key d : Nat) : Nat := ember key (d / 4) / 2 ^ (16 * (d % 4)) % 2 ^ 16

/-- The FP32 code of the uniform value floor(z / 2^40) * 2^-24 (R81); it is exact. -/
def emberUnif (key d : Nat) : Nat :=
  (roundFmt ⟨false, ember key d / 2 ^ 40, -24, false⟩ .fp32 .rne false).1

/-! ## Wide cells (R82 to R84) -/

/-- FAMO's conversion of an addend into a cell X and its status (R83). -/
def wideAdd (x status : Nat) (f : Nat) : Nat × Nat :=
  match decodeF .fp32 f false with
  | .nan => (x, status ||| 2)
  | .inf _ => (x, status ||| 1)
  | .num v =>
    if decide (v.mag ≠ 0 ∧ v.log2 ≥ 63) then (x, status ||| 1)
    else
      let (q, _) := roundMag v (-64) .rne
      (trunc ((x : Int) + (if v.neg then -(q : Int) else q)) 128, status)

/-- ACELL's conversion (R84). -/
def wideRead (x status : Nat) (f : FF) (fzo : Bool) : Nat × Flags :=
  if bitOf status 1 then (f.nanCode, fNV)
  else if bitOf status 0 then (f.nanCode, fOF)
  else if fld x 127 119 ≠ 0 ∧ fld x 127 119 ≠ 511 then (f.signed (bitOf x 127) f.infCode, fOF ||| fNX)
  else roundFmt (Exact.ofInt (sext x 128) (-64)) f .rne fzo

end Sys2Proof.Machine
end

