-- ==== Sys2Proof/Machine/State.lean ====
section
/-! DEFINITION. The machine's state as plain data: everything the spec gives the KX-4, and the few fields that are
the model's own (the agenda, the clock, counters for free values). Faults, refusals and the state after reset. -/

namespace Sys2Proof.Machine

/-- A map from naturals with strictly rising keys; see Bits. -/
abbrev Sparse (α : Type) := List (Nat × α)

/-- Memory: (address, byte) pairs in canonical form. An unlisted address reads as 0 (log entry 6). The key spaces of the
separate memories are given in Machine/Mem.lean. -/
abbrev Memory := List Host.Cell

/-- What an unlisted address reads as (R155, R217; log entry 6). -/
def Memory.unlisted : Byte := 0

/-- The canonical form: addresses strictly rising, no entry equal to what an unlisted address reads as. -/
def Memory.wf (m : Memory) : Bool := spWf Memory.unlisted m

/-! ## Tokens (R90 to R95) -/

/-- Shape of a token (Table 04-3). -/
inductive Shape where
  | scalar | dense | run
  deriving DecidableEq, Repr

/-- A token: header of Table 04-3 and its payload lanes. stn is physical after load. The pair of type and fcode is
the format that R59 and R95 make it name. -/
structure Token where
  stn : BitVec 16
  slot : BitVec 4
  port : BitVec 2
  act : BitVec 2
  shape : Shape
  ty : Fmt
  level : BitVec 2
  n : Nat
  exp : Byte
  tag : DWord
  lanes : List Word
  deriving DecidableEq, Repr

/-- What an entry of the matching store is (R97, R100, R232, R264, R268): a waiting token or piece, a sticky token,
an interval held by JOIN, elements of an incomplete block, or SCAN's carry with the next block. -/
inductive EntryKind where
  | normal | sticky | interval | block
  | carry (next : Nat)
  deriving DecidableEq, Repr

/-- One of the 64 entries of the matching store (R103): context index, what it is, its token and the arrival order it
keeps (R97). -/
structure Entry where
  cx : Fin 4
  kind : EntryKind
  tok : Token
  ord : Nat
  deriving DecidableEq, Repr

/-- A pair in the issue queue (R97, R104): its operands at L, R and P restricted to the overlap, each with its
arrival order and whether it stands for a sticky token, and the FPCTL of its core's access core when it fired (R71, R270; log entry
65). A block (R264) has several operands at L and, under SR, at its random port. A remainder of a multi-token firing is a pair on
the rest of the interval. -/
structure Pair where
  cx : Fin 4
  slot : BitVec 4
  tag : DWord
  base : Nat
  n : Nat
  l : List Entry
  r : List Entry
  p : List Entry
  fp : DWord := 0
  deriving DecidableEq, Repr

/-! ## Stations (R17) -/

/-- A configuration context of a station (R86, R87): tag, configuration, launch, words with physical destinations,
sticky flags (R71), SINK counts (R234) and the load stamp that orders replacement. -/
structure Ctx where
  tag : Option Byte := none
  cfgid : Word := 0
  lid : Option Nat := none
  words : Sparse SWord := []
  flags : Flags := 0
  sinks : Sparse DWord := []
  stamp : Nat := 0
  deriving DecidableEq, Repr

/-- An accumulator row (R17, R141): owner context tag, E_acc and the 32 cells. -/
structure Row where
  owner : Option Byte := none
  eacc : Int := 0
  cells : Vector DWord 32 := Vector.replicate 32 0
  deriving DecidableEq, Repr

/-- A zero flag (R49). -/
inductive ZFlag where
  | set | clear | invalid
  deriving DecidableEq, Repr

/-- A journal entry of a bound table (R429): gen after applying, position word and delta. -/
structure JEntry where
  gen : BitVec 16
  pos : Word
  delta : Int
  deriving DecidableEq, Repr

/-- The binding of a paired table (R45, R288): the partner station and its table, and whether this table is the
transposed one. -/
structure Binding where
  stn : Nat
  t : BitVec 2
  tr : Bool
  deriving DecidableEq, Repr

/-- A sum table beside the store (R27, R429): owner context, number, header, descriptor, write generation and pair
state. -/
structure Table where
  ctx : Byte
  t : BitVec 2
  lgC : Nat
  ks : Nat
  wide : Bool
  k0 : Nat
  n0 : Nat
  ebase : Nat
  et : Int
  wmax : Nat
  lsafe : Nat
  zflags : List ZFlag
  bitmaps : List Nat
  wgen : Nat
  bind : Option Binding
  gen : BitVec 16
  pgen : BitVec 16
  journal : List JEntry
  msgs : Nat
  deriving DecidableEq, Repr

/-- A kindling entry (R42, R286): the table's context and number, column, local index and delta. -/
structure Kind where
  ctx : Byte
  t : BitVec 2
  col : Nat
  k : Nat
  delta : Int
  deriving DecidableEq, Repr

/-- A fault record (R421). -/
structure FRec where
  tag : DWord := 0
  addr : BitVec 56 := 0
  slot : BitVec 4 := 0
  level : BitVec 2 := 0
  pc : BitVec 16 := 0
  detail : BitVec 16 := 0
  nidx : BitVec 16 := 1
  lid : BitVec 16 := 0xFFFF
  src : BitVec 16 := 0
  kind : BitVec 2 := 0
  cls : Byte := 0
  ctx : Byte := 0
  code : BitVec 10 := 0
  word : SWord := 0
  deriving DecidableEq, Repr

/-- A background operation of a station: a TBLD pair and the index it builds next (R284), a TFOLD (R287), or a PUPD
whose index at next waits for the partner's acknowledgement (R289). -/
inductive BgKind where
  | build | fold | pupd
  deriving DecidableEq, Repr

/-- A background operation: kind, table, pair and the place in the pair's interval. -/
structure Bg where
  kind : BgKind
  t : BitVec 2
  ctx : Byte
  pair : Pair
  next : Nat
  deriving DecidableEq, Repr

/-- A memory node's pair in progress (R246, R110): the offsets no arc held at issue, whose results leave together; the
offsets still to be performed; what has been performed and not yet sent, by offset, with the result and the write
it made; the faults met so far, as offset, class, address and detail, and the one record raised for them (R420). -/
structure NodeOp where
  pair : Pair
  main : List Nat
  todo : List Nat
  vals : List (Nat × Nat × Option Nat)
  faults : List (Nat × Nat × Nat × Nat) := []
  raised : Option FRec := none
  deriving DecidableEq, Repr

/-- A token held at a station's input by a fault at arrival (R445). -/
structure Held where
  tok : Token
  lid : Nat
  deriving DecidableEq, Repr

/-- What an ownership event asks of the collier (R141, R142) beside what the pair at the head needs: a row for a context, a table of the
context that was spilled, or room for a table t of the context on an extent of the table store; for a launch. -/
inductive Want where
  | row (ctx : Byte) (lid : Option Nat) (r : Nat)
  | table (ctx : Byte) (lid : Option Nat) (t : BitVec 2)
  | room (ctx : Byte) (lid : Option Nat) (t : BitVec 2) (lo hi : Nat)
  deriving DecidableEq, Repr

/-- A station (R17). own says that an ownership event waits at the collier (R141), want what else it asks for, faulted holds the operand entries that
a fault returned (R419, R420) until the collier acts. The result buffer is the one WSEL reaches (R435): dest, header halves and lanes.
arrAt, arrKey and arrN tell the cycle of the last arrival, its place in the order of one cycle, and how many tokens that cycle has taken
(R102). -/
structure Station where
  ctxs : Vector Ctx 4 := Vector.replicate 4 {}
  store : List Entry := []
  issueq : List Pair := []
  tstore : Sparse Word := []
  rows : Sparse Row := []
  tables : List Table := []
  kindling : List Kind := []
  bg : List Bg := []
  nodeOps : List NodeOp := []
  held : List Held := []
  own : Bool := false
  want : List Want := []
  faulted : List Pair := []
  resbuf : Sparse Word := []
  reshdr : Sparse DWord := []
  arrAt : Nat := 0
  arrKey : Nat := 0
  arrN : Nat := 0
  deriving DecidableEq, Repr

/-! ## Cores (R218, R315, R220) -/

/-- A stream register (Table 13-5), with the bitmap words read so far and not yet passed (R317): word j of the table
is the one listed under j. -/
structure Stream where
  base : BitVec 56 := 0
  isOpen : Bool := false
  n : Word := 0
  j : Word := 0
  off : Word := 0
  words : Sparse Word := []
  deriving DecidableEq, Repr

/-- What a helper core or collier is doing. stopped is the precise point of R422 or of a pre-emption (R137). -/
inductive Run where
  | idle | running | halted | stopped
  deriving DecidableEq, Repr

/-- An instruction that waits at issue (R329), with what the unit it waits for has answered. -/
inductive Wait where
  | none
  | counter (k : Nat) (h : DWord) (sat : Bool)
  | event (k : Nat) (seen : Bool)
  | bar (set : BarSet) (ok : Bool)
  | engine (id : Nat) (answer : Option DWord)
  | arm (answer : Option (Option FRec))
  | gcfg (answer : Option (Option FRec))
  deriving DecidableEq, Repr

/-- A helper core or collier (Table 09-9, Table 14-7). escalated tells that its own fault stopped it (R418, R423); fed lists the
stations that its copies into table stores went to since its last DRAIN of them (R153). A receive queue belongs to helper cores (R113); the CSRs from
fqbase on belong to colliers (R423, R432, R435, R436, R448). -/
structure Core where
  run : Run := .idle
  lid : Option Nat := none
  g : Vector DWord 32 := Vector.replicate 32 0
  p : Vector Word 8 := Vector.replicate 8 0
  v : Vector (Vector Word 32) 16 := Vector.replicate 16 (Vector.replicate 32 0)
  st : Vector Stream 8 := Vector.replicate 8 {}
  lc : Vector DWord 2 := Vector.replicate 2 0
  ls : Vector DWord 2 := Vector.replicate 2 0
  le : Vector DWord 2 := Vector.replicate 2 0
  pc : BitVec 16 := 0
  fpctl : DWord := 0
  ctxid : DWord := 0
  trapbase : DWord := 0
  faultrec : DWord := 0
  epc : DWord := 0
  faddr : DWord := 0
  fqbase : DWord := 0x3F000
  fqhead : DWord := 0
  fqtail : DWord := 0
  pairsvc : DWord := 0
  wsel : DWord := 0
  ecccnt : DWord := 0
  lcancel : DWord := 0
  wait : Wait := .none
  bars : Vector Nat 3 := Vector.replicate 3 0
  shapes : Sparse (Nat × Nat) := []
  fed : List Nat := []
  rq : List Token := []
  escalated : Bool := false
  deriving DecidableEq, Repr

/-! ## Memory traffic (R171, R179 to R182) -/

/-- A write that some die has not yet applied, or that others still wait behind (R179, R180): its name, its place in the
coherence order, its bytes, the writes ordered before it with the scope of that order (counted from its agent, R170), the agent, the
scope of its release if it is one, what a chain of atomics hands on to an acquire that reads it (R177: writes, with the
releasing agent and its scope), the dies still to apply it, and the tag of its line and the key after it. -/
structure PendW where
  id : Nat
  co : Nat
  cells : List Host.Cell
  deps : List (Nat × Scope)
  agent : Nat
  rel : Option Scope := none
  chain : List (Nat × Nat × Scope) := []
  todo : BitVec 8
  tag : BitVec 4 := 0
  key : BitVec 512 := 0
  deriving DecidableEq, Repr

/-- What an agent has seen (R177): obs, the writes it made or read; ord, the writes ordered before its every later
access, each with the scope of that order (R170, R175). -/
structure Know where
  obs : List Nat := []
  ord : List (Nat × Scope) := []
  deriving DecidableEq, Repr

/-- A byte that a die still sees, though its home holds a newer one: the byte, the place in the coherence order that the view has
reached, and the key it was encrypted under. -/
structure Stale where
  byte : Byte
  co : Nat
  key : BitVec 512
  deriving DecidableEq, Repr

/-- What an access does when it is performed: a load into a general register (sign-extended or not), a vector load, one lane of
a gather, a store, an atomic with its function (8 for compare and swap) and operands, a FAMO. -/
inductive FlyKind where
  | load (d : GReg) (sx : Bool)
  | vload (d : VReg)
  | lane (d : VReg) (j : Nat)
  | store (bs : List Byte)
  | amo (d : GReg) (fn : Nat) (arg cmp : Nat)
  | famo (x : Nat)
  deriving DecidableEq, Repr

/-- Which memory a resolved address lies in. -/
inductive Space where
  | local_ | dev | host
  deriving DecidableEq, Repr

/-- A resolved address: its memory, its key in the memory list, the key slot's contents for device memory, and the places of the
table entries that a walker read for it. -/
structure Loc where
  space : Space
  at_ : Nat
  key : BitVec 512 := 0
  via : List Nat := []
  deriving DecidableEq, Repr

/-- An access of a core that has issued and not yet been performed (R175): its name, its agent, its place and width, what it does,
the writes ordered before it, the scope of its release if it is one, and whether a later fence or release waits for it. -/
structure Fly where
  id : Nat
  agent : Agent
  lid : Option Nat
  loc : Loc
  n : Nat
  kind : FlyKind
  deps : List (Nat × Scope)
  rel : Option Scope
  ordered : Bool := false
  deriving DecidableEq, Repr

/-- A leaf in a die's translation cache (R152). -/
structure Leaf where
  die : Fin 8
  ctx : Byte
  va : Nat
  size : Nat
  pa : Nat
  key : Nat
  wr : Bool
  deriving DecidableEq, Repr

/-- The engine operations of R171 and the unit transfers of chapter 14. A QPUSH knows its slot's address, the index it took
and whether the entry has been copied there; an SCLONE the entry and offset it is at and the remote address of the read request that is on
its way. -/
inductive EngKind where
  | mem (dst src len : Nat)
  | aout (dst stn row n : Nat)
  | ain (stn row n src : Nat)
  | tbl (stn e n src : Nat)
  | qpush (desc slot entry idx : Nat) (copied : Bool)
  | qpop (desc slot dst : Nat)
  | eqpush (q entry : Nat)
  | eqsent (q : Nat)
  | eqpop (q bseq count dst : Nat)
  | sclone (port list entry off : Nat) (asked : Option Nat)
  deriving DecidableEq, Repr

/-- An outstanding engine operation: its number, the core that handed it over with the context, launch, pc and words
(R313); the places, as keys of the memory list with lengths, that software must not write while it is outstanding (R340, R355), and
whether such a write has been made. -/
structure EngOp where
  id : Nat
  agent : Agent
  ctx : Byte
  lid : Option Nat
  pc : BitVec 16
  word : DWord
  kind : EngKind
  holds : List (Nat × Nat) := []
  bad : Bool := false
  deriving DecidableEq, Repr

/-! ## The fabric between stations (R106, R107) -/

/-- A token in flight, with the sending slot or core that R107 orders by and the launch that sent it (R446). fifo names the launch whose
loader or resume delivers it in the order of a list (R140, R213). -/
structure Flight where
  src : Nat
  lid : Option Nat
  tok : Token
  fifo : Option Nat := none
  deriving DecidableEq, Repr

/-- A token on its way to a receive queue (R113): its queue's core and the sending slot. -/
structure XFlight where
  src : Nat
  agent : Agent
  tok : Token
  deriving DecidableEq, Repr

/-- A message between the stations of a pair, or of PBIND (R288, R289, R430). -/
inductive TMsgKind where
  | bind (tr : Bool) (pt : BitVec 2) (gen : BitVec 16) (et : Int)
  | bindAnswer (ok : Bool) (detail : BitVec 16)
  | update (pos : Word) (delta : Int) (fold : Bool) (gen : BitVec 16)
  | ack (gen : BitVec 16)
  | refuse (detail : BitVec 16)
  deriving DecidableEq, Repr

/-- A table message: from a station's table to another's, in a context, with the pair that waits for the answer. -/
structure TMsg where
  kind : TMsgKind
  from_ : Nat
  fromT : BitVec 2
  to_ : Nat
  toT : BitVec 2
  ctx : Byte
  pair : Option Pair
  deriving DecidableEq, Repr

/-- An access of a memory node that its arc's other end may wait for (R108): launch, node number, tag at the index,
and what its arc chain has seen (R176). -/
structure ArcDone where
  lid : Nat
  node : BitVec 7
  tag : DWord
  know : Know
  deriving DecidableEq, Repr

/-! ## Launches (R117 to R140) -/

/-- A granted region (R125): die, lowest core, width and height. -/
structure Region where
  die : Fin 8
  core : Nat
  w : Nat
  h : Nat
  deriving DecidableEq, Repr

/-- Launch states (Tables 05-4 and 22-5). -/
inductive LState where
  | waiting | ready | loading | running | saving | closing | stopped
  | preempted (fault : Bool)
  deriving DecidableEq, Repr

/-- A configuration registered with the scheduler (R213). -/
structure Cfg where
  cfgid : Word
  nreg : Nat
  aoff : Nat
  acode : List Word
  doff : Nat
  dcode : List Word
  slots : List (BitVec 16 × BitVec 4 × SWord)
  inits : List Token
  deriving DecidableEq, Repr

/-- The part of a save image that one station has (R138): its entries, flags and SINK counts; the pairs of source slots that have
not issued, pairs with accesses still held by arcs; and what a pending fault keeps: operand entries of faulting pairs, held tokens
(R419, R420, R445). -/
structure StnImage where
  stn : Nat
  entries : List Entry
  flags : Flags
  sinks : Sparse DWord
  sources : List Pair
  nodeOps : List NodeOp
  faulted : List Pair
  held : List Held
  deriving DecidableEq, Repr

/-- A save image (R138): header, stations, residue, helper cores and core memories. -/
structure Image where
  cfgid : Word
  regions : List Region
  stations : List StnImage
  residue : List Flight
  cores : List (Agent × Core)
  mems : List (Nat × List Host.Cell)
  deriving DecidableEq, Repr

/-- A pending launch (R122). regions is the grant, placed the shapes that its configuration now stands on (R350, R351); recs
the fault records still to be appended to a collier's queue, each with the cycle it was raised in, logged all of them, and handled how many of them an LCTL has resolved (R422 to R424); saveAt the range of the save
area's image part that its image takes (R139), and saved the grant that the image's header names;
restoring tells that the image has been restored and its residue is being delivered (R140), skip that the resume leaves out what faulted
(R423); batchDone
tells that its batch has been taken (R372). -/
structure Launch where
  lid : Nat
  recno : Nat
  bytes : List Byte
  st : LState := .waiting
  cls : Nat
  ctx : Byte
  cfgid : Word
  since : Nat
  ageAt : Nat
  dev : Bool
  source : Nat
  deps : List Bool
  regions : List Region := []
  placed : List Region := []
  lseq : Nat := 0
  resumed : Bool := false
  complete : Bool := false
  recs : List (Nat × FRec) := []
  logged : List FRec := []
  handled : Nat := 0
  ended : Bool := false
  saved : Option (List Region) := none
  saveAt : Option (Nat × Nat) := none
  restoring : Bool := false
  skip : Bool := false
  batch : Option (Nat × Nat) := none
  batchDone : Bool := false
  deriving DecidableEq, Repr

/-- A request in a die's arm queue (R122): record, arguments patched into the accepted copy, the core that waits for the
answer, the context whose record must match, the firing it dispatches (R370), and the writes of the parent that some
die has not yet applied (R130). -/
structure ArmReq where
  recno : Nat
  arg : Option DWord
  ctx : Byte
  agent : Option Agent
  batch : Option (Nat × Nat)
  after : List Nat
  deriving DecidableEq, Repr

/-- A host work queue (R119). -/
structure WorkQueue where
  desc : SWord := 0
  tail : Word := 0
  head : Word := 0
  deriving DecidableEq, Repr

/-- A counter write on its way to the IOD (R132, R338): the core whose writes keep their order, the counter, whether
it adds, the value, and the writes it releases that some die has not yet applied. -/
structure CtrMsg where
  src : Nat
  k : Nat
  add : Bool
  value : DWord
  after : List Nat
  deriving DecidableEq, Repr

/-! ## Expert queues (R363 to R372) and the pattern compiler (R377 to R385) -/

/-- Where an entry is stored (R366): one of the 512 on-chip places, or a place of the spill ring. -/
inductive EqPlace where
  | chip (place : Nat)
  | spill (place : Nat)
  deriving DecidableEq, Repr

/-- An entry of an expert queue: its 256 bits, the cycle it was accepted in (of one that moved here with its age, R396, on this module's
clock), its place and the batch it is part of. -/
structure EqEntry where
  data : BitVec 256
  at_ : Int
  place : EqPlace
  batch : Option Nat := none
  deriving DecidableEq, Repr

/-- An untaken batch (R368, R372): its sequence number and count, and whether an EQPOP is taking it. -/
structure EqBatch where
  bseq : Nat
  count : Nat
  taking : Bool := false
  deriving DecidableEq, Repr

/-- A push that reached the unit (R365): queue, entry, context, launch, the address it was read from (R442), and the
engine operation that is complete when the unit has taken or refused it (R336, R453). -/
structure EqPush where
  q : Nat
  data : BitVec 256
  ctx : Byte
  lid : Option Nat
  addr : Nat
  op : Nat
  deriving DecidableEq, Repr

/-- An expert queue (Table 14-3, R363 to R372, R450). stuck: the spill write of the held entry failed, and any EQCFG tries it
again (R464). -/
structure EQueue where
  en : Bool := false
  ctx : Byte := 0
  sbase : Nat := 0
  scap : Nat := 0
  recno : Nat := 0
  cls : Nat := 0
  age : Nat := 0
  maxb : Nat := 0
  fill : Nat := 0
  entries : List EqEntry := []
  batches : List EqBatch := []
  bseq : Nat := 0
  spillNext : Nat := 0
  held : Option EqPush := none
  stuck : Bool := false
  deriving DecidableEq, Repr

/-- A firing in a unit's dispatch list (R369). -/
structure Firing where
  q : Fin 256
  bseq : Nat
  count : Nat
  ord : Nat
  passed : Nat
  deriving DecidableEq, Repr

/-- The identity of a slice (R279). -/
structure Slice where
  stn : Nat
  ctx : Byte
  t : BitVec 2
  j : Nat
  wgen : Nat
  deriving DecidableEq, Repr

/-- A micro-op (Table 16-1). -/
inductive MicroOp where
  | gather (i : Nat)
  | mac (c i : Nat)
  | emit (c : Nat)
  | done
  deriving DecidableEq, Repr

/-- What an entry of the pattern cache holds (R384). -/
inductive Prog where
  | pending | marker
  | prog (ops : List MicroOp)
  deriving DecidableEq, Repr

/-- A die's pattern cache entry with its last use; corrupt tells that a soft error has damaged its program (R438). -/
structure PEntry where
  slice : Slice
  prog : Prog
  used : Nat
  corrupt : Bool := false
  deriving DecidableEq, Repr

/-- A die's shared units (R18): counter replica and the values on their way to it, arm queue, expert queue arrivals and
dispatch list, pattern requests on their way, pattern compiler and cache, configuration cache, fault records waiting for room in the fault queue. -/
structure Die where
  replica : Sparse DWord := []
  rmsgs : List (Nat × DWord) := []
  armq : List ArmReq := []
  eqIn : List EqPush := []
  dispatch : List Firing := []
  preq : List Slice := []
  pq : List Slice := []
  pcache : List PEntry := []
  ccache : List Word := []
  fwait : List FRec := []
  deriving DecidableEq, Repr

/-- A UCIe module's own end (R391, R360, R455): paused, training, how many lanes are in use and which, lanes retired onto spares, error counts
by lane since the last clear, retries since the last clear, and whether LINK has been raised for them. -/
structure Ucie where
  paused : Bool := false
  training : Option Nat := none
  lanes : Nat := 64
  inUse : DWord := BitVec.allOnes 64
  retired : DWord := 0
  spares : Nat := 4
  errs : Sparse Nat := []
  retries : Nat := 0
  reported : Bool := false
  deriving DecidableEq, Repr

/-- A peer port (R389, R390): its route entry, whether its link is up, the next sequence numbers, the flits sent and not
yet answered, those of them to be acknowledged (with the agent and launch of a remote write, or the launch that an image moves), the count
of flits of reserved kind, the addresses of performed writes with those that some die has not applied, to be acknowledged after them (R184,
R390), and what token flits have brought: whether an eviction is being taken over, and the part of an item that has
arrived (R389, R396; log entry 84). -/
structure Peer where
  en : Bool := false
  serial : Nat := 0
  ctxin : Byte := 0
  up : Bool := true
  rxseq : Nat := 0
  txseq : Nat := 0
  out : List Flit := []
  waiting : List (Nat × Option Agent × Option Nat) := []
  errors : Nat := 0
  acks : List (Nat × List Nat) := []
  taking : Bool := false
  rx : List Byte := []
  deriving DecidableEq, Repr

/-- A continuation list being walked (R347): the FWRITE's core, context, launch, pc and words, next record's address, value,
and the writes ordered before the fill that some die has not yet applied. -/
structure Cont where
  agent : Agent
  ctx : Byte
  lid : Option Nat
  pc : BitVec 16
  word : DWord
  addr : Nat
  value : DWord
  after : List Nat
  deriving DecidableEq, Repr

/-- Eviction states (Table 17-4, R456). -/
inductive Evict where
  | serving | fencing | moving | draining | drained | failed
  deriving DecidableEq, Repr

/-- The answer to an SPDM message: measurements 1 to 4, and a signature over the transcript (R398, R399). -/
structure SpdmAnswer where
  digests : List (BitVec 512)
  sig : List Byte
  deriving DecidableEq, Repr

/-- A message the module sends over MCTP (R392 to R397, R418, R456). -/
inductive Mctp where
  | routesDrained (heads : List (Nat × Word))
  | evictFailed (why : Nat)
  | collierStopped (r : FRec)
  | monitoring (inlet outlet power : Int) (evict : Evict)
  | scan (bytes : List Byte)
  | spdm (a : SpdmAnswer)
  | firmware (image : Fin 4) (ok : Bool)
  | eeprom (bytes : List Byte)
  deriving DecidableEq, Repr

/-- A CXL.mem answer (R185, R463): data, or a response marked poisoned, or a completed write. -/
inductive CxlAnswer where
  | data (bytes : List Byte)
  | poisoned
  | done
  | none
  deriving DecidableEq, Repr

/-- A place that holds a single-bit or double-bit error (R436, R437): a sector of HBM4E by the PA word of it, or a word
of an SRAM store of Table 23-3. unit is the station for stores 0 to 4 and the core for stores 6 and 7; word is the narrow
entry (0), the cell 32 * row + column (1), the arrival number of the entry (2), 16 * context + slot (3), 4 * context tag +
table number (4), the key of 8 bytes (5), the word of code (6, 7), 2^16 * queue + entry (8). -/
structure EccErr where
  sram : Bool
  store : BitVec 4
  unit : Nat
  word : Nat
  double : Bool
  deriving DecidableEq, Repr

/-- An action of an agent: a core issues, and performs a memory access at once; a core issues, and leaves a memory access to be
performed later (R175); a station issues; a station issues and stops after a piece or token of its pair (Table 05-9); or a unit performs an event of the table. -/
inductive Act where
  | core (a : Agent)
  | late (a : Agent)
  | station (n : Nat)
  | stationPart (n : Nat)
  | event (i : Instr)
  deriving DecidableEq, Repr

/-- Bytes 0 to 1,023 of the identity record (Table 17-3; log entry 86). -/
def identityRecord : List Byte :=
  [1, 0, 0, 0] ++ [76, 75, 88, 52, 45, 49, 48, 50, 52, 45, 72, 0, 0, 0, 0, 0] ++ (range 20 191).map Config.identityByte ++ List.replicate 813 0

/-- The machine. -/
structure State where
  -- cores and stations
  cores : Sparse Core := []
  stations : Sparse Station := []
  -- memory: contents, line tags (R155), sector keys (R162), key slots (R161)
  mem : Memory := []
  tags : Sparse (BitVec 4) := []
  skeys : Sparse (BitVec 512) := []
  keys : Sparse (BitVec 512) := []
  -- dies' views (R179), translation caches (R152)
  flying : List Fly := []
  pend : List PendW := []
  stale : Sparse Stale := []
  staleTags : Sparse (BitVec 4 × Nat) := []
  nextW : Nat := 1
  nextCo : Nat := 1
  know : Sparse Know := []
  tlb : List Leaf := []
  ecc : List EccErr := []
  -- boot bases (R117, R148)
  recPool : Nat := 0
  ctxTable : Nat := 0
  -- scheduler (R119 to R140)
  configs : List Cfg := []
  launches : List Launch := []
  wq : Sparse WorkQueue := []
  wqNext : Nat := 0
  lseq : Nat := 0
  spilledRows : List (Byte × Nat) := []
  spilledTables : List (Byte × Nat × BitVec 2) := []
  -- counters (R132)
  counters : Sparse DWord := []
  cmsgs : List CtrMsg := []
  -- engines, fabric, messages; spoiled: bytes of queue descriptors whose values are undefined (R340; log entry 75); readers: the context tag of the FREAD that linked the record at a place (R347)
  engine : List EngOp := []
  spoiled : List Nat := []
  net : List Flight := []
  xnet : List XFlight := []
  tmsgs : List TMsg := []
  arcs : List ArcDone := []
  conts : List Cont := []
  readers : Sparse Byte := []
  -- per die, links, queues
  dies : Vector Die 8 := Vector.replicate 8 {}
  eqs : Sparse EQueue := []
  ucie : Vector Ucie 32 := Vector.replicate 32 {}
  peers : Vector Peer 18 := Vector.replicate 18 {}
  hostUp : Bool := true
  -- inputs that wait to be taken: host accesses, images to register, management messages, firmware accesses
  cxlIn : List CxlAccess := []
  barIn : List BarAccess := []
  cfgIn : List (List Byte) := []
  mgmtIn : List MgmtMsg := []
  homeIn : List HomeAccess := []
  cxlKeys : Vector (BitVec 14) 16 := Vector.replicate 16 0
  cxlAnswer : CxlAnswer := .none
  cfgAnswer : Option FRec := none
  barAnswer : Nat := 0
  homeAnswer : List Byte := []
  msix : List Nat := []
  -- management (R392 to R399, R456, R457)
  mctp : List Mctp := []
  evict : Evict := .serving
  evictPort : Fin 18 := 0
  evictAt : Nat := 0
  evictRanges : List (Nat × Nat × Nat) := []
  evictSent : Bool := false
  frozen : Bool := false
  unlatched : Bool := false
  level : Nat := 0
  levelAt : Nat := 0
  hotAt : Option Nat := none
  coolAt : Option Nat := none
  inlet : Int := 0
  outlet : Int := 0
  power : Int := 0
  images : Vector (List Byte × List Byte) 4 := Vector.replicate 4 ([], [])
  measured : Vector (BitVec 512) 4 := Vector.replicate 4 (Config.shake256 [])
  started : Vector Bool 4 := Vector.replicate 4 true
  identity : List Byte := identityRecord
  service : List (BitVec 256) := []
  doe : List SpdmAnswer := []
  -- the model's own (log entries 3, 4, 5); resetAt: the cycle of the last module reset (R357)
  cur : Agent := ⟨.access, 0, 0⟩
  curStn : Nat := 0
  limm : Option (BitVec 25) := none
  late : Bool := false
  cut : Option Nat := none
  agenda : List Act := []
  steps : Nat := 0
  now : Nat := 0
  resetAt : Nat := 0
  fresh : Nat := 0
  nextId : Nat := 1
  deriving DecidableEq, Repr

/-- Why the machine takes no further step. The faults of the spec are taken as the spec describes them, in a next
state; this is the only stop. -/
inductive Fault where
  /-- Raised by step: the module has been unlatched (Table 17-4) and is no longer powered. Safe: there is no machine
  left to go on. -/
  | unlatched
  deriving DecidableEq, Repr

/-- Why an instruction is not given a meaning. -/
inductive Refusal where
  /-- Raised by an arm of exec whose instruction has no meaning yet. Safe: nothing is claimed of it. -/
  | notModelled (mnemonic : String)
  deriving DecidableEq, Repr

/-- The machine right after reset: every field at the value the spec gives for reset (R217, R423, R429), and, where it
gives none, at the value that log entries 1, 2 and 34 name. The colliers run (R143); the keys of their cores are agentIdx's. -/
def State.reset : State := { cores := (List.range 8).map fun d => (2048 + d, { run := .running }) }

end Sys2Proof.Machine
end

