-- ==== Sys2Proof/Machine/Xts.lean ====
section
/-! DEFINITION. AES-256 and XTS, by which the security engine encrypts the stored sectors of device memory (R161 to R163). The spec
names the cipher and lays down its data unit, its two blocks and its tweak; the cipher itself is FIPS 197 and IEEE 1619 (log entry
12). Bytes stand as naturals below 256, a block as its 16 bytes in order. -/

namespace Sys2Proof.Machine

/-! ## GF(2^8) -/

/-- Twice a byte in GF(2^8). -/
def gfDbl (x : Nat) : Nat := if x < 128 then 2 * x else (2 * x) % 256 ^^^ 0x1B

/-- Product in GF(2^8); fuel counts the bits of the first factor. -/
def gfMulGo : Nat → Nat → Nat → Nat
  | 0, _, _ => 0
  | n + 1, x, y => (if x % 2 = 1 then y else 0) ^^^ gfMulGo n (x / 2) (gfDbl y)

/-- Product in GF(2^8). -/
def gfMul (x y : Nat) : Nat := gfMulGo 8 x y

/-- Inverse in GF(2^8), x^254; 0 for 0. -/
def gfInv (x : Nat) : Nat :=
  let x2 := gfMul x x
  let x3 := gfMul x2 x
  let x12 := let y := gfMul x3 x3; gfMul y y
  let x15 := gfMul x12 x3
  let x240 := let y := gfMul x15 x15; let y := gfMul y y; let y := gfMul y y; gfMul y y
  gfMul (gfMul x240 x12) x2

/-- A byte rotated left by k. -/
def rotl8 (x k : Nat) : Nat := (x * 2 ^ k) % 256 + x / 2 ^ (8 - k)

/-- The S-box. -/
def aesSub (x : Nat) : Nat :=
  let b := gfInv x
  b ^^^ rotl8 b 1 ^^^ rotl8 b 2 ^^^ rotl8 b 3 ^^^ rotl8 b 4 ^^^ 0x63

/-- The inverse S-box. -/
def aesUnsub (x : Nat) : Nat := gfInv (rotl8 x 1 ^^^ rotl8 x 3 ^^^ rotl8 x 6 ^^^ 0x05)

/-! ## Key schedule -/

/-- Bytes xored one by one. -/
def xorBytes (a b : List Nat) : List Nat := List.zipWith (· ^^^ ·) a b

/-- The next word of the key schedule: word i from the last word and the one eight before it; rc is the round constant. -/
def aesNextWord (i rc : Nat) (last old : List Nat) : List Nat :=
  let t :=
    if i % 8 = 0 then
      match last with
      | a :: rest => xorBytes ((rest ++ [a]).map aesSub) [rc, 0, 0, 0]
      | [] => []
    else if i % 8 = 4 then last.map aesSub
    else last
  xorBytes t old

/-- The words of the key schedule, newest first; fuel counts those still to come. -/
def aesExpand : Nat → Nat → Nat → List (List Nat) → List (List Nat)
  | 0, _, _, ws => ws
  | n + 1, i, rc, ws =>
    aesExpand n (i + 1) (if i % 8 = 0 then gfDbl rc else rc) (aesNextWord i rc (ws.headD []) (ws.getD 7 []) :: ws)

/-- The fifteen round keys of a 32-byte key. -/
def aesKeys (k : List Nat) : List (List Nat) :=
  let ws := (aesExpand 52 8 1 (groups 4 8 k).reverse).reverse
  (groups 4 15 ws).map List.flatten

/-! ## Rounds -/

/-- The bytes of a block taken from the places that a function gives. -/
def permute (f : Nat → Nat) (b : List Nat) : List Nat := (List.range 16).map fun i => b.getD (f i) 0

/-- Row r of column c comes from column c + r. -/
def shiftRows (b : List Nat) : List Nat := permute (fun i => (i + 4 * (i % 4)) % 16) b

/-- The inverse of shiftRows. -/
def unshiftRows (b : List Nat) : List Nat := permute (fun i => (i + 12 * (i % 4)) % 16) b

/-- Each column times the circulant matrix of four factors. -/
def mixWith (m : List Nat) (b : List Nat) : List Nat :=
  (List.range 16).map fun i =>
    (List.range 4).foldl (fun acc j => acc ^^^ gfMul (m.getD ((j + 4 - i % 4) % 4) 0) (b.getD (i / 4 * 4 + j) 0)) 0

/-- AES-256 of a block under the round keys. -/
def aesEncrypt (ks : List (List Nat)) (b : List Nat) : List Nat :=
  let b := (List.range 13).foldl (fun b r => xorBytes (mixWith [2, 3, 1, 1] (shiftRows (b.map aesSub))) (ks.getD (r + 1) []))
    (xorBytes b (ks.getD 0 []))
  xorBytes (shiftRows (b.map aesSub)) (ks.getD 14 [])

/-- The inverse of aesEncrypt. -/
def aesDecrypt (ks : List (List Nat)) (b : List Nat) : List Nat :=
  let b := (List.range 13).foldl
    (fun b r => mixWith [14, 11, 13, 9] (xorBytes ((unshiftRows b).map aesUnsub) (ks.getD (13 - r) [])))
    (xorBytes b (ks.getD 14 []))
  xorBytes ((unshiftRows b).map aesUnsub) (ks.getD 0 [])

/-! ## XTS -/

/-- A tweak times x in GF(2^128), little-endian (IEEE 1619). -/
def xtsNext (t : List Nat) : List Nat :=
  let v := 2 * leValue (t.map (BitVec.ofNat 8))
  let v := if v < 2 ^ 128 then v else (v % 2 ^ 128) ^^^ 0x87
  (leBytes 16 v).map BitVec.toNat

/-- The blocks of a data unit, each enciphered under the tweak of its place. -/
def xtsBlocks (f : List Nat → List Nat) : List Nat → List (List Nat) → List Nat
  | _, [] => []
  | t, b :: bs => xorBytes (f (xorBytes b t)) t ++ xtsBlocks f (xtsNext t) bs

/-- A 32-byte sector under a slot's 512 bits: the low half is the data key, the high half the tweak's. f enciphers a block under
round keys. -/
def xtsUnit (f : List (List Nat) → List Nat → List Nat) (key : BitVec 512) (tweak : Nat) (bs : List Byte) : List Byte :=
  let kb := (leBytes 64 key.toNat).map BitVec.toNat
  let t := aesEncrypt (aesKeys (kb.drop 32)) ((leBytes 16 tweak).map BitVec.toNat)
  (xtsBlocks (f (aesKeys (kb.take 32))) t (groups 16 2 (bs.map BitVec.toNat))).map (BitVec.ofNat 8)

/-- A sector encrypted (R162). -/
def xtsEncrypt : BitVec 512 → Nat → List Byte → List Byte := xtsUnit aesEncrypt

/-- A sector decrypted (R162, R163). -/
def xtsDecrypt : BitVec 512 → Nat → List Byte → List Byte := xtsUnit aesDecrypt

end Sys2Proof.Machine
end

