-- ==== Sys2Proof/Machine/Mem.lean ====
section
/-! DEFINITION. Memory: key spaces, lines and their encodings (R155 to R160), keys (R161 to R163), translation
(R145 to R152), the dies' views of one coherence order (R174, R179 to R182), and the reads and writes that every agent
uses. Byte order is decided here once (leBytes, leValue of Bits). -/

namespace Sys2Proof.Machine

/-! ## Fault classes (Table 22-1) and what a fault carries -/

/-- A fault condition met: class, faulting address, detail (Tables 23-1, 24-1) and, for TRAP, its code. -/
structure FI where
  cls : Nat
  addr : Nat := 0
  detail : Nat := 0
  code : Nat := 0
  deriving DecidableEq, Repr

/-- ILLEGAL. -/
def cIllegal : Nat := 0x01
/-- ALIGN. -/
def cAlign : Nat := 0x02
/-- TRANSLATION. -/
def cTranslation : Nat := 0x03
/-- KEY. -/
def cKey : Nat := 0x04
/-- COMPRESS-META. -/
def cCompressMeta : Nat := 0x05
/-- MEM-ECC. -/
def cMemEcc : Nat := 0x06
/-- WIDE-TARGET. -/
def cWideTarget : Nat := 0x07
/-- COPY-RANGE. -/
def cCopyRange : Nat := 0x08
/-- COPY. -/
def cCopy : Nat := 0x09
/-- STREAM. -/
def cStream : Nat := 0x0A
/-- COUNTER-RANGE. -/
def cCounterRange : Nat := 0x0B
/-- QUEUE-DESC. -/
def cQueueDesc : Nat := 0x0C
/-- FP-MODE. -/
def cFpMode : Nat := 0x0D
/-- FORMAT. -/
def cFormat : Nat := 0x0E
/-- FORMAT-EMULATE. -/
def cFormatEmulate : Nat := 0x0F
/-- TRAP. -/
def cTrap : Nat := 0x10
/-- FUTURE-FULL. -/
def cFutureFull : Nat := 0x11
/-- LAUNCH-RECORD. -/
def cLaunchRecord : Nat := 0x12
/-- LAUNCH-BUSY. -/
def cLaunchBusy : Nat := 0x13
/-- CONFIG-RANGE. -/
def cConfigRange : Nat := 0x14
/-- CONFIG-WORD. -/
def cConfigWord : Nat := 0x15
/-- EQ-RANGE. -/
def cEqRange : Nat := 0x16
/-- EQ-CONFIG. -/
def cEqConfig : Nat := 0x17
/-- EQ-BUSY. -/
def cEqBusy : Nat := 0x18
/-- EQ-BATCH. -/
def cEqBatch : Nat := 0x19
/-- EQ-SPILL. -/
def cEqSpill : Nat := 0x1A
/-- SHAPE. -/
def cShape : Nat := 0x1B
/-- DEADLOCK. -/
def cDeadlock : Nat := 0x1C
/-- TYPE-MISMATCH. -/
def cTypeMismatch : Nat := 0x20
/-- TAG-COLLISION. -/
def cTagCollision : Nat := 0x21
/-- MATCH-OVERFLOW. -/
def cMatchOverflow : Nat := 0x22
/-- CONTEXT. -/
def cContext : Nat := 0x23
/-- COUNT-RANGE. -/
def cCountRange : Nat := 0x24
/-- TABLE-GEOMETRY. -/
def cTableGeometry : Nat := 0x25
/-- TABLE-SPREAD. -/
def cTableSpread : Nat := 0x26
/-- TABLE-INDEX. -/
def cTableIndex : Nat := 0x27
/-- PAIR. -/
def cPair : Nat := 0x28
/-- SRAM-ECC. -/
def cSramEcc : Nat := 0x29
/-- LINK. -/
def cLink : Nat := 0x30
/-- EVICT. -/
def cEvict : Nat := 0x31
/-- THERMAL. -/
def cThermal : Nat := 0x32

/-- The detail of LINK (Table 24-1). -/
def linkDetail (iface num why : Nat) : Nat := iface + num * 4 + why * 128

/-- An access to host memory while the host link is down (R454). -/
def hostDown (addr : Nat) : FI := { cls := cLink, addr, detail := linkDetail 0 0 1 }

/-! ## Key spaces of the one memory list -/

/-- Number of a core: access and drain cores of a die's core c, then the colliers. -/
def agentIdx (a : Agent) : Nat :=
  match a.kind with
  | .access => (a.die.val * 128 + a.core.val) * 2
  | .drain => (a.die.val * 128 + a.core.val) * 2 + 1
  | .collier => 2048 + a.die.val

/-- The core of an agent. -/
def State.core (s : State) (a : Agent) : Core := spGet {} s.cores (agentIdx a)

/-- An agent's core replaced. -/
def State.setCore (s : State) (a : Agent) (c : Core) : State := { s with cores := spInsert s.cores (agentIdx a) c }

/-- The collier of a die. -/
def collierOf (d : Fin 8) : Agent := ⟨.collier, d, 0⟩

/-- n more in a saturating 32-bit count. -/
def satAdd32 (x n : Nat) : Nat := min (x + n) (2 ^ 32 - 1)

/-- Corrected errors counted in ECCCNT of a die's collier: HBM low, SRAM high (R436). -/
def State.countEcc (s : State) (d : Fin 8) (hbm sram : Nat) : State :=
  let a := collierOf d
  let c := s.core a
  let x := c.ecccnt.toNat
  if hbm = 0 ∧ sram = 0 then s
  else s.setCore a { c with ecccnt := BitVec.ofNat 64 (satAdd32 (fld x 63 32) sram * 2 ^ 32 + satAdd32 (fld x 31 0) hbm) }

/-! ## Agents of the memory model (R167, R169) -/

/-- Key of a core's engines among the agents (R167); a core's own key is agentIdx's. -/
def engKey (a : Agent) : Nat := 4096 + agentIdx a

/-- Key of a memory node slot among the agents (R167). -/
def nodeKey (stn : Nat) (slot : BitVec 4) : Nat := 16384 + stn * 16 + slot.toNat

/-- Key of the launch scheduler among the agents (R167). -/
def schedKey : Nat := 2 ^ 40

/-- Key of a die's expert queue unit among the agents (R167). -/
def unitKey (d : Fin 8) : Nat := 2 ^ 41 + d.val

/-- Key of the host among the agents (R167). -/
def hostKey : Nat := 2 ^ 42

/-- The station of a memory node's key. -/
def stnOfKey (k : Nat) : Option Nat := if 16384 ≤ k ∧ k < 16384 + 2 ^ 20 then some ((k - 16384) / 16) else none

/-- The core of the module that holds an agent: an access core, a drain core or a memory node (Table 07-1). -/
def coreOfKey (k : Nat) : Option Nat := if k < 2048 then some (k / 2) else (stnOfKey k).map (· / 64)

/-- The die of an agent; none for the scheduler and the host. -/
def dieOfKey (k : Nat) : Option Nat :=
  let core (i : Nat) : Nat := if i < 2048 then i / 256 else i - 2048
  if k < 2056 then some (core k)
  else if 4096 ≤ k ∧ k < 4096 + 2056 then some (core (k - 4096))
  else if 2 ^ 41 ≤ k ∧ k < 2 ^ 41 + 8 then some (k - 2 ^ 41)
  else (stnOfKey k).map (· / 8192)

/-- Both are known, and the same. -/
def sameOf (a b : Option Nat) : Bool := a.isSome && a == b

/-- Agent q is within scope sc of agent p (Table 07-1). -/
def inScope (p : Nat) (sc : Scope) (q : Nat) : Bool :=
  p == q || (match sc with
    | .stn => sameOf (stnOfKey p) (stnOfKey q)
    | .core => sameOf (coreOfKey p) (coreOfKey q)
    | .die => sameOf (dieOfKey p) (dieOfKey q)
    | .dev => q != hostKey
    | .sys => true)

/-- An order of scope sc of agent p binds die d as a whole (R170, R180). -/
def bindsDie (p : Nat) (sc : Scope) (d : Nat) : Bool :=
  match sc with
  | .dev | .sys => true
  | .die => dieOfKey p == some d
  | .stn | .core => false

/-- Core memory of core c of die d (R16). -/
def coreMemBase (d c : Nat) : Nat := 2 ^ 60 + (d * 128 + c) * 2 ^ 20

/-- A collier's private store (R18). -/
def collierBase (d : Nat) : Nat := 2 ^ 61 + d * 2 ^ 18

/-- Where a core's instructions are: a helper core's instruction store, or the collier's private store (R18). -/
def istoreBase (a : Agent) : Nat :=
  match a.kind with
  | .collier => collierBase a.die.val
  | _ => 2 ^ 62 + agentIdx a * 2 ^ 16

/-- Host physical addresses (R146). -/
def hostBase : Nat := 2 ^ 51

/-- Size of device memory (R146). -/
def devSize : Nat := 0x6000000000

/-- Home die of a device PA (R147). -/
def homeDie (pa : Nat) : Nat := fld pa 14 12

/-! ## Links between the dies (R14, R15, R21, R391) -/

/-- The UCIe modules, as 4 * die + module, of both ends of each boundary that traffic to a die crosses: along the row, then
between the rows; the H module from the IOD (R14, R15, R106). -/
def linkPath (src : Option Nat) (to_ : Nat) : List Nat :=
  match src with
  | none => [4 * to_ + 3]
  | some a =>
    let row := a / 4 * 4
    let c0 := a % 4
    let c1 := to_ % 4
    let along := ((List.range (max c0 c1)).filter fun c => decide (min c0 c1 ≤ c)).map fun c => [4 * (row + c) + 1, 4 * (row + c + 1)]
    let across := if a / 4 = to_ / 4 then [] else [4 * (row + c1) + 2, 4 * to_ + 2]
    along.flatten ++ across

/-- Traffic to a die passes: no module that it crosses is paused or training (R391). -/
def State.linkOpen (s : State) (src : Option Nat) (to_ : Nat) : Bool :=
  (linkPath src to_).all fun m => match s.ucie.toList[m]? with
    | some u => !u.paused && u.training.isNone
    | none => true

/-! ## Bytes -/

/-- The byte at a key of the memory list. -/
def Memory.byte (m : Memory) (k : Nat) : Byte := spGet Memory.unlisted m k

/-- n bytes from key k. -/
def Memory.bytes (m : Memory) (k n : Nat) : List Byte := (range k n).map m.byte

/-- The bytes bs stored from key k. -/
def Memory.store (m : Memory) (k : Nat) : List Byte → Memory
  | [] => m
  | b :: bs => Memory.store (spSet Memory.unlisted m k b) (k + 1) bs

/-- A list of cells stored. -/
def Memory.storeCells (m : Memory) (cs : List Host.Cell) : Memory :=
  cs.foldl (fun m c => spSet Memory.unlisted m c.1 c.2) m

/-! ## Line encodings (R155 to R158) -/

/-- The little-endian elements of w bytes of a line (R156). -/
def elems (w : Nat) (bs : List Byte) : List Nat := (groups w 128 bs).map leValue

/-- A line's bytes are all zero. -/
def fitsZero (bs : List Byte) : Bool := bs.all (· == 0)

/-- All elements of w bytes are equal. -/
def fitsConst (w : Nat) (bs : List Byte) : Bool :=
  match elems w bs with
  | [] => true
  | e :: es => es.all (· == e)

/-- Every difference from the first element fits d signed bytes (R156). -/
def fitsDelta (w d : Nat) (bs : List Byte) : Bool :=
  match elems w bs with
  | [] => true
  | e :: es => es.all fun x =>
      let y := wrap ((x : Int) - e) (8 * w)
      decide (-(2 ^ (8 * d - 1) : Int) ≤ y ∧ y < 2 ^ (8 * d - 1))

/-- The encoding of lowest preference number that a line fits (R157, Table 06-4). -/
def lineCode (bs : List Byte) : BitVec 4 :=
  if fitsZero bs then 1
  else if fitsConst 4 bs then 3
  else if fitsConst 8 bs then 2
  else if fitsDelta 8 1 bs then 4
  else if fitsDelta 4 1 bs then 7
  else if fitsDelta 8 2 bs then 5
  else if fitsDelta 4 2 bs then 8
  else if fitsDelta 8 4 bs then 6
  else 0

/-- Element and delta widths of a base-and-delta code. -/
def deltaForm (c : BitVec 4) : Option (Nat × Nat) :=
  match c.toNat with
  | 4 => some (8, 1)
  | 5 => some (8, 2)
  | 6 => some (8, 4)
  | 7 => some (4, 1)
  | 8 => some (4, 2)
  | _ => none

/-- Bytes padded with zeros to whole sectors. -/
def padSectors (bs : List Byte) : List Byte := bs ++ List.replicate (32 * ceilDiv bs.length 32 - bs.length) 0

/-- The stored sectors of a line under a code (Table 06-4). -/
def storedForm (c : BitVec 4) (bs : List Byte) : List Byte :=
  match deltaForm c with
  | some (w, d) =>
    let es := elems w bs
    padSectors (leBytes w (es.headD 0) ++ (es.map fun (x : Nat) => leBytes d (trunc ((x : Int) - es.headD 0) (8 * d))).flatten)
  | none =>
    if c = 1 then [] else if c = 2 then padSectors (bs.take 8) else if c = 3 then padSectors (bs.take 4) else bs

/-- The line that stored sectors decode to (R156). -/
def decodeStored (c : BitVec 4) (st : List Byte) : List Byte :=
  match deltaForm c with
  | some (w, d) =>
    let base := leValue (st.take w)
    ((groups d (128 / w) (st.drop w)).take (128 / w)).map (fun g =>
      leBytes w (trunc ((base : Int) + sext (leValue g) (8 * d)) (8 * w))) |>.flatten
  | none =>
    if c = 1 then List.replicate 128 0
    else if c = 2 then (List.replicate 16 (st.take 8)).flatten
    else if c = 3 then (List.replicate 32 (st.take 4)).flatten
    else st

/-- A reserved tag (Table 06-4). -/
def tagReserved (c : BitVec 4) : Bool := decide (9 ≤ c.toNat)

/-! ## Lines of device memory -/

/-- The tag of the line that holds a device PA (R155); a line nothing has written is a zero line. -/
def State.tag (s : State) (pa : Nat) : BitVec 4 := spGet 1 s.tags (pa / 128)

/-- A sector's 32 bytes, written under one key, as another key decrypts them (R162, R163). -/
def crossSector (kw kr : BitVec 512) (tweak : Nat) (bs : List Byte) : List Byte :=
  if kw = kr then bs else xtsDecrypt kr tweak (xtsEncrypt kw tweak bs)

/-- The bytes of the line at PA l that a key reads: the line's plaintext, its tag, and the keys its four sectors were written
under. -/
def readLine (key : BitVec 512) (l : Nat) (tag : BitVec 4) (plain : List Byte) (keys : List (BitVec 512)) : List Byte :=
  if keys.all (· == key) then plain
  else
    decodeStored tag (((groups 32 4 (storedForm tag plain)).zip (List.range 4)).map (fun (g, i) =>
      crossSector (keys.getD i 0) key (l + 32 * i) g)).flatten

/-- The keys that the sectors of a line were written under. -/
def State.lineKeys (s : State) (l : Nat) : List (BitVec 512) := (List.range 4).map fun i => spGet 0 s.skeys (l / 32 + i)

/-- The 128 bytes of the line at PA l under a key, as its home holds it. -/
def State.line (s : State) (key : BitVec 512) (l : Nat) : List Byte :=
  readLine key l (s.tag l) (s.mem.bytes l 128) (s.lineKeys l)

/-- n bytes at a device PA within one line, under a key. -/
def State.devBytes (s : State) (key : BitVec 512) (pa n : Nat) : List Byte :=
  let l := pa / 128 * 128
  if (List.range (ceilDiv (pa % 32 + n) 32)).all fun i => spGet 0 s.skeys (pa / 32 + i) == key then s.mem.bytes pa n
  else ((s.line key l).drop (pa % 128)).take n

/-- A whole line written (R157). -/
def State.putLine (s : State) (key : BitVec 512) (l : Nat) (bs : List Byte) : State :=
  { s with
    mem := s.mem.store l bs
    tags := spInsert s.tags (l / 128) (lineCode bs)
    skeys := (List.range 4).foldl (fun m i => spInsert m (l / 32 + i) key) s.skeys }

/-- bs written at a device PA within one line by the home controller (R157, R158). -/
def State.putDev (s : State) (key : BitVec 512) (pa : Nat) (bs : List Byte) : State :=
  let l := pa / 128 * 128
  if bs.length = 128 then s.putLine key l bs
  else if s.tag pa = 0 then
    -- in place; the sectors touched are read, merged and encrypted again
    let f := pa / 32 * 32
    let n := ceilDiv (pa % 32 + bs.length) 32 * 32
    let old := s.devBytes key f n
    let new := old.take (pa - f) ++ bs ++ old.drop (pa - f + bs.length)
    { s with
      mem := s.mem.store f new
      skeys := (List.range (n / 32)).foldl (fun m i => spInsert m (f / 32 + i) key) s.skeys }
  else
    let old := s.line key l
    s.putLine key l (old.take (pa - l) ++ bs ++ old.drop (pa - l + bs.length))

/-! ## Errors found in memory (R436) -/

/-- Stored sectors that a read of a line under a tag reads (Table 06-4). -/
def storedSectors (c : BitVec 4) : Nat :=
  match c.toNat with
  | 1 => 0
  | 2 => 1
  | 3 => 1
  | 4 => 1
  | 5 => 2
  | 6 => 3
  | 7 => 2
  | 8 => 3
  | _ => 4

/-- First sector and number of sectors that an access of n bytes at a device PA reads: of an uncompressed line, a narrow access (a
.fg request, R154, or a write in place, R158) reads the sectors it touches, every other one all four (Table 06-4). -/
def State.sectorsRead (s : State) (pa n : Nat) (narrow : Bool) : Nat × Nat :=
  if s.tag pa = 0 ∧ narrow then (pa / 32, ceilDiv (pa % 32 + n) 32) else (pa / 128 * 4, storedSectors (s.tag pa))

/-- An error lies among the sectors that an access of [pa, pa + n) reads. -/
def State.eccHit (s : State) (pa n : Nat) (narrow : Bool) (e : EccErr) : Bool :=
  let (f, k) := s.sectorsRead pa n narrow
  !e.sram && decide (f ≤ e.word / 32 ∧ e.word / 32 < f + k)

/-- Uncorrectable errors among the sectors that an access reads. -/
def State.eccBad (s : State) (pa n : Nat) (narrow : Bool) : Option EccErr := s.ecc.find? fun e => e.double && s.eccHit pa n narrow e

/-- Single-bit errors that an access of device memory meets, counted at the line's home (R436). -/
def State.countHit (s : State) (pa n : Nat) (narrow : Bool) : State :=
  s.countEcc (Fin.ofNat 8 (homeDie pa)) (s.ecc.filter fun e => !e.double && s.eccHit pa n narrow e).length 0

/-- Where a damaged word of core memory (store 5), an instruction store (6) or a collier's private store (7) lies: its first key
and its bytes. -/
def EccErr.cells (e : EccErr) : Option (Nat × Nat) :=
  if !e.sram then none
  else match e.store.toNat with
    | 5 => some (8 * e.word, 8)
    | 6 => some (2 ^ 62 + e.unit * 2 ^ 16 + 4 * e.word, 4)
    | 7 => some (collierBase (e.unit - 2048) + 4 * e.word, 4)
    | _ => none

/-- A damaged word lies among n bytes from a key. -/
def EccErr.meets (e : EccErr) (at_ n : Nat) : Bool :=
  match e.cells with
  | some (k, w) => decide (k < at_ + n ∧ at_ < k + w)
  | none => false

/-- A damaged word lies wholly among n bytes from a key. -/
def EccErr.within (e : EccErr) (at_ n : Nat) : Bool :=
  match e.cells with
  | some (k, w) => decide (at_ ≤ k ∧ k + w ≤ at_ + n)
  | none => false

/-- SRAM-ECC of a word that is read among n bytes of a local store (R436, R437). -/
def State.localFault (s : State) (at_ n addr : Nat) : Option FI :=
  (s.ecc.find? fun e => e.double && e.meets at_ n).map fun e => { cls := cSramEcc, addr, detail := e.store.toNat + e.word % 2048 * 16 }

/-! ## The dies' views (R179 to R181) -/

/-- Key of a location in a die's overlay of bytes, and of a line in its overlay of tags, that are not yet up to date. -/
def staleKey (die at_ : Nat) : Nat := die * 2 ^ 56 + at_

/-- The byte a die's view holds, given what the home holds. -/
def State.viewByte (s : State) (die at_ : Nat) (home : Byte) : Byte :=
  match spFind s.stale (staleKey die at_) with
  | some x => x.byte
  | none => home

/-- The plaintext of n bytes as a die's view holds them. -/
def State.viewBytes (s : State) (die at_ n : Nat) : List Byte :=
  ((s.mem.bytes at_ n).zip (range at_ n)).map fun (b, k) => s.viewByte die k b

/-- The key that a sector's bytes in a die's view were written under: that of the first byte not yet up to date, else the home's. -/
def State.viewKey (s : State) (die sector : Nat) : BitVec 512 :=
  match (range (32 * sector) 32).findSome? fun k => spFind s.stale (staleKey die k) with
  | some x => x.key
  | none => spGet 0 s.skeys sector

/-- The tag of the line at a device PA in a die's view. -/
def State.viewTag (s : State) (die pa : Nat) : BitVec 4 :=
  match spFind s.staleTags (staleKey die (pa / 128)) with
  | some x => x.1
  | none => s.tag pa

/-- n bytes of device memory within one line, in a die's view, under a key (R163, R179). -/
def State.viewDev (s : State) (die : Nat) (key : BitVec 512) (pa n : Nat) : List Byte :=
  if (List.range (ceilDiv (pa % 32 + n) 32)).all fun i => s.viewKey die (pa / 32 + i) == key then s.viewBytes die pa n
  else
    let l := pa / 128 * 128
    ((readLine key l (s.viewTag die l) (s.viewBytes die l 128) ((List.range 4).map fun i => s.viewKey die (l / 32 + i))).drop
      (pa % 128)).take n

/-! ## Resolved addresses -/

/-- Whether an access of n bytes at a device PA meets a fault of its line (R155, R158, R436). A full-line write never
does; a partial write reads the line first unless it is uncompressed. -/
def State.lineFault (s : State) (pa n : Nat) (write : Bool) (addr : Nat) (narrow : Bool := false) : Option FI :=
  if write && n == 128 then none
  else if tagReserved (s.tag pa) then some { cls := cCompressMeta, addr, detail := (s.tag pa).toNat }
  else match s.eccBad pa n (narrow || write) with
    | some e => some { cls := cMemEcc, addr, detail := homeDie pa + fld e.word 6 5 * 8 }
    | none => none

/-! ## Untranslated reads under key 0 (R149, R161) -/

/-- A read of n bytes within a line at a PA by a walker, the scheduler or a collier, under key 0: as the home holds it, or, for an
agent of a die, in that die's view (R179). -/
def State.readPA (s : State) (pa n : Nat) (d : Option (Fin 8) := none) : Except FI (List Byte) :=
  if pa < devSize then
    match spFind s.keys 0 with
    | none => .error { cls := cKey, addr := pa, detail := 0 }
    | some k => match s.lineFault pa n false pa with
      | some f => .error f
      | none => .ok (match d with | some d => s.viewDev d.val k pa n | none => s.devBytes k pa n)
  else if hostBase ≤ pa ∧ pa < 2 ^ 52 then
    if s.hostUp then .ok (match d with | some d => s.viewBytes d.val pa n | none => s.mem.bytes pa n) else .error (hostDown pa)
  else .error { cls := cTranslation, addr := pa, detail := 7 + 5 * 8 }

/-- The context table entry of a context (R148). -/
def State.ctxEntry (s : State) (ctx : Byte) : Except FI Nat := do
  return leValue (← s.readPA (s.ctxTable + 32 * ctx.toNat) 32)

/-- A single-bit error that a read of a context's entry meets, counted (R436). -/
def State.countEntry (s : State) (ctx : Byte) : State := s.countHit (s.ctxTable + 32 * ctx.toNat) 32 false

/-- The save area of a context (R139), or the fault that reading its entry meets. -/
def State.saveBase (s : State) (ctx : Byte) : Except FI Nat := do return fld (← s.ctxEntry ctx) 115 64

/-! ## Translation (R148 to R151) -/

/-- Detail of TRANSLATION (Table 23-1). -/
def trDetail (lvl why : Nat) : Nat := lvl + why * 8

/-- A page found by a walk; via lists the places of the entries read, from the context table's on. -/
structure Page where
  va : Nat
  size : Nat
  pa : Nat
  key : Nat
  wr : Bool
  lvl : Nat
  via : List Nat := []
  deriving DecidableEq, Repr

/-- A PA of R146. -/
def paTarget (pa : Nat) : Bool := decide (pa < devSize ∨ (hostBase ≤ pa ∧ pa < 2 ^ 52))

/-- The levels of R149: number, index field, page size of a leaf. -/
def levels : List (Nat × Nat × Nat × Nat) :=
  [(0, 55, 48, 0), (1, 47, 39, 0), (2, 38, 30, 2 ^ 30), (3, 29, 21, 2 ^ 21), (4, 20, 16, 2 ^ 16)]

/-- A walk from a table down the levels left (R149 to R151); via lists the entries already read. -/
def State.walkFrom (s : State) (va : Nat) : List (Nat × Nat × Nat × Nat) → Nat → List Nat → Except FI Page
  | [], _, _ => .error { cls := cTranslation, addr := va, detail := trDetail 4 1 }
  | (lvl, hi, lo, size) :: rest, table, via => do
    let err (why : Nat) : FI := { cls := cTranslation, addr := va, detail := trDetail lvl why }
    let at_ := table + 8 * fld va hi lo
    if !paTarget at_ then throw (err 5)
    let e := leValue (← (s.readPA at_ 8).mapError fun f => { f with addr := va })
    if !bitOf e 0 then throw (err 0)
    else if bitOf e 2 then
      if size = 0 then throw (err 1)
      else if fld e 13 3 ≠ 0 then throw (err 2)
      else
        let pa := fld e 49 14 * 2 ^ 16
        if pa % size ≠ 0 then throw (err 3)
        else return { va := va / size * size, size, pa, key := fld e 63 50, wr := bitOf e 1, lvl, via := at_ :: via }
    else if rest = [] then throw (err 1)
    else if fld e 63 52 ≠ 0 ∨ fld e 7 3 ≠ 0 ∨ bitOf e 1 then throw (err 2)
    else s.walkFrom va rest (fld e 51 8 * 256) (at_ :: via)

/-- A walk of a context's tables (R148, R149). -/
def State.walk (s : State) (ctx : Byte) (va : Nat) : Except FI Page := do
  let e ← (s.ctxEntry ctx).mapError fun f => { f with addr := va }
  s.walkFrom va levels (fld e 51 8 * 256) [s.ctxTable + 32 * ctx.toNat]

/-- The level whose leaf maps a page size. -/
def levelOfSize (n : Nat) : Nat := if n = 2 ^ 30 then 2 else if n = 2 ^ 21 then 3 else 4

/-- The page of a VA: the leaf in the die's translation cache, else the walk's (R152; log entry 8). -/
def State.page (s : State) (die : Fin 8) (ctx : Byte) (va : Nat) : Except FI Page :=
  match s.tlb.find? fun l => l.die == die && l.ctx == ctx && decide (l.va ≤ va ∧ va < l.va + l.size) with
  | some l => .ok { va := l.va, size := l.size, pa := l.pa, key := l.key, wr := l.wr, lvl := levelOfSize l.size }
  | none => s.walk ctx va

/-- An access of n bytes through a leaf (R151, R161). -/
def State.leafLoc (s : State) (p : Page) (va n : Nat) (write : Bool) : Except FI Loc := do
  let err (why : Nat) : FI := { cls := cTranslation, addr := va, detail := trDetail p.lvl why }
  if write && !p.wr then throw (err 4)
  let pa := p.pa + (va - p.va)
  if !paTarget pa then throw (err 5)
  if va - p.va + n > p.size then throw (err 6)
  if pa < devSize then
    match spFind s.keys p.key with
    | none => throw { cls := cKey, addr := va, detail := p.key }
    | some k => return ⟨.dev, pa, k, p.via⟩
  else return ⟨.host, pa, 0, p.via⟩

/-- A translated address of a context for an access of n bytes (R151, R161). -/
def State.translate (s : State) (die : Fin 8) (ctx : Byte) (va n : Nat) (write : Bool) : Except FI Loc := do
  s.leafLoc (← s.page die ctx va) va n write

/-- Who makes an access: the die and core of its local window, whether that window is a collier's, and the context. -/
structure Who where
  die : Fin 8
  core : Nat
  collier : Bool
  ctx : Byte
  deriving DecidableEq, Repr

/-- An address of an agent, for n bytes (R145, R309): the local window below 2^32, else translated. -/
def State.resolve (s : State) (w : Who) (a : Int) (n : Nat) (write : Bool) : Except FI Loc :=
  if a < 0 ∨ 2 ^ 56 ≤ a then
    .error { cls := cTranslation, addr := trunc a 56, detail := trDetail 7 7 }
  else
    let A := a.toNat
    if A < 2 ^ 32 then
      if !w.collier && decide (A < 2 ^ 20) then .ok { space := .local_, at_ := coreMemBase w.die.val w.core + A }
      else if w.collier && decide (A < 0x40000) then .ok { space := .local_, at_ := collierBase w.die.val + A }
      else if w.collier && decide (0x10000000 ≤ A ∧ A < 0x18000000) then
        .ok { space := .local_, at_ := coreMemBase w.die.val 0 + (A - 0x10000000) }
      else .error { cls := cTranslation, addr := A, detail := trDetail 7 8 }
    else s.translate w.die w.ctx A n write

/-- The faults of the line an access reaches, after its address has been resolved: COMPRESS-META and MEM-ECC for
device memory, a damaged word of core memory or of a collier's store (R437), a host link that is down (R454). addr is the address that faults. -/
def State.accessFault (s : State) (l : Loc) (n : Nat) (write : Bool) (addr : Nat) (narrow : Bool := false) : Option FI :=
  match l.space with
  | .dev => s.lineFault l.at_ n write addr narrow
  | .local_ =>
    if write then none else s.localFault l.at_ n addr
  | .host => if s.hostUp then none else some (hostDown addr)

/-- An access checked whole: alignment first (R413), then translation, KEY and the line. -/
def State.access (s : State) (w : Who) (a : Int) (n align : Nat) (write : Bool) (narrow : Bool := false) : Except FI Loc := do
  if a % align ≠ 0 then throw { cls := cAlign, addr := trunc a 56 }
  let l ← s.resolve w a n write
  match s.accessFault l n write (trunc a 56) narrow with
  | some f => throw f
  | none => return l

/-! ## Reads in a view and at home -/

/-- The bytes at a resolved address as an agent of a die reads them. -/
def State.view (s : State) (die : Nat) (l : Loc) (n : Nat) : List Byte :=
  match l.space with
  | .local_ => s.mem.bytes l.at_ n
  | .dev => s.viewDev die l.key l.at_ n
  | .host => s.viewBytes die l.at_ n

/-- The bytes at a resolved address as its home holds them (atomics, R183). -/
def State.home (s : State) (l : Loc) (n : Nat) : List Byte :=
  match l.space with
  | .dev => s.devBytes l.key l.at_ n
  | _ => s.mem.bytes l.at_ n

/-- The bytes written at home, with no regard to views. -/
def State.putHome (s : State) (l : Loc) (bs : List Byte) : State :=
  match l.space with
  | .dev => s.putDev l.key l.at_ bs
  | _ => { s with mem := s.mem.store l.at_ bs }

/-! ## What happens before what (R174 to R178) -/

/-- What an agent knows (R177). -/
def State.knows (s : State) (ak : Nat) : Know := spGet {} s.know ak

/-- An agent's knowledge replaced. -/
def State.setKnow (s : State) (ak : Nat) (k : Know) : State := { s with know := spInsert s.know ak k }

/-- Two lists joined without repeats. -/
def union {α : Type} [BEq α] (a b : List α) : List α := a ++ b.filter fun x => !a.contains x

/-- Write id has issued and is not yet performed at all. -/
def State.inFlight (s : State) (id : Nat) : Bool := s.flying.any fun f => f.id == id

/-- Write id has not been applied by die d. -/
def State.pendingAt (s : State) (d : Nat) (id : Nat) : Bool :=
  s.inFlight id || s.pend.any fun w => w.id == id && w.todo.getLsbD d

/-- Write id has not been applied by some die. -/
def State.pending (s : State) (id : Nat) : Bool := s.inFlight id || s.pend.any fun w => w.id == id && w.todo != 0

/-- Some access of a core has issued and is not yet performed. -/
def State.ownFlying (s : State) (ak : Nat) : Bool := s.flying.any fun f => agentIdx f.agent == ak

/-- A load of a core has issued and is not yet performed. -/
def State.ownLoads (s : State) (ak : Nat) : Bool :=
  s.flying.any fun f => agentIdx f.agent == ak && (match f.kind with | .store _ | .famo _ => false | _ => true)

/-- Some access of an agent is not yet performed towards every die. -/
def State.ownPending (s : State) (ak : Nat) : Bool :=
  s.ownFlying ak || s.pend.any fun w => w.agent == ak && w.todo != 0

/-- The agent's writes that some die has not applied. -/
def State.ownWrites (s : State) (ak : Nat) : List Nat := (s.pend.filter fun w => w.agent == ak).map (·.id)

/-- The cells of n bytes. -/
def cellsOf (at_ : Nat) (bs : List Byte) : List Host.Cell := (range at_ bs.length).zip bs

/-- A place of a memory lies among n bytes. -/
def within (at_ n k : Nat) : Bool := decide (at_ ≤ k ∧ k < at_ + n)

/-- Two accesses touch a common byte. -/
def Fly.meets (f : Fly) (l : Loc) (n : Nat) : Bool := decide (f.loc.at_ < l.at_ + n ∧ l.at_ < f.loc.at_ + f.n)

/-- The writes among those still kept that a read of n bytes by an agent of die d returns a byte of: applied by d, and at that byte
the last of those in coherence order. -/
def State.newest (s : State) (d at_ n : Nat) : List PendW :=
  s.pend.filter fun w => !w.todo.getLsbD d && w.cells.any fun c => within at_ n c.1 &&
    !(s.pend.any fun y => decide (w.co < y.co) && !y.todo.getLsbD d && y.cells.any (·.1 == c.1))

/-- The writes that agent q has before its later ordered accesses once it has read w: w, and those ordered before it towards q
(R170, R177). -/
def PendW.gives (w : PendW) (q : Nat) : List Nat :=
  w.id :: (w.deps.filter fun e => inScope w.agent e.2 q).map (·.1)

/-- What an acquire by q gets as well, through a chain of atomics (R177). -/
def PendW.chained (w : PendW) (q : Nat) : List Nat := (w.chain.filter fun e => inScope e.2.1 e.2.2 q).map (·.1)

/-- What an atomic that reads w hands on. -/
def PendW.handsOn (w : PendW) : List (Nat × Nat × Scope) :=
  (match w.rel with
    | some sc => (w.id, w.agent, sc) :: w.deps.map fun e => (e.1, w.agent, e.2)
    | none => []) ++ w.chain

/-- Records of writes that nothing waits for any more are dropped: every die has applied them, all that is ordered before them is
performed, and no older write of their bytes is kept. -/
def State.prune (s : State) : State :=
  { s with pend := s.pend.filter fun w => w.todo != 0 || w.deps.any (fun e => s.pending e.1) || w.chain.any (fun e => s.pending e.1) ||
      s.pend.any fun y => decide (y.co < w.co) && y.cells.any fun c => w.cells.any (·.1 == c.1) }

/-- What an agent learns from a read of n bytes; an acquire of scope S orders what it gets from an agent within S before its every
later access (R169, R170, R175, R177). -/
def State.noteRead (s : State) (die : Nat) (ak : Nat) (acq : Option Scope) (l : Loc) (n : Nat) : State :=
  let ws := s.newest die l.at_ n
  if ws = [] then s
  else
    let k := s.knows ak
    let seen := (ws.map (·.gives ak)).flatten
    let got : List (Nat × Scope) := match acq with
      | none => []
      | some sc => ((ws.filter fun w => inScope ak sc w.agent).map fun w => (w.gives ak ++ w.chained ak).map (·, sc)).flatten
    s.setKnow ak
      { obs := (union k.obs (union seen (got.map (·.1)))).filter s.pending
        ord := (union k.ord got).filter fun e => s.pending e.1 }

/-- A fence of scope S: what the agent has made or seen is ordered before its later accesses, and a token sent later waits for its
accesses (R175, R352). -/
def State.noteFence (s : State) (ak : Nat) (sc : Scope) : State :=
  let k := s.knows ak
  { s.setKnow ak { k with ord := union k.ord (k.obs.map (·, sc)) } with
    flying := s.flying.map fun f => if agentIdx f.agent = ak then { f with ordered := true } else f }

/-- The writes ordered before a write that an agent makes now (R175): those ordered before its every access, and for a release
all that it has made or seen. -/
def State.before (s : State) (ak : Nat) (rel : Option Scope) : List (Nat × Scope) :=
  let k := s.knows ak
  (union k.ord (match rel with | some sc => k.obs.map (·, sc) | none => [])).filter fun e => s.pending e.1

/-! ## Reads and writes performed -/

/-- The links that an access of die d to a place crosses are open (R21, R391). -/
def State.linkTo (s : State) (d : Fin 8) (l : Loc) : Bool :=
  match l.space with
  | .local_ => true
  | .dev => s.linkOpen (some d.val) (homeDie l.at_)
  | .host => s.linkOpen none d.val

/-- What is ordered, towards an agent of die d, before the writes that it reads n bytes of, is performed there (R178). -/
def State.depsMet (s : State) (ak : Nat) (d : Fin 8) (l : Loc) (n : Nat) : Bool :=
  (s.newest d.val l.at_ n).all fun w => w.deps.all fun e => !inScope w.agent e.2 ak || !s.pendingAt d.val e.1

/-- An access of n bytes by an agent of die d may be performed now: the links it crosses are open, its agent's earlier
accesses to those bytes are performed (R174), and so is what comes before the writes that it reads. -/
def State.mayAccess (s : State) (ak : Nat) (d : Fin 8) (l : Loc) (n : Nat) : Bool :=
  s.linkTo d l && !(s.flying.any fun f => agentIdx f.agent == ak && f.meets l n) && s.depsMet ak d l n

/-- The bytes that the dies of todo have not applied yet stay in their overlays with the value they now see. -/
def overlay (s : State) (todo : BitVec 8) (co : Nat) (old : List Host.Cell) : Sparse Stale :=
  (List.range 8).foldl (fun m d =>
    old.foldl (fun m c =>
      let k := staleKey d c.1
      if todo.getLsbD d then
        (if (spFind m k).isSome then m else spInsert m k ⟨c.2, co - 1, spGet 0 s.skeys (c.1 / 32)⟩)
      else spErase m k) m) s.stale

/-- So do the tags of their lines. -/
def overlayTag (s : State) (todo : BitVec 8) (co line : Nat) : Sparse (BitVec 4 × Nat) :=
  (List.range 8).foldl (fun m d =>
    let k := staleKey d line
    if todo.getLsbD d then (if (spFind m k).isSome then m else spInsert m k (s.tag (128 * line), co - 1)) else spErase m k) s.staleTags

/-- Errors that a write of n bytes removes: sectors of HBM4E written whole, and words of core memory written whole
(R437; log entry 17). -/
def State.heal (s : State) (sp : Space) (at_ n : Nat) : State :=
  { s with ecc := s.ecc.filter fun e => !(match sp with
      | .local_ => e.within at_ n
      | .dev => !e.sram && decide (at_ ≤ e.word / 32 * 32 ∧ e.word / 32 * 32 + 32 ≤ at_ + n)
      | .host => false) }

/-- Single-bit errors that a write meets: in its line where that is not written whole, and in the table entries of its walk. -/
def State.correctWrite (s : State) (l : Loc) (n : Nat) : State :=
  let s1 := if l.space = .dev ∧ n ≠ 128 then s.countHit l.at_ n true else s
  l.via.foldl (fun s pa => s.countHit pa 8 false) s1

/-- The dies that have still to apply a write of an agent of a die. -/
def otherDies (die : Option (Fin 8)) : BitVec 8 := match die with | some d => 0xFF ^^^ (1 <<< d.val) | none => 0xFF

/-- A write touches a place that an operation holds. -/
def EngOp.heldAt (o : EngOp) (at_ n : Nat) : Bool := o.holds.any fun h => decide (h.1 < at_ + n ∧ at_ < h.1 + h.2)

/-- What a write of n bytes does to outstanding engine operations that forbid it (R340, R355; log entries 74 and 75): they are spoiled,
and of a queue descriptor every byte is undefined until software writes it again with no operation on it. -/
def State.spoil (s : State) (at_ n : Nat) : State :=
  let hit := s.engine.filter (·.heldAt at_ n)
  if hit = [] ∧ s.spoiled = [] then s
  else
    let descs := (hit.filter fun o => match o.kind with | .qpush .. | .qpop .. => true | _ => false).map (·.holds)
    { s with
      engine := s.engine.map fun o => if o.heldAt at_ n then { o with bad := true } else o
      spoiled := union (s.spoiled.filter fun k => !within at_ n k) (descs.flatten.map fun h => range h.1 h.2).flatten }

/-- A write takes its place in the coherence order, under a name given before: it enters the home, and the view of its agent's die
(none for an agent of no die); each other die's view when that die applies it (R174, R179). Core memory has one view. -/
def State.enter (s : State) (id : Nat) (die : Option (Fin 8)) (ak : Nat) (deps : List (Nat × Scope)) (rel : Option Scope)
    (chain : List (Nat × Nat × Scope)) (l : Loc) (bs : List Byte) : State :=
  let s1 := (((s.correctWrite l bs.length).putHome l bs).heal l.space l.at_ bs.length).spoil l.at_ bs.length
  let deps := deps.filter fun e => s.pending e.1
  let chain := chain.filter fun e => s.pending e.1
  let w : PendW := { id, co := s.nextCo, cells := cellsOf l.at_ bs, deps, agent := ak, rel, chain, todo := 0 }
  match l.space with
  | .local_ =>
    if deps = [] ∧ chain = [] ∧ s.pend.all (fun y => !y.cells.any fun c => within l.at_ bs.length c.1) then s1
    else { s1 with pend := s1.pend ++ [w], nextCo := s.nextCo + 1 }
  | _ =>
    let todo := otherDies die
    { s1 with
      stale := overlay s todo s.nextCo (cellsOf l.at_ (s.mem.bytes l.at_ bs.length))
      staleTags := if l.space = .dev then overlayTag s todo s.nextCo (l.at_ / 128) else s.staleTags
      pend := s1.pend ++ [{ w with todo, tag := s1.tag l.at_, key := l.key }]
      nextCo := s.nextCo + 1 }

/-- Write id is among what an agent has made. -/
def State.noteOwn (s : State) (ak id : Nat) : State :=
  let k := s.knows ak
  s.setKnow ak { k with obs := union k.obs [id] }

/-- A write of an agent of a die (none for an agent of no die), performed now. rel is the scope of its release, chain what
an atomic hands on. -/
def State.write (s : State) (die : Option (Fin 8)) (ak : Nat) (rel : Option Scope) (l : Loc) (bs : List Byte)
    (chain : List (Nat × Nat × Scope) := []) : State :=
  (({ s with nextW := s.nextW + 1 }).enter s.nextW die ak (s.before ak rel) rel chain l bs).noteOwn ak s.nextW

/-- The newest write to a location that die d has not applied, later in coherence order than co. -/
def State.newer (s : State) (d co at_ : Nat) : Bool :=
  s.pend.any fun w => decide (co < w.co) && w.todo.getLsbD d && w.cells.any fun c => c.1 == at_

/-- Die d applies the write w: each location of its view moves forward only (R179). -/
def State.applyAt (s : State) (d : Nat) (w : PendW) : State :=
  let stale := w.cells.foldl (fun m c =>
    let k := staleKey d c.1
    match spFind m k with
    | none => m
    | some x =>
      if x.co < w.co then (if s.newer d w.co c.1 then spInsert m k ⟨c.2, w.co, w.key⟩ else spErase m k) else m) s.stale
  let staleTags := match w.cells with
    | [] => s.staleTags
    | c :: _ =>
      let k := staleKey d (c.1 / 128)
      match spFind s.staleTags k with
      | none => s.staleTags
      | some x =>
        if x.2 < w.co then
          (if s.pend.any fun y => decide (w.co < y.co) && y.todo.getLsbD d && y.cells.any fun e => e.1 / 128 == c.1 / 128
            then spInsert s.staleTags k (w.tag, w.co) else spErase s.staleTags k)
        else s.staleTags
  let todo := w.todo &&& ~~~(1#8 <<< d)
  ({ s with
    stale
    staleTags
    pend := s.pend.map fun (x : PendW) => if x.id == w.id then { x with todo } else x }).prune

/-- Die d may apply the write w: it has applied every write ordered before w by an order that binds it (R170, R180). -/
def State.canApply (s : State) (d : Nat) (w : PendW) : Bool :=
  w.todo.getLsbD d && w.deps.all fun e => !bindsDie w.agent e.2 d || !s.pendingAt d e.1

/-- The way of a write to a die: from the home of its line, or from the host (R15, R21). -/
def State.wayTo (s : State) (d : Nat) (w : PendW) : Bool :=
  match w.cells with
  | [] => true
  | c :: _ => if c.1 < devSize then s.linkOpen (some (homeDie c.1)) d else s.linkOpen none d

/-- The write applied by every die that has not, where each may. -/
def State.applyAll (s : State) (id : Nat) : State :=
  (List.range 8).foldl (fun s d =>
    match s.pend.find? (·.id == id) with
    | some w => if s.canApply d w && s.wayTo d w then s.applyAt d w else s
    | none => s) s

end Sys2Proof.Machine
end

