-- ==== Sys2Proof/Machine/Ops.lean ====
section
/-! DEFINITION. Named operations over registers, cores, launches and faults: register access (R218), the precise core
fault and the trap handler (R414 to R418), the return from it (R417), fault records (R421), their delivery (R422 to R424),
and how a core instruction completes (R134, R135, R299). -/

namespace Sys2Proof.Machine

/-! ## Cores -/

/-- The core that issues. -/
def State.me (s : State) : Core := s.core s.cur

/-- The issuing core replaced. -/
def State.setMe (s : State) (c : Core) : State := s.setCore s.cur c

/-- A general register; g0 reads 0 (R218). -/
def Core.rg (c : Core) (n : GReg) : DWord := if n = 0 then 0 else c.g[n.val]

/-- A general register written; a write to g0 is discarded (R218). -/
def Core.wg (c : Core) (n : GReg) (x : DWord) : Core := if n = 0 then c else { c with g := c.g.set n.val x }

/-- A predicate; p0 reads all ones (R218). -/
def Core.rp (c : Core) (n : PReg) : Word := if n = 0 then BitVec.allOnes 32 else c.p[n.val]

/-- A predicate written; a write to p0 is discarded (R218). -/
def Core.wp (c : Core) (n : PReg) (x : Word) : Core := if n = 0 then c else { c with p := c.p.set n.val x }

/-- A scalar result: all 32 bits of the predicate (R219). -/
def Core.wpBool (c : Core) (n : PReg) (b : Bool) : Core := c.wp n (if b then BitVec.allOnes 32 else 0)

/-- A vector register. -/
def Core.rv (c : Core) (n : VReg) : Vector Word 32 := c.v[n.val]

/-- A vector register written. -/
def Core.wv (c : Core) (n : VReg) (x : Vector Word 32) : Core := { c with v := c.v.set n.val x }

/-- Flags ORed into FPCTL [20:16] (R71). -/
def Core.orFlags (c : Core) (f : Flags) : Core := { c with fpctl := c.fpctl ||| (f.setWidth 64 <<< 16) }

/-- A guard read at issue (R208, R219). -/
def Core.guard (c : Core) (x : Guard) : Bool := (c.rp x.p).getLsbD 0 != x.neg

/-- The context of an agent's accesses. -/
def Core.ctx (c : Core) : Byte := c.ctxid.setWidth 8

/-- Who an agent's accesses are made by. -/
def State.who (s : State) (a : Agent) : Who :=
  { die := a.die, core := a.core.val, collier := a.kind == .collier, ctx := (s.core a).ctx }

/-- Who the issuing core's accesses are made by. -/
def State.whoMe (s : State) : Who := s.who s.cur

/-- The 16-bit source number of an agent or station (R421). -/
def agentSrc (a : Agent) : BitVec 16 :=
  match a.kind with
  | .collier => BitVec.ofNat 16 (a.die.val * 8192)
  | _ => BitVec.ofNat 16 (a.die.val * 8192 + a.core.val * 64)

/-- The kind field of a record (R421). -/
def agentKind (a : Agent) : BitVec 2 :=
  match a.kind with
  | .access => 1 | .drain => 2 | .collier => 3

/-- A core word at a pc of an agent's store (R217). -/
def State.coreWord (s : State) (a : Agent) (pc : Nat) : Nat := leValue (s.mem.bytes (istoreBase a + pc % 65536) 4)

/-! ## Fault records (R421) -/

/-- Bits [511:256] of a record as one number. -/
def FRec.high (r : FRec) : Nat :=
  r.tag.toNat * 2 ^ 192 + r.addr.toNat * 2 ^ 136 + r.slot.toNat * 2 ^ 132 + r.level.toNat * 2 ^ 130
    + r.pc.toNat * 2 ^ 112 + r.detail.toNat * 2 ^ 96 + r.nidx.toNat * 2 ^ 80 + r.lid.toNat * 2 ^ 64
    + r.src.toNat * 2 ^ 48 + r.kind.toNat * 2 ^ 46 + r.cls.toNat * 2 ^ 32 + r.ctx.toNat * 2 ^ 24 + r.code.toNat * 2 ^ 14

/-- The 64 bytes of a record. -/
def FRec.bytes (r : FRec) : List Byte := leBytes 64 (r.high * 2 ^ 256 + r.word.toNat * 2 ^ 128)

/-- FAULTREC's value: bits [319:256] (R415). -/
def FRec.faultrec (r : FRec) : DWord := BitVec.ofNat 64 r.high

/-- A launch index in a record; 0xFFFF when none (R421). -/
def lidBits (l : Option Nat) : BitVec 16 := match l with | some n => BitVec.ofNat 16 n | none => 0xFFFF

/-- The record of a core's fault at address pc (R421). -/
def State.coreRec (s : State) (a : Agent) (pc : BitVec 16) (two : Bool) (f : FI) : FRec :=
  let c := s.core a
  let w0 := s.coreWord a pc.toNat
  let w1 := if two then s.coreWord a (pc.toNat + 4) else 0
  { addr := BitVec.ofNat 56 f.addr, pc, detail := BitVec.ofNat 16 f.detail, lid := lidBits c.lid, src := agentSrc a
    kind := agentKind a, cls := BitVec.ofNat 8 f.cls, ctx := c.ctx, code := BitVec.ofNat 10 f.code
    word := BitVec.ofNat 128 (w0 * 2 ^ 96 + w1 * 2 ^ 64) }

/-- The record of a unit or of the scheduler (R421, R442): no launch stopped. -/
def unitRec (f : FI) (ctx : Byte) (src : BitVec 16) (tag : DWord) : FRec :=
  { tag, addr := BitVec.ofNat 56 f.addr, detail := BitVec.ofNat 16 f.detail, src, kind := 3
    cls := BitVec.ofNat 8 f.cls, ctx }

/-- Classes of route H for a core (Table 22-1); every other class goes to the collier. -/
def routeH (cls : Nat) : Bool :=
  [0x01, 0x02, 0x03, 0x04, 0x05, 0x07, 0x08, 0x0A, 0x0B, 0x0C, 0x0D, 0x0E, 0x10, 0x11, 0x12, 0x13, 0x14, 0x15, 0x16,
    0x17, 0x18, 0x19, 0x1B].contains cls

/-! ## The fault queue of a collier (R423) -/

/-- A die's shared units replaced. -/
def State.setDie (s : State) (d : Fin 8) (x : Die) : State := { s with dies := s.dies.set d.val x }

/-- A die's shared units. -/
def State.die (s : State) (d : Fin 8) : Die := s.dies[d.val]

/-- Records in a collier's fault queue (R423). -/
def Core.fqCount (c : Core) : Nat := (c.fqtail.toNat + 128 - c.fqhead.toNat) % 128

/-- A record put into a collier's fault queue, which has room (R423). -/
def State.putFault (s : State) (d : Fin 8) (r : FRec) : State :=
  let a := collierOf d
  let c := s.core a
  let at_ := collierBase d.val + fld c.fqbase.toNat 17 12 * 4096 + 64 * (c.fqtail.toNat % 64)
  ({ s with mem := s.mem.store at_ r.bytes }).setCore a { c with fqtail := BitVec.ofNat 64 ((c.fqtail.toNat + 1) % 128) }

/-- A record for a die's collier: into its fault queue, or waiting while the queue is full (R423). -/
def State.queueFault (s : State) (d : Fin 8) (r : FRec) : State :=
  if (s.core (collierOf d)).fqCount = 64 then s.setDie d { s.die d with fwait := (s.die d).fwait ++ [r] }
  else s.putFault d r

/-- Waiting records moved into the fault queue while it has room (R423); fuel bounds their number. -/
def State.drainFaults (s : State) (d : Fin 8) : Nat → State
  | 0 => s
  | n + 1 =>
    match (s.die d).fwait with
    | [] => s
    | r :: rs =>
      if (s.core (collierOf d)).fqCount = 64 then s
      else ((s.setDie d { s.die d with fwait := rs }).putFault d r).drainFaults d n

/-! ## Untranslated writes (R161): the scheduler, colliers and firmware -/

/-- Who writes untranslated: the die whose view the write enters, if any, the agent's key, and the launch on whose behalf. -/
structure By where
  die : Option (Fin 8) := none
  ak : Nat := schedKey
  lid : Option Nat := none
  deriving DecidableEq, Repr

/-- A collier of a die, on behalf of a launch or of none. -/
def byCollier (d : Fin 8) (lid : Option Nat) : By := ⟨some d, agentIdx (collierOf d), lid⟩

/-- Bytes within one line written at a PA under key 0. A partial write of a line
whose tag is reserved is not performed, and a record goes to the line's home die (R463); nothing is written where the key
slot is empty or the line has an uncorrectable error. -/
def State.writePA (s : State) (pa : Nat) (bs : List Byte) (by_ : By := {}) : State :=
  if bs = [] then s
  else if pa < devSize then
    match spFind s.keys 0 with
    | none => s
    | some k =>
      match s.lineFault pa bs.length true (pa / 128 * 128) with
      | none => s.write by_.die by_.ak (some .dev) { space := .dev, at_ := pa, key := k } bs
      | some f =>
        let d : Fin 8 := Fin.ofNat 8 (homeDie pa)
        if f.cls = cCompressMeta then
          s.queueFault d { (unitRec f 0 (agentSrc (collierOf d)) 0) with lid := lidBits by_.lid }
        else s
  else if hostBase ≤ pa ∧ pa < 2 ^ 52 ∧ s.hostUp then s.write by_.die by_.ak (some .dev) { space := .host, at_ := pa } bs
  else s

/-- Bytes written line by line from a PA; fuel counts lines. -/
def State.writeRange (s : State) (pa : Nat) (bs : List Byte) (lines : Nat) (by_ : By := {}) : State :=
  match lines with
  | 0 => s
  | n + 1 =>
    let k := 128 - pa % 128
    (s.writePA pa (bs.take k) by_).writeRange (pa + k) (bs.drop k) n by_

/-- Single-bit errors that an untranslated read of n bytes from a PA meets, line by line, counted (R436); fuel counts lines. -/
def State.countRange (s : State) (pa n : Nat) : Nat → State
  | 0 => s
  | m + 1 =>
    let k := min n (128 - pa % 128)
    if k = 0 then s else (if pa < devSize then s.countHit pa k false else s).countRange (pa + k) (n - k) m

/-- Bytes read line by line from a PA under key 0. -/
def State.readRange (s : State) (pa n : Nat) (lines : Nat) (d : Option (Fin 8) := none) : Except FI (List Byte) :=
  match lines with
  | 0 => .ok []
  | m + 1 => do
    let k := min n (128 - pa % 128)
    let a ← if k = 0 then pure [] else s.readPA pa k d
    let b ← s.readRange (pa + k) (n - k) m d
    return a ++ b

/-! ## Delivery (R422 to R424) -/

/-- Entry points of the fault log in a save area (R139, R424). -/
def faultLogOff : Nat := 2 ^ 30

/-- A record appended to a context's fault log, with MSI-X vector 1,024 + ctx (R424). -/
def State.logFault (s : State) (ctx : Byte) (r : FRec) : State :=
  let s := { s with msix := s.msix ++ [1024 + ctx.toNat] }
  let by_ : By := { lid := if r.lid = 0xFFFF then none else some r.lid.toNat }
  match s.saveBase ctx with
  | .error _ => s
  | .ok b =>
    match s.readPA (b + faultLogOff) 8 with
    | .error _ => s
    | .ok bs =>
      let n := leValue bs
      let s1 := (s.countEntry ctx).countHit (b + faultLogOff) 8 false
      (s1.writeRange (b + faultLogOff + 64 + 64 * (n % 255)) r.bytes 2 by_).writePA (b + faultLogOff) (leBytes 8 ((n + 1) % 2 ^ 64)) by_

/-- A pending launch. -/
def State.launch (s : State) (lid : Nat) : Option Launch := s.launches.find? (·.lid == lid)

/-- A pending launch changed. -/
def State.modLaunch (s : State) (lid : Nat) (f : Launch → Launch) : State :=
  { s with launches := s.launches.map fun l => if l.lid == lid then f l else l }

/-- Every core of a launch changed. -/
def State.modCores (s : State) (lid : Nat) (f : Core → Core) : State :=
  { s with cores := s.cores.map fun (k, c) => if c.lid == some lid then (k, f c) else (k, c) }

/-- A wait as it stands at a stop (R137, R329): one that is not yet satisfied is given up and made again when its instruction
is reissued; an engine's answer is still awaited. -/
def Wait.atStop : Wait → Wait
  | .counter _ _ false | .event _ false | .bar _ false | .arm Option.none | .gcfg Option.none => .none
  | w => w

/-- A running core stops at its precise point. -/
def Core.stop (c : Core) : Core := if c.run = .running then { c with run := .stopped, wait := c.wait.atStop } else c

/-- The cores of a launch stop; a LARM of theirs that the scheduler has not taken is given up (R329). -/
def State.haltCores (s : State) (lid : Nat) : State :=
  let mine (q : ArmReq) : Bool := match q.agent with
    | some a => (s.core a).lid == some lid && (s.core a).run == .running
    | none => false
  { s.modCores lid Core.stop with dies := s.dies.map fun d => { d with armq := d.armq.filter fun q => !mine q } }

/-- The die of a record's source. -/
def FRec.die (r : FRec) : Fin 8 := Fin.ofNat 8 (r.src.toNat / 8192)

/-- A fault of a launch, of route C or escalated (R422): RUNNING becomes STOPPED, a save in progress is completed with
the fault pending, and the record waits for the stop to complete. A fault of no open launch goes to the collier's queue at
once. -/
def State.stopLaunch (s : State) (lid : Option Nat) (r : FRec) : State :=
  match lid with
  | none => s.queueFault r.die r
  | some n =>
    match s.launch n with
    | none => s.queueFault r.die r
    | some l =>
      let add (l : Launch) : Launch := { l with recs := l.recs ++ [(s.now, r)], logged := l.logged ++ [r] }
      if l.st = .running ∨ (l.st = .loading ∧ l.restoring) then (s.modLaunch n fun l => { add l with st := .stopped }).haltCores n
      else if l.st = .stopped ∨ l.st = .saving then s.modLaunch n add
      else s.queueFault r.die r

/-! ## Taking a core fault (R414 to R418) and returning (R417) -/

/-- TRAPBASE.en. -/
def Core.trapEn (c : Core) : Bool := c.trapbase.getLsbD 0

/-- TRAPBASE.inh. -/
def Core.inh (c : Core) : Bool := c.trapbase.getLsbD 1

/-- Handler entry (R416). pc is the address of the faulting instruction. -/
def Core.enter (c : Core) (pc : BitVec 16) (r : FRec) (trap : Bool) : Core :=
  { c with
    faultrec := r.faultrec
    faddr := r.addr.setWidth 64
    epc := (pc &&& 0xFFFC).setWidth 64 ||| (if trap then 1 else 0)
    trapbase := c.trapbase ||| 2
    pc := (c.trapbase.setWidth 16) &&& 0xFFFC
    wait := .none }

/-- A core's precise fault at pc (R414): the handler when the class is of route H and the handler is enabled and not
running (R416), else the collier (R418). A collier serves itself: any route enters its handler, but for a damaged word of its own
store (R437); otherwise it stops and its record goes to the management controller (R418). two tells a LIMM pair. -/
def State.coreFault (s : State) (a : Agent) (pc : BitVec 16) (two : Bool) (f : FI) : State :=
  let c := s.core a
  let r := s.coreRec a pc two f
  let handled := c.trapEn && !c.inh
  match a.kind with
  | .collier =>
    if handled && !(f.cls == cSramEcc && f.detail % 16 == 7) then s.setCore a (c.enter pc r (f.cls == cTrap))
    else
      let r := if c.inh then { r with detail := r.detail ||| 0x8000 } else r
      { s.setCore a { c with run := .stopped, wait := .none } with mctp := s.mctp ++ [.collierStopped r] }
  | _ =>
    if handled && routeH f.cls then s.setCore a (c.enter pc r (f.cls == cTrap))
    else
      let r := if c.inh then { r with detail := r.detail ||| 0x8000 } else r
      (s.setCore a { c with run := .stopped, wait := .none, escalated := true }).stopLaunch c.lid r

/-! ## How a core instruction completes -/

/-- What an instruction writes to the loop registers of a level when it retires (R135). -/
structure LoopW where
  n : Fin 2
  lc : Option DWord := none
  ls : Option DWord := none
  le : Option DWord := none
  deriving DecidableEq, Repr

/-- Loop registers written. -/
def Core.loopWrite (c : Core) (w : LoopW) : Core :=
  { c with
    lc := match w.lc with | some x => c.lc.set w.n.val x | none => c.lc
    ls := match w.ls with | some x => c.ls.set w.n.val x | none => c.ls
    le := match w.le with | some x => c.le.set w.n.val x | none => c.le }

/-- How the body of an instruction ends: complete, complete with loop registers written, a transfer of control, a fault,
or waiting at issue to be tried again (R329). -/
inductive CoreOut where
  | done (s : State)
  | doneLoop (s : State) (w : LoopW)
  | jump (s : State) (pc : BitVec 16)
  | fault (f : FI)
  | wait (s : State)

/-- The back-edge test of R134 at the address pc: the loop registers after it, and where control goes. -/
def Core.backEdge (c : Core) (pc : BitVec 16) : Core × Option (BitVec 16) :=
  let test (n : Fin 2) (c : Core) : Core × Option (BitVec 16) :=
    if c.lc[n.val] ≠ 0 ∧ c.le[n.val] = pc.setWidth 64 then
      let x := c.lc[n.val] - 1
      ({ c with lc := c.lc.set n.val x }, if x ≠ 0 then some (c.ls[n.val].setWidth 16) else none)
    else (c, none)
  match test 1 c with
  | (c, some t) => (c, some t)
  | (c, none) => test 0 c

/-- A core that completes the instruction whose last word is at pc (R134, R217): loop registers, next pc. -/
def Core.retire (c : Core) (pc : BitVec 16) : Core :=
  let (c, t) := c.backEdge pc
  { c with pc := t.getD (pc + 4), wait := .none }

/-- Address of the word that makes the back-edge test and that offsets count from: the second word of a pair (R215). -/
def State.wordPc (s : State) : BitVec 16 := if s.limm.isSome then s.me.pc + 4 else s.me.pc

/-- The end of an instruction of the issuing core, given the state before it (R134, R135, R306, R414). -/
def finish (s : State) : CoreOut → State
  | .done t => { t.setMe (t.me.retire s.wordPc) with limm := none }
  | .doneLoop t w => { t.setMe ((t.me.retire s.wordPc).loopWrite w) with limm := none }
  | .jump t pc => { t.setMe { t.me with pc, wait := .none } with limm := none }
  | .fault f => { s.coreFault s.cur s.me.pc s.limm.isSome f with limm := none }
  | .wait t => { t with limm := none }

/-- A core instruction: its body when the guard is true; a false guard completes with no effect (R299). -/
def issue (x : Guard) (s : State) (body : CoreOut) : Host.Outcome State Fault Refusal :=
  .next (finish s (if s.me.guard x then body else .done s))

/-- An encoding that the core rejects, whatever the guard: ILLEGAL, precisely (R216, R299). -/
def illegal (s : State) : Host.Outcome State Fault Refusal := .next (finish s (.fault { cls := cIllegal }))

/-- A body for the agents that may issue it (R329). -/
def onlyBy (s : State) (kinds : List CoreKind) (body : CoreOut) : CoreOut :=
  if kinds.contains s.cur.kind then body else .fault { cls := cIllegal }

/-- RTE (R417): inh cleared; retry the instruction at EPC, or go on after it. -/
def Core.rte (c : Core) (two : Bool) : Core :=
  let c := { c with trapbase := c.trapbase &&& ~~~2 }
  let pc : BitVec 16 := c.epc.setWidth 16 &&& 0xFFFC
  if c.epc.getLsbD 0 then c.retire (if two then pc + 4 else pc) else { c with pc, wait := .none }

/-! ## Reads and writes of an agent -/

/-- A scope that reaches other dies. -/
def scopeDev : Scope → Bool
  | .dev | .sys => true
  | _ => false

/-- The scope that an access to a place has: core memory is reached by one die's agents (R170), and an atomic on device memory
executes at least as .die (R183). -/
def scopeAt (atomic : Bool) (sc : Scope) (l : Loc) : Scope :=
  match l.space, sc with
  | .local_, .dev | .local_, .sys => .die
  | .dev, .stn | .dev, .core => if atomic then .die else sc
  | _, _ => sc

/-- The scope of an access's acquire or release, or none when it has no such attribute. -/
def attr (on atomic : Bool) (sc : Scope) (l : Loc) : Option Scope := if on then some (scopeAt atomic sc l) else none

/-- Single-bit errors that a read meets, in its line and in the table entries of its walk: counted, and in SRAM written back (R436,
R437). -/
def State.correct (s : State) (d : Fin 8) (l : Loc) (n : Nat) (narrow : Bool := false) : State :=
  let s := l.via.foldl (fun s pa => s.countHit pa 8 false) s
  match l.space with
  | .dev => s.countHit l.at_ n narrow
  | .local_ =>
    let hit (e : EccErr) : Bool := !e.double && e.meets l.at_ n
    let k := (s.ecc.filter hit).length
    if k = 0 then s else ({ s with ecc := s.ecc.filter fun e => !hit e }).countEcc d 0 k
  | .host => s

/-- Words lo to lo + n - 1 of an SRAM store of Table 23-3 read by a unit of a die: SRAM-ECC when one of them has a double-bit
error; single-bit errors are corrected, counted and written back (R436, R437). -/
def State.sramRead (s : State) (d : Fin 8) (store : BitVec 4) (unit lo n : Nat) : Option FI × State :=
  let hit (e : EccErr) : Bool := e.sram && e.store == store && e.unit == unit && decide (lo ≤ e.word ∧ e.word < lo + n)
  match s.ecc.find? fun e => hit e && e.double with
  | some e => (some { cls := cSramEcc, detail := store.toNat + e.word % 2048 * 16 }, s)
  | none =>
    let k := (s.ecc.filter hit).length
    (none, if k = 0 then s else ({ s with ecc := s.ecc.filter fun e => !hit e }).countEcc d 0 k)

/-- The errors of words lo to lo + n - 1 of an SRAM store gone, because they are written again (R437). -/
def State.sramWrite (s : State) (store : BitVec 4) (unit lo n : Nat) : State :=
  { s with ecc := s.ecc.filter fun e => !(e.sram && e.store == store && e.unit == unit && decide (lo ≤ e.word ∧ e.word < lo + n)) }

/-- A read of n bytes at a resolved address by an agent of a die: the bytes in that die's view (R179). -/
def State.readAt (s : State) (d : Fin 8) (ak : Nat) (acq : Option Scope) (l : Loc) (n : Nat) (narrow : Bool := false) :
    List Byte × State :=
  (s.view d.val l n, (s.noteRead d.val ak acq l n).correct d l n narrow)

/-- A remote write of an agent at a peer is outstanding. -/
def State.peerPending (s : State) (a : Agent) : Bool :=
  s.peers.toList.any fun q => q.waiting.any fun w => w.2.1 == some a

/-- The issuing core must wait before a release or fence of a scope: its earlier accesses are performed first towards every agent
of the scope (R175, R181). Within one core, stores may still be on their way: whoever of the core reads the release waits for
them (depsMet). A remote write is performed at .sys (R184). -/
def State.mustRelease (s : State) : Option Scope → Bool
  | none | some .stn => false
  | some .core => s.ownLoads (agentIdx s.cur)
  | some .die => s.ownFlying (agentIdx s.cur)
  | some .dev => s.ownPending (agentIdx s.cur)
  | some .sys => s.ownPending (agentIdx s.cur) || s.peerPending s.cur

/-- The issuing core's accesses on their way are ordered before a token that it sends from now on (R352). -/
def State.markRelease (s : State) : Option Scope → State
  | none => s
  | some _ => { s with flying := s.flying.map fun f => if agentIdx f.agent = agentIdx s.cur then { f with ordered := true } else f }

/-- An access of the issuing core that issues now and is performed later (R175). -/
def State.leave (s : State) (k : FlyKind) (l : Loc) (n : Nat) (rel : Option Scope) : State :=
  let ak := agentIdx s.cur
  let f : Fly := { id := s.nextW, agent := s.cur, lid := s.me.lid, loc := l, n, kind := k, deps := s.before ak rel, rel }
  let t := { s with flying := s.flying ++ [f], nextW := s.nextW + 1 }
  match k with
  | .store _ | .amo .. | .famo _ => t.noteOwn ak s.nextW
  | _ => t

/-- A store of the issuing core: a release waits for what comes before it (R175, R181); then the store is performed at once, or issued to
be performed later. -/
def storeOut (s : State) (rel : Bool) (sc : Scope) (l : Loc) (bs : List Byte) : CoreOut :=
  let r := attr rel false sc l
  if s.mustRelease r then .wait s
  else if s.late then .done ((s.markRelease r).leave (.store bs) l bs.length r)
  else if s.mayAccess (agentIdx s.cur) s.cur.die l bs.length then
    .done ((s.markRelease r).write (some s.cur.die) (agentIdx s.cur) r l bs)
  else .wait s

/-- Work handed to an engine by the issuing instruction (R313). -/
def State.handOver (s : State) (k : EngKind) (holds : List (Nat × Nat) := []) : State :=
  let c := s.me
  let w0 := s.coreWord s.cur c.pc.toNat
  let w1 := if s.limm.isSome then s.coreWord s.cur (c.pc.toNat + 4) else 0
  let op : EngOp := ⟨s.nextId, s.cur, c.ctx, c.lid, c.pc, BitVec.ofNat 64 (w0 * 2 ^ 32 + w1), k, holds, false⟩
  { s with engine := s.engine ++ [op], nextId := s.nextId + 1 }

/-! ## Free values (log entry 10) -/

/-- n free bytes, and the state with the counter moved on. -/
def State.freeBytes (s : State) (n : Nat) : List Byte × State :=
  ((range s.fresh n).map Config.freeByte, { s with fresh := s.fresh + n })

/-- The result that a memory helper gives: a value or a fault. -/
def orFault {α : Type} (r : Except FI α) (k : α → CoreOut) : CoreOut :=
  match r with
  | .error f => .fault f
  | .ok x => k x

end Sys2Proof.Machine
end

