-- ==== Sys2Proof/Machine/Operands.lean ====
section
/-! DEFINITION. The operand forms of core instructions (R207, R215, R300, R309): the second operand of an R form, the
immediate of an I form and the address of an M form, each with and without a LIMM prefix, and results in registers. -/

namespace Sys2Proof.Machine

/-- x as a 64-bit register value. -/
def toDW (x : Int) : DWord := BitVec.ofInt 64 x

/-- The immediate of an I form: sext(imm11, 11), or under a prefix sext(imm25 * 2^11 + imm11, 36) (R215). -/
def State.immI (s : State) (imm : BitVec 11) : DWord :=
  match s.limm with
  | none => imm.signExtend 64
  | some h => (h ++ imm).signExtend 64

/-- The second source of an R form: g[gs2], or under a prefix sext(imm25, 25) (R215). -/
def State.src2 (s : State) (b : GReg) : DWord :=
  match s.limm with
  | none => s.me.rg b
  | some h => h.signExtend 64

/-- The address of an M form: g[gs1] unsigned, with sext(imm25, 25) added under a prefix, computed exactly (R309). -/
def State.addrM (s : State) (a : GReg) : Int :=
  let base : Int := (s.me.rg a).toNat
  match s.limm with
  | none => base
  | some h => base + h.toInt

/-- The issuing core with a register written. -/
def State.putG (s : State) (d : GReg) (x : DWord) : State := s.setMe (s.me.wg d x)

/-- The issuing core with a predicate written. -/
def State.putP (s : State) (d : PReg) (x : Word) : State := s.setMe (s.me.wp d x)

/-- A scalar instruction whose whole effect is a result in g[d]. -/
def putResult (x : Guard) (d : GReg) (r : DWord) (s : State) : Host.Outcome State Fault Refusal :=
  issue x s (.done (s.putG d r))

/-- A scalar instruction whose whole effect is a relation in a predicate, all 32 bits (R219). -/
def putTruth (x : Guard) (pd : PReg) (b : Bool) (s : State) : Host.Outcome State Fault Refusal :=
  issue x s (.done (s.putP pd (if b then BitVec.allOnes 32 else 0)))

/-- Bytes moved by a width code of the M format (Table 09-7). -/
def widthBytes (w : BitVec 2) : Nat := 2 ^ w.toNat

/-- A register target of a transfer: trunc(x, 16), a multiple of 4 (R306). -/
def target (x : DWord) (k : BitVec 16 → CoreOut) : CoreOut :=
  if x.toNat % 4 = 0 then k (x.setWidth 16) else .fault { cls := cAlign, addr := x.toNat % 2 ^ 16 }

/-- A register value read as a 56-bit address in range, or TRANSLATION (R309). -/
def addr56 (x : DWord) (k : Nat → CoreOut) : CoreOut :=
  if x.toNat < 2 ^ 56 then k x.toNat
  else .fault { cls := cTranslation, addr := x.toNat % 2 ^ 56, detail := trDetail 7 7 }

end Sys2Proof.Machine
end

