-- ==== Sys2Proof/Machine/Flags.lean ====
section
/-! DEFINITION. Flag computations: FPCTL of a core and the sticky flags of a station's context (R70, R71, R256, R292), and
the vector lanes' flags (R319). -/

namespace Sys2Proof.Machine

/-- The sticky flags in an FPCTL. -/
def fpFlags (v : DWord) : Flags := BitVec.ofNat 5 (fld v.toNat 20 16)

/-- The rounding mode of a vector or core rounding code (R319): dyn takes RM of FPCTL. -/
def coreRm (m : FpMode) (code : Nat) : Rm :=
  match code with
  | 1 => .rtz
  | 2 => .rup
  | 3 => .rdn
  | 7 => m.dyn
  | _ => .rne

/-- Integer overflow under sat: the clamped value and OF when it clamps (R256). -/
def satInt (w : Nat) (signed : Bool) (t : Int) : Int × Flags :=
  if t < intLo w signed then (intLo w signed, fOF)
  else if intHi w signed < t then (intHi w signed, fOF)
  else (t, 0)

/-- The flags of a list of results, ORed. -/
def orAll (fs : List Flags) : Flags := fs.foldl (· ||| ·) 0

end Sys2Proof.Machine
end

