-- ==== Sys2Proof/Machine/Scalar.lean ====
section
/-! DEFINITION. Integer arithmetic, predicates, control transfer and hardware loops (R300 to R308). -/

namespace Sys2Proof.Machine

/-! ## The functions of Table 13-1 -/

/-- The signed or, with .u, the unsigned reading of a register value. -/
def reading (u : Bool) (x : DWord) : Int := if u then x.toNat else x.toInt

/-- ADD. -/
def aluAdd (x y : DWord) : DWord := x + y
/-- SUB. -/
def aluSub (x y : DWord) : DWord := x - y
/-- MUL. -/
def aluMul (x y : DWord) : DWord := x * y
/-- MULH: floor(x * y / 2^64). -/
def aluMulh (u : Bool) (x y : DWord) : DWord := toDW (reading u x * reading u y / 2 ^ 64)
/-- DIV: the quotient rounded towards zero; all ones for y = 0 (R302). -/
def aluDiv (u : Bool) (x y : DWord) : DWord :=
  if y = 0 then BitVec.allOnes 64 else toDW ((reading u x).tdiv (reading u y))
/-- REM: x - y * quotient; x for y = 0 (R302). -/
def aluRem (u : Bool) (x y : DWord) : DWord :=
  if y = 0 then x else toDW (reading u x - reading u y * (reading u x).tdiv (reading u y))
/-- AND. -/
def aluAnd (x y : DWord) : DWord := x &&& y
/-- OR. -/
def aluOr (x y : DWord) : DWord := x ||| y
/-- XOR. -/
def aluXor (x y : DWord) : DWord := x ^^^ y
/-- ANDN: x and not y. -/
def aluAndn (x y : DWord) : DWord := x &&& ~~~y
/-- SHL: x * 2^s, 0 when s is at least 64. -/
def aluShl (x y : DWord) : DWord := if y.toNat < 64 then x <<< y.toNat else 0
/-- SHR: floor(x unsigned / 2^s), 0 when s is at least 64. -/
def aluShr (x y : DWord) : DWord := if y.toNat < 64 then x >>> y.toNat else 0
/-- SRA: floor(x signed / 2^s), all sign bits when s is at least 64. -/
def aluSra (x y : DWord) : DWord := x.sshiftRight (min y.toNat 63)
/-- MIN: the smaller. -/
def aluMin (u : Bool) (x y : DWord) : DWord := if reading u x ≤ reading u y then x else y
/-- MAX: the larger. -/
def aluMax (u : Bool) (x y : DWord) : DWord := if reading u x ≤ reading u y then y else x
/-- SLT: 1 if x < y, else 0. -/
def aluSlt (u : Bool) (x y : DWord) : DWord := if reading u x < reading u y then 1 else 0

/-- The relations of CMP (R304). -/
def relHolds (r : CRel) (x y : DWord) : Bool :=
  match r with
  | .eq => x == y
  | .ne => x != y
  | .lt => x.slt y
  | .le => x.sle y
  | .gt => y.slt x
  | .ge => y.sle x
  | .ltu => x.ult y
  | .leu => x.ule y
  | .gtu => y.ult x
  | .geu => y.ule x

/-- The functions of BITC over 64 bits (R303). -/
def bitc64 (f : BitFn) (x : DWord) : DWord :=
  match f with
  | .popc => BitVec.ofNat 64 (popcount 64 x.toNat)
  | .clz => BitVec.ofNat 64 (clz 64 x.toNat)
  | .ctz => BitVec.ofNat 64 (ctz 64 x.toNat)
  | .brev => BitVec.ofNat 64 (brev 64 x.toNat)

/-- The bitwise functions of Table 11-3. -/
def logicApply {w : Nat} (f : LogicFn) (x y : BitVec w) : BitVec w :=
  match f with
  | .and => x &&& y
  | .or => x ||| y
  | .xor => x ^^^ y
  | .andn => x &&& ~~~y
  | .orn => x ||| ~~~y
  | .xnor => ~~~(x ^^^ y)

/-! ## R forms and I forms (R300 to R302) -/

/-- ADD, R form. -/
def execAddR (x : Guard) (d a b : GReg) (s : State) : Host.Outcome State Fault Refusal :=
  putResult x d (aluAdd (s.me.rg a) (s.src2 b)) s

/-- SUB, R form. -/
def execSubR (x : Guard) (d a b : GReg) (s : State) : Host.Outcome State Fault Refusal :=
  putResult x d (aluSub (s.me.rg a) (s.src2 b)) s

/-- MUL, R form. -/
def execMulR (x : Guard) (d a b : GReg) (s : State) : Host.Outcome State Fault Refusal :=
  putResult x d (aluMul (s.me.rg a) (s.src2 b)) s

/-- MULH, R form. -/
def execMulhR (x : Guard) (u : Bool) (d a b : GReg) (s : State) : Host.Outcome State Fault Refusal :=
  putResult x d (aluMulh u (s.me.rg a) (s.src2 b)) s

/-- DIV, R form. -/
def execDivR (x : Guard) (u : Bool) (d a b : GReg) (s : State) : Host.Outcome State Fault Refusal :=
  putResult x d (aluDiv u (s.me.rg a) (s.src2 b)) s

/-- REM, R form. -/
def execRemR (x : Guard) (u : Bool) (d a b : GReg) (s : State) : Host.Outcome State Fault Refusal :=
  putResult x d (aluRem u (s.me.rg a) (s.src2 b)) s

/-- AND, R form. -/
def execAndR (x : Guard) (d a b : GReg) (s : State) : Host.Outcome State Fault Refusal :=
  putResult x d (aluAnd (s.me.rg a) (s.src2 b)) s

/-- OR, R form. -/
def execOrR (x : Guard) (d a b : GReg) (s : State) : Host.Outcome State Fault Refusal :=
  putResult x d (aluOr (s.me.rg a) (s.src2 b)) s

/-- XOR, R form. -/
def execXorR (x : Guard) (d a b : GReg) (s : State) : Host.Outcome State Fault Refusal :=
  putResult x d (aluXor (s.me.rg a) (s.src2 b)) s

/-- ANDN, R form. -/
def execAndnR (x : Guard) (d a b : GReg) (s : State) : Host.Outcome State Fault Refusal :=
  putResult x d (aluAndn (s.me.rg a) (s.src2 b)) s

/-- SHL, R form. -/
def execShlR (x : Guard) (d a b : GReg) (s : State) : Host.Outcome State Fault Refusal :=
  putResult x d (aluShl (s.me.rg a) (s.src2 b)) s

/-- SHR, R form. -/
def execShrR (x : Guard) (d a b : GReg) (s : State) : Host.Outcome State Fault Refusal :=
  putResult x d (aluShr (s.me.rg a) (s.src2 b)) s

/-- SRA, R form. -/
def execSraR (x : Guard) (d a b : GReg) (s : State) : Host.Outcome State Fault Refusal :=
  putResult x d (aluSra (s.me.rg a) (s.src2 b)) s

/-- MIN, R form. -/
def execMinR (x : Guard) (u : Bool) (d a b : GReg) (s : State) : Host.Outcome State Fault Refusal :=
  putResult x d (aluMin u (s.me.rg a) (s.src2 b)) s

/-- MAX, R form. -/
def execMaxR (x : Guard) (u : Bool) (d a b : GReg) (s : State) : Host.Outcome State Fault Refusal :=
  putResult x d (aluMax u (s.me.rg a) (s.src2 b)) s

/-- SLT, R form. -/
def execSltR (x : Guard) (u : Bool) (d a b : GReg) (s : State) : Host.Outcome State Fault Refusal :=
  putResult x d (aluSlt u (s.me.rg a) (s.src2 b)) s

/-- ADD, I form. -/
def execAddI (x : Guard) (d a : GReg) (imm : BitVec 11) (s : State) : Host.Outcome State Fault Refusal :=
  putResult x d (aluAdd (s.me.rg a) (s.immI imm)) s

/-- SUB, I form. -/
def execSubI (x : Guard) (d a : GReg) (imm : BitVec 11) (s : State) : Host.Outcome State Fault Refusal :=
  putResult x d (aluSub (s.me.rg a) (s.immI imm)) s

/-- MUL, I form. -/
def execMulI (x : Guard) (d a : GReg) (imm : BitVec 11) (s : State) : Host.Outcome State Fault Refusal :=
  putResult x d (aluMul (s.me.rg a) (s.immI imm)) s

/-- MULH, I form. -/
def execMulhI (x : Guard) (d a : GReg) (imm : BitVec 11) (s : State) : Host.Outcome State Fault Refusal :=
  putResult x d (aluMulh false (s.me.rg a) (s.immI imm)) s

/-- DIV, I form. -/
def execDivI (x : Guard) (d a : GReg) (imm : BitVec 11) (s : State) : Host.Outcome State Fault Refusal :=
  putResult x d (aluDiv false (s.me.rg a) (s.immI imm)) s

/-- REM, I form. -/
def execRemI (x : Guard) (d a : GReg) (imm : BitVec 11) (s : State) : Host.Outcome State Fault Refusal :=
  putResult x d (aluRem false (s.me.rg a) (s.immI imm)) s

/-- AND, I form. -/
def execAndI (x : Guard) (d a : GReg) (imm : BitVec 11) (s : State) : Host.Outcome State Fault Refusal :=
  putResult x d (aluAnd (s.me.rg a) (s.immI imm)) s

/-- OR, I form. -/
def execOrI (x : Guard) (d a : GReg) (imm : BitVec 11) (s : State) : Host.Outcome State Fault Refusal :=
  putResult x d (aluOr (s.me.rg a) (s.immI imm)) s

/-- XOR, I form. -/
def execXorI (x : Guard) (d a : GReg) (imm : BitVec 11) (s : State) : Host.Outcome State Fault Refusal :=
  putResult x d (aluXor (s.me.rg a) (s.immI imm)) s

/-- ANDN, I form. -/
def execAndnI (x : Guard) (d a : GReg) (imm : BitVec 11) (s : State) : Host.Outcome State Fault Refusal :=
  putResult x d (aluAndn (s.me.rg a) (s.immI imm)) s

/-- SHL, I form. -/
def execShlI (x : Guard) (d a : GReg) (imm : BitVec 11) (s : State) : Host.Outcome State Fault Refusal :=
  putResult x d (aluShl (s.me.rg a) (s.immI imm)) s

/-- SHR, I form. -/
def execShrI (x : Guard) (d a : GReg) (imm : BitVec 11) (s : State) : Host.Outcome State Fault Refusal :=
  putResult x d (aluShr (s.me.rg a) (s.immI imm)) s

/-- SRA, I form. -/
def execSraI (x : Guard) (d a : GReg) (imm : BitVec 11) (s : State) : Host.Outcome State Fault Refusal :=
  putResult x d (aluSra (s.me.rg a) (s.immI imm)) s

/-- MIN, I form. -/
def execMinI (x : Guard) (d a : GReg) (imm : BitVec 11) (s : State) : Host.Outcome State Fault Refusal :=
  putResult x d (aluMin false (s.me.rg a) (s.immI imm)) s

/-- MAX, I form. -/
def execMaxI (x : Guard) (d a : GReg) (imm : BitVec 11) (s : State) : Host.Outcome State Fault Refusal :=
  putResult x d (aluMax false (s.me.rg a) (s.immI imm)) s

/-- SLT, I form. -/
def execSltI (x : Guard) (d a : GReg) (imm : BitVec 11) (s : State) : Host.Outcome State Fault Refusal :=
  putResult x d (aluSlt false (s.me.rg a) (s.immI imm)) s

/-- BITC (R303). -/
def execBitc (x : Guard) (fn : BitFn) (d a : GReg) (s : State) : Host.Outcome State Fault Refusal :=
  putResult x d (bitc64 fn (s.me.rg a)) s

/-! ## Predicates (R304, R305) -/

/-- CMP, R form. -/
def execCmpR (x : Guard) (rel : CRel) (pd : PReg) (a b : GReg) (s : State) : Host.Outcome State Fault Refusal :=
  putTruth x pd (relHolds rel (s.me.rg a) (s.src2 b)) s

/-- CMP, I form. -/
def execCmpI (x : Guard) (rel : CRel) (pd : PReg) (a : GReg) (imm : BitVec 11) (s : State) :
    Host.Outcome State Fault Refusal :=
  putTruth x pd (relHolds rel (s.me.rg a) (s.immI imm)) s

/-- PLOG. -/
def execPlog (x : Guard) (op : PlogOp) (s : State) : Host.Outcome State Fault Refusal :=
  issue x s (.done (match op with
    | .bool f pd pa pb => s.putP pd (logicApply f (s.me.rp pa) (s.me.rp pb))
    | .fromg pd a => s.putP pd ((s.me.rg a).setWidth 32)
    | .tog d pa => s.putG d ((s.me.rp pa).setWidth 64)))

/-! ## Control transfer (R306) -/

/-- A B-format target: the word's own pc + 4 * sext(off21, 21), modulo 2^16 (R217). -/
def branchTo (pc : BitVec 16) (off : BitVec 21) : BitVec 16 := pc + 4 * off.signExtend 16

/-- The link value: the address after the word. -/
def linkOf (pc : BitVec 16) : DWord := (pc + 4).setWidth 64

/-- BR. -/
def execBr (x : Guard) (off : BitVec 21) (s : State) : Host.Outcome State Fault Refusal :=
  issue x s (.jump s (branchTo s.wordPc off))

/-- JMP. -/
def execJmp (x : Guard) (a : GReg) (s : State) : Host.Outcome State Fault Refusal :=
  issue x s (target (s.me.rg a) fun pc => .jump s pc)

/-- CALL, B format: the link is in g31. -/
def execCallB (x : Guard) (off : BitVec 21) (s : State) : Host.Outcome State Fault Refusal :=
  issue x s (.jump (s.putG 31 (linkOf s.wordPc)) (branchTo s.wordPc off))

/-- CALL, R format: the target is read before the link is written. -/
def execCallR (x : Guard) (d a : GReg) (s : State) : Host.Outcome State Fault Refusal :=
  issue x s (target (s.me.rg a) fun pc => .jump (s.putG d (linkOf s.wordPc)) pc)

/-- RET. -/
def execRet (x : Guard) (a : GReg) (s : State) : Host.Outcome State Fault Refusal :=
  issue x s (target (s.me.rg a) fun pc => .jump s pc)

/-! ## Hardware loops (R307, R308, R134, R135) -/

/-- A set form of LOOP: level n runs its body c times and ends at le. With c = 0 the count is written and control goes
past the body. -/
def loopStart (n : Fin 2) (c : DWord) (le : BitVec 16) (s : State) : CoreOut :=
  let w : LoopW := { n, lc := some c, ls := some (linkOf s.wordPc), le := some (le.setWidth 64) }
  if c = 0 then .jump (s.setMe (s.me.loopWrite w)) (le + 4) else .doneLoop s w

/-- LOOP, I form: le is imm words past the body's first word. -/
def execLoopI (x : Guard) (n : Fin 2) (c : GReg) (imm : BitVec 11) (s : State) : Host.Outcome State Fault Refusal :=
  issue x s (loopStart n (s.me.rg c) (s.wordPc + 4 + 4 * (s.immI imm).setWidth 16) s)

/-- LOOP set, R form. -/
def execLoopSet (x : Guard) (n : Fin 2) (c e : GReg) (s : State) : Host.Outcome State Fault Refusal :=
  issue x s (target (s.src2 e) fun le => loopStart n (s.me.rg c) le s)

/-- LOOP wlc. -/
def execLoopWlc (x : Guard) (n : Fin 2) (a : GReg) (s : State) : Host.Outcome State Fault Refusal :=
  issue x s (.doneLoop s { n, lc := some (s.me.rg a) })

/-- LOOP wls. -/
def execLoopWls (x : Guard) (n : Fin 2) (b : GReg) (s : State) : Host.Outcome State Fault Refusal :=
  issue x s (target (s.src2 b) fun v => .doneLoop s { n, ls := some (v.setWidth 64) })

/-- LOOP wle. -/
def execLoopWle (x : Guard) (n : Fin 2) (b : GReg) (s : State) : Host.Outcome State Fault Refusal :=
  issue x s (target (s.src2 b) fun v => .doneLoop s { n, le := some (v.setWidth 64) })

end Sys2Proof.Machine
end

