-- ==== Sys2Proof/Machine/Convert.lean ====
section
/-! DEFINITION. Conversion between formats (R75, R263), shared by CVT, VCVT and drain-core conversions; integer functions of R256;
the combining functions of Table 11-6. -/

namespace Sys2Proof.Machine

/-- A value read in its own format (R263): an integer, a BSI value or a decoded float. -/
inductive Val where
  | int (x : Int)
  | bsi (x : Exact)
  | flt (v : FVal)
  deriving DecidableEq, Repr

/-- The conversion of R263 to a format: the result's bits, cut to its width, and flags. sat is iflags [55]. -/
def convertTo (dst : Fmt) (rm : Rm) (sat : Bool) (m : FpMode) (v : Val) : Nat × Flags :=
  match fmtInt dst, fmtFF dst with
  | some (w, sg), _ =>
    match v with
    | .int x =>
      if sat then
        let y := max (intLo w sg) (min (intHi w sg) x)
        (trunc y w, flagIf (y != x) fNV)
      else (trunc x w, 0)
    | .bsi x => let (y, f) := toIntClamp (.num x) (intLo w sg) (intHi w sg) rm; (trunc y w, f)
    | .flt x => let (y, f) := toIntClamp x (intLo w sg) (intHi w sg) rm; (trunc y w, f)
  | none, some ff =>
    match v with
    | .int x => roundFmt (Exact.ofInt x) ff rm (m.fzo ff)
    | .bsi x => roundFmt x ff rm (m.fzo ff)
    | .flt x => convertF x ff rm (m.fzo ff)
  | none, none => (0, 0)

/-- The integer functions of R256 on exact operands. -/
inductive IntFn where
  | add | sub | mul | min | max
  deriving DecidableEq, Repr

/-- The exact integer t of R256. -/
def IntFn.exact (f : IntFn) (x y : Int) : Int :=
  match f with
  | .add => x + y
  | .sub => x - y
  | .mul => x * y
  | .min => if x ≤ y then x else y
  | .max => if x ≤ y then y else x

/-- The result of R256 from t: mode 0 wraps, 1 saturates. -/
def finishInt (w : Nat) (sg sat : Bool) (t : Int) : Int × Flags :=
  if sat then satInt w sg t else (cutInt w sg t, 0)

/-- A shift of Table 11-3 on w bits: shl, shr, sra, rol. -/
def shiftFn (fn w x s : Nat) : Nat :=
  match fn with
  | 0 => if s < w then x * 2 ^ s % 2 ^ w else 0
  | 1 => if s < w then x / 2 ^ s else 0
  | 2 => trunc (sext x w / 2 ^ (min s (w - 1))) w
  | _ => rotl x s w

/-- A code of f as read under FZI: the code after the flush of R72, a NaN canonical. -/
def flushCode (f : FF) (fzi : Bool) (code : Nat) : Nat := encodeF f (decodeF f code fzi)

/-- Float add of two codes that are not flushed again, rounded by RNE (R267). -/
def addCodes (f : FF) (fzo : Bool) (a b : Nat × Flags) : Nat × Flags :=
  let (r, fl) := addF f .rne fzo (decodeF f a.1 false) (decodeF f b.1 false)
  (r, fl ||| a.2 ||| b.2)

/-- FMIN or FMAX num of two codes. -/
def mmCodes (f : FF) (mx : Bool) (a b : Nat × Flags) : Nat × Flags :=
  (encodeF f (minMaxF mx false (decodeF f a.1 false) (decodeF f b.1 false)), a.2 ||| b.2)

/-- ⊕ of Table 11-6 for integers of w bits, on their bits; codes 0 to 5. -/
def combineInt (fn w : Nat) (sg : Bool) (a b : Nat) : Nat :=
  let x := readInt w sg a
  let y := readInt w sg b
  match fn with
  | 0 => trunc (x + y) w
  | 1 => if x ≤ y then a else b
  | 2 => if x ≤ y then b else a
  | 3 => a &&& b
  | 4 => a ||| b
  | _ => a ^^^ b

end Sys2Proof.Machine
end

