-- ==== Sys2Proof/WellFormed.lean ====
section
/-! DEFINITION. Which instructions the encodings admit: the checks of R212, R225, R252 and R271 on a station word, of
R215, R216 and the tables of chapters 13 and 14 on a core word. -/

namespace Sys2Proof

/-! ## Formats -/

/-- The 6-bit format code (Table 03-1). -/
def Fmt.code : Fmt → Nat
  | .int4 => 0x00 | .int8 => 0x01 | .int16 => 0x02 | .int32 => 0x03 | .int64 => 0x04
  | .uint8 => 0x05 | .uint16 => 0x06 | .uint32 => 0x07
  | .bsi2 => 0x08 | .bsi3 => 0x09 | .bsi4 => 0x0A | .bsi6 => 0x0B | .bsi8 => 0x0C | .bsi12 => 0x0D | .bsi16 => 0x0E
  | .e2m1b => 0x10 | .e4m3 => 0x11 | .e5m2 => 0x12 | .bf16 => 0x13 | .fp32 => 0x14 | .fp16 => 0x15 | .fp64 => 0x16
  | .wide => 0x18

/-- The short type code (Table 03-2); 0xF for a format without one (R59). -/
def Fmt.short : Fmt → Nat
  | .int8 => 0x0 | .int16 => 0x1 | .int32 => 0x2 | .int64 => 0x3 | .uint8 => 0x4 | .uint16 => 0x5 | .uint32 => 0x6
  | .int4 => 0x7 | .bsi8 => 0x8 | .bsi16 => 0x9 | .e4m3 => 0xA | .e5m2 => 0xB | .bf16 => 0xC | .fp32 => 0xD
  | .e2m1b => 0xE
  | _ => 0xF

/-- The integer formats with a short code: "integer" of Table 11-1. -/
def Fmt.isInt : Fmt → Bool
  | .int4 | .int8 | .int16 | .int32 | .int64 | .uint8 | .uint16 | .uint32 => true
  | _ => false

/-- "float" of Table 11-1; FP16 and FP64 load and are emulated (R60). -/
def Fmt.isFloat : Fmt → Bool
  | .bf16 | .fp32 | .fp16 | .fp64 => true
  | _ => false

/-- The block-scaled integer formats (R62). -/
def Fmt.isBsi : Fmt → Bool
  | .bsi2 | .bsi3 | .bsi4 | .bsi6 | .bsi8 | .bsi12 | .bsi16 => true
  | _ => false

/-- "any" of Table 10-1: an implemented format (R58, R225); WIDE only where a rule admits it, and none of these does (R60). -/
def Fmt.isAny : Fmt → Bool
  | .fp16 | .fp64 | .wide => false
  | _ => true

/-- "any" of Tables 11-1 and 12-1: every format but WIDE; a word that names an emulated one loads and faults at its first firing (R60,
R223). -/
def Fmt.isNamed (ty : Fmt) : Bool := ty != .wide

/-- Bits of an element. -/
def Fmt.bits : Fmt → Nat
  | .int4 => 4 | .int8 => 8 | .int16 => 16 | .int32 => 32 | .int64 => 64 | .uint8 => 8 | .uint16 => 16 | .uint32 => 32
  | .bsi2 => 2 | .bsi3 => 3 | .bsi4 => 4 | .bsi6 => 6 | .bsi8 => 8 | .bsi12 => 12 | .bsi16 => 16
  | .e2m1b => 4 | .e4m3 => 8 | .e5m2 => 8 | .bf16 => 16 | .fp32 => 32 | .fp16 => 16 | .fp64 => 64 | .wide => 256

/-! ## Station words -/

/-- A destination holds no reserved port or action (R89). -/
def Dest.wf (d : Dest) : Bool := d.port != 3 && d.act != 3

/-- Tag operation and level of a word (R92): no reserved code, no nest at level 4, no unnest at level 1. -/
def Head.tagWf (h : Head) : Bool :=
  decide (h.tagop.toNat ≤ 3) && !(h.tagop == 1 && h.level == 3) && !(h.tagop == 2 && h.level == 0)

/-- The parts of a word that every instruction checks the same way, with the arities it accepts. -/
def Head.wf (h : Head) (arities : List Nat) : Bool :=
  h.tagWf && (h.d0.all Dest.wf) && (h.d1.all Dest.wf) && arities.contains h.arity.toNat

/-- keep alone. -/
def Head.keep (h : Head) : Bool := h.tagop == 0

/-- Longest interval at the word's level (Table 04-4). -/
def Head.limit (h : Head) : Nat := if h.level.toNat ≤ 1 then 65536 else 4096

/-- A rounding code of R69, with SR where sr is true. -/
def rndWf (sr : Bool) (m : BitVec 4) : Bool := [0, 1, 2, 3, 7].contains m.toNat || (sr && m == 4)

/-- An immediate of R254 in the type. -/
def immWf (ty : Fmt) (imm : BitVec 32) : Bool :=
  match ty with
  | .int4 => (imm.setWidth 4).signExtend 32 == imm
  | .int8 => (imm.setWidth 8).signExtend 32 == imm
  | .int16 => (imm.setWidth 16).signExtend 32 == imm
  | .uint8 => decide (imm.toNat < 2 ^ 8)
  | .uint16 | .bf16 | .fp16 => decide (imm.toNat < 2 ^ 16)
  | _ => true

/-- The immediate of a binary word: R254 for arity 1, zero for arity 2. -/
def binImm (h : Head) (ty : Fmt) (imm : BitVec 32) : Bool := if h.arity == 1 then immWf ty imm else imm == 0

/-- The value and block exponent of CONST (R233). -/
def constWf (ty : Fmt) (exp : BitVec 8) (v : BitVec 32) : Bool :=
  (if ty == .e2m1b then exp != 0 else ty.isBsi || exp == 0)
    && (if ty == .e2m1b then decide (v.toNat < 16)
        else !(ty.bits == 8 || ty.bits == 16) || decide (v.toNat < 2 ^ ty.bits))

/-- The types of a memory node that loads or stores (R244). -/
def nodeTy : Fmt → Bool
  | .int8 | .uint8 | .e4m3 | .e5m2 | .int16 | .uint16 | .bf16 | .int32 | .uint32 | .fp32 | .int64 => true
  | _ => false

/-- Memory node fields (R243, R244) with the orderings accepted. -/
def NodeF.wf (f : NodeF) (ords : List Nat) : Bool :=
  ords.contains f.ord.toNat && f.node != 127 && (!f.carried || f.pred != 127)

/-- Row selection (R272): a register of the tag above the word's level. -/
def RowSel.wf (h : Head) (r : RowSel) : Bool :=
  r.rsel.toNat == 0 || decide (r.rsel.toNat ≤ h.level.toNat)

/-- Types of SEGT, SGP, DMAC and SPMC. -/
def segTy : Fmt → Bool
  | .int8 | .int16 | .bsi8 | .bsi16 => true
  | _ => false

/-- INT32 or INT64. -/
def i3264 : Fmt → Bool
  | .int32 | .int64 => true
  | _ => false

/-- A station instruction whose word the loader admits by itself (R212, R225, R252, R271). -/
def stationWf : Instr → Bool
  | .pass h ty => h.wf [1] && ty.isAny
  | .expand h ty | .pack h ty => h.wf [1] && h.keep && ty.isAny
  | .steer h ty | .merge h ty | .gate h ty => h.wf [2] && ty.isAny
  | .join h n => h.wf [1] && (h.tagop == 0 || h.tagop == 2) && decide (1 ≤ n.toNat ∧ n.toNat ≤ h.limit)
  | .const h ty exp v => h.wf [0, 1] && h.keep && ty.isAny && constWf ty exp v
  | .sink h ty _ => h.wf [1] && h.keep && ty.isAny && h.d0.isNone && h.d1.isNone
  | .count h ty _ => h.wf [1] && h.tagop == 1 && ty.isAny
  | .purge h ty => h.wf [1] && (h.tagop == 0 || h.tagop == 2) && ty.isAny
      && h.d0.all (·.act == 2) && h.d1.all (·.act == 2)
  | .wadv h ty => h.wf [1] && h.tagop == 3 && ty.isAny
  | .nest h ty => h.wf [1] && h.tagop == 1 && ty.isAny
  | .unnest h ty => h.wf [1] && h.tagop == 2 && ty.isAny
  | .tset h ty k => h.wf [2] && h.keep && ty.isAny && decide (k.toNat ≤ h.level.toNat)
  | .tget h f => h.wf [1] && h.keep && (f == 4 || decide (f.toNat ≤ h.level.toNat))
  | .rsplit h ty p => h.wf [1] && h.keep && ty.isAny && decide (1 ≤ p.toNat ∧ p.toNat ≤ 65536)
  | .rlen h => h.wf [1] && h.keep
  | .xmit h ty => h.wf [1] && h.keep && ty.isAny
      && (match h.d0 with
          | some d => d.stn.toNat % 64 == 0 && d.slot == 0 && (d.port == 0 || d.port == 1) && d.act == 0
          | none => false)
  | .ldn h ty f => h.wf [1] && h.keep && nodeTy ty && f.wf [0, 1] && f.func == 0 && (!f.fg || ty == .int64)
  | .stn h ty f => h.wf [2] && h.keep && nodeTy ty && f.wf [0, 2] && f.func == 0 && !f.fg
  | .amon h ty f => h.wf [2] && h.keep && i3264 ty && f.wf [0, 1, 2, 3] && decide (f.func.toNat ≤ 8) && !f.fg
  | .famn h f => h.wf [2] && h.keep && f.wf [0, 2] && f.func == 0 && !f.fg
  | .iadd h ty m imm | .isub h ty m imm => h.wf [1, 2] && ty.isInt && decide (m.toNat ≤ 1) && binImm h ty imm
  | .imul h ty m imm => h.wf [1, 2] && ty.isInt && decide (m.toNat ≤ 2) && binImm h ty imm
  | .imac h ty m _ c => h.wf [2] && ty.isInt && decide (m.toNat ≤ 1) && immWf ty c
  | .imin h ty imm | .imax h ty imm => h.wf [1, 2] && ty.isInt && binImm h ty imm
  | .iabs h ty m => h.wf [1] && ty.isInt && decide (m.toNat ≤ 1)
  | .logic h ty f imm => h.wf [1, 2] && ty.isInt && decide (f.toNat ≤ 5) && binImm h ty imm
  | .shift h ty f imm => h.wf [1, 2] && ty.isInt && decide (f.toNat ≤ 3) && binImm h ty imm
  | .icmp h ty f imm => h.wf [1, 2] && ty.isInt && decide (f.toNat ≤ 5) && binImm h ty imm
  | .sel h ty => h.wf [3] && ty.isNamed
  | .slotBitc h ty f => h.wf [1] && ty.isInt && decide (f.toNat ≤ 3)
  | .fadd h ty r _ imm => h.wf [1, 2] && ty.isFloat && rndWf true r && binImm h ty imm
  | .fmul h ty r imm => h.wf [1, 2] && ty.isFloat && rndWf true r && binImm h ty imm
  | .ffma h ty r _ _ c => h.wf [2] && ty.isFloat && rndWf true r && immWf ty c
  | .fmin h ty f imm | .fmax h ty f imm => h.wf [1, 2] && ty.isFloat && decide (f.toNat ≤ 1) && binImm h ty imm
  | .fcmp h ty f imm => h.wf [1, 2] && ty.isFloat && decide (f.toNat ≤ 6) && binImm h ty imm
  | .fspec h ty f => h.wf [1] && ty.isFloat && decide (f.toNat ≤ 8)
  | .cvt h ty r _ => h.wf [1] && (ty.isInt || ty.isFloat || ty == .e4m3 || ty == .e5m2) && rndWf true r
  | .bqnt h ty r c => h.wf [1] && h.keep && (ty == .bsi8 || ty == .bsi16 || ty == .e2m1b) && rndWf true r
      && decide (1 ≤ c.toNat ∧ c.toNat ≤ h.limit)
  | .dqnt h ty r _ => h.wf [1] && ty.isFloat && rndWf true r
  | .redu h ty f c => h.wf [1] && (h.tagop == 0 || (h.tagop == 2 && decide (c.toNat ≤ 32)))
      && (ty.isInt || ty.isFloat) && decide (f.toNat ≤ 7) && (ty.isInt || !(f == 3 || f == 4 || f == 5))
      && decide (1 ≤ c.toNat ∧ c.toNat ≤ h.limit)
  | .scan h ty f c => h.wf [1] && h.keep && (ty.isInt || ty.isFloat) && decide (f.toNat ≤ 3)
      && decide (1 ≤ c.toNat ∧ c.toNat ≤ h.limit)
  | .slotRng h ty fn _ seqf _ => h.wf [2] && h.keep
      && (match fn with | .sr16 => ty == .uint16 | .unif => ty == .fp32 | .bits => ty == .int64)
      && (seqf == 7 || decide (seqf.toNat < h.level.toNat))
  | .segt h ty _ _ _ lmax => h.wf [1] && h.keep && segTy ty && decide (lmax.toNat < h.limit)
  | .sgpN32 h ty r | .sgpN64 h ty r | .dmacN32 h ty r | .dmacN64 h ty r | .spmc h ty _ r =>
      h.wf [1] && h.keep && segTy ty && r.wf h
  | .isect h f => h.wf [2] && h.tagop == 1 && decide (f.toNat ≤ 2)
  | .tbld h _ => h.wf [1] && h.keep
  | .tupd h ty _ _ | .pupd h ty _ _ => h.wf [2] && h.keep && i3264 ty
  | .pbind h ty _ _ _ _ _ => h.wf [1] && h.keep && ty.isNamed
  | .tfold h ty all t => h.wf [1] && h.keep && ty.isNamed && (!all || t == 0)
  | .tsum h ty _ => h.wf [1] && h.tagop == 1 && i3264 ty
  | .trd h ty f _ _ => h.wf [1] && h.keep && i3264 ty && decide (f.toNat ≤ 1)
  | .aclr h ty f rsel row _ => h.wf [1] && h.keep && ty.isNamed && decide (f.toNat ≤ 2) && RowSel.wf h ⟨rsel, row, 0⟩
  | .aemit h ty r seg _ slot rsel row adj ncols kbase => h.wf [1]
      && (ty == .int8 || ty == .int16 || ty == .int32 || ty == .int64 || ty == .e4m3 || ty == .e5m2 || ty == .bf16
          || ty == .fp32)
      && rndWf true r && RowSel.wf h ⟨rsel, row, 0⟩ && (seg || slot == 0) && (!seg || (h.d0.isNone && h.d1.isNone))
      && (ty != .int64 || adj == 0) && decide (ncols.toNat < 32) && decide (kbase.toNat + ncols.toNat + 1 ≤ 65536)
  | _ => false

/-- A station instruction. -/
def isStation : Instr → Bool
  | .pass .. | .steer .. | .merge .. | .gate .. | .join .. | .const .. | .sink .. | .count .. | .purge .. | .wadv ..
  | .nest .. | .unnest .. | .tset .. | .tget .. | .rsplit .. | .rlen .. | .expand .. | .pack .. | .xmit .. | .ldn ..
  | .stn .. | .amon .. | .famn .. | .iadd .. | .isub .. | .imul .. | .imac .. | .imin .. | .imax .. | .iabs ..
  | .logic .. | .shift .. | .icmp .. | .sel .. | .slotBitc .. | .fadd .. | .fmul .. | .ffma .. | .fmin .. | .fmax ..
  | .fcmp .. | .fspec .. | .cvt .. | .bqnt .. | .dqnt .. | .redu .. | .scan .. | .slotRng .. | .segt .. | .sgpN32 ..
  | .sgpN64 .. | .dmacN32 .. | .dmacN64 .. | .spmc .. | .isect .. | .tbld .. | .tupd .. | .pupd .. | .pbind ..
  | .tfold .. | .tsum .. | .trd .. | .aclr .. | .aemit .. => true
  | _ => false

/-! ## Core words -/

/-- The integer types of Table 13-8 that arithmetic accepts. -/
def VTy.isInt : VTy → Bool
  | .int32 | .uint32 => true
  | _ => false

/-- The types that arithmetic accepts. -/
def VTy.arith : VTy → Bool
  | .int32 | .uint32 | .fp32 | .bf16 => true
  | _ => false

/-- A rounding code of R319. -/
def vrnd (m : BitVec 3) : Bool := [0, 1, 2, 3, 7].contains m.toNat

/-- Sub-function of a vector instruction with n integer functions (Table 13-9). -/
def vsubWf (ty : VTy) (sub : BitVec 3) (n : Nat) : Bool :=
  ty.arith && (if ty.isInt then decide (sub.toNat < n) else vrnd sub)

/-- A core word that stands alone (R216 and the tables of chapters 13 and 14). -/
def coreWf : Instr → Bool
  | .ld _ v w acq _ _ _ =>
    match v with
    | .plain => true
    | .sext => w != 3
    | .fg => w == 3
    | .metaTag => w == 3 && !acq
  | .cmpI _ r _ _ _ => r == .eq || r == .ne || r == .lt || r == .ge
  | .loopI _ _ _ imm => decide (imm.toNat < 1024)
  | .vadd _ ty sub _ _ _ _ | .vsub _ ty sub _ _ _ _ | .vfma _ ty sub _ _ _ _ => vsubWf ty sub 2
  | .vmul _ ty sub _ _ _ _ => vsubWf ty sub 3
  | .vmin _ ty sub _ _ _ _ | .vmax _ ty sub _ _ _ _ =>
    ty.arith && (if ty.isInt then sub == 0 else decide (sub.toNat ≤ 1))
  | .vlogic _ ty sub _ _ _ _ => ty.isInt && decide (sub.toNat ≤ 5)
  | .vcmp _ ty rel _ _ _ _ => ty.arith && (if ty.isInt then decide (rel.toNat ≤ 5) else decide (rel.toNat ≤ 6))
  | .vred _ ty sub _ _ _ => ty.arith && (if ty.isInt then decide (sub.toNat ≤ 5) else decide (sub.toNat ≤ 2))
  | .vcvt _ _ _ rnd _ _ _ _ => vrnd rnd
  | .stmc _ _ _ _ n _ a => a != 0 && decide (a.val + n.toNat ≤ 31)
  | .xfence _ sc => sc != .stn && sc != .core
  | .lpatch _ _ _ u => decide (u.toNat < 24)
  | .tinjV _ ty _ _ _ _ => ty != 3
  | .rngV _ fn _ _ _ _ => fn != .bits
  | .trap _ imm => decide (imm.toNat < 1024)
  | .limm _ _ => false
  | .illegalEncoding _ _ => false
  | i => !isStation i

/-- The second word of a LIMM pair (R215): an I or M form, or an R form that reads gs2 as a 64-bit value and writes gs2
as 0; with the ranges that the combined immediate must meet (R307, R356). -/
def limmWf (imm : BitVec 25) : Instr → Bool
  | .addR _ _ _ b | .subR _ _ _ b | .mulR _ _ _ b | .andR _ _ _ b | .orR _ _ _ b | .xorR _ _ _ b | .andnR _ _ _ b
  | .shlR _ _ _ b | .shrR _ _ _ b | .sraR _ _ _ b | .mulhR _ _ _ _ b | .divR _ _ _ _ b | .remR _ _ _ _ b
  | .minR _ _ _ _ b | .maxR _ _ _ _ b | .sltR _ _ _ _ b | .cmpR _ _ _ _ b | .loopSet _ _ _ b | .loopWls _ _ b
  | .loopWle _ _ b | .cpyMem _ _ _ b | .cpyAout _ _ _ b | .cpyAin _ _ _ b | .cpyTbl _ _ _ b | .fbopen _ _ _ b
  | .pcincR _ _ b | .pcsetR _ _ b | .pcwaitR _ _ b | .qpush _ _ _ b | .qpop _ _ _ b | .eqcfg _ _ b | .eqpush _ _ b
  | .eqpop _ _ _ b | .fread _ _ _ b | .fwrite _ _ b | .shapeRequest _ _ _ b | .shapeQuery _ _ _ b
  | .tinjR _ _ _ _ _ b | .rngR _ _ _ _ b | .sclone _ _ b | .wfe _ _ _ b | .tlbiPage _ _ b | .tlbiCtx _ b
  | .lnkctlStatus _ _ _ b | .lnkctlPause _ _ _ b | .lnkctlResume _ _ _ b | .lnkctlRemap _ _ _ b
  | .lnkctlRetrain _ _ _ b | .lnkctlClear _ _ _ b | .amoCas _ _ _ _ _ _ b => b == 0
  | .lpatch _ _ b u => b == 0 && decide (u.toNat < 24)
  | .addI .. | .subI .. | .mulI .. | .mulhI .. | .divI .. | .remI .. | .andI .. | .orI .. | .xorI .. | .andnI ..
  | .shlI .. | .shrI .. | .sraI .. | .minI .. | .maxI .. | .sltI .. | .pcincI .. | .pcsetI .. | .pcwaitI ..
  | .csrr .. | .csrw .. => true
  | .cmpI _ r _ _ _ => r == .eq || r == .ne || r == .lt || r == .ge
  | .loopI _ _ _ i => decide (imm.toNat * 2048 + i.toNat ≤ 16383)
  | .trap _ i => decide (imm.toNat * 2048 + i.toNat < 1024)
  | .ld x v w acq sc d a => coreWf (.ld x v w acq sc d a)
  | .st .. | .pfetch .. | .vld .. | .vst .. | .amo .. | .famo .. | .acell .. => true
  | _ => false

/-- An event of the units (spec file 95). -/
def isEvent : Instr → Bool
  | .xmitQueueRoom .. | .memoryNodeAccessPerformed .. | .tableBuildComplete .. | .pupdUpdateMessage ..
  | .pupdAcknowledge .. | .pbindMessage .. | .pbindConfirm .. | .foldComplete .. | .ownershipService ..
  | .tokenArrival .. | .damperQuiescence .. | .hostTailWrite .. | .hostBar0Write | .arming .. | .schedulerSelect
  | .ageCountExpiry .. | .loadComplete .. | .saveComplete .. | .launchClose .. | .counterWriteAtIod
  | .replicaApply .. | .eqEntryAccept .. | .queueFireOnFill .. | .queueFireOnAge .. | .queueDispatch ..
  | .patternRequestArrival .. | .patternCompileComplete .. | .copyComplete .. | .homeControllerAccess
  | .dieApplyWrite .. | .memoryAccessComplete .. | .translationWalkComplete .. | .streamWordRead ..
  | .barrierComplete .. | .continuationDispatch .. | .faultStopComplete .. | .fqheadWrite .. | .lctlResume ..
  | .lctlResumeSkip .. | .lctlEnd .. | .pairsvcReplay .. | .pairsvcRetract .. | .pairsvcUnbind .. | .wdataAccess ..
  | .lcancelWrite .. | .fpctlWrite .. | .scrub .. | .governorCheck | .linkRetryThreshold .. | .linkDown ..
  | .peerFlitReceive .. | .cxlMemRequest | .evictRequest | .fencingComplete | .movingComplete
  | .drainingComplete | .evictTimeout | .evictAbort | .unlatch | .freezeMessage | .scanReadOut | .pldmMonitoring
  | .pldmFirmwareUpdate | .spdmMessage | .moduleReset | .configRegistration | .receiveQueueArrival ..
  | .flitRetry .. | .linkTrainingComplete .. => true
  | _ => false

/-- A core instruction: one word, or a LIMM pair. -/
def isCore (i : Instr) : Bool := !isStation i && !isEvent i

/-- The instructions the encodings admit. Unit events have no encoding and are all admitted. -/
def Instr.wf (i : Instr) : Bool :=
  if isStation i then stationWf i
  else if isEvent i then true
  else match i with
    | .limm imm j => limmWf imm j
    | i => coreWf i

end Sys2Proof
end

