-- ==== Sys2Proof/Decode.lean ====
section
/-! DEFINITION. Decoding station words (R210, Table 09-3) and core words (R214, Table 09-7), total on any bits, with every
rejection named; and the encoder of well-formed instructions, from the same tables. A decoder reads the fields of a
word, checks the instruction (Instr.wf) and checks that the instruction's own encoding is the word, so that a nonzero unused
field is rejected (R212, R216). -/

namespace Sys2Proof

open Machine

/-- Why a word is rejected. -/
inductive DecodeError where
  | unassignedOpcode    -- R221, R222
  | reservedValue       -- a field value that the instruction does not define (R212, R216)
  | illFormed           -- values that do not go together
  | unusedField         -- a field that the instruction does not use is not zero
  | prefixRefused       -- a LIMM before a word that cannot take it (R215)
  deriving DecidableEq, Repr

/-! ## Field helpers -/

/-- A field as Fin. -/
def finOf (n : Nat) [NeZero n] (w : Nat) : Fin n := Fin.ofNat n w

/-- Scope codes (Table 09-7). -/
def Scope.code : Scope → Nat
  | .stn => 0 | .core => 1 | .die => 2 | .dev => 3 | .sys => 4

/-- A scope code read. -/
def scopeOf : Nat → Option Scope
  | 0 => some .stn | 1 => some .core | 2 => some .die | 3 => some .dev | 4 => some .sys
  | _ => none

/-- A format code read (Table 03-1); none for a reserved code. -/
def fmtOfCode : Nat → Option Fmt
  | 0x00 => some .int4 | 0x01 => some .int8 | 0x02 => some .int16 | 0x03 => some .int32 | 0x04 => some .int64
  | 0x05 => some .uint8 | 0x06 => some .uint16 | 0x07 => some .uint32 | 0x08 => some .bsi2 | 0x09 => some .bsi3
  | 0x0A => some .bsi4 | 0x0B => some .bsi6 | 0x0C => some .bsi8 | 0x0D => some .bsi12 | 0x0E => some .bsi16
  | 0x10 => some .e2m1b | 0x11 => some .e4m3 | 0x12 => some .e5m2 | 0x13 => some .bf16 | 0x14 => some .fp32
  | 0x15 => some .fp16 | 0x16 => some .fp64 | 0x18 => some .wide
  | _ => none

/-- A short type code with its format code read (R59): 0xF names only a format without a short code of its own. -/
def fmtOfShort (short fcode : Nat) : Option Fmt :=
  match short with
  | 0x0 => some .int8 | 0x1 => some .int16 | 0x2 => some .int32 | 0x3 => some .int64 | 0x4 => some .uint8
  | 0x5 => some .uint16 | 0x6 => some .uint32 | 0x7 => some .int4 | 0x8 => some .bsi8 | 0x9 => some .bsi16
  | 0xA => some .e4m3 | 0xB => some .e5m2 | 0xC => some .bf16 | 0xD => some .fp32 | 0xE => some .e2m1b
  | _ => match fmtOfCode fcode with
    | some f => if f.short = 0xF then some f else none
    | none => none

/-- fcode of a header or aux field: the format code under 0xF, else 0 (R94). -/
def Fmt.fcode (f : Fmt) : Nat := if f.short = 0xF then f.code else 0

/-- 1 for true. -/
def bit (b : Bool) : Nat := if b then 1 else 0

/-! ## Encoding core words -/

/-- Guard fields (R208). -/
def encGuard (x : Guard) : Nat := x.p.val * 2 ^ 22 + bit x.neg * 2 ^ 21

/-- R format. -/
def encR (op : Nat) (x : Guard) (d a b fn : Nat) : Nat :=
  op * 2 ^ 25 + encGuard x + d * 2 ^ 16 + a * 2 ^ 11 + b * 2 ^ 6 + fn

/-- I format. -/
def encI (op : Nat) (x : Guard) (d a imm : Nat) : Nat :=
  op * 2 ^ 25 + encGuard x + d * 2 ^ 16 + a * 2 ^ 11 + imm

/-- B format. -/
def encB (op : Nat) (x : Guard) (off : Nat) : Nat := op * 2 ^ 25 + encGuard x + off

/-- M format. -/
def encM (op : Nat) (x : Guard) (d a width ord scope var : Nat) : Nat :=
  op * 2 ^ 25 + encGuard x + d * 2 ^ 16 + a * 2 ^ 11 + width * 2 ^ 8 + ord * 2 ^ 6 + scope * 2 ^ 3 + var

/-- V format. -/
def encV (op : Nat) (x : Guard) (d a b m fn : Nat) : Nat :=
  op * 2 ^ 25 + encGuard x + d * 2 ^ 17 + a * 2 ^ 13 + b * 2 ^ 9 + m * 2 ^ 6 + fn

/-- Ordering of a word that may acquire. -/
def acqCode (b : Bool) : Nat := if b then 1 else 0
/-- Ordering of a word that may release. -/
def relCode (b : Bool) : Nat := if b then 2 else 0

/-- BITC functions (R303). -/
def BitFn.code : BitFn → Nat
  | .popc => 0 | .clz => 1 | .ctz => 2 | .brev => 3

/-- A BITC function read. -/
def bitFnOf : Nat → Option BitFn
  | 0 => some .popc | 1 => some .clz | 2 => some .ctz | 3 => some .brev
  | _ => none

/-- Bitwise functions (Table 11-3). -/
def LogicFn.code : LogicFn → Nat
  | .and => 0 | .or => 1 | .xor => 2 | .andn => 3 | .orn => 4 | .xnor => 5

/-- A bitwise function read. -/
def logicFnOf : Nat → Option LogicFn
  | 0 => some .and | 1 => some .or | 2 => some .xor | 3 => some .andn | 4 => some .orn | 5 => some .xnor
  | _ => none

/-- Relations of CMP R (R304). -/
def CRel.code : CRel → Nat
  | .eq => 0 | .ne => 1 | .lt => 2 | .le => 3 | .gt => 4 | .ge => 5 | .ltu => 6 | .leu => 7 | .gtu => 8 | .geu => 9

/-- A relation of CMP R read. -/
def crelOf : Nat → Option CRel
  | 0 => some .eq | 1 => some .ne | 2 => some .lt | 3 => some .le | 4 => some .gt | 5 => some .ge | 6 => some .ltu
  | 7 => some .leu | 8 => some .gtu | 9 => some .geu
  | _ => none

/-- Relations of CMP I (R304): ge has its own code, the others have none. -/
def CRel.icode : CRel → Nat
  | .eq => 0 | .ne => 1 | .lt => 2 | .ge => 3 | _ => 4

/-- A relation of CMP I read. -/
def icrelOf : Nat → CRel
  | 0 => .eq | 1 => .ne | 2 => .lt | _ => .ge

/-- LD variants (R309). -/
def LdVar.code : LdVar → Nat
  | .plain => 0 | .sext => 1 | .fg => 2 | .metaTag => 4

/-- An LD variant read. -/
def ldVarOf : Nat → Option LdVar
  | 0 => some .plain | 1 => some .sext | 2 => some .fg | 4 => some .metaTag
  | _ => none

/-- Vector type codes (Table 13-8). -/
def VTy.code : VTy → Nat
  | .int32 => 0 | .uint32 => 1 | .fp32 => 2 | .bf16 => 3 | .int16 => 4 | .int8 => 5 | .e4m3 => 6 | .e5m2 => 7

/-- A vector type code read. -/
def vtyOf : Nat → VTy
  | 0 => .int32 | 1 => .uint32 | 2 => .fp32 | 3 => .bf16 | 4 => .int16 | 5 => .int8 | 6 => .e4m3 | _ => .e5m2

/-- FBADV functions (R316). -/
def FbFn.code : FbFn → Nat
  | .next => 0 | .peek => 1 | .pos => 2

/-- An FBADV function read. -/
def fbFnOf : Nat → Option FbFn
  | 0 => some .next | 1 => some .peek | 2 => some .pos
  | _ => none

/-- RNG functions (R269). -/
def RngFn.code : RngFn → Nat
  | .sr16 => 0 | .unif => 1 | .bits => 2

/-- An RNG function read. -/
def rngFnOf : Nat → Option RngFn
  | 0 => some .sr16 | 1 => some .unif | 2 => some .bits
  | _ => none

/-- Sets of BAR (R337). -/
def BarSet.code : BarSet → Nat
  | .access => 0 | .drain => 1 | .all => 2

/-- A set of BAR read. -/
def barSetOf : Nat → Option BarSet
  | 0 => some .access | 1 => some .drain | 2 => some .all
  | _ => none

/-- PLOG words (R305). -/
def encPlog (x : Guard) : PlogOp → Nat
  | .bool f pd pa pb => encR 0x23 x pd.val pa.val pb.val f.code
  | .fromg pd a => encR 0x23 x pd.val a.val 0 6
  | .tog d pa => encR 0x23 x d.val pa.val 0 7

/-- The word of a core instruction other than a LIMM pair. -/
def encCore : Instr → Nat
  | .addR x d a b => encR 0x0 x d.val a.val b.val 0
  | .addI x d a i => encI 0x10 x d.val a.val i.toNat
  | .subR x d a b => encR 0x1 x d.val a.val b.val 0
  | .subI x d a i => encI 0x11 x d.val a.val i.toNat
  | .mulR x d a b => encR 0x2 x d.val a.val b.val 0
  | .mulI x d a i => encI 0x12 x d.val a.val i.toNat
  | .mulhR x u d a b => encR 0x3 x d.val a.val b.val (bit u)
  | .mulhI x d a i => encI 0x13 x d.val a.val i.toNat
  | .divR x u d a b => encR 0x4 x d.val a.val b.val (bit u)
  | .divI x d a i => encI 0x14 x d.val a.val i.toNat
  | .remR x u d a b => encR 0x5 x d.val a.val b.val (bit u)
  | .remI x d a i => encI 0x15 x d.val a.val i.toNat
  | .andR x d a b => encR 0x6 x d.val a.val b.val 0
  | .andI x d a i => encI 0x16 x d.val a.val i.toNat
  | .orR x d a b => encR 0x7 x d.val a.val b.val 0
  | .orI x d a i => encI 0x17 x d.val a.val i.toNat
  | .xorR x d a b => encR 0x8 x d.val a.val b.val 0
  | .xorI x d a i => encI 0x18 x d.val a.val i.toNat
  | .andnR x d a b => encR 0x9 x d.val a.val b.val 0
  | .andnI x d a i => encI 0x19 x d.val a.val i.toNat
  | .shlR x d a b => encR 0xa x d.val a.val b.val 0
  | .shlI x d a i => encI 0x1a x d.val a.val i.toNat
  | .shrR x d a b => encR 0xb x d.val a.val b.val 0
  | .shrI x d a i => encI 0x1b x d.val a.val i.toNat
  | .sraR x d a b => encR 0xc x d.val a.val b.val 0
  | .sraI x d a i => encI 0x1c x d.val a.val i.toNat
  | .minR x u d a b => encR 0xd x d.val a.val b.val (bit u)
  | .minI x d a i => encI 0x1d x d.val a.val i.toNat
  | .maxR x u d a b => encR 0xe x d.val a.val b.val (bit u)
  | .maxI x d a i => encI 0x1e x d.val a.val i.toNat
  | .sltR x u d a b => encR 0xf x d.val a.val b.val (bit u)
  | .sltI x d a i => encI 0x1f x d.val a.val i.toNat
  | .bitc x f d a => encR 0x20 x d.val a.val 0 f.code
  | .cmpR x r pd a b => encR 0x21 x pd.val a.val b.val r.code
  | .cmpI x r pd a i => encI 0x22 x (r.icode * 8 + pd.val) a.val i.toNat
  | .plog x op => encPlog x op
  | .br x o => encB 0x25 x o.toNat
  | .jmp x a => encR 0x26 x 0 a.val 0 0
  | .callB x o => encB 0x27 x o.toNat
  | .callR x d a => encR 0x28 x d.val a.val 0 0
  | .ret x a => encR 0x29 x 0 a.val 0 0
  | .loopI x n c i => encI 0x2A x n.val c.val i.toNat
  | .loopSet x n c e => encR 0x2B x n.val c.val e.val 0
  | .loopWlc x n a => encR 0x2B x n.val a.val 0 1
  | .loopWls x n b => encR 0x2B x n.val 0 b.val 2
  | .loopWle x n b => encR 0x2B x n.val 0 b.val 3
  | .ld x v wd acq sc d a => encM 0x30 x d.val a.val wd.toNat (acqCode acq) sc.code v.code
  | .st x wd rel sc d a => encM 0x31 x d.val a.val wd.toNat (relCode rel) sc.code 0
  | .pfetch x sc a => encM 0x32 x 0 a.val 0 0 sc.code 0
  | .cpyMem x d a b => encR 0x33 x d.val a.val b.val 0
  | .cpyAout x d a b => encR 0x33 x d.val a.val b.val 1
  | .cpyAin x d a b => encR 0x33 x d.val a.val b.val 2
  | .cpyTbl x d a b => encR 0x33 x d.val a.val b.val 3
  | .drainCm x => encR 0x34 x 0 0 0 0
  | .drainTbl x => encR 0x34 x 0 0 0 1
  | .drainAcc x => encR 0x34 x 0 0 0 2
  | .fbopen x s a b => encR 0x35 x s.val a.val b.val 0
  | .fbadv x f d s => encR 0x36 x d.val s.val 0 f.code
  | .fbend x pd s => encR 0x37 x pd.val s.val 0 0
  | .fbclose x s => encR 0x38 x 0 s.val 0 0
  | .vld x acq sc d a => encM 0x39 x (d.val * 2) a.val 2 (acqCode acq) sc.code 0
  | .vst x rel sc d a => encM 0x3A x (d.val * 2) a.val 2 (relCode rel) sc.code 0
  | .vgath x f d a m g => encV 0x3B x d.val a.val 0 m.val (bit f * 32 + g.val)
  | .vscat x d a m g => encV 0x3C x d.val a.val 0 m.val g.val
  | .vadd x ty s d a b m => encV 0x40 x d.val a.val b.val m.val (ty.code * 8 + s.toNat)
  | .vsub x ty s d a b m => encV 0x41 x d.val a.val b.val m.val (ty.code * 8 + s.toNat)
  | .vmul x ty s d a b m => encV 0x42 x d.val a.val b.val m.val (ty.code * 8 + s.toNat)
  | .vfma x ty s d a b m => encV 0x43 x d.val a.val b.val m.val (ty.code * 8 + s.toNat)
  | .vmin x ty s d a b m => encV 0x44 x d.val a.val b.val m.val (ty.code * 8 + s.toNat)
  | .vmax x ty s d a b m => encV 0x45 x d.val a.val b.val m.val (ty.code * 8 + s.toNat)
  | .vlogic x ty s d a b m => encV 0x46 x d.val a.val b.val m.val (ty.code * 8 + s.toNat)
  | .vcmp x ty r pd a b m => encV 0x47 x pd.val a.val b.val m.val (ty.code * 8 + r.toNat)
  | .vsel x d a b m => encV 0x48 x d.val a.val b.val m.val 0
  | .vcmprs x d a m g => encV 0x49 x d.val a.val 0 m.val g.val
  | .vbcastG x d m g => encV 0x4A x d.val 0 0 m.val g.val
  | .vbcastLane x d a m k => encV 0x4A x d.val a.val 0 m.val (32 + k.val)
  | .vred x ty s d a m => encV 0x4B x d.val a.val 0 m.val (ty.code * 8 + s.toNat)
  | .vcvt x dt st r sat d a m => encV 0x4C x d.val a.val (bit sat * 8 + r.toNat) m.val (dt.code * 8 + st.code)
  | .amo x f dw o sc d a => encM 0x50 x d.val a.val (2 + bit dw) o.toNat sc.code f.toNat
  | .famo x rel sc d a => encM 0x51 x d.val a.val 2 (relCode rel) sc.code 0
  | .acell x bf clr acq sc d a => encM 0x52 x d.val a.val 2 (acqCode acq) sc.code (bit clr * 4 + bit bf)
  | .stmc x wd rel sc n d a => encR 0x53 x d.val a.val (n.toNat * 8 + sc.code) (wd.toNat * 16 + bit rel * 8)
  | .fence x q sc => encR 0x54 x 0 0 0 (bit q * 8 + sc.code)
  | .xfence x sc => encR 0x55 x 0 0 0 sc.code
  | .bar x set => encR 0x56 x 0 0 0 set.code
  | .pcincR x a b => encR 0x57 x 0 a.val b.val 0
  | .pcincI x a i => encI 0x58 x 0 a.val i.toNat
  | .pcsetR x a b => encR 0x59 x 0 a.val b.val 0
  | .pcsetI x a i => encI 0x5a x 0 a.val i.toNat
  | .pcwaitR x a b => encR 0x5b x 0 a.val b.val 0
  | .pcwaitI x a i => encI 0x5c x 0 a.val i.toNat
  | .qpush x d a b => encR 0x5d x d.val a.val b.val 0
  | .qpop x d a b => encR 0x5e x d.val a.val b.val 0
  | .eqpop x d a b => encR 0x61 x d.val a.val b.val 0
  | .fread x d a b => encR 0x62 x d.val a.val b.val 0
  | .eqcfg x a b => encR 0x5f x 0 a.val b.val 0
  | .eqpush x a b => encR 0x60 x 0 a.val b.val 0
  | .fwrite x a b => encR 0x63 x 0 a.val b.val 0
  | .sclone x a b => encR 0x6e x 0 a.val b.val 0
  | .lpatch x a b u => encR 0x64 x 0 a.val b.val u.toNat
  | .larm x a => encR 0x65 x 0 a.val 0 0
  | .shapeRequest x d a b => encR 0x66 x d.val a.val b.val 0
  | .shapeQuery x d a b => encR 0x66 x d.val a.val b.val 1
  | .gcfg x a => encR 0x67 x 0 a.val 0 0
  | .tinjR x run ty t a b => encR 0x68 x t.val a.val b.val (bit run * 16 + ty.toNat)
  | .tinjV x ty de a t m => encV 0x69 x de.val a.val t.val m.val ty.toNat
  | .trcvTake x d t => encR 0x6A x d.val 0 t.val 0
  | .trcvPeek x d t => encR 0x6A x d.val 0 t.val 1
  | .trcvV x d t b h => encV 0x6B x d.val t.val b.val 0 h.val
  | .rngR x f d a b => encR 0x6C x d.val a.val b.val f.code
  | .rngV x f d k dr m => encV 0x6D x d.val k.val dr.val m.val f.code
  | .trap x i => encI 0x6F x 0 0 i.toNat
  | .rte x => encR 0x70 x 0 0 0 0
  | .csrr x d a i => encI 0x71 x d.val a.val i.toNat
  | .csrw x d a i => encI 0x72 x d.val a.val i.toNat
  | .yield x => encR 0x73 x 0 0 0 0
  | .wfe x d a b => encR 0x74 x d.val a.val b.val 0
  | .tlbiPage x a b => encR 0x75 x 0 a.val b.val 0
  | .tlbiCtx x b => encR 0x75 x 0 0 b.val 1
  | .tlbiAll x => encR 0x75 x 0 0 0 2
  | .freeze x => encR 0x76 x 0 0 0 0
  | .lnkctlStatus x d a b => encR 0x77 x d.val a.val b.val 0
  | .lnkctlPause x d a b => encR 0x77 x d.val a.val b.val 1
  | .lnkctlResume x d a b => encR 0x77 x d.val a.val b.val 2
  | .lnkctlRemap x d a b => encR 0x77 x d.val a.val b.val 3
  | .lnkctlRetrain x d a b => encR 0x77 x d.val a.val b.val 4
  | .lnkctlClear x d a b => encR 0x77 x d.val a.val b.val 5
  | .halt x => encR 0x78 x 0 0 0 0
  | .amoCas x dw o sc d a b => encR 0x79 x d.val a.val b.val (bit dw * 32 + o.toNat * 8 + sc.code)
  | _ => 0

/-! ## Reading core words -/

/-- Guard fields. -/
def gu (w : Nat) : Guard := ⟨finOf 8 (fld w 24 22), bitOf w 21⟩
/-- gd. -/
def rd (w : Nat) : GReg := finOf 32 (fld w 20 16)
/-- gs1. -/
def ra (w : Nat) : GReg := finOf 32 (fld w 15 11)
/-- gs2. -/
def rb (w : Nat) : GReg := finOf 32 (fld w 10 6)
/-- g register in fn [4:0]. -/
def g0 (w : Nat) : GReg := finOf 32 (fld w 4 0)
/-- fn of the R format. -/
def fn6 (w : Nat) : Nat := fld w 5 0
/-- imm11. -/
def imm11 (w : Nat) : BitVec 11 := BitVec.ofNat 11 w
/-- A three-bit register number in gd. -/
def p16 (w : Nat) : Fin 8 := finOf 8 (fld w 18 16)
/-- A three-bit register number in gs1. -/
def p11 (w : Nat) : Fin 8 := finOf 8 (fld w 13 11)
/-- A three-bit register number in gs2. -/
def p6 (w : Nat) : Fin 8 := finOf 8 (fld w 8 6)
/-- The mask of the V format. -/
def pm (w : Nat) : PReg := finOf 8 (fld w 8 6)
/-- vd. -/
def vd (w : Nat) : VReg := finOf 16 (fld w 20 17)
/-- vs1. -/
def va (w : Nat) : VReg := finOf 16 (fld w 16 13)
/-- vs2. -/
def vb (w : Nat) : VReg := finOf 16 (fld w 12 9)
/-- Width of the M format, b to d. -/
def mwidth (w : Nat) : BitVec 2 := BitVec.ofNat 2 (fld w 9 8)
/-- Scope of the M format. -/
def mscope (w : Nat) : Nat := fld w 5 3

/-- Opcodes 0x00 to 0x0f (Table 09-10): the instruction whose fields a word holds. -/
def readCore0 (op w : Nat) : Option Instr :=
  match op with
  | 0x00 => some (.addR (gu w) (rd w) (ra w) (rb w))
  | 0x01 => some (.subR (gu w) (rd w) (ra w) (rb w))
  | 0x02 => some (.mulR (gu w) (rd w) (ra w) (rb w))
  | 0x03 => some (.mulhR (gu w) (bitOf w 0) (rd w) (ra w) (rb w))
  | 0x04 => some (.divR (gu w) (bitOf w 0) (rd w) (ra w) (rb w))
  | 0x05 => some (.remR (gu w) (bitOf w 0) (rd w) (ra w) (rb w))
  | 0x06 => some (.andR (gu w) (rd w) (ra w) (rb w))
  | 0x07 => some (.orR (gu w) (rd w) (ra w) (rb w))
  | 0x08 => some (.xorR (gu w) (rd w) (ra w) (rb w))
  | 0x09 => some (.andnR (gu w) (rd w) (ra w) (rb w))
  | 0x0a => some (.shlR (gu w) (rd w) (ra w) (rb w))
  | 0x0b => some (.shrR (gu w) (rd w) (ra w) (rb w))
  | 0x0c => some (.sraR (gu w) (rd w) (ra w) (rb w))
  | 0x0d => some (.minR (gu w) (bitOf w 0) (rd w) (ra w) (rb w))
  | 0x0e => some (.maxR (gu w) (bitOf w 0) (rd w) (ra w) (rb w))
  | 0x0f => some (.sltR (gu w) (bitOf w 0) (rd w) (ra w) (rb w))
  | _ => none

/-- Opcodes 0x10 to 0x1f (Table 09-10): the instruction whose fields a word holds. -/
def readCore1 (op w : Nat) : Option Instr :=
  match op with
  | 0x10 => some (.addI (gu w) (rd w) (ra w) (imm11 w))
  | 0x11 => some (.subI (gu w) (rd w) (ra w) (imm11 w))
  | 0x12 => some (.mulI (gu w) (rd w) (ra w) (imm11 w))
  | 0x13 => some (.mulhI (gu w) (rd w) (ra w) (imm11 w))
  | 0x14 => some (.divI (gu w) (rd w) (ra w) (imm11 w))
  | 0x15 => some (.remI (gu w) (rd w) (ra w) (imm11 w))
  | 0x16 => some (.andI (gu w) (rd w) (ra w) (imm11 w))
  | 0x17 => some (.orI (gu w) (rd w) (ra w) (imm11 w))
  | 0x18 => some (.xorI (gu w) (rd w) (ra w) (imm11 w))
  | 0x19 => some (.andnI (gu w) (rd w) (ra w) (imm11 w))
  | 0x1a => some (.shlI (gu w) (rd w) (ra w) (imm11 w))
  | 0x1b => some (.shrI (gu w) (rd w) (ra w) (imm11 w))
  | 0x1c => some (.sraI (gu w) (rd w) (ra w) (imm11 w))
  | 0x1d => some (.minI (gu w) (rd w) (ra w) (imm11 w))
  | 0x1e => some (.maxI (gu w) (rd w) (ra w) (imm11 w))
  | 0x1f => some (.sltI (gu w) (rd w) (ra w) (imm11 w))
  | _ => none

/-- Opcodes 0x20 to 0x2f (Table 09-10): the instruction whose fields a word holds. -/
def readCore2 (op w : Nat) : Option Instr :=
  match op with
  | 0x20 => (bitFnOf (fn6 w)).map fun f => .bitc (gu w) f (rd w) (ra w)
  | 0x21 => (crelOf (fn6 w)).map fun r => .cmpR (gu w) r (p16 w) (ra w) (rb w)
  | 0x22 => some (.cmpI (gu w) (icrelOf (fld w 20 19)) (p16 w) (ra w) (imm11 w))
  | 0x23 => if fn6 w = 6 then some (.plog (gu w) (.fromg (p16 w) (ra w)))
    else if fn6 w = 7 then some (.plog (gu w) (.tog (rd w) (p11 w)))
    else (logicFnOf (fn6 w)).map fun f => .plog (gu w) (.bool f (p16 w) (p11 w) (p6 w))
  | 0x24 => none
  | 0x25 => some (.br (gu w) (BitVec.ofNat 21 w))
  | 0x26 => some (.jmp (gu w) (ra w))
  | 0x27 => some (.callB (gu w) (BitVec.ofNat 21 w))
  | 0x28 => some (.callR (gu w) (rd w) (ra w))
  | 0x29 => some (.ret (gu w) (ra w))
  | 0x2a => some (.loopI (gu w) (finOf 2 (fld w 16 16)) (ra w) (imm11 w))
  | 0x2b => let n := finOf 2 (fld w 16 16)
    match fn6 w with
    | 0 => some (.loopSet (gu w) n (ra w) (rb w))
    | 1 => some (.loopWlc (gu w) n (ra w))
    | 2 => some (.loopWls (gu w) n (rb w))
    | 3 => some (.loopWle (gu w) n (rb w))
    | _ => none
  | _ => none

/-- Opcodes 0x30 to 0x3f (Table 09-10): the instruction whose fields a word holds. -/
def readCore3 (op w : Nat) : Option Instr :=
  match op with
  | 0x30 => (scopeOf (mscope w)).bind fun sc => (ldVarOf (fld w 2 0)).map fun v =>
      .ld (gu w) v (mwidth w) (bitOf w 6) sc (rd w) (ra w)
  | 0x31 => (scopeOf (mscope w)).map fun sc => .st (gu w) (mwidth w) (bitOf w 7) sc (rd w) (ra w)
  | 0x32 => (scopeOf (mscope w)).map fun sc => .pfetch (gu w) sc (ra w)
  | 0x33 => match fn6 w with
    | 0 => some (.cpyMem (gu w) (rd w) (ra w) (rb w))
    | 1 => some (.cpyAout (gu w) (rd w) (ra w) (rb w))
    | 2 => some (.cpyAin (gu w) (rd w) (ra w) (rb w))
    | 3 => some (.cpyTbl (gu w) (rd w) (ra w) (rb w))
    | _ => none
  | 0x34 => match fn6 w with
    | 0 => some (.drainCm (gu w))
    | 1 => some (.drainTbl (gu w))
    | 2 => some (.drainAcc (gu w))
    | _ => none
  | 0x35 => some (.fbopen (gu w) (p16 w) (ra w) (rb w))
  | 0x36 => (fbFnOf (fn6 w)).map fun f => .fbadv (gu w) f (rd w) (p11 w)
  | 0x37 => some (.fbend (gu w) (p16 w) (p11 w))
  | 0x38 => some (.fbclose (gu w) (p11 w))
  | 0x39 => (scopeOf (mscope w)).map fun sc => .vld (gu w) (bitOf w 6) sc (vd w) (ra w)
  | 0x3a => (scopeOf (mscope w)).map fun sc => .vst (gu w) (bitOf w 7) sc (vd w) (ra w)
  | 0x3b => some (.vgath (gu w) (bitOf w 5) (vd w) (va w) (pm w) (g0 w))
  | 0x3c => some (.vscat (gu w) (vd w) (va w) (pm w) (g0 w))
  | _ => none

/-- Opcodes 0x40 to 0x4f (Table 09-10): the instruction whose fields a word holds. -/
def readCore4 (op w : Nat) : Option Instr :=
  match op with
  | 0x40 => some (.vadd (gu w) (vtyOf (fld w 5 3)) (BitVec.ofNat 3 w) (vd w) (va w) (vb w) (pm w))
  | 0x41 => some (.vsub (gu w) (vtyOf (fld w 5 3)) (BitVec.ofNat 3 w) (vd w) (va w) (vb w) (pm w))
  | 0x42 => some (.vmul (gu w) (vtyOf (fld w 5 3)) (BitVec.ofNat 3 w) (vd w) (va w) (vb w) (pm w))
  | 0x43 => some (.vfma (gu w) (vtyOf (fld w 5 3)) (BitVec.ofNat 3 w) (vd w) (va w) (vb w) (pm w))
  | 0x44 => some (.vmin (gu w) (vtyOf (fld w 5 3)) (BitVec.ofNat 3 w) (vd w) (va w) (vb w) (pm w))
  | 0x45 => some (.vmax (gu w) (vtyOf (fld w 5 3)) (BitVec.ofNat 3 w) (vd w) (va w) (vb w) (pm w))
  | 0x46 => some (.vlogic (gu w) (vtyOf (fld w 5 3)) (BitVec.ofNat 3 w) (vd w) (va w) (vb w) (pm w))
  | 0x47 => some (.vcmp (gu w) (vtyOf (fld w 5 3)) (BitVec.ofNat 3 w) (finOf 8 (fld w 19 17)) (va w) (vb w) (pm w))
  | 0x48 => some (.vsel (gu w) (vd w) (va w) (vb w) (pm w))
  | 0x49 => some (.vcmprs (gu w) (vd w) (va w) (pm w) (g0 w))
  | 0x4a => some (if bitOf w 5 then .vbcastLane (gu w) (vd w) (va w) (pm w) (g0 w) else .vbcastG (gu w) (vd w) (pm w) (g0 w))
  | 0x4b => some (.vred (gu w) (vtyOf (fld w 5 3)) (BitVec.ofNat 3 w) (vd w) (va w) (pm w))
  | 0x4c => some (.vcvt (gu w) (vtyOf (fld w 5 3)) (vtyOf (fld w 2 0)) (BitVec.ofNat 3 (fld w 11 9)) (bitOf w 12) (vd w) (va w) (pm w))
  | _ => none

/-- Opcodes 0x50 to 0x5f (Table 09-10): the instruction whose fields a word holds. -/
def readCore5 (op w : Nat) : Option Instr :=
  match op with
  | 0x50 => (scopeOf (mscope w)).map fun sc =>
      .amo (gu w) (BitVec.ofNat 3 w) (bitOf w 8) (BitVec.ofNat 2 (fld w 7 6)) sc (rd w) (ra w)
  | 0x51 => (scopeOf (mscope w)).map fun sc => .famo (gu w) (bitOf w 7) sc (rd w) (ra w)
  | 0x52 => (scopeOf (mscope w)).map fun sc =>
      .acell (gu w) (bitOf w 0) (bitOf w 2) (bitOf w 6) sc (rd w) (ra w)
  | 0x53 => (scopeOf (fld w 8 6)).map fun sc =>
      .stmc (gu w) (BitVec.ofNat 2 (fld w 5 4)) (bitOf w 3) sc (BitVec.ofNat 2 (fld w 10 9)) (rd w) (ra w)
  | 0x54 => (scopeOf (fld w 2 0)).map fun sc => .fence (gu w) (bitOf w 3) sc
  | 0x55 => (scopeOf (fld w 2 0)).map fun sc => .xfence (gu w) sc
  | 0x56 => (barSetOf (fn6 w)).map fun set => .bar (gu w) set
  | 0x57 => some (.pcincR (gu w) (ra w) (rb w))
  | 0x58 => some (.pcincI (gu w) (ra w) (imm11 w))
  | 0x59 => some (.pcsetR (gu w) (ra w) (rb w))
  | 0x5a => some (.pcsetI (gu w) (ra w) (imm11 w))
  | 0x5b => some (.pcwaitR (gu w) (ra w) (rb w))
  | 0x5c => some (.pcwaitI (gu w) (ra w) (imm11 w))
  | 0x5d => some (.qpush (gu w) (rd w) (ra w) (rb w))
  | 0x5e => some (.qpop (gu w) (rd w) (ra w) (rb w))
  | 0x5f => some (.eqcfg (gu w) (ra w) (rb w))
  | _ => none

/-- Opcodes 0x60 to 0x6f (Table 09-10): the instruction whose fields a word holds. -/
def readCore6 (op w : Nat) : Option Instr :=
  match op with
  | 0x60 => some (.eqpush (gu w) (ra w) (rb w))
  | 0x61 => some (.eqpop (gu w) (rd w) (ra w) (rb w))
  | 0x62 => some (.fread (gu w) (rd w) (ra w) (rb w))
  | 0x63 => some (.fwrite (gu w) (ra w) (rb w))
  | 0x64 => some (.lpatch (gu w) (ra w) (rb w) (BitVec.ofNat 5 w))
  | 0x65 => some (.larm (gu w) (ra w))
  | 0x66 => match fn6 w with
    | 0 => some (.shapeRequest (gu w) (rd w) (ra w) (rb w))
    | 1 => some (.shapeQuery (gu w) (rd w) (ra w) (rb w))
    | _ => none
  | 0x67 => some (.gcfg (gu w) (ra w))
  | 0x68 => some (.tinjR (gu w) (bitOf w 4) (BitVec.ofNat 4 w) (rd w) (ra w) (rb w))
  | 0x69 => some (.tinjV (gu w) (BitVec.ofNat 4 w) (vd w) (va w) (vb w) (pm w))
  | 0x6a => match fn6 w with
    | 0 => some (.trcvTake (gu w) (rd w) (rb w))
    | 1 => some (.trcvPeek (gu w) (rd w) (rb w))
    | _ => none
  | 0x6b => some (.trcvV (gu w) (vd w) (va w) (vb w) (g0 w))
  | 0x6c => (rngFnOf (fn6 w)).map fun f => .rngR (gu w) f (rd w) (ra w) (rb w)
  | 0x6d => (rngFnOf (fn6 w)).map fun f => .rngV (gu w) f (vd w) (va w) (vb w) (pm w)
  | 0x6e => some (.sclone (gu w) (ra w) (rb w))
  | 0x6f => some (.trap (gu w) (imm11 w))
  | _ => none

/-- Opcodes 0x70 to 0x7f (Table 09-10): the instruction whose fields a word holds. -/
def readCore7 (op w : Nat) : Option Instr :=
  match op with
  | 0x70 => some (.rte (gu w))
  | 0x71 => some (.csrr (gu w) (rd w) (ra w) (imm11 w))
  | 0x72 => some (.csrw (gu w) (rd w) (ra w) (imm11 w))
  | 0x73 => some (.yield (gu w))
  | 0x74 => some (.wfe (gu w) (rd w) (ra w) (rb w))
  | 0x75 => match fn6 w with
    | 0 => some (.tlbiPage (gu w) (ra w) (rb w))
    | 1 => some (.tlbiCtx (gu w) (rb w))
    | 2 => some (.tlbiAll (gu w))
    | _ => none
  | 0x76 => some (.freeze (gu w))
  | 0x77 => match fn6 w with
    | 0 => some (.lnkctlStatus (gu w) (rd w) (ra w) (rb w))
    | 1 => some (.lnkctlPause (gu w) (rd w) (ra w) (rb w))
    | 2 => some (.lnkctlResume (gu w) (rd w) (ra w) (rb w))
    | 3 => some (.lnkctlRemap (gu w) (rd w) (ra w) (rb w))
    | 4 => some (.lnkctlRetrain (gu w) (rd w) (ra w) (rb w))
    | 5 => some (.lnkctlClear (gu w) (rd w) (ra w) (rb w))
    | _ => none
  | 0x78 => some (.halt (gu w))
  | 0x79 => (scopeOf (fld w 2 0)).map fun sc =>
      .amoCas (gu w) (bitOf w 5) (BitVec.ofNat 2 (fld w 4 3)) sc (rd w) (ra w) (rb w)
  | _ => none

/-- The instruction whose fields a core word holds, its checks apart. -/
def readCore (w : Nat) : Option Instr :=
  let op := fld w 31 25
  match op / 16 with
  | 0 => readCore0 op w
  | 1 => readCore1 op w
  | 2 => readCore2 op w
  | 3 => readCore3 op w
  | 4 => readCore4 op w
  | 5 => readCore5 op w
  | 6 => readCore6 op w
  | _ => readCore7 op w

/-- Opcodes that Table 09-10 assigns. -/
def coreAssigned (op : Nat) : Bool :=
  decide (op < 0x2C) || decide (0x30 ≤ op ∧ op < 0x3D) || decide (0x40 ≤ op ∧ op < 0x4D) || decide (0x50 ≤ op ∧ op < 0x7A)

/-- A core word decoded (R216, R222): the fields must be defined, go together, and be all that the word holds. -/
def decodeCore (w : Nat) : Except DecodeError Instr :=
  match readCore w with
  | none => .error (if coreAssigned (fld w 31 25) then .reservedValue else .unassignedOpcode)
  | some i => if !i.wf then .error .illFormed else if encCore i = w then .ok i else .error .unusedField

/-- The second word of a LIMM pair decoded (R215). -/
def decodeSecond (imm : BitVec 25) (w : Nat) : Except DecodeError Instr :=
  match readCore w with
  | none => .error .reservedValue
  | some i => if !limmWf imm i then .error .prefixRefused else if encCore i = w then .ok i else .error .unusedField

/-- A core instruction decoded from a word and the word after it: a LIMM word takes both (R215). The number of words is
with it. -/
def decode (w0 w1 : Nat) : Except DecodeError (Instr × Nat) :=
  if fld w0 31 25 = 0x24 then
    (decodeSecond (BitVec.ofNat 25 w0) w1).map fun i => (.limm (BitVec.ofNat 25 w0) i, 2)
  else (decodeCore w0).map fun i => (i, 1)

/-- The words of a core instruction, first word first. -/
def encode : Instr → List Nat
  | .limm imm i => [0x24 * 2 ^ 25 + imm.toNat, encCore i]
  | i => [encCore i]

/-! ## Station words (Table 09-3) -/

/-- A destination's fields, as one 22-bit value and its action. -/
def Dest.bits (d : Dest) : Nat := d.stn.toNat * 64 + d.slot.toNat * 4 + d.port.toNat

/-- The dest bits of a destination that may be absent (R211). -/
def destBits : Option Dest → Nat
  | some d => d.bits
  | none => 0

/-- The action of a destination that may be absent. -/
def destAct : Option Dest → Nat
  | some d => d.act.toNat
  | none => 0

/-- The station word of its parts: opcode, head, type, mode, iflags, aux and imm32. -/
def encS (op : Nat) (h : Head) (ty : Fmt) (mode iflags aux imm : Nat) : Nat :=
  op * 2 ^ 120 + ty.short * 2 ^ 116 + mode * 2 ^ 112 + h.arity.toNat * 2 ^ 110 + h.tagop.toNat * 2 ^ 107
    + h.level.toNat * 2 ^ 105 + destBits h.d0 * 2 ^ 83 + destBits h.d1 * 2 ^ 61 + destAct h.d0 * 2 ^ 59
    + destAct h.d1 * 2 ^ 57 + iflags * 2 ^ 55 + bit h.d1.isSome * 2 ^ 54 + bit h.d0.isSome * 2 ^ 53
    + (ty.fcode * 2 ^ 15 + aux) * 2 ^ 32 + imm

/-- aux and imm32 of a memory node (Table 10-4). -/
def NodeF.aux (f : NodeF) : Nat :=
  f.pred.toNat * 2 ^ 14 + f.succ.toNat * 2 ^ 7 + bit f.carried * 2 ^ 6 + f.ord.toNat * 2 ^ 4 + f.scope.code * 2

/-- imm32 of a memory node (Table 10-4). -/
def NodeF.imm (f : NodeF) : Nat :=
  f.node.toNat * 2 ^ 25 + f.func.toNat * 2 ^ 21 + bit f.fg * 2 ^ 20 + f.off.toNat

/-- aux of SGP, DMAC and SPMC (Table 12-1). -/
def RowSel.aux (r : RowSel) : Nat := r.rsel.toNat * 2 ^ 7 + r.row.toNat * 2 ^ 2 + r.t.toNat

/-- The word of a station instruction. -/
def encStation : Instr → Nat
  | .pass h ty => encS 0x00 h ty 0 0 0 0
  | .steer h ty => encS 0x01 h ty 0 0 0 0
  | .merge h ty => encS 0x02 h ty 0 0 0 0
  | .gate h ty => encS 0x03 h ty 0 0 0 0
  | .join h n => encS 0x04 h .uint32 0 0 0 (n.toNat)
  | .const h ty e v => encS 0x05 h ty 0 0 (e.toNat) (v.toNat)
  | .sink h ty c => encS 0x06 h ty 0 0 0 (c.toNat)
  | .count h ty v => encS 0x07 h ty 0 0 0 (v.toNat)
  | .purge h ty => encS 0x08 h ty 0 0 0 0
  | .wadv h ty => encS 0x09 h ty 0 0 0 0
  | .nest h ty => encS 0x0a h ty 0 0 0 0
  | .unnest h ty => encS 0x0b h ty 0 0 0 0
  | .tset h ty k => encS 0x0c h ty 0 0 (k.toNat) 0
  | .tget h f => encS 0x0d h .uint32 0 0 (f.toNat) 0
  | .rsplit h ty p => encS 0x0e h ty 0 0 0 (p.toNat)
  | .rlen h => encS 0x0f h .uint32 0 0 0 0
  | .expand h ty => encS 0x10 h ty 0 0 0 0
  | .pack h ty => encS 0x11 h ty 0 0 0 0
  | .xmit h ty => encS 0x12 h ty 0 0 0 0
  | .ldn h ty f => encS 0x13 h ty 0 0 (f.aux) (f.imm)
  | .stn h ty f => encS 0x14 h ty 0 0 (f.aux) (f.imm)
  | .amon h ty f => encS 0x15 h ty 0 0 (f.aux) (f.imm)
  | .famn h f => encS 0x16 h .fp32 0 0 (f.aux) (f.imm)
  | .iadd h ty m i => encS 0x20 h ty (m.toNat) 0 0 (i.toNat)
  | .isub h ty m i => encS 0x21 h ty (m.toNat) 0 0 (i.toNat)
  | .imul h ty m i => encS 0x22 h ty (m.toNat) 0 0 (i.toNat)
  | .imac h ty m fo c => encS 0x23 h ty (m.toNat) (bit fo) 0 (c.toNat)
  | .imin h ty i => encS 0x24 h ty 0 0 0 (i.toNat)
  | .imax h ty i => encS 0x25 h ty 0 0 0 (i.toNat)
  | .iabs h ty m => encS 0x26 h ty (m.toNat) 0 0 0
  | .logic h ty m i => encS 0x27 h ty (m.toNat) 0 0 (i.toNat)
  | .shift h ty m i => encS 0x28 h ty (m.toNat) 0 0 (i.toNat)
  | .icmp h ty m i => encS 0x29 h ty (m.toNat) 0 0 (i.toNat)
  | .sel h ty => encS 0x2a h ty 0 0 0 0
  | .slotBitc h ty m => encS 0x2b h ty (m.toNat) 0 0 0
  | .fadd h ty m ng i => encS 0x2c h ty (m.toNat) (bit ng) 0 (i.toNat)
  | .fmul h ty m i => encS 0x2d h ty (m.toNat) 0 0 (i.toNat)
  | .ffma h ty m fo ng c => encS 0x2e h ty (m.toNat) (bit fo + bit ng * 2) 0 (c.toNat)
  | .fmin h ty m i => encS 0x2f h ty (m.toNat) 0 0 (i.toNat)
  | .fmax h ty m i => encS 0x30 h ty (m.toNat) 0 0 (i.toNat)
  | .fcmp h ty m i => encS 0x31 h ty (m.toNat) 0 0 (i.toNat)
  | .fspec h ty m => encS 0x32 h ty (m.toNat) 0 0 0
  | .cvt h ty m sa => encS 0x33 h ty (m.toNat) (bit sa) 0 0
  | .bqnt h ty m c => encS 0x34 h ty (m.toNat) 0 0 (c.toNat)
  | .dqnt h ty m a => encS 0x35 h ty (m.toNat) 0 0 (a.toNat)
  | .redu h ty m c => encS 0x36 h ty (m.toNat) 0 0 (c.toNat)
  | .scan h ty m c => encS 0x37 h ty (m.toNat) 0 0 (c.toNat)
  | .slotRng h ty f pv sq d => encS 0x38 h ty (f.code) 0 (bit pv * 8 + sq.toNat) (d.toNat)
  | .segt h ty mu tau kr lm => encS 0x40 h ty 0 0 (mu.toNat * 2 ^ 8 + tau.toNat) (kr.toNat * 2 ^ 16 + lm.toNat)
  | .sgpN32 h ty r => encS 0x41 h ty 0 0 (r.aux) 0
  | .sgpN64 h ty r => encS 0x42 h ty 0 0 (r.aux) 0
  | .dmacN32 h ty r => encS 0x43 h ty 0 0 (r.aux) 0
  | .dmacN64 h ty r => encS 0x44 h ty 0 0 (r.aux) 0
  | .spmc h ty wi r => encS 0x45 h ty 0 (bit wi) (r.aux) 0
  | .isect h m => encS 0x46 h .int64 (m.toNat) 0 0 0
  | .tbld h t => encS 0x47 h .int64 0 0 (t.toNat) 0
  | .tupd h ty fo t => encS 0x48 h ty 0 (bit fo) (t.toNat) 0
  | .pupd h ty fo t => encS 0x49 h ty 0 (bit fo) (t.toNat) 0
  | .pbind h ty tr pt t pa ge => encS 0x4a h ty 0 (bit tr) (pt.toNat * 2 ^ 2 + t.toNat) (pa.toNat * 2 ^ 16 + ge.toNat)
  | .tfold h ty al t => encS 0x4b h ty 0 (bit al) (t.toNat) 0
  | .tsum h ty t => encS 0x4c h ty 0 0 (t.toNat) 0
  | .trd h ty m co t => encS 0x4d h ty (m.toNat) 0 (co.toNat * 2 ^ 2 + t.toNat) 0
  | .aclr h ty m rs ro ea => encS 0x4e h ty (m.toNat) 0 (rs.toNat * 2 ^ 7 + ro.toNat * 2 ^ 2) (ea.toNat)
  | .aemit h ty m se cl sl rs ro ad nc kb => encS 0x4f h ty (m.toNat) (bit cl + bit se * 2) (sl.toNat * 2 ^ 11 + rs.toNat * 2 ^ 7 + ro.toNat * 2 ^ 2) (ad.toNat * 2 ^ 24 + nc.toNat * 2 ^ 16 + kb.toNat)
  | _ => 0

/-- mode. -/
def md (w : Nat) : BitVec 4 := BitVec.ofNat 4 (fld w 115 112)
/-- imm32. -/
def im (w : Nat) : BitVec 32 := BitVec.ofNat 32 w
/-- t of a table instruction, aux [33:32]. -/
def tn (w : Nat) : BitVec 2 := BitVec.ofNat 2 (fld w 33 32)

/-- A destination read. -/
def destOf (v act : Nat) : Dest := ⟨BitVec.ofNat 16 (v / 64), BitVec.ofNat 4 (v / 4), BitVec.ofNat 2 v, BitVec.ofNat 2 act⟩

/-- The fields every station word has. -/
def headOf (w : Nat) : Head :=
  { arity := BitVec.ofNat 2 (fld w 111 110), tagop := BitVec.ofNat 3 (fld w 109 107), level := BitVec.ofNat 2 (fld w 106 105)
    d0 := if bitOf w 53 then some (destOf (fld w 104 83) (fld w 60 59)) else none
    d1 := if bitOf w 54 then some (destOf (fld w 82 61) (fld w 58 57)) else none }

/-- Memory node fields. -/
def nodeOf (w : Nat) : Option NodeF :=
  (scopeOf (fld w 35 33)).map fun sc =>
    { pred := BitVec.ofNat 7 (fld w 52 46), succ := BitVec.ofNat 7 (fld w 45 39), carried := bitOf w 38
      ord := BitVec.ofNat 2 (fld w 37 36), scope := sc, node := BitVec.ofNat 7 (fld w 31 25)
      func := BitVec.ofNat 4 (fld w 24 21), fg := bitOf w 20, off := BitVec.ofNat 11 w }

/-- Row and table fields. -/
def rowSel (w : Nat) : RowSel :=
  ⟨BitVec.ofNat 3 (fld w 41 39), BitVec.ofNat 5 (fld w 38 34), BitVec.ofNat 2 (fld w 33 32)⟩

/-- Opcodes 0x00 to 0x0f (Table 09-6): the instruction whose fields a word holds, of a head and a type. -/
def readStation0 (op w : Nat) (h : Head) (ty : Fmt) : Option Instr :=
  match op with
  | 0x00 => some (.pass h ty)
  | 0x01 => some (.steer h ty)
  | 0x02 => some (.merge h ty)
  | 0x03 => some (.gate h ty)
  | 0x04 => some (.join h (im w))
  | 0x05 => some (.const h ty (BitVec.ofNat 8 (fld w 39 32)) (im w))
  | 0x06 => some (.sink h ty (im w))
  | 0x07 => some (.count h ty (im w))
  | 0x08 => some (.purge h ty)
  | 0x09 => some (.wadv h ty)
  | 0x0a => some (.nest h ty)
  | 0x0b => some (.unnest h ty)
  | 0x0c => some (.tset h ty (BitVec.ofNat 2 (fld w 33 32)))
  | 0x0d => some (.tget h (BitVec.ofNat 3 (fld w 34 32)))
  | 0x0e => some (.rsplit h ty (im w))
  | 0x0f => some (.rlen h)
  | _ => none

/-- Opcodes 0x10 to 0x1f (Table 09-6): the instruction whose fields a word holds, of a head and a type. -/
def readStation1 (op w : Nat) (h : Head) (ty : Fmt) : Option Instr :=
  match op with
  | 0x10 => some (.expand h ty)
  | 0x11 => some (.pack h ty)
  | 0x12 => some (.xmit h ty)
  | 0x13 => (nodeOf w).map fun f => .ldn h ty f
  | 0x14 => (nodeOf w).map fun f => .stn h ty f
  | 0x15 => (nodeOf w).map fun f => .amon h ty f
  | 0x16 => (nodeOf w).map fun f => .famn h f
  | _ => none

/-- Opcodes 0x20 to 0x2f (Table 09-6): the instruction whose fields a word holds, of a head and a type. -/
def readStation2 (op w : Nat) (h : Head) (ty : Fmt) : Option Instr :=
  match op with
  | 0x20 => some (.iadd h ty (md w) (im w))
  | 0x21 => some (.isub h ty (md w) (im w))
  | 0x22 => some (.imul h ty (md w) (im w))
  | 0x23 => some (.imac h ty (md w) (bitOf w 55) (im w))
  | 0x24 => some (.imin h ty (im w))
  | 0x25 => some (.imax h ty (im w))
  | 0x26 => some (.iabs h ty (md w))
  | 0x27 => some (.logic h ty (md w) (im w))
  | 0x28 => some (.shift h ty (md w) (im w))
  | 0x29 => some (.icmp h ty (md w) (im w))
  | 0x2a => some (.sel h ty)
  | 0x2b => some (.slotBitc h ty (md w))
  | 0x2c => some (.fadd h ty (md w) (bitOf w 55) (im w))
  | 0x2d => some (.fmul h ty (md w) (im w))
  | 0x2e => some (.ffma h ty (md w) (bitOf w 55) (bitOf w 56) (im w))
  | 0x2f => some (.fmin h ty (md w) (im w))
  | _ => none

/-- Opcodes 0x30 to 0x3f (Table 09-6): the instruction whose fields a word holds, of a head and a type. -/
def readStation3 (op w : Nat) (h : Head) (ty : Fmt) : Option Instr :=
  match op with
  | 0x30 => some (.fmax h ty (md w) (im w))
  | 0x31 => some (.fcmp h ty (md w) (im w))
  | 0x32 => some (.fspec h ty (md w))
  | 0x33 => some (.cvt h ty (md w) (bitOf w 55))
  | 0x34 => some (.bqnt h ty (md w) (im w))
  | 0x35 => some (.dqnt h ty (md w) (BitVec.ofNat 8 w))
  | 0x36 => some (.redu h ty (md w) (im w))
  | 0x37 => some (.scan h ty (md w) (im w))
  | 0x38 => (rngFnOf (fld w 115 112)).map fun f => .slotRng h ty f (bitOf w 35) (BitVec.ofNat 3 (fld w 34 32)) (im w)
  | _ => none

/-- Opcodes 0x40 to 0x4f (Table 09-6): the instruction whose fields a word holds, of a head and a type. -/
def readStation4 (op w : Nat) (h : Head) (ty : Fmt) : Option Instr :=
  match op with
  | 0x40 => some (.segt h ty (BitVec.ofNat 5 (fld w 44 40)) (BitVec.ofNat 8 (fld w 39 32)) (BitVec.ofNat 16 (fld w 31 16))
      (BitVec.ofNat 16 w))
  | 0x41 => some (.sgpN32 h ty (rowSel w))
  | 0x42 => some (.sgpN64 h ty (rowSel w))
  | 0x43 => some (.dmacN32 h ty (rowSel w))
  | 0x44 => some (.dmacN64 h ty (rowSel w))
  | 0x45 => some (.spmc h ty (bitOf w 55) (rowSel w))
  | 0x46 => some (.isect h (md w))
  | 0x47 => some (.tbld h (tn w))
  | 0x48 => some (.tupd h ty (bitOf w 55) (tn w))
  | 0x49 => some (.pupd h ty (bitOf w 55) (tn w))
  | 0x4a => some (.pbind h ty (bitOf w 55) (BitVec.ofNat 2 (fld w 35 34)) (tn w) (BitVec.ofNat 16 (fld w 31 16)) (BitVec.ofNat 16 w))
  | 0x4b => some (.tfold h ty (bitOf w 55) (tn w))
  | 0x4c => some (.tsum h ty (tn w))
  | 0x4d => some (.trd h ty (md w) (BitVec.ofNat 5 (fld w 38 34)) (tn w))
  | 0x4e => some (.aclr h ty (md w) (BitVec.ofNat 3 (fld w 41 39)) (BitVec.ofNat 5 (fld w 38 34)) (BitVec.ofNat 12 w))
  | 0x4f => some (.aemit h ty (md w) (bitOf w 56) (bitOf w 55) (BitVec.ofNat 4 (fld w 46 43)) (BitVec.ofNat 3 (fld w 41 39))
      (BitVec.ofNat 5 (fld w 38 34)) (BitVec.ofNat 8 (fld w 31 24)) (BitVec.ofNat 6 (fld w 21 16)) (BitVec.ofNat 16 w))
  | _ => none

/-- The instruction whose fields a station word holds, its checks apart. -/
def readStation (w : Nat) : Option Instr :=
  let op := fld w 127 120
  (fmtOfShort (fld w 119 116) (fld w 52 47)).bind fun ty =>
    let h := headOf w
    match op / 16 with
    | 0 => readStation0 op w h ty
    | 1 => readStation1 op w h ty
    | 2 => readStation2 op w h ty
    | 3 => readStation3 op w h ty
    | 4 => readStation4 op w h ty
    | _ => none

/-- Opcodes that Table 09-6 assigns (R221). -/
def stationAssigned (op : Nat) : Bool :=
  decide (op < 0x17) || decide (0x20 ≤ op ∧ op < 0x39) || decide (0x40 ≤ op ∧ op < 0x50)

/-- A station word decoded (R212, R221). -/
def decodeStation (w : Nat) : Except DecodeError Instr :=
  match readStation w with
  | none => .error (if stationAssigned (fld w 127 120) then .reservedValue else .unassignedOpcode)
  | some i =>
    if !(isStation i && stationWf i) then .error .illFormed
    else if encStation i = w then .ok i else .error .unusedField

/-! ## The host's question -/

/-- The instruction the decoder reads from an instruction whose bits are w, bit 0 the least significant of the first word.
More than 64 bits are a station word (R210); fewer are a core word and, for a LIMM, the word after it (R215). -/
def decodeTableWord (nbits w : Nat) : Option Instr :=
  if nbits > 64 then (decodeStation w).toOption
  else (decode (w % 2 ^ 32) (w / 2 ^ 32 % 2 ^ 32)).toOption.map (·.1)

end Sys2Proof
end

