-- ==== Sys2Proof/Machine/Vec.lean ====
section
/-! DEFINITION. The vector unit (R318 to R325). Memory forms of it are in CoreMem. -/

namespace Sys2Proof.Machine

/-- The float format of a vector type. -/
def vtyFF : VTy → Option FF
  | .fp32 => some .fp32
  | .bf16 => some .bf16
  | .e4m3 => some .e4m3
  | .e5m2 => some .e5m2
  | _ => none

/-- Width and sign of an integer vector type. -/
def vtyInt : VTy → Nat × Bool
  | .uint32 => (32, false)
  | .int16 => (16, true)
  | .int8 => (8, true)
  | _ => (32, true)

/-- The format of a vector type. -/
def vtyFmt : VTy → Fmt
  | .int32 => .int32
  | .uint32 => .uint32
  | .fp32 => .fp32
  | .bf16 => .bf16
  | .int16 => .int16
  | .int8 => .int8
  | .e4m3 => .e4m3
  | .e5m2 => .e5m2

/-- A lane as an integer of its type (Table 13-8). -/
def laneInt (ty : VTy) (x : Word) : Int := readInt (vtyInt ty).1 (vtyInt ty).2 x.toNat

/-- A lane as a float of its type, after the flush of R72. -/
def laneF (m : FpMode) (f : FF) (x : Word) : FVal := decodeF f x.toNat (m.fzi f)

/-- A code of a type in a lane: floats zero-extended, integers sign-extended (Table 13-8, R325). -/
def laneOf (ty : VTy) (bits : Nat) : Word :=
  match vtyFF ty with
  | some _ => BitVec.ofNat 32 bits
  | none => BitVec.ofInt 32 (readInt (vtyInt ty).1 (vtyInt ty).2 bits)

/-- A vector instruction whose active lanes take the results of f, inactive lanes keep theirs, and active lanes' flags
are ORed into FPCTL (R318, R319). -/
def vecResult (x : Guard) (d : VReg) (m : PReg) (f : Fin 32 → Word × Flags) (s : State) :
    Host.Outcome State Fault Refusal :=
  let c := s.me
  let mask := c.rp m
  let old := c.rv d
  let v : Vector Word 32 := Vector.ofFn fun j => if mask.getLsbD j.val then (f j).1 else old[j]
  let fl := orAll ((List.finRange 32).map fun j => if mask.getLsbD j.val then (f j).2 else 0)
  issue x s (.done (s.setMe ((c.wv d v).orFlags fl)))

/-- An integer lane function under a sub-function: 0 wrap, 1 sat, 2 hi (Table 13-9). -/
def vecInt (ty : VTy) (sub : Nat) (t : Int) : Word × Flags :=
  let (w, sg) := vtyInt ty
  if sub = 2 then (BitVec.ofInt 32 (t / 2 ^ w), 0)
  else let (r, f) := finishInt w sg (sub == 1) t; (BitVec.ofInt 32 r, f)

/-- A lane-by-lane instruction with an integer form and a float form. -/
def vecArith (x : Guard) (ty : VTy) (d a b : VReg) (m : PReg) (s : State)
    (fi : Int → Int → Int → Word × Flags) (ff : FF → FpMode → FVal → FVal → FVal → Nat × Flags) :
    Host.Outcome State Fault Refusal :=
  let c := s.me
  let md := fpMode c.fpctl
  vecResult x d m (fun j =>
    let p := (c.rv a)[j]
    let q := (c.rv b)[j]
    let r := (c.rv d)[j]
    match vtyFF ty with
    | none => fi (laneInt ty p) (laneInt ty q) (laneInt ty r)
    | some f => let (z, fl) := ff f md (laneF md f p) (laneF md f q) (laneF md f r); (BitVec.ofNat 32 z, fl)) s

/-- VADD. -/
def execVadd (x : Guard) (ty : VTy) (sub : BitVec 3) (d a b : VReg) (m : PReg) (s : State) :
    Host.Outcome State Fault Refusal :=
  vecArith x ty d a b m s (fun p q _ => vecInt ty sub.toNat (p + q))
    (fun f md p q _ => addF f (coreRm md sub.toNat) (md.fzo f) p q)

/-- VSUB. -/
def execVsub (x : Guard) (ty : VTy) (sub : BitVec 3) (d a b : VReg) (m : PReg) (s : State) :
    Host.Outcome State Fault Refusal :=
  vecArith x ty d a b m s (fun p q _ => vecInt ty sub.toNat (p - q))
    (fun f md p q _ => addF f (coreRm md sub.toNat) (md.fzo f) p (negF q))

/-- VMUL. -/
def execVmul (x : Guard) (ty : VTy) (sub : BitVec 3) (d a b : VReg) (m : PReg) (s : State) :
    Host.Outcome State Fault Refusal :=
  vecArith x ty d a b m s (fun p q _ => vecInt ty sub.toNat (p * q))
    (fun f md p q _ => mulF f (coreRm md sub.toNat) (md.fzo f) p q)

/-- VFMA: a * b + d, fused. -/
def execVfma (x : Guard) (ty : VTy) (sub : BitVec 3) (d a b : VReg) (m : PReg) (s : State) :
    Host.Outcome State Fault Refusal :=
  vecArith x ty d a b m s (fun p q r => vecInt ty sub.toNat (p * q + r))
    (fun f md p q r => fmaF f (coreRm md sub.toNat) (md.fzo f) false p q r)

/-- VMIN. -/
def execVmin (x : Guard) (ty : VTy) (sub : BitVec 3) (d a b : VReg) (m : PReg) (s : State) :
    Host.Outcome State Fault Refusal :=
  vecArith x ty d a b m s (fun p q _ => vecInt ty 0 (IntFn.exact .min p q))
    (fun f _ p q _ => (encodeF f (minMaxF false (sub == 1) p q), 0))

/-- VMAX. -/
def execVmax (x : Guard) (ty : VTy) (sub : BitVec 3) (d a b : VReg) (m : PReg) (s : State) :
    Host.Outcome State Fault Refusal :=
  vecArith x ty d a b m s (fun p q _ => vecInt ty 0 (IntFn.exact .max p q))
    (fun f _ p q _ => (encodeF f (minMaxF true (sub == 1) p q), 0))

/-- The LOGIC function of a code (Table 11-3). -/
def logicCode : Nat → LogicFn
  | 0 => .and
  | 1 => .or
  | 2 => .xor
  | 3 => .andn
  | 4 => .orn
  | _ => .xnor

/-- VLOGIC (R321). -/
def execVlogic (x : Guard) (_ty : VTy) (sub : BitVec 3) (d a b : VReg) (m : PReg) (s : State) :
    Host.Outcome State Fault Refusal :=
  vecResult x d m (fun j => (logicApply (logicCode sub.toNat) (s.me.rv a)[j] (s.me.rv b)[j], 0)) s

/-- The relation of a code of Table 11-4. -/
def relCodeOf : Nat → Rel
  | 0 => .eq
  | 1 => .ne
  | 2 => .lt
  | 3 => .le
  | 4 => .gt
  | 5 => .ge
  | _ => .un

/-- A word from its bits. -/
def wordOfBits (b : Nat → Bool) : Word := BitVec.ofNat 32 ((List.range 32).foldl (fun n j => n + b2n (b j) * 2 ^ j) 0)

/-- VCMP: one bit per lane, 0 for an inactive lane (R321). -/
def execVcmp (x : Guard) (ty : VTy) (rel : BitVec 3) (pd : PReg) (a b : VReg) (m : PReg) (s : State) :
    Host.Outcome State Fault Refusal :=
  let c := s.me
  let md := fpMode c.fpctl
  let mask := c.rp m
  let r (j : Fin 32) : Bool × Flags :=
    if mask.getLsbD j.val then
      match vtyFF ty with
      | none => (cmpI (relCodeOf rel.toNat) (laneInt ty (c.rv a)[j]) (laneInt ty (c.rv b)[j]), 0)
      | some f => cmpF (relCodeOf rel.toNat) (laneF md f (c.rv a)[j]) (laneF md f (c.rv b)[j])
    else (false, 0)
  let p := wordOfBits fun j => (r (Fin.ofNat 32 j)).1
  issue x s (.done (s.setMe ((c.wp pd p).orFlags (orAll ((List.finRange 32).map fun j => (r j).2)))))

/-- VSEL: every lane is written (R322). -/
def execVsel (x : Guard) (d a b : VReg) (m : PReg) (s : State) : Host.Outcome State Fault Refusal :=
  let c := s.me
  let mask := c.rp m
  let v : Vector Word 32 := Vector.ofFn fun j => if mask.getLsbD j.val then (c.rv a)[j] else (c.rv b)[j]
  issue x s (.done (s.setMe (c.wv d v)))

/-- VBCAST of a general register (R322). -/
def execVbcastG (x : Guard) (d : VReg) (m : PReg) (g : GReg) (s : State) : Host.Outcome State Fault Refusal :=
  vecResult x d m (fun _ => ((s.me.rg g).setWidth 32, 0)) s

/-- VBCAST of a lane (R322). -/
def execVbcastLane (x : Guard) (d a : VReg) (m : PReg) (k : Fin 32) (s : State) : Host.Outcome State Fault Refusal :=
  vecResult x d m (fun _ => ((s.me.rv a)[k], 0)) s

/-- The active lanes of a vector, in ascending order. -/
def activeLanes (mask : Word) (v : Vector Word 32) : List Word :=
  (List.finRange 32).filterMap fun j => if mask.getLsbD j.val then some v[j] else none

/-- A vector from its first lanes, zeros after them. -/
def vecOfList (l : List Word) : Vector Word 32 := Vector.ofFn fun j => l.getD j.val 0

/-- VCMPRS (R323). -/
def execVcmprs (x : Guard) (d a : VReg) (m : PReg) (g : GReg) (s : State) : Host.Outcome State Fault Refusal :=
  let c := s.me
  let l := activeLanes (c.rp m) (c.rv a)
  issue x s (.done (s.setMe ((c.wv d (vecOfList l)).wg g (BitVec.ofNat 64 l.length))))

/-- The reduction of R324 over the active lanes: the value written and the flags. -/
def vecReduce (md : FpMode) (ty : VTy) (fn : Nat) (l : List Word) : DWord × Flags :=
  match vtyFF ty with
  | none =>
    let (w, sg) := vtyInt ty
    let r := tree (combineInt fn w sg) 0 5 (l.map (·.toNat))
    (if sg then toDW (sext r w) else BitVec.ofNat 64 r, 0)
  | some f =>
    let xs := l.map fun x => (flushCode f (md.fzi f) x.toNat, (0 : Flags))
    let op := if fn = 0 then addCodes f (md.fzo f) else mmCodes f (fn == 2)
    let (r, fl) := tree op (0, 0) 5 xs
    (BitVec.ofNat 64 r, fl)

/-- VRED: the result is in the general register of the number of vd (R324). -/
def execVred (x : Guard) (ty : VTy) (sub : BitVec 3) (d a : VReg) (m : PReg) (s : State) :
    Host.Outcome State Fault Refusal :=
  let c := s.me
  let (r, fl) := vecReduce (fpMode c.fpctl) ty sub.toNat (activeLanes (c.rp m) (c.rv a))
  issue x s (.done (s.setMe ((c.wg (Fin.castLE (by omega) d) r).orFlags fl)))

/-- A lane's value in its type, for conversion (R325). -/
def laneVal (md : FpMode) (ty : VTy) (x : Word) : Val :=
  match vtyFF ty with
  | none => .int (laneInt ty x)
  | some f => .flt (laneF md f x)

/-- VCVT; equal types copy the lane (R325). -/
def execVcvt (x : Guard) (dty sty : VTy) (rnd : BitVec 3) (sat : Bool) (d a : VReg) (m : PReg) (s : State) :
    Host.Outcome State Fault Refusal :=
  let c := s.me
  let md := fpMode c.fpctl
  vecResult x d m (fun j =>
    let v := (c.rv a)[j]
    if dty = sty then (v, 0)
    else
      let (r, fl) := convertTo (vtyFmt dty) (coreRm md rnd.toNat) sat md (laneVal md sty v)
      (laneOf dty r, fl)) s

end Sys2Proof.Machine
end

