-- ==== Sys2Proof/Machine/CoreMem.lean ====
section
/-! DEFINITION. Loads, stores, copies, drains, fibre streams and the vector unit's memory forms (R309 to R317, R326). -/

namespace Sys2Proof.Machine

/-! ## Loads and stores (R309 to R311) -/

/-- A load of n bytes at the address A, and what is done with the value. One that is no acquire may issue and be performed later as k'
says. -/
def loadOut (s : State) (A : Int) (n align : Nat) (acq : Bool) (sc : Scope) (k' : FlyKind) (k : State → List Byte → CoreOut)
    (narrow : Bool := false) : CoreOut :=
  orFault (s.access s.whoMe A n align false narrow) fun l =>
    if s.late && !acq then .done (s.leave k' l n none)
    else if s.mayAccess (agentIdx s.cur) s.cur.die l n then
      let (bs, t) := s.readAt s.cur.die (agentIdx s.cur) (attr acq false sc l) l n narrow
      k t bs
    else .wait s

/-- The place whose line's tag LD.meta reads, the key left unread: the faults are those of the translation alone, with what the
walker meets on its way (R310, R160, R463; log entry 64). -/
def State.metaPlace (s : State) (A : Int) : Except FI Loc :=
  match s.resolve s.whoMe A 1 false with
  | .ok l => .ok l
  | .error f =>
    if f.cls = cKey then do
      let p ← s.page s.cur.die s.me.ctx A.toNat
      return { space := .dev, at_ := p.pa + (A.toNat - p.va), via := p.via }
    else .error f

/-- LD.meta: the tag of the line in the die's view; core memory and host memory have the tag 0. It orders as a relaxed read of the
line (R174, R310). -/
def metaOut (s : State) (A : Int) (d : GReg) : CoreOut :=
  orFault (s.metaPlace A) fun l =>
    let line : Loc := { l with at_ := l.at_ / 128 * 128 }
    if s.mayAccess (agentIdx s.cur) s.cur.die line 128 then
      let t := if l.space = .dev then s.viewTag s.cur.die.val l.at_ else 0
      let s1 := l.via.foldl (fun s pa => s.countHit pa 8 false) (s.noteRead s.cur.die.val (agentIdx s.cur) none line 128)
      .done (s1.putG d (t.setWidth 64))
    else .wait s

/-- LD. The .fg form returns the same bytes (R154), having read no more sectors than it touches. -/
def execLd (x : Guard) (v : LdVar) (w : BitVec 2) (acq : Bool) (sc : Scope) (d a : GReg) (s : State) :
    Host.Outcome State Fault Refusal :=
  let n := widthBytes w
  let A := s.addrM a
  issue x s (match v with
    | .metaTag => metaOut s A d
    | .sext => loadOut s A n n acq sc (.load d true) fun t bs => .done (t.putG d (toDW (sext (leValue bs) (8 * n))))
    | .plain => loadOut s A n n acq sc (.load d false) fun t bs => .done (t.putG d (BitVec.ofNat 64 (leValue bs)))
    | .fg => loadOut s A n n acq sc (.load d false) (fun t bs => .done (t.putG d (BitVec.ofNat 64 (leValue bs)))) true)

/-- ST. -/
def execSt (x : Guard) (w : BitVec 2) (rel : Bool) (sc : Scope) (d a : GReg) (s : State) :
    Host.Outcome State Fault Refusal :=
  let n := widthBytes w
  issue x s (orFault (s.access s.whoMe (s.addrM a) n n true) fun l =>
    storeOut s rel sc l (leBytes n (s.me.rg d).toNat))

/-- PFETCH: no architectural state changes, and it never faults (R311). -/
def execPfetch (x : Guard) (_sc : Scope) (_a : GReg) (s : State) : Host.Outcome State Fault Refusal :=
  issue x s (.done s)

/-- The 32 lanes of 128 bytes. -/
def lanesOfBytes (bs : List Byte) : Vector Word 32 :=
  Vector.ofFn fun j => BitVec.ofNat 32 (leValue ((bs.drop (4 * j.val)).take 4))

/-- The 128 bytes of 32 lanes. -/
def bytesOfLanes (v : Vector Word 32) : List Byte := (v.toList.map fun x => leBytes 4 x.toNat).flatten

/-- VLD. -/
def execVld (x : Guard) (acq : Bool) (sc : Scope) (d : VReg) (a : GReg) (s : State) :
    Host.Outcome State Fault Refusal :=
  issue x s (loadOut s (s.addrM a) 128 128 acq sc (.vload d) fun t bs => .done (t.setMe (t.me.wv d (lanesOfBytes bs))))

/-- VST: a full-line write in device memory (R157). -/
def execVst (x : Guard) (rel : Bool) (sc : Scope) (d : VReg) (a : GReg) (s : State) :
    Host.Outcome State Fault Refusal :=
  issue x s (orFault (s.access s.whoMe (s.addrM a) 128 128 true) fun l =>
    storeOut s rel sc l (bytesOfLanes (s.me.rv d)))

/-! ## Gathers and scatters (R326) -/

/-- Order of the classes among lanes (R413). -/
def classRank (c : Nat) : Nat :=
  if c = cAlign then 0 else if c = cWideTarget then 1 else if c = cTranslation then 2 else if c = cKey then 3
  else if c = cCompressMeta then 4 else if c = cMemEcc then 5 else 6

/-- The fault reported for several lanes: the first class under R413, and of its lanes the lowest. -/
def firstFault (fs : List FI) : Option FI :=
  fs.foldl (fun acc f => match acc with
    | none => some f
    | some g => if classRank f.cls < classRank g.cls then some f else some g) none

/-- The active lanes' places, each checked, with the lane numbers. A .fg lane reads the aligned 8 bytes that hold it (R154). -/
def State.lanePlaces (s : State) (a : VReg) (m : PReg) (g : GReg) (write narrow : Bool) : Except FI (List (Nat × Loc)) :=
  let c := s.me
  let mask := c.rp m
  let tries := (List.finRange 32).filterMap fun j =>
    if mask.getLsbD j.val then
      some (j.val, s.access s.whoMe (((c.rg g).toNat : Int) + (c.rv a)[j].toNat) 4 4 write narrow)
    else none
  match firstFault (tries.filterMap fun (_, r) => match r with | .error f => some f | .ok _ => none) with
  | some f => .error f
  | none => .ok (tries.filterMap fun (j, r) => match r with | .ok l => some (j, l) | .error _ => none)

/-- One lane of a vector register written. -/
def Core.wlane (c : Core) (d : VReg) (j : Nat) (bs : List Byte) : Core :=
  c.wv d ((c.rv d).setIfInBounds j (BitVec.ofNat 32 (leValue bs)))

/-- Every lane's access may be performed now. -/
def State.lanesMay (s : State) (ls : List (Nat × Loc)) : Bool := ls.all fun p => s.mayAccess (agentIdx s.cur) s.cur.die p.2 4

/-- VGATH; .fg reads the aligned 8 bytes holding each lane and returns the same bytes (R154). -/
def execVgath (x : Guard) (fg : Bool) (d a : VReg) (m : PReg) (g : GReg) (s : State) :
    Host.Outcome State Fault Refusal :=
  issue x s (orFault (s.lanePlaces a m g false fg) fun ls =>
    if s.late then .done (ls.foldl (fun (t : State) p => t.leave (.lane d p.1) p.2 4 none) s)
    else if s.lanesMay ls then
      .done (ls.foldl (fun (t : State) (p : Nat × Loc) =>
        let (bs, t) := t.readAt s.cur.die (agentIdx s.cur) none p.2 4 fg
        t.setMe (t.me.wlane d p.1 bs)) s)
    else .wait s)

/-- VSCAT: lanes are stored in ascending order. -/
def execVscat (x : Guard) (d a : VReg) (m : PReg) (g : GReg) (s : State) : Host.Outcome State Fault Refusal :=
  issue x s (orFault (s.lanePlaces a m g true false) fun ls =>
    let data := s.me.rv d
    let bs (j : Nat) : List Byte := leBytes 4 ((data[j]?).getD 0).toNat
    if s.late then .done (ls.foldl (fun (t : State) p => t.leave (.store (bs p.1)) p.2 4 none) s)
    else if s.lanesMay ls then
      .done (ls.foldl (fun (t : State) p => t.write (some s.cur.die) (agentIdx s.cur) none p.2 (bs p.1)) s)
    else .wait s)

/-! ## Copies and drains (R312 to R314) -/

/-- A copy refused at issue. -/
def copyRange : CoreOut := .fault { cls := cCopyRange }

/-- An accumulator locator: the physical station and the first row, or none where a bit that must be 0 is not
(R312). -/
def State.accLocator (s : State) (x : DWord) : Option (Nat × Nat) :=
  let n := x.toNat
  let col := s.cur.kind == .collier
  if n < (if col then 2 ^ 18 else 2 ^ 11) then
    let core := if col then fld n 17 11 else s.cur.core.val
    some (s.cur.die.val * 8192 + core * 64 + n % 64, fld n 10 6)
  else none

/-- A table locator: the physical station and the first narrow entry (R312). -/
def State.tblLocator (s : State) (x : DWord) : Option (Nat × Nat) :=
  let n := x.toNat
  if n < 2 ^ 26 then some (s.cur.die.val * 8192 + fld n 12 6 * 64 + n % 64, fld n 25 13) else none

/-- CPY mem. -/
def execCpyMem (x : Guard) (d a b : GReg) (s : State) : Host.Outcome State Fault Refusal :=
  let n := (s.src2 b).toNat
  issue x s (if n ≤ 2 ^ 32 then .done (s.handOver (.mem (s.me.rg d).toNat (s.me.rg a).toNat n)) else copyRange)

/-- CPY aout. -/
def execCpyAout (x : Guard) (d a b : GReg) (s : State) : Host.Outcome State Fault Refusal :=
  let n := (s.src2 b).toNat
  let dst := (s.me.rg d).toNat
  issue x s (match s.accLocator (s.me.rg a) with
    | some (st, r) =>
      if 1 ≤ n ∧ n ≤ 32 ∧ r + n ≤ 32 ∧ dst % 8 = 0 then .done (s.handOver (.aout dst st r n)) else copyRange
    | none => copyRange)

/-- CPY ain. -/
def execCpyAin (x : Guard) (d a b : GReg) (s : State) : Host.Outcome State Fault Refusal :=
  let n := (s.src2 b).toNat
  let src := (s.me.rg a).toNat
  issue x s (match s.accLocator (s.me.rg d) with
    | some (st, r) =>
      if 1 ≤ n ∧ n ≤ 32 ∧ r + n ≤ 32 ∧ src % 8 = 0 then .done (s.handOver (.ain st r n src)) else copyRange
    | none => copyRange)

/-- CPY tbl; colliers only. -/
def execCpyTbl (x : Guard) (d a b : GReg) (s : State) : Host.Outcome State Fault Refusal :=
  let n := (s.src2 b).toNat
  let src := (s.me.rg a).toNat
  issue x s (onlyBy s [.collier] (match s.tblLocator (s.me.rg d) with
    | some (st, e) =>
      if 1 ≤ n ∧ n ≤ 8192 ∧ e + n ≤ 8192 ∧ src % 4 = 0 then
        let t := s.handOver (.tbl st e n src)
        .done (t.setMe { t.me with fed := st :: t.me.fed })
      else copyRange
    | none => copyRange))

/-- An outstanding copy into core memory, or a collier's private store (R314). -/
def intoCm : EngKind → Bool
  | .mem dst _ _ => decide (dst < 2 ^ 32)
  | .aout dst _ _ _ => decide (dst < 2 ^ 32)
  | _ => false

/-- An outstanding copy into a table store. -/
def intoTbl : EngKind → Bool
  | .tbl .. => true
  | _ => false

/-- An outstanding copy into an accumulator store. -/
def intoAcc : EngKind → Bool
  | .ain .. => true
  | _ => false

/-- A DRAIN waits while a copy of its kind that the core issued is outstanding (R153). -/
def drainOut (s : State) (k : EngKind → Bool) : CoreOut :=
  if s.engine.any fun e => e.agent == s.cur && k e.kind then .wait s else .done s

/-- DRAIN.cm. -/
def execDrainCm (x : Guard) (s : State) : Host.Outcome State Fault Refusal := issue x s (drainOut s intoCm)

/-- A table build runs at a station that the core's copies fed since its last DRAIN of table stores. -/
def State.fedBuild (s : State) : Bool :=
  s.me.fed.any fun n => (spGet {} s.stations n).bg.any fun b => b.kind == .build

/-- DRAIN.tbl: also the builds that the copies feed (R153; log entry 49). -/
def execDrainTbl (x : Guard) (s : State) : Host.Outcome State Fault Refusal :=
  issue x s (if s.fedBuild then .wait s else match drainOut s intoTbl with
    | .done t => .done (t.setMe { t.me with fed := [] })
    | o => o)

/-- DRAIN.acc. -/
def execDrainAcc (x : Guard) (s : State) : Host.Outcome State Fault Refusal := issue x s (drainOut s intoAcc)

/-! ## Fibre streams (R315 to R317) -/

/-- A stream register replaced. -/
def Core.setStream (c : Core) (n : SReg) (st : Stream) : Core := { c with st := c.st.set n.val st }

/-- FBOPEN: the value check comes before the alignment (R413). -/
def execFbopen (x : Guard) (n : SReg) (a b : GReg) (s : State) : Host.Outcome State Fault Refusal :=
  let k := s.src2 b
  let base := s.me.rg a
  issue x s (
    if 2 ^ 32 ≤ k.toNat then .fault { cls := cStream }
    else if base.toNat % 4 ≠ 0 then .fault { cls := cAlign, addr := base.toNat % 2 ^ 56 }
    else .done (s.setMe (s.me.setStream n { base := base.setWidth 56, isOpen := true, n := k.setWidth 32 })))

/-- Bitmap word j of an open stream as an agent gets it: the word the stream engine has read, or a read now (R317). -/
def State.streamWord (s : State) (a : Agent) (st : Stream) (j : Nat) : Except FI (Word × State) :=
  if st.n.toNat ≤ j then .ok (0, s)
  else match spFind st.words j with
    | some w => .ok (w, s)
    | none => do
      let l ← s.access (s.who a) (st.base.toNat + 4 * j) 4 4 false
      let (bs, t) := s.readAt a.die (agentIdx a) none l 4
      return (BitVec.ofNat 32 (leValue bs), t)

/-- A stream moved past its word (R316). -/
def Stream.advance (st : Stream) (w : Word) : Stream :=
  if st.j < st.n then
    { st with
      off := st.off + BitVec.ofNat 32 (popcount 32 w.toNat)
      j := st.j + 1
      words := spErase st.words st.j.toNat }
  else st

/-- Bitmap word j of an open stream need not be read, or may be read now. -/
def State.streamMay (s : State) (a : Agent) (st : Stream) (j : Nat) : Bool :=
  decide (st.n.toNat ≤ j) || (spFind st.words j).isSome ||
    match s.access (s.who a) (st.base.toNat + 4 * j) 4 4 false with
    | .ok l => s.mayAccess (agentIdx a) a.die l 4
    | .error _ => true

/-- FBADV: next, peek and pos. -/
def execFbadv (x : Guard) (fn : FbFn) (d : GReg) (n : SReg) (s : State) : Host.Outcome State Fault Refusal :=
  let st := s.me.st[n.val]
  issue x s (
    if !st.isOpen then .fault { cls := cStream }
    else match fn with
      | .pos => .done (s.putG d (st.j.setWidth 64))
      | .next =>
        if !s.streamMay s.cur st st.j.toNat then .wait s
        else orFault (s.streamWord s.cur st st.j.toNat) fun (w, t) =>
          .done (t.setMe ((t.me.wg d ((st.off ++ w : BitVec 64))).setStream n (st.advance w)))
      | .peek =>
        if !s.streamMay s.cur st st.j.toNat then .wait s
        else orFault (s.streamWord s.cur st st.j.toNat) fun (w, t) =>
          .done (t.setMe ((t.me.wg d ((st.off ++ w : BitVec 64))).setStream n
            (if st.j < st.n then { st with words := spInsert st.words st.j.toNat w } else st))))

/-- FBEND. -/
def execFbend (x : Guard) (pd : PReg) (n : SReg) (s : State) : Host.Outcome State Fault Refusal :=
  let st := s.me.st[n.val]
  issue x s (
    if st.isOpen then .done (s.putP pd (if st.n ≤ st.j then BitVec.allOnes 32 else 0)) else .fault { cls := cStream })

/-- FBCLOSE. -/
def execFbclose (x : Guard) (n : SReg) (s : State) : Host.Outcome State Fault Refusal :=
  issue x s (.done (s.setMe (s.me.setStream n {})))

/-- The stream engine reads the lowest bitmap word among j to j + 63 that it has not read; a fault is raised by the FBADV
that would return the word, so such a read leaves nothing (R317). -/
def execStreamWordRead (a : Agent) (n : SReg) (s : State) : Host.Outcome State Fault Refusal :=
  let st := (s.core a).st[n.val]
  let cand := (range st.j.toNat 64).find? fun k => decide (k < st.n.toNat) && (spFind st.words k).isNone
  .next (match st.isOpen, cand with
    | true, some k =>
      if !s.streamMay a st k then s
      else match s.streamWord a st k with
      | .ok (w, t) => t.setCore a ((t.core a).setStream n { st with words := spInsert st.words k w })
      | .error _ => s
    | _, _ => s)

end Sys2Proof.Machine
end

