-- ==== Sys2Proof/Machine/Sync.lean ====
section
/-! DEFINITION. Atomics, wide cells, multicast stores, fences, barriers and progress counters (R330 to R339), and the
events of the memory model and the counter file (R132, R133, R179, R337). -/

namespace Sys2Proof.Machine

/-! ## Atomics (R183, R330, R331) -/

/-- A place that an atomic of n bytes reads and writes, checked as a read and as a write. -/
def State.accessRmw (s : State) (w : Who) (a : Int) (n : Nat) : Except FI Loc := do
  let l ← s.access w a n n true
  match s.accessFault l n false (trunc a 56) with
  | some f => throw f
  | none => return l

/-- Some write to the n bytes at a resolved address has not been applied by die d. -/
def State.behind (s : State) (d : Nat) (l : Loc) (n : Nat) : Bool :=
  l.space != .local_ && s.pend.any fun w => w.todo.getLsbD d && w.cells.any fun c => decide (l.at_ ≤ c.1 ∧ c.1 < l.at_ + n)

/-- What an atomic that reads n bytes hands on to those that acquire from it (R177). -/
def State.handsOn (s : State) (d : Nat) (l : Loc) (n : Nat) : List (Nat × Nat × Scope) :=
  ((s.newest d l.at_ n).map (·.handsOn)).flatten

/-- An atomic at the home of a location: the new bytes from the old, or none to write nothing. It is performed when its
die has applied every earlier write of the location (log entry 18) and, for a release, when the core's earlier accesses
have been performed. One that is no acquire may issue and be performed later as k' says. -/
def atomicOut (s : State) (l : Loc) (n : Nat) (acq rel : Bool) (sc : Scope) (k' : Option FlyKind) (f : List Byte → Option (List Byte))
    (k : State → List Byte → CoreOut) : CoreOut :=
  let r := attr rel true sc l
  let ak := agentIdx s.cur
  let d := s.cur.die
  match k', s.late && !acq && !s.mustRelease r with
  | some kind, true => .done ((s.markRelease r).leave kind l n r)
  | _, _ =>
    if s.behind d.val l n || !s.mayAccess ak d l n then .wait s
    else
      let old := s.home l n
      let t := (s.readAt d ak (attr acq true sc l) l n).2
      match f old with
      | none => k t old
      | some new => if s.mustRelease r then .wait s else k ((t.markRelease r).write (some d) ak r l new (s.handsOn d.val l n)) old

/-- The functions of Table 10-5, codes 0 to 7, on w bits: add, and, or, xor, smin, smax, umin, umax. -/
def amoFn (fn w old x : Nat) : Nat :=
  match fn with
  | 0 => (old + x) % 2 ^ w
  | 1 => old &&& x
  | 2 => old ||| x
  | 3 => old ^^^ x
  | 4 => if sext old w ≤ sext x w then old else x
  | 5 => if sext old w ≤ sext x w then x else old
  | 6 => min old x
  | _ => max old x

/-- An ordering code has the acquire component. -/
def ordAcq (o : BitVec 2) : Bool := o.getLsbD 0
/-- An ordering code has the release component. -/
def ordRel (o : BitVec 2) : Bool := o.getLsbD 1

/-- AMO. -/
def execAmo (x : Guard) (fn : BitVec 3) (dw : Bool) (ord : BitVec 2) (sc : Scope) (d a : GReg) (s : State) :
    Host.Outcome State Fault Refusal :=
  let n := if dw then 8 else 4
  let arg := (s.me.rg d).toNat % 2 ^ (8 * n)
  issue x s (orFault (s.accessRmw s.whoMe (s.addrM a) n) fun l =>
    atomicOut s l n (ordAcq ord) (ordRel ord) sc (some (.amo d fn.toNat arg 0)) (fun old => some (leBytes n (amoFn fn.toNat (8 * n) (leValue old) arg)))
      fun t old =>
        let v := leValue old
        .done (t.putG d (if fn = 4 ∨ fn = 5 then toDW (sext v (8 * n)) else BitVec.ofNat 64 v)))

/-- AMO.cas: a compare that fails writes nothing. -/
def execAmoCas (x : Guard) (dw : Bool) (ord : BitVec 2) (sc : Scope) (d a b : GReg) (s : State) :
    Host.Outcome State Fault Refusal :=
  let n := if dw then 8 else 4
  let new := (s.me.rg d).toNat % 2 ^ (8 * n)
  let cmp := (s.src2 b).toNat % 2 ^ (8 * n)
  issue x s (orFault (s.accessRmw s.whoMe (s.me.rg a).toNat n) fun l =>
    atomicOut s l n (ordAcq ord) (ordRel ord) sc (some (.amo d 8 new cmp)) (fun old => if leValue old = cmp then some (leBytes n new) else none)
      fun t old => .done (t.putG d (BitVec.ofNat 64 (leValue old))))

/-! ## Wide cells (R82 to R85, R332, R333) -/

/-- The place of a wide cell: 32 bytes of device memory (R249, R332). An address of the local window, or a host address, raises
WIDE-TARGET. -/
def State.wideCell (s : State) (w : Who) (A : Int) (write : Bool) : Except FI Loc := do
  if A % 32 ≠ 0 then throw { cls := cAlign, addr := trunc A 56 }
  if 0 ≤ A ∧ A < 2 ^ 32 then throw { cls := cWideTarget, addr := trunc A 56 }
  let l ← s.resolve w A 32 write
  if l.space ≠ .dev then throw { cls := cWideTarget, addr := trunc A 56 }
  match s.accessFault l 32 write (trunc A 56) with
  | some f => throw f
  | none => return l

/-- X and status of a cell's bytes. -/
def cellParts (bs : List Byte) : Nat × Nat := (leValue (bs.take 16), leValue ((bs.drop 16).take 1))

/-- A cell's bytes with X and status replaced. -/
def cellPut (bs : List Byte) (x st : Nat) : List Byte := leBytes 16 x ++ leBytes 1 st ++ bs.drop 17

/-- What a FAMO of an FP32 word makes of a cell's bytes (R83). -/
def famoCell (bs : List Byte) (x : Nat) : List Byte :=
  let (v, st) := cellParts bs
  let (v, st) := wideAdd v st x
  cellPut bs v st

/-- FAMO. -/
def execFamo (x : Guard) (rel : Bool) (sc : Scope) (d a : GReg) (s : State) : Host.Outcome State Fault Refusal :=
  issue x s (orFault (s.wideCell s.whoMe (s.addrM a) true) fun l =>
    let r := attr rel true sc l
    let v := (s.me.rg d).toNat % 2 ^ 32
    if s.mustRelease r then .wait s
    else if s.late then .done ((s.markRelease r).leave (.famo v) l 32 r)
    else if s.mayAccess (agentIdx s.cur) s.cur.die l 32 then
      .done ((s.markRelease r).write (some s.cur.die) (agentIdx s.cur) r l (famoCell (s.home l 32) v)
        (s.handsOn s.cur.die.val l 32))
    else .wait s)

/-- ACELL: with clr the 32 bytes become zero in the same access. -/
def execAcell (x : Guard) (bf clr acq : Bool) (sc : Scope) (d a : GReg) (s : State) :
    Host.Outcome State Fault Refusal :=
  issue x s (orFault (s.wideCell s.whoMe (s.addrM a) clr) fun l =>
    atomicOut s l 32 acq false sc none (fun _ => if clr then some (List.replicate 32 0) else none) fun t old =>
      let f : FF := if bf then .bf16 else .fp32
      let (v, st) := cellParts old
      let (r, fl) := wideRead v st f ((fpMode t.me.fpctl).fzo f)
      .done (t.setMe ((t.me.wg d (BitVec.ofNat 64 r)).orFlags fl)))

/-! ## Multicast stores (R184, R334) -/

/-- A replica: local, or at a peer port with its address there. -/
inductive Replica where
  | here (l : Loc)
  | peer (p : Nat) (addr : Nat)
  deriving DecidableEq, Repr

/-- A replica's address register, checked. -/
def State.replica (s : State) (v : DWord) (n : Nat) : Except FI Replica :=
  let x := v.toNat
  let p := fld x 60 56
  if fld x 63 61 ≠ 0 ∨ 19 ≤ p then .error { cls := cTranslation, addr := x % 2 ^ 56, detail := trDetail 7 7 }
  else if p = 0 then (s.access s.whoMe (x % 2 ^ 56 : Nat) n n true).map .here
  else .ok (.peer (p - 1) (x % 2 ^ 56))

/-- A peer port changed. -/
def State.modPeer (s : State) (p : Nat) (f : Peer → Peer) : State :=
  if h : p < 18 then { s with peers := s.peers.set p (f s.peers[p]) } else s

/-- The header and payload of a flit (R389). -/
def Flit.bytes (f : Flit) : List Byte :=
  leBytes 16 (f.kind % 2 ^ 4 + f.used % 2 ^ 12 * 2 ^ 4 + f.seq % 2 ^ 32 * 2 ^ 16 + f.addr % 2 ^ 56 * 2 ^ 48)
    ++ (f.payload ++ List.replicate (224 - f.payload.length) 0).take 224

/-- A flit read from its header and payload. -/
def flitOf (bs : List Byte) : Flit :=
  let h := leValue (bs.take 16)
  ⟨fld h 3 0, fld h 15 4, fld h 47 16, fld h 103 48, (bs.drop 16).take (min 224 (fld h 15 4))⟩

/-- A flit sent through a peer port, next in sequence (R389, R390). -/
def Peer.send (q : Peer) (kind used addr : Nat) (bs : List Byte) : Peer :=
  { q with out := q.out ++ [flitOf (Flit.bytes ⟨kind, used, q.txseq, addr, bs⟩)], txseq := (q.txseq + 1) % 2 ^ 32 }

/-- A write or token flit sent, which the peer acknowledges: for an agent's remote write, or with the launch that it moves. -/
def Peer.sendAsked (q : Peer) (kind addr : Nat) (bs : List Byte) (who : Option Agent) (lid : Option Nat) : Peer :=
  { q.send kind bs.length addr bs with waiting := q.waiting ++ [(q.txseq, who, lid)] }

/-- LINK at the issuer of a remote access whose link is down (R454): its launch, if it is still open, stops. -/
def State.linkFault (s : State) (a : Agent) (lid : Option Nat) (iface num : Nat) : State :=
  let lid := lid.filter fun n => (s.launch n).isSome
  let r : FRec := { (unitRec { cls := cLink, detail := linkDetail iface num 1 } (s.core a).ctx (agentSrc a) 0) with
    lid := lidBits lid }
  s.stopLaunch lid r

/-- A replica's write by the issuing core, with the writes ordered before it as they stood when the instruction issued: no write of one
STMC is ordered before another (R184). A remote write on a link that is down is not performed (R454). -/
def State.putReplica (s : State) (deps : List (Nat × Scope)) (rel : Option Scope) (bs : List Byte) : Replica → State
  | .here l =>
    let ak := agentIdx s.cur
    if s.late then
      (({ s with
        flying := s.flying ++ [{ id := s.nextW, agent := s.cur, lid := s.me.lid, loc := l, n := bs.length, kind := .store bs, deps, rel }]
        nextW := s.nextW + 1 } : State)).noteOwn ak s.nextW
    else (({ s with nextW := s.nextW + 1 }).enter s.nextW (some s.cur.die) ak deps rel [] l bs).noteOwn ak s.nextW
  | .peer p addr =>
    if h : p < 18 then
      if s.peers[p].up then s.modPeer p fun q => q.sendAsked 1 addr bs (some s.cur) s.me.lid
      else s.linkFault s.cur s.me.lid 1 p
    else s

/-- The scope at which an STMC's release holds its writes: its own, and .sys where a replica is remote (R184). -/
def stmcScope (sc : Scope) (rs : List Replica) : Scope :=
  if rs.any (fun r => match r with | .peer .. => true | .here _ => false) then .sys else sc

/-- A local replica's write may be performed now. -/
def State.replicaMay (s : State) (n : Nat) : Replica → Bool
  | .here l => s.late || s.mayAccess (agentIdx s.cur) s.cur.die l n
  | .peer .. => true

/-- STMC. Every local address is checked before any write is performed; its address registers are gs1 to
gs1 + n - 1. -/
def execStmc (x : Guard) (w : BitVec 2) (rel : Bool) (sc : Scope) (n : BitVec 2) (d a : GReg) (s : State) :
    Host.Outcome State Fault Refusal :=
  let k := widthBytes w
  let bs := leBytes k (s.me.rg d).toNat
  let tries := (List.range (n.toNat + 1)).map fun i => s.replica (s.me.rg (Fin.ofNat 32 (a.val + i))) k
  issue x s (
    match firstFault (tries.filterMap fun r => match r with | .error f => some f | .ok _ => none) with
    | some f => .fault f
    | none =>
      let rs := tries.filterMap fun r => match r with | .ok r => some r | .error _ => none
      let r : Option Scope := if rel then some (stmcScope sc rs) else none
      if s.mustRelease r || !rs.all (s.replicaMay k) then .wait s
      else .done (rs.foldl (fun t q => t.putReplica (s.before (agentIdx s.cur) r) r bs q) (s.markRelease r)))

/-! ## Fences (R335, R336, R172, R181, R182) -/

/-- The writes an agent has made or seen that some die has not applied. -/
def State.relSet (s : State) (ak : Nat) : List Nat := (union (s.knows ak).obs ((s.knows ak).ord.map (·.1))).filter s.pending

/-- FENCE: its issuer waits until its earlier accesses are performed towards every agent in scope; .sc at .dev and .sys also until
every die has applied the writes it has seen (R182). -/
def execFence (x : Guard) (seqc : Bool) (sc : Scope) (s : State) : Host.Outcome State Fault Refusal :=
  let ak := agentIdx s.cur
  issue x s (
    if s.mustRelease (some sc) || (scopeDev sc && seqc && s.relSet ak != []) then .wait s
    else .done (s.noteFence ak sc))

/-- XFENCE: also every engine operation of the issuer, and what its engines wrote (R172). -/
def execXfence (x : Guard) (sc : Scope) (s : State) : Host.Outcome State Fault Refusal :=
  let ak := agentIdx s.cur
  let ek := engKey s.cur
  issue x s (
    if s.engine.any (fun e => e.agent == s.cur) || s.mustRelease (some sc) || (scopeDev sc && s.ownPending ek) then .wait s
    else
      let all := union (s.knows ak).obs (s.knows ek).obs
      let ord := all.map (·, sc)
      .done (((s.markRelease (some sc)).setKnow ak { obs := all, ord := union (s.knows ak).ord ord }).setKnow ek
        { obs := all, ord := union (s.knows ek).ord ord }))

/-! ## Barriers (R337) -/

/-- Place of a participant set among a core's counts. -/
def barNum : BarSet → Fin 3
  | .access => 0
  | .drain => 1
  | .all => 2

/-- A core takes part in a set. -/
def inBarSet (set : BarSet) (k : CoreKind) : Bool :=
  match set, k with
  | .access, .access => true
  | .drain, .drain => true
  | .all, .access => true
  | .all, .drain => true
  | _, _ => false

/-- BAR: its arrival is a release at .dev of everything before it; it completes when BARRIER_COMPLETE has found every
participant there. -/
def execBar (x : Guard) (set : BarSet) (s : State) : Host.Outcome State Fault Refusal :=
  let c := s.me
  issue x s (onlyBy s [.access, .drain] (
    match c.wait with
    | .bar st true =>
      if st = set then
        .done (s.setMe { c with bars := c.bars.set (barNum set).val (c.bars[(barNum set).val] + 1) })
      else .wait s
    | _ =>
      if s.ownFlying (agentIdx s.cur) || s.relSet (agentIdx s.cur) != [] then .wait s
      else .wait (s.setMe { c with wait := .bar set false })))

/-- The agent of an index of the core table. -/
def agentOf (i : Nat) : Agent :=
  if i < 2048 then ⟨if i % 2 = 0 then .access else .drain, Fin.ofNat 8 (i / 256), Fin.ofNat 128 (i / 2 % 128)⟩
  else ⟨.collier, Fin.ofNat 8 (i - 2048), 0⟩

/-- The cores of a launch, with their agents. -/
def State.launchCores (s : State) (lid : Nat) : List (Agent × Core) :=
  (s.cores.filter fun (_, c) => c.lid == some lid).map fun (i, c) => (agentOf i, c)

/-- Every participant of a set waits in its BAR or has halted. -/
def State.barReady (s : State) (lid : Nat) (set : BarSet) : Bool :=
  let ps := (s.launchCores lid).filter fun (a, _) => inBarSet set a.kind
  ps.any (fun (_, c) => c.wait == .bar set false) &&
    ps.all fun (_, c) => c.run == .halted || (c.run == .running && c.wait == .bar set false)

/-- A BAR of a launch completes on every participant (R337). -/
def execBarrierComplete (lid : Nat) (set : BarSet) (s : State) : Host.Outcome State Fault Refusal :=
  .next (if s.barReady lid set then
      s.modCores lid fun c => if c.wait = .bar set false then { c with wait := .bar set true } else c
    else s)

/-! ## Progress counters (R132, R133, R338, R339) -/

/-- Counters on the module (R132). -/
def counterCount : Nat := 16384

/-- A counter number in range, or COUNTER-RANGE. -/
def counterOk (v : DWord) (k : Nat → CoreOut) : CoreOut :=
  if v.toNat < counterCount then k v.toNat else .fault { cls := cCounterRange }

/-- A counter write sent by the issuing core: a release at .dev of everything before it (R338). -/
def State.sendCounter (s : State) (k : Nat) (add : Bool) (v : DWord) : State :=
  { s with cmsgs := s.cmsgs ++ [⟨agentIdx s.cur, k, add, v, s.relSet (agentIdx s.cur)⟩] }

/-- PCINC and PCSET: the core goes on at once, but for loads of its own that are not yet performed, which the release orders
first. -/
def counterOut (s : State) (k : Nat) (add : Bool) (v : DWord) : CoreOut :=
  if s.ownLoads (agentIdx s.cur) then .wait s else .done (s.sendCounter k add v)

/-- PCINC, R form. -/
def execPcincR (x : Guard) (a b : GReg) (s : State) : Host.Outcome State Fault Refusal :=
  issue x s (counterOk (s.me.rg a) fun k => counterOut s k true (s.src2 b))

/-- PCINC, I form. -/
def execPcincI (x : Guard) (a : GReg) (imm : BitVec 11) (s : State) : Host.Outcome State Fault Refusal :=
  issue x s (counterOk (s.me.rg a) fun k => counterOut s k true (s.immI imm))

/-- PCSET, R form. -/
def execPcsetR (x : Guard) (a b : GReg) (s : State) : Host.Outcome State Fault Refusal :=
  issue x s (counterOk (s.me.rg a) fun k => counterOut s k false (s.src2 b))

/-- PCSET, I form. -/
def execPcsetI (x : Guard) (a : GReg) (imm : BitVec 11) (s : State) : Host.Outcome State Fault Refusal :=
  issue x s (counterOk (s.me.rg a) fun k => counterOut s k false (s.immI imm))

/-- The threshold test of R133. -/
def reached (v h : DWord) : Bool := decide ((v - h).toNat < 2 ^ 63)

/-- A wait on a counter at the issuing die's replica: evaluated when it is registered and at every value that reaches the
replica; once satisfied it stays so (R133). -/
def counterWait (s : State) (k : Nat) (h : DWord) : CoreOut :=
  match s.me.wait with
  | .counter _ _ true => .done s
  | .counter _ _ false => .wait s
  | _ =>
    if reached (spGet 0 (s.die s.cur.die).replica k) h then .done s
    else .wait (s.setMe { s.me with wait := .counter k h false })

/-- PCWAIT, R form. -/
def execPcwaitR (x : Guard) (a b : GReg) (s : State) : Host.Outcome State Fault Refusal :=
  issue x s (counterOk (s.me.rg a) fun k => counterWait s k (s.src2 b))

/-- PCWAIT, I form. -/
def execPcwaitI (x : Guard) (a : GReg) (imm : BitVec 11) (s : State) : Host.Outcome State Fault Refusal :=
  issue x s (counterOk (s.me.rg a) fun k => counterWait s k (s.immI imm))

/-- A dependence field of a record (R117): valid bit and counter. -/
def Launch.depField (l : Launch) (j : Nat) : Nat := fld (leValue l.bytes) (128 + 16 * j + 15) (128 + 16 * j)

/-- A threshold of a record (R117). -/
def Launch.thr (l : Launch) (j : Nat) : DWord := BitVec.ofNat 64 (fld (leValue l.bytes) (256 + 64 * j + 63) (256 + 64 * j))

/-- A pending launch with its dependences evaluated at counter values; a dependence once satisfied stays so, and a launch
whose dependences are all satisfied becomes READY (R123). -/
def Launch.evalDeps (l : Launch) (now : Nat) (value : Nat → Option DWord) : Launch :=
  if l.st ≠ .waiting then l
  else
    let deps := (List.range 4).map fun j =>
      l.deps.getD j false || !bitOf (l.depField j) 15 ||
        (match value (l.depField j % 2 ^ 14) with | some v => reached v (l.thr j) | none => false)
    if deps.all id then { l with deps, st := .ready, since := now, ageAt := now } else { l with deps }

/-- Counter k takes the value v at the IOD (R132): the replicas are sent it, and launches that name it are evaluated. -/
def State.counterWrite (s : State) (k : Nat) (v : DWord) : State :=
  { s with
    counters := spInsert s.counters k v
    dies := s.dies.map fun d => { d with rmsgs := d.rmsgs ++ [(k, v)] }
    launches := s.launches.map fun l => l.evalDeps s.now fun j => if j = k then some v else none }

/-- The counter messages that may reach the IOD: what they release is performed, the link from their die is open (R391), and no earlier
message of their core waits (R338). -/
def performable (s : State) : List CtrMsg → List Nat → List CtrMsg
  | [], _ => []
  | m :: ms, seen =>
    if seen.contains m.src then performable s ms seen
    else
      let rest := performable s ms (m.src :: seen)
      if m.after.all (fun id => !s.pending id) && (match dieOfKey m.src with | some d => s.linkOpen none d | none => true)
        then m :: rest else rest

/-- One of several, chosen freely (log entry 3). -/
def pick {α : Type} (n : Nat) : List α → Option α
  | [] => none
  | [a] => some a
  | a :: l => some ((a :: l).getD (Config.choose n % (l.length + 1)) a)

/-- A counter write reaches the IOD and is performed there (R132). -/
def execCounterWriteAtIod (s : State) : Host.Outcome State Fault Refusal :=
  .next (match pick s.steps (performable s s.cmsgs []) with
    | none => s
    | some m =>
      let old := spGet 0 s.counters m.k
      ({ s with cmsgs := s.cmsgs.erase m }).counterWrite m.k (if m.add then old + m.value else m.value))

/-- A waiting core sees a value of counter k at its replica. -/
def Core.seeCounter (c : Core) (k : Nat) (v : DWord) : Core :=
  match c.wait with
  | .counter j h false => if j = k ∧ reached v h then { c with wait := .counter j h true } else c
  | .event j false => if j = k then { c with wait := .event j true } else c
  | _ => c

/-- A die's replica applies the next value, which crosses its link to the IOD (R132, R391). -/
def execReplicaApply (die : Fin 8) (s : State) : Host.Outcome State Fault Refusal :=
  .next (match (s.die die).rmsgs with
    | [] => s
    | (k, v) :: ms =>
      if !s.linkOpen none die.val then s
      else
      let s1 := s.setDie die { s.die die with rmsgs := ms, replica := spInsert (s.die die).replica k v }
      { s1 with cores := s1.cores.map fun (i, c) => (i, if (agentOf i).die = die then c.seeCounter k v else c) })

/-! ## Writes reach the dies (R179 to R181) -/

/-- Acknowledgements whose writes every die has applied are sent (R184, R390). -/
def State.sendAcks (s : State) : State :=
  let done (a : Nat × List Nat) : Bool := a.2.all fun id => !s.pending id
  { s with peers := s.peers.map fun q =>
      ((q.acks.takeWhile done).foldl (fun (q : Peer) a => q.send 5 0 a.1 []) { q with acks := q.acks.dropWhile done } : Peer) }

/-- Die d applies one write, when it has applied those ordered before it and the links on its way are open. -/
def execDieApplyWrite (die : Fin 8) (n : Nat) (s : State) : Host.Outcome State Fault Refusal :=
  .next (match s.pend.find? (·.id == n) with
    | some w => if s.canApply die.val w && s.wayTo die.val w then (s.applyAt die.val w).sendAcks else s
    | none => s)

/-! ## Accesses that issued and are performed later (R175) -/

/-- An access on its way may be performed now: the links are open, no earlier one of its core to those bytes is on its way, and what
comes before the writes it reads is performed. -/
def State.mayLand (s : State) (f : Fly) : Bool :=
  let ak := agentIdx f.agent
  s.linkTo f.agent.die f.loc &&
  !((s.flying.takeWhile fun g => g.id != f.id).any fun g => agentIdx g.agent == ak && g.meets f.loc f.n) &&
  (match f.kind with
    | .store _ | .famo _ => true
    | .amo .. => s.depsMet ak f.agent.die f.loc f.n && !s.behind f.agent.die.val f.loc f.n
    | _ => s.depsMet ak f.agent.die f.loc f.n)

/-- An access on its way is performed: what a load reads goes to its register. -/
def State.land (s : State) (f : Fly) : State :=
  let ak := agentIdx f.agent
  let d := f.agent.die
  let t : State := { s with flying := s.flying.filter fun g => g.id != f.id }
  let put (u : State) (c : Core → Core) : State := u.setCore f.agent (c (u.core f.agent))
  match f.kind with
  | .store bs => (t.enter f.id (some d) ak f.deps f.rel [] f.loc bs).prune
  | .famo x => (t.enter f.id (some d) ak f.deps f.rel (t.handsOn d.val f.loc 32) f.loc (famoCell (t.home f.loc 32) x)).prune
  | .load g sx =>
    let (bs, u) := t.readAt d ak none f.loc f.n
    put u (·.wg g (if sx then toDW (sext (leValue bs) (8 * f.n)) else BitVec.ofNat 64 (leValue bs)))
  | .vload v =>
    let (bs, u) := t.readAt d ak none f.loc f.n
    put u (·.wv v (lanesOfBytes bs))
  | .lane v j =>
    let (bs, u) := t.readAt d ak none f.loc f.n
    put u (·.wlane v j bs)
  | .amo g fn arg cmp =>
    let old := leValue (t.home f.loc f.n)
    let u := (t.readAt d ak none f.loc f.n).2
    let new : Option Nat := if fn = 8 then (if old = cmp then some arg else none) else some (amoFn fn (8 * f.n) old arg)
    let u := match new with
      | some x => u.enter f.id (some d) ak f.deps f.rel (t.handsOn d.val f.loc f.n) f.loc (leBytes f.n x)
      | none => u
    (put u (·.wg g (if fn = 4 ∨ fn = 5 then toDW (sext old (8 * f.n)) else BitVec.ofNat 64 old))).prune

/-- MEMORY_ACCESS_COMPLETE: the access n of a core is performed; or, when it is a write that is already performed on its own die, every
die that may applies it (R181). -/
def execMemoryAccessComplete (n : Nat) (s : State) : Host.Outcome State Fault Refusal :=
  .next (match s.flying.find? (·.id == n) with
    | some f => if s.mayLand f then s.land f else s
    | none => (s.applyAll n).sendAcks)

end Sys2Proof.Machine
end

