-- ==== Sys2Proof/Machine/Token.lean ====
section
/-! DEFINITION. Tokens and tags (R90 to R96, Tables 04-1 to 04-4): fields, intervals, values at indices, headers, shapes of
results and tag operations. -/

namespace Sys2Proof.Machine

/-! ## Tags (R90, R91) -/

/-- Low bit and width of field f_L. -/
def fieldPos (L : Nat) : Nat × Nat :=
  match L with
  | 1 => (40, 16)
  | 2 => (24, 16)
  | 3 => (12, 12)
  | _ => (0, 12)

/-- Number of indices of a level's field. -/
def fieldSize (L : Nat) : Nat := 2 ^ (fieldPos L).2

/-- Field f_L of a tag. -/
def tagFld (tag : DWord) (L : Nat) : Nat := tag.toNat / 2 ^ (fieldPos L).1 % fieldSize L

/-- Field f_L replaced. -/
def setTagFld (tag : DWord) (L v : Nat) : DWord :=
  BitVec.ofNat 64 (setFld tag.toNat ((fieldPos L).1 + (fieldPos L).2 - 1) (fieldPos L).1 v)

/-- Fields deeper than level L made 0. -/
def cutTag (tag : DWord) (L : Nat) : DWord := BitVec.ofNat 64 (tag.toNat / 2 ^ (fieldPos L).1 * 2 ^ (fieldPos L).1)

/-- Context and outer fields f1 to f_(L-1) of a tag. -/
def outerOf (tag : DWord) (L : Nat) : Nat := tag.toNat / 2 ^ ((fieldPos L).1 + (fieldPos L).2)

/-- The context tag of a tag. -/
def tagCtx (tag : DWord) : Byte := BitVec.ofNat 8 (tag.toNat / 2 ^ 56)

/-- A tag with its context replaced. -/
def setTagCtx (tag : DWord) (c : Byte) : DWord := BitVec.ofNat 64 (tag.toNat % 2 ^ 56 + c.toNat * 2 ^ 56)

/-! ## Tokens -/

/-- A format whose values take two lanes (R95). -/
def twoLanes (ty : Fmt) : Bool := ty == .int64 || ty == .fp64

/-- Indices that a dense token of a type covers at most (R95). -/
def denseMax (ty : Fmt) : Nat := if twoLanes ty then 16 else 32

/-- Level of a token. -/
def Token.L (t : Token) : Nat := t.level.toNat + 1

/-- Base index of a token. -/
def Token.base (t : Token) : Nat := tagFld t.tag t.L

/-- A token moved to another base. -/
def Token.atBase (t : Token) (b : Nat) : Token := { t with tag := setTagFld t.tag t.L b }

/-- The two intervals overlap. -/
def overlaps (b n c m : Nat) : Bool := decide (b < c + m ∧ c < b + n)

/-- The value of an index, by its offset from the base: the lane, or two lanes with the low one first (R95). -/
def Token.val (t : Token) (off : Nat) : Nat :=
  let k := if t.shape = .dense then off else 0
  if twoLanes t.ty then (t.lanes.getD (2 * k) 0).toNat + (t.lanes.getD (2 * k + 1) 0).toNat * 2 ^ 32
  else (t.lanes.getD k 0).toNat

/-- The lanes of a value of a type, from its low bits (R95). -/
def lanesOf (ty : Fmt) (v : Nat) : List Word :=
  if twoLanes ty then [BitVec.ofNat 32 v, BitVec.ofNat 32 (v / 2 ^ 32)]
  else
    match fmtInt ty, fmtBsi ty with
    | some (w, true), _ => [BitVec.ofInt 32 (sext v w)]
    | some (w, false), _ => [BitVec.ofNat 32 (v % 2 ^ w)]
    | none, some w => [BitVec.ofInt 32 (sext v w)]
    | none, none => [BitVec.ofNat 32 v]

/-- The part of a token from an offset, n indices long. -/
def Token.sub (t : Token) (off n : Nat) : Token :=
  let k := if twoLanes t.ty then 2 else 1
  { t with
    tag := setTagFld t.tag t.L (t.base + off)
    n
    lanes := if t.shape = .dense then (t.lanes.drop (k * off)).take (k * n) else t.lanes }

/-- The part of a token on the interval from b, n long. -/
def Token.on (t : Token) (b n : Nat) : Token := t.sub (b - t.base) n

/-- An entry's token as it stands in a pair on [b, b + n): a sticky one is a run of its one value (R100). -/
def Entry.operand (e : Entry) (b n : Nat) : Token :=
  if e.kind = .sticky then { (e.tok.atBase b) with shape := .run, n, lanes := e.tok.lanes } else e.tok.on b n

/-- A token without destination. -/
def mkToken (ty : Fmt) (shape : Shape) (L : Nat) (tag : DWord) (n : Nat) (exp : Byte) (lanes : List Word) : Token :=
  { stn := 0, slot := 0, port := 0, act := 0, shape, ty, level := BitVec.ofNat 2 (L - 1), n, exp, tag, lanes }

/-- A scalar of a value at a tag. -/
def scalarTok (ty : Fmt) (L : Nat) (tag : DWord) (v : Nat) (exp : Byte := 0) : Token :=
  mkToken ty .scalar L tag 1 exp (lanesOf ty v)

/-- A run of a value over n indices from a tag. -/
def runTok (ty : Fmt) (L : Nat) (tag : DWord) (n v : Nat) (exp : Byte := 0) : Token :=
  mkToken ty .run L tag n exp (lanesOf ty v)

/-- Dense tokens of values from base b, each as long as the type allows; fuel bounds their number. -/
def denseToks (ty : Fmt) (L : Nat) (tag : DWord) (exp : Byte) : Nat → Nat → List Nat → List Token
  | 0, _, _ => []
  | f + 1, b, vs =>
    if vs = [] then []
    else
      let part := vs.take (denseMax ty)
      mkToken ty .dense L (setTagFld tag L b) part.length exp (part.map (lanesOf ty)).flatten ::
        denseToks ty L tag exp f (b + part.length) (vs.drop (denseMax ty))

/-- Tokens of a shape from base b over n indices, of the values that f gives by offset (R96). -/
def shapeToks (ty : Fmt) (shape : Shape) (L : Nat) (tag : DWord) (b n : Nat) (exp : Byte) (f : Nat → Nat) : List Token :=
  match shape with
  | .scalar => [scalarTok ty L (setTagFld tag L b) (f 0) exp]
  | .run => [runTok ty L (setTagFld tag L b) n (f 0) exp]
  | .dense => denseToks ty L tag exp (n + 1) b ((List.range n).map f)

/-- The shape of an elementwise result (R96). -/
def resShape (ops : List Shape) : Shape :=
  if ops.all (· == .run) then .run
  else if ops.contains .dense then .dense
  else .scalar

/-! ## Headers (Table 04-3) -/

/-- Code of a shape. -/
def shapeCode : Shape → Nat
  | .scalar => 0
  | .dense => 1
  | .run => 2

/-- The 128 header bits of a token (Table 04-3). -/
def Token.header (t : Token) : Nat :=
  (t.stn.toNat * 64 + t.slot.toNat * 4 + t.port.toNat) * 2 ^ 106 + t.act.toNat * 2 ^ 104 + shapeCode t.shape * 2 ^ 102
    + t.ty.short * 2 ^ 98 + t.level.toNat * 2 ^ 96 + (t.n - 1) * 2 ^ 80 + t.exp.toNat * 2 ^ 72 + t.ty.fcode * 2 ^ 64
    + t.tag.toNat

/-- Payload lanes of a shape, type and length (R94, R95). -/
def payloadLanes (shape : Shape) (ty : Fmt) (n : Nat) : Nat :=
  (if shape = .dense then n else 1) * (if twoLanes ty then 2 else 1)

/-- A token from its header and lanes; none where a code is reserved or the length is outside
the limits of its shape (Tables 04-3, 04-4). Reserved bits are ignored (R7), and fields deeper than the level are 0 (R91). -/
def tokenOf (h : Nat) (lanes : List Word) : Option Token :=
  let shape : Option Shape := match fld h 103 102 with
    | 0 => some .scalar
    | 1 => some .dense
    | 2 => some .run
    | _ => none
  match shape, fmtOfShort (fld h 101 98) (fld h 69 64) with
  | some shape, some ty =>
    let L := fld h 97 96 + 1
    let n := fld h 95 80 + 1
    let lim := match shape with | .scalar => 1 | .dense => denseMax ty | .run => fieldSize L
    let tag := cutTag (BitVec.ofNat 64 h) L
    if n ≤ lim ∧ fld h 105 104 ≠ 3 ∧ fld h 107 106 ≠ 3 ∧ tagFld tag L + n ≤ fieldSize L
        ∧ (fld h 101 98 = 0xF ∨ fld h 69 64 = 0) then
      some {
        stn := BitVec.ofNat 16 (fld h 127 112)
        slot := BitVec.ofNat 4 (fld h 111 108)
        port := BitVec.ofNat 2 (fld h 107 106)
        act := BitVec.ofNat 2 (fld h 105 104)
        shape, ty, n, tag
        level := BitVec.ofNat 2 (fld h 97 96)
        exp := BitVec.ofNat 8 (fld h 79 72)
        lanes := lanes.take (payloadLanes shape ty n) }
    else none
  | _, _ => none

/-! ## Tag operations (R92, R93) -/

/-- A token whose interval would cross 2^w as the two that stand for it (R93). -/
def splitTok (t : Token) : List Token :=
  if t.base + t.n ≤ fieldSize t.L then [t]
  else
    let k := fieldSize t.L - t.base
    [t.sub 0 k, (t.sub k (t.n - k)).atBase 0]

/-- What one result token becomes under a tag operation: keep, nest, unnest or advance. Under nest the field one level down is 0.
Under unnest the value is the one at the highest index (R238; log entry 19). -/
def tagOp (op : BitVec 3) (t : Token) : List Token :=
  match op.toNat with
  | 1 =>
    (List.range t.n).map fun i =>
      { mkToken t.ty (if t.shape = .run then .run else .scalar) (t.L + 1) (cutTag (setTagFld t.tag t.L (t.base + i)) t.L) 1 t.exp
          (lanesOf t.ty (t.val i)) with level := t.level + 1 }
  | 2 =>
    [{ mkToken t.ty .scalar t.L (setTagFld t.tag t.L 0) 1 t.exp (lanesOf t.ty (t.val (t.n - 1))) with
        level := t.level - 1 }]
  | 3 => splitTok (t.atBase ((t.base + 1) % fieldSize t.L))
  | _ => splitTok t

end Sys2Proof.Machine
end

