-- ==== Sys2Proof/Machine/Station.lean ====
section
/-! DEFINITION. What every station does: slots and their ports (R86, R87), arrival and matching (R97 to R103, R445), block and
JOIN slots (R232, R264), issue and faults of a pair (R104, R419 to R421), and sending results (R92, R107). -/

namespace Sys2Proof.Machine

/-! ## Stations and slots -/

/-- A station. -/
def State.stn (s : State) (n : Nat) : Station := spGet {} s.stations n

/-- A station replaced. -/
def State.setStn (s : State) (n : Nat) (x : Station) : State := { s with stations := spInsert s.stations n x }

/-- The access core of the core that holds a station (R421's layout of physical numbers). -/
def stnAgent (n : Nat) : Agent := ⟨.access, Fin.ofNat 8 (n / 8192), Fin.ofNat 128 (n / 64 % 128)⟩

/-- The die of a station. -/
def stnDie (n : Nat) : Fin 8 := Fin.ofNat 8 (n / 8192)

/-- The FPCTL that a station's slots sample: its core's access core's (R71). -/
def State.stnFpctl (s : State) (n : Nat) : DWord := (s.core (stnAgent n)).fpctl

/-- The mode that a pair fired under (R71, R270; log entry 65). -/
def Pair.fpMode (p : Pair) : FpMode := Sys2Proof.Machine.fpMode p.fp

/-- Pairs that formed behind the first k of the issue queue fired with an FPCTL (R71). -/
def Station.stamp (st : Station) (k : Nat) (v : DWord) : Station :=
  { st with issueq := st.issueq.take k ++ (st.issueq.drop k).map fun p => { p with fp := v } }

/-- The launch that holds the core of a station (R87). -/
def State.activeLaunch (s : State) (n : Nat) : Option Nat := (s.core (stnAgent n)).lid

/-- The word of a slot, decoded. -/
def Ctx.instr (c : Ctx) (slot : BitVec 4) : Option Instr :=
  match spFind c.words slot.toNat with
  | some w => (decodeStation w.toNat).toOption
  | none => none

/-- The common fields of a station instruction. -/
def stnHead : Instr → Option Head
  | .pass h .. | .steer h .. | .merge h .. | .gate h .. | .join h .. | .const h .. | .sink h .. | .count h ..
  | .purge h .. | .wadv h .. | .nest h .. | .unnest h .. | .tset h .. | .tget h .. | .rsplit h .. | .rlen h
  | .expand h .. | .pack h .. | .xmit h .. | .ldn h .. | .stn h .. | .amon h .. | .famn h .. | .iadd h ..
  | .isub h .. | .imul h .. | .imac h .. | .imin h .. | .imax h .. | .iabs h .. | .logic h .. | .shift h ..
  | .icmp h .. | .sel h .. | .slotBitc h .. | .fadd h .. | .fmul h .. | .ffma h .. | .fmin h .. | .fmax h ..
  | .fcmp h .. | .fspec h .. | .cvt h .. | .bqnt h .. | .dqnt h .. | .redu h .. | .scan h .. | .slotRng h ..
  | .segt h .. | .sgpN32 h .. | .sgpN64 h .. | .dmacN32 h .. | .dmacN64 h .. | .spmc h .. | .isect h ..
  | .tbld h .. | .tupd h .. | .pupd h .. | .pbind h .. | .tfold h .. | .tsum h .. | .trd h .. | .aclr h ..
  | .aemit h .. => some h
  | _ => none

/-- The slot takes a random token: its mode holds SR (R76, R255, R293). -/
def takesRandom : Instr → Bool
  | .fadd _ _ r _ _ | .fmul _ _ r _ | .ffma _ _ r _ _ _ | .cvt _ _ r _ | .bqnt _ _ r _ | .dqnt _ _ r _ => r == 4
  | .aemit _ _ r _ _ _ _ _ _ _ _ => r == 4
  | _ => false

/-- The ports a slot waits on, with its random port (R86). -/
def slotPorts (i : Instr) : List (BitVec 2) :=
  match stnHead i with
  | none => []
  | some h =>
    match h.arity.toNat, takesRandom i with
    | 0, _ => []
    | 1, false => [0]
    | 1, true => [0, 1]
    | 2, false => [0, 1]
    | 2, true => [0, 1, 2]
    | _, _ => [0, 1, 2]

/-- How a slot gathers its operands. -/
inductive SlotKind where
  | plain
  | merge
  | join (n : Nat)
  | block (c : Nat) (scan : Bool)
  deriving DecidableEq, Repr

/-- The kind of a slot (R230, R232, R264). -/
def slotKind : Instr → SlotKind
  | .merge .. => .merge
  | .join _ n => .join n.toNat
  | .bqnt _ _ _ c => .block c.toNat false
  | .redu _ _ _ c => .block c.toNat false
  | .scan _ _ _ c => .block c.toNat true
  | _ => .plain

/-- A sticky or purge action is handled as a normal one at MERGE and at a slot of arity 0 or 1, its random port apart
(R227). -/
def actionOf (i : Instr) (t : Token) : BitVec 2 :=
  match stnHead i with
  | none => t.act
  | some h =>
    if slotKind i = .merge ∨ (h.arity.toNat < 2 ∧ !(takesRandom i && h.arity == 1 && t.port == 1)) then 0 else t.act

/-! ## The matching store (R97 to R103) -/

/-- The entry waits at slot, port and context with the same outer fields. -/
def Entry.at_ (e : Entry) (cx : Fin 4) (slot : BitVec 4) (L outer : Nat) : Bool :=
  e.cx == cx && e.tok.slot == slot && outerOf e.tok.tag L == outer

/-- Two entries of one block slot, the second where the first ends: they are one entry of the store (R264). -/
def Entry.joins (a b : Entry) : Bool :=
  a.kind == .block && b.kind == .block && b.at_ a.cx a.tok.slot a.tok.L (outerOf a.tok.tag a.tok.L)
    && a.tok.base + a.tok.n == b.tok.base

/-- Entries of the store in use (R103, R264). -/
def Station.used (st : Station) : Nat :=
  (st.store.filter fun e => !(st.store.any fun a => a.joins e)).length

/-- Free entries of the store (R103). -/
def Station.free (st : Station) : Nat := 64 - st.used

/-- An entry put in its place by arrival order. -/
def insertEntry (e : Entry) : List Entry → List Entry
  | [] => [e]
  | a :: l => if a.ord ≤ e.ord then a :: insertEntry e l else e :: a :: l

/-- A station with an entry in its store. -/
def Station.put (st : Station) (e : Entry) : Station := { st with store := insertEntry e st.store }

/-- An entry cut to an interval. -/
def Entry.on (e : Entry) (b n : Nat) : Entry := { e with tok := e.tok.on b n }

/-- The parts of an entry outside [lo, hi). -/
def Entry.outside (e : Entry) (lo hi : Nat) : List Entry :=
  let b := e.tok.base
  let z := b + e.tok.n
  (if b < lo then [e.on b (lo - b)] else []) ++ (if hi < z then [e.on hi (z - hi)] else [])

/-- The parts of an entry outside [lo, hi); an entry apart from it stays whole. -/
def Entry.minus (e : Entry) (lo hi : Nat) : List Entry :=
  if overlaps e.tok.base e.tok.n lo (hi - lo) then e.outside lo hi else [e]

/-- Partners at the ports left, oldest first at each, with the interval common to all (R97, R100). -/
def findParts (store : List Entry) : List (BitVec 2) → Nat → Nat → List Entry → Option (Nat × Nat × List Entry)
  | [], lo, hi, got => some (lo, hi, got)
  | q :: qs, lo, hi, got =>
    (store.filter fun e => e.tok.port == q).findSome? fun e =>
      if e.kind = .sticky then findParts store qs lo hi (got ++ [e])
      else
        let a := max lo e.tok.base
        let b := min hi (e.tok.base + e.tok.n)
        if a < b then findParts store qs a b (got ++ [e]) else none

/-- The first pair that pieces of an arriving token form: with the oldest entry that has one, at the first of the other ports (R98). -/
def findPair (store : List Entry) (ports : List (BitVec 2)) (pieces : List Entry) : Option (Entry × Nat × Nat × List Entry) :=
  match ports with
  | [] => pieces.head?.map fun p => (p, p.tok.base, p.tok.base + p.tok.n, [])
  | q :: qs =>
    (store.filter fun e => e.tok.port == q).findSome? fun e => pieces.findSome? fun p =>
      let z := p.tok.base + p.tok.n
      let go (lo hi : Nat) := (findParts store qs lo hi [e]).map fun r => (p, r)
      if e.kind = .sticky then go p.tok.base z
      else
        let a := max p.tok.base e.tok.base
        let b := min z (e.tok.base + e.tok.n)
        if a < b then go a b else none

/-- A pair of operand entries on [b, b + n). -/
def mkPair (cx : Fin 4) (slot : BitVec 4) (tag : DWord) (L b n : Nat) (es : List Entry) : Pair :=
  let port (q : BitVec 2) := (es.filter fun e => e.tok.port == q).map fun e => if e.kind = .sticky then e else e.on b n
  ⟨cx, slot, setTagFld tag L b, b, n, port 0, port 1, port 2, 0⟩

/-- MATCH-OVERFLOW with free entries at arrival and entries needed (R442). -/
def overflowFault (free need : Nat) : FI := { cls := cMatchOverflow, detail := free % 128 + need % 128 * 128 }

/-- TAG-COLLISION at a port; merge tells a MERGE, JOIN or block slot (R442). -/
def collision (t : Token) (merge : Bool) : FI := { cls := cTagCollision, detail := t.port.toNat + (if merge then 4 else 0) }

/-- An arriving token, as the pieces of it that are left, matched against the waiting entries oldest first (R98): each pair that forms
joins the issue queue and what is left goes on; pieces without partners enter the store. free0 is what the record of an overflow reports;
fuel bounds the pairs. -/
def matchWork (ports : List (BitVec 2)) (free0 : Nat) : Nat → Station → List Entry → Station × Option (FI × List Entry)
  | 0, st, _ => (st, none)
  | _ + 1, st, [] => (st, none)
  | f + 1, st, p0 :: more =>
    let pieces := p0 :: more
    let L := p0.tok.L
    let mine := st.store.filter fun e =>
      (e.kind == .normal || e.kind == .sticky) && e.at_ p0.cx p0.tok.slot L (outerOf p0.tok.tag L)
    match findPair mine (ports.filter (· ≠ p0.tok.port)) pieces with
    | none =>
      if st.free < pieces.length then (st, some (overflowFault free0 pieces.length, pieces))
      else (pieces.foldl (fun st p => st.put p) st, none)
    | some (p, lo, hi, parts) =>
      let used := parts.filter (·.kind ≠ .sticky)
      let left := (used.map fun e => e.minus lo hi).flatten
      if left.length > st.free + used.length then (st, some (overflowFault free0 (left.length - used.length), pieces))
      else
        let store := left.foldl (fun l e => insertEntry e l) (st.store.filter fun e => !used.contains e)
        let pair := mkPair p.cx p.tok.slot p.tok.tag L lo (hi - lo) (p :: parts)
        matchWork ports free0 f { st with store, issueq := st.issueq ++ [pair] }
          (pieces.map fun x => if x.tok.base = p.tok.base then x.outside lo hi else [x]).flatten

/-- Sticky tokens at a port of a slot removed (R100, R101). -/
def dropSticky (store : List Entry) (cx : Fin 4) (t : Token) : List Entry :=
  store.filter fun e => !(e.kind == .sticky && e.tok.port == t.port && e.at_ cx t.slot t.L (outerOf t.tag t.L))

/-- A normal token at a slot that pairs by tag (R97 to R99). -/
def arrivePlain (ports : List (BitVec 2)) (st : Station) (cx : Fin 4) (ord : Nat) (t : Token) :
    Station × Option (FI × List Entry) :=
  let e : Entry := ⟨cx, .normal, t, ord⟩
  if st.store.any fun x => x.kind == .normal && x.tok.port == t.port && x.at_ cx t.slot t.L (outerOf t.tag t.L)
      && overlaps x.tok.base x.tok.n t.base t.n then (st, some (collision t false, [e]))
  else matchWork ports st.free 400 st [e]

/-- Tokens matched one after another, as if each arrived now, until one does not fit. -/
def matchEach (ports : List (BitVec 2)) (free0 : Nat) : Station → List Entry → Station × Option (FI × List Entry)
  | st, [] => (st, none)
  | st, e :: es => match matchWork ports free0 400 st [e] with
    | (st1, none) => matchEach ports free0 st1 es
    | (st1, some (f, held)) => (st1, some (f, held ++ es))

/-- A sticky token: it replaces the one at its port, and partners that wait pair with it (R100). -/
def arriveSticky (ports : List (BitVec 2)) (st : Station) (cx : Fin 4) (ord : Nat) (t : Token) :
    Station × Option (FI × List Entry) :=
  let e : Entry := ⟨cx, .sticky, t, ord⟩
  if t.shape = .dense then (st, some ({ cls := cShape }, [{ e with kind := .normal }]))
  else
    let store := dropSticky st.store cx t
    let waits (x : Entry) := x.kind == .normal && x.tok.port != t.port && x.at_ cx t.slot t.L (outerOf t.tag t.L)
    matchEach ports st.free ({ st with store := store.filter fun x => !waits x }.put e) (store.filter waits)

/-- MERGE: each token is a pair; it collides with one of the other port that still waits in the issue queue (R230). -/
def arriveMerge (st : Station) (cx : Fin 4) (ord : Nat) (t : Token) : Station × Option (FI × List Entry) :=
  let e : Entry := ⟨cx, .normal, t, ord⟩
  let clash (p : Pair) := p.cx == cx && p.slot == t.slot && outerOf p.tag t.L == outerOf t.tag t.L
    && (p.l ++ p.r).any fun x => x.tok.port != t.port && overlaps x.tok.base x.tok.n t.base t.n
  if st.issueq.any clash then (st, some (collision t true, [e]))
  else ({ st with issueq := st.issueq ++ [⟨cx, t.slot, t.tag, t.base, t.n, [e], [], [], 0⟩] }, none)

/-- JOIN: intervals are kept and merged; the slot fires when they cover [0, n) (R232). -/
def arriveJoin (n : Nat) (st : Station) (cx : Fin 4) (ord : Nat) (t : Token) : Station × Option (FI × List Entry) :=
  let e : Entry := ⟨cx, .normal, t, ord⟩
  let mine (x : Entry) := x.kind == .interval && x.at_ cx t.slot t.L (outerOf t.tag t.L)
  if t.base + t.n > n then (st, some ({ cls := cCountRange, detail := 2 }, [e]))
  else if st.store.any fun x => mine x && overlaps x.tok.base x.tok.n t.base t.n then (st, some (collision t true, [e]))
  else
    let touch := st.store.filter fun x => mine x &&
      (x.tok.base + x.tok.n == t.base || t.base + t.n == x.tok.base)
    let lo := touch.foldl (fun m x => min m x.tok.base) t.base
    let hi := touch.foldl (fun m x => max m (x.tok.base + x.tok.n)) (t.base + t.n)
    let ord' := touch.foldl (fun m x => min m x.ord) ord
    let st1 := { st with store := st.store.filter fun x => !touch.contains x }
    if lo = 0 ∧ hi = n then
      ({ st1 with issueq := st1.issueq ++ [⟨cx, t.slot, setTagFld t.tag t.L 0, 0, n, [], [], [], 0⟩] }, none)
    else if touch = [] ∧ st.free < 1 then (st, some (overflowFault st.free 1, [e]))
    else
      let tok := { (runTok .uint8 t.L (setTagFld t.tag t.L lo) (hi - lo) 0) with slot := t.slot, port := t.port, stn := t.stn }
      (st1.put ⟨cx, .interval, tok, ord'⟩, none)

/-! ## Block slots (R264) -/

/-- Entries of a list cover every index of [lo, hi). -/
def covers (es : List Entry) (lo hi : Nat) : Bool :=
  (range lo (hi - lo)).all fun i => es.any fun e => e.kind == .sticky || decide (e.tok.base ≤ i ∧ i < e.tok.base + e.tok.n)

/-- The parts of entries inside [lo, hi), in index order. -/
def inside (es : List Entry) (lo hi : Nat) : List Entry :=
  let parts := es.filterMap fun e =>
    if e.kind = .sticky then some e
    else
      let a := max lo e.tok.base
      let b := min hi (e.tok.base + e.tok.n)
      if a < b then some (e.on a (b - a)) else none
  sortBy (fun a b => decide (a.tok.base ≤ b.tok.base)) parts

/-- The block that SCAN forms next for a context and outer fields (R268). -/
def nextBlock (st : Station) (cx : Fin 4) (t : Token) : Nat :=
  (st.store.findSome? fun e => match e.kind with
    | .carry k => if e.at_ cx t.slot t.L (outerOf t.tag t.L) then some k else none
    | _ => none).getD 0

/-- SCAN's carry entry moved to block k, made when there is none. -/
def setCarry (st : Station) (cx : Fin 4) (t : Token) (k ord : Nat) : Station :=
  let is (e : Entry) : Bool := match e.kind with
    | .carry _ => e.at_ cx t.slot t.L (outerOf t.tag t.L)
    | _ => false
  if st.store.any is then { st with store := st.store.map fun e => if is e then { e with kind := .carry k } else e }
  else st.put ⟨cx, .carry k, { (scalarTok .uint8 t.L (setTagFld t.tag t.L 0) 0) with slot := t.slot, stn := t.stn }, ord⟩

/-- Block j of a block slot formed as a pair, when its elements and, under SR, its random values are all there, and for SCAN
when it is the next one. -/
def formBlock (c : Nat) (sr scan : Bool) (st : Station) (cx : Fin 4) (ord : Nat) (t : Token) (j : Nat) : Option Station :=
  let lo := 32 * j
  let hi := min (lo + 32) c
  let here (e : Entry) := e.at_ cx t.slot t.L (outerOf t.tag t.L)
  let els := st.store.filter fun e => e.kind == .block && here e
  let rnd := st.store.filter fun e => (e.kind == .normal || e.kind == .sticky) && e.tok.port == 1 && here e
  if lo < hi ∧ covers els lo hi ∧ (!sr || covers rnd lo hi) ∧ (!scan || nextBlock st cx t == j) then
    let l := inside els lo hi
    let r := if sr then inside rnd lo hi else []
    let gone := els ++ (if sr then rnd.filter (·.kind ≠ .sticky) else [])
    let rest := (gone.map fun e => e.minus lo hi).flatten
    let store := rest.foldl (fun s e => insertEntry e s) (st.store.filter fun e => !gone.contains e)
    let st1 := { st with store, issueq := st.issueq ++ [⟨cx, t.slot, setTagFld t.tag t.L lo, lo, hi - lo, l, r, [], 0⟩] }
    some (if scan && decide (hi < c ∨ 0 < j) then setCarry st1 cx t (j + 1) ord else st1)
  else none

/-- Blocks formed one after another from a list; SCAN goes on while the next block is complete. -/
def formBlocks (c : Nat) (sr scan : Bool) (cx : Fin 4) (ord : Nat) (t : Token) : List Nat → Station → Station
  | [], st => st
  | j :: js, st => formBlocks c sr scan cx ord t js ((formBlock c sr scan st cx ord t j).getD st)

/-- A token at a block slot: an element at L, a random value at R. -/
def arriveBlock (c : Nat) (sr scan : Bool) (st : Station) (cx : Fin 4) (ord : Nat) (t : Token) :
    Station × Option (FI × List Entry) :=
  let e : Entry := ⟨cx, if t.port = 0 then .block else .normal, t, ord⟩
  let h : Entry := { e with kind := .normal }
  let blocks := if scan then List.range (ceilDiv c 32) else range (t.base / 32) (ceilDiv (t.base + t.n) 32 - t.base / 32)
  if t.port = 0 ∧ t.base + t.n > c then (st, some ({ cls := cCountRange, detail := 2 }, [h]))
  else if st.store.any fun x => x.kind == e.kind && x.tok.port == t.port && x.at_ cx t.slot t.L (outerOf t.tag t.L)
      && overlaps x.tok.base x.tok.n t.base t.n then (st, some (collision t true, [h]))
  else
    let st1 := formBlocks c sr scan cx ord t blocks (st.put e)
    if st1.used > 64 then (st, some (overflowFault st.free (st1.used - st.used), [h])) else (st1, none)

/-- A sticky random value at a block slot (R255). -/
def arriveBlockSticky (c : Nat) (sr scan : Bool) (st : Station) (cx : Fin 4) (ord : Nat) (t : Token) :
    Station × Option (FI × List Entry) :=
  if t.shape = .dense then (st, some ({ cls := cShape }, [⟨cx, .normal, t, ord⟩]))
  else
    let st1 := { st with store := dropSticky st.store cx t }.put ⟨cx, .sticky, t, ord⟩
    let st2 := formBlocks c sr scan cx ord t (List.range (ceilDiv c 32)) st1
    if st2.used > 64 then (st, some (overflowFault st.free (st2.used - st.used), [⟨cx, .normal, t, ord⟩])) else (st2, none)

/-! ## Arrival (R87, R102, R445, R446) -/

/-- A token handled by the slot it names. -/
def arriveSlot (i : Instr) (st : Station) (cx : Fin 4) (ord : Nat) (t : Token) : Station × Option (FI × List Entry) :=
  let ports := slotPorts i
  let sr := takesRandom i
  match actionOf i t, slotKind i with
  | 2, _ => ({ st with store := dropSticky st.store cx t }, none)
  | 1, .block c scan => arriveBlockSticky c sr scan st cx ord t
  | 1, _ => arriveSticky ports st cx ord t
  | _, .merge => arriveMerge st cx ord t
  | _, .join n => arriveJoin n st cx ord t
  | _, .block c scan => arriveBlock c sr scan st cx ord t
  | _, .plain => arrivePlain ports st cx ord t

/-- The context of a station that serves a token: its tag is in the map and its launch holds the core (R87). -/
def State.servedBy (s : State) (n : Nat) (t : Token) : Option (Fin 4) :=
  (List.finRange 4).find? fun k =>
    let c := (s.stn n).ctxs[k.val]
    c.tag == some (tagCtx t.tag) && c.lid.isSome && c.lid == s.activeLaunch n

/-- The record of a fault at a station (R421). -/
def stnRec (n : Nat) (lid : Option Nat) (word : SWord) (slot : BitVec 4) (level : BitVec 2) (ctx : Byte) (tag : DWord)
    (nidx : Nat) (f : FI) : FRec :=
  { tag, addr := BitVec.ofNat 56 f.addr, slot, level, detail := BitVec.ofNat 16 f.detail, nidx := BitVec.ofNat 16 nidx
    lid := lidBits lid, src := BitVec.ofNat 16 n, kind := 0, cls := BitVec.ofNat 8 f.cls, ctx, word }

/-- The launch, when it is open. -/
def State.openLaunch (s : State) (lid : Option Nat) : Option Nat :=
  match lid with
  | some n => if (s.launch n).isSome then some n else none
  | none => none

/-- The tokens that an arrival fault holds at the station's input (R445). -/
def Station.hold (st : Station) (lid : Option Nat) (es : List Entry) : Station :=
  { st with held := st.held ++ es.map fun e => ⟨e.tok, lid.getD 0xFFFF⟩ }

/-- A token arrives at a station, sent by a launch: matched, or held with a fault. -/
def State.arrive (s : State) (n : Nat) (sender : Option Nat) (t : Token) : State :=
  let st := s.stn n
  let s1 := { s with nextId := s.nextId + 1 }
  match s.servedBy n t with
  | none =>
    let lid := s.openLaunch sender
    let f : FI := { cls := cContext, detail := (tagCtx t.tag).toNat }
    let e : Entry := ⟨0, .normal, t, s.nextId⟩
    (s1.setStn n (st.hold lid [e])).stopLaunch lid (stnRec n lid 0 t.slot t.level (tagCtx t.tag) t.tag 1 f)
  | some cx =>
    let c := st.ctxs[cx.val]
    match c.instr t.slot with
    | none => s1.setStn n (st.put ⟨cx, .normal, t, s.nextId⟩)
    | some i =>
      match arriveSlot i st cx s.nextId t with
      | (st1, none) => s1.setStn n (st1.stamp st.issueq.length (s.stnFpctl n))
      | (st1, some (f, es)) =>
        (s1.setStn n ((st1.stamp st.issueq.length (s.stnFpctl n)).hold c.lid es)).stopLaunch c.lid
          (stnRec n c.lid ((spFind c.words t.slot.toNat).getD 0) t.slot t.level (tagCtx t.tag) t.tag 1 f)

/-- Key of the loader of a launch among the senders of tokens (R107). -/
def loaderSrc (lid : Nat) : Nat := 2 ^ 26 + lid

/-- Tokens of one slot or core to one destination port arrive in the order sent (R107); the initial tokens of a launch, and the residue
that a resume delivers, arrive in the order of their list (R140, R213). -/
def firstOfLane (net : List Flight) (k : Nat) (f : Flight) : Bool :=
  (net.take k).all fun g =>
    !(g.src == f.src && g.tok.stn == f.tok.stn && g.tok.slot == f.tok.slot && g.tok.port == f.tok.port)
      && !(f.fifo.isSome && g.fifo == f.fifo)

/-- Key of a sending slot (R107). -/
def slotKey (n : Nat) (slot : BitVec 4) : Nat := n * 16 + slot.toNat

/-- Key of a sending core (R107). -/
def coreKey (a : Agent) : Nat := 2 ^ 24 + agentIdx a

/-- The die that a sender's key names: of a slot, a core or a core's engine; none for the loader, on the IOD (R107). -/
def senderDie (src : Nat) : Option Nat :=
  if src < 2 ^ 24 then some (src / 16 / 8192)
  else if src < 2 ^ 26 then
    let k := src % 2 ^ 24
    some (if k < 2048 then k / 256 else k - 2048)
  else none

/-- Column and row of a station in the mesh of the module (R8, R13, R16, R106). -/
def meshAt (n : Nat) : Nat × Nat :=
  let d := n / 8192
  let c := n / 64 % 128
  (128 * (d % 4) + 8 * (c % 16) + n % 8, 64 * (d / 4) + 8 * (c / 16) + n % 64 / 8)

/-- The input by which a token comes to station k (R102, R106): 0 from its own slots, 1 injected there, 2 north, 3 east, 4 south, 5
west. A core injects at station 00 of its core; a token goes along GX first, then along GY. -/
def arrSide (src k : Nat) : Nat :=
  let start : Option Nat :=
    if src < 2 ^ 24 then some (src / 16)
    else if src < 2 ^ 24 + 2048 then some ((src - 2 ^ 24) / 2 * 64)
    else none
  match start with
  | none => 1
  | some a =>
    if a = k then (if src < 2 ^ 24 then 0 else 1)
    else
      let (x0, y0) := meshAt a
      let (x1, y1) := meshAt k
      if y0 < y1 then 2 else if y1 < y0 then 4 else if x1 < x0 then 3 else 5

/-- The place of an arrival among those of its cycle (R102): port, then slot, then input. -/
def arrPlace (f : Flight) : Nat := (f.tok.port.toNat * 16 + f.tok.slot.toNat) * 8 + arrSide f.src f.tok.stn.toNat

/-- A station takes a token in the cycle now: it has four free entries (R103), it has taken fewer than four tokens in this cycle, and
none of them comes after this one in the order of a cycle (R102). -/
def Station.takes (st : Station) (now place : Nat) : Bool :=
  decide (4 ≤ st.free) && (st.arrAt != now || (decide (st.arrKey ≤ place) && decide (st.arrN < 4)))

/-- The arrival counted. -/
def Station.took (st : Station) (now place : Nat) : Station :=
  { st with arrAt := now, arrKey := place, arrN := if st.arrAt = now then st.arrN + 1 else 1 }

/-- TOKEN_ARRIVAL: the n-th token in flight reaches its station, when it is the first of its lane, the links it crosses are open
(R391) and the station takes it (R102, R103). -/
def execTokenArrival (n : Nat) (s : State) : Host.Outcome State Fault Refusal :=
  .next (match s.net[n]? with
    | none => s
    | some f =>
      let k := f.tok.stn.toNat
      if firstOfLane s.net n f && s.linkOpen (senderDie f.src) (k / 8192) && (s.stn k).takes s.now (arrPlace f) then
        (({ s with net := listRemove n s.net }).setStn k ((s.stn k).took s.now (arrPlace f))).arrive k f.lid f.tok
      else s)

/-! ## Issue (R104) and station faults (R419, R420) -/

/-- How the firing of a pair ends: done; a fault at an index offset, with how many indices fault and the part of the pair
that returns; or the pair stays at the head of the issue queue. -/
inductive StnOut where
  | done (s : State)
  | fault (s : State) (f : FI) (off nidx : Nat) (rest : Pair)
  | wait (s : State)

/-- The station may issue pairs of a context: its launch runs, or is being restored and takes its residue (R140), or stops for a fault at
this station's input and the pairs already formed still issue (R422, R445). -/
def State.mayIssue (s : State) (st : Station) (lid : Option Nat) : Bool :=
  match lid with
  | none => false
  | some n =>
    match s.launch n with
    | none => false
    | some l => l.st == .running || (l.st == .loading && l.restoring) || (l.st == .stopped && l.recs != [] && st.held != [])

/-- A pair cut to the indices from an offset. -/
def Pair.from_ (p : Pair) (L off : Nat) : Pair :=
  let b := p.base + off
  let n := p.n - off
  let cut (es : List Entry) := es.map fun e => if e.kind = .sticky then e else e.on b n
  { p with tag := setTagFld p.tag L b, base := b, n, l := cut p.l, r := cut p.r, p := cut p.p }

/-- A pair cut to its first m indices. -/
def Pair.upto (p : Pair) (m : Nat) : Pair :=
  let cut (es : List Entry) := es.map fun e => if e.kind = .sticky then e else e.on p.base m
  { p with n := m, l := cut p.l, r := cut p.r, p := cut p.p }

/-- The level of a slot. -/
def lvlOf (h : Head) : Nat := h.level.toNat + 1

/-- The entries that a pair returns to the store as; a JOIN's pair is its whole interval. A sticky operand has never left. -/
def Station.returned (st : Station) (p : Pair) : List Entry :=
  match st.ctxs[p.cx.val].instr p.slot with
  | some (.join h n) => [⟨p.cx, .interval, { (runTok .uint8 (lvlOf h) p.tag n.toNat 0) with slot := p.slot, port := 0 }, 0⟩]
  | _ => (p.l ++ p.r ++ p.p).filter fun e => e.kind ≠ .sticky

/-- Operand entries back in the store, in their arrival order (R137 step 6, R419). -/
def Station.giveBack (st : Station) (p : Pair) : Station := (st.returned p).foldl (fun st e => st.put e) st

/-- A faulting pair's operands back in the store; the pair is remembered for the collier, which writes the result buffer anew (R419,
R435). -/
def Station.giveUp (st : Station) (p : Pair) : Station :=
  { st.giveBack p with faulted := st.faulted ++ [p], resbuf := [], reshdr := [] }

/-- A fault at an index offset of a pair: the part of it that returns goes back (R419), and the launch stops. -/
def State.faultPair (s : State) (n : Nat) (h : Head) (p : Pair) (f : FI) (off nidx : Nat) (rest : Option Pair) : State :=
  let st := s.stn n
  let c := st.ctxs[p.cx.val]
  (s.setStn n (rest.toList.foldl (fun st q => st.giveUp q) st)).stopLaunch c.lid
    (stnRec n c.lid ((spFind c.words p.slot.toNat).getD 0) p.slot h.level ((c.tag).getD 0)
      (setTagFld p.tag (lvlOf h) (p.base + off)) nidx f)

/-- The pair without operands that a double-bit error in the matching store has destroyed (R437). -/
def Pair.dropLost (p : Pair) (n : Nat) (ecc : List EccErr) : Pair :=
  let ok (e : Entry) : Bool := !(ecc.any fun x => x.sram && x.double && x.store == 2 && x.unit == n && x.word == e.ord)
  { p with l := p.l.filter ok, r := p.r.filter ok, p := p.p.filter ok }

/-- The stores that a firing reads checked (R437): its slot's word and its operand entries. -/
def State.fireCheck (s : State) (n : Nat) (p : Pair) : Option FI × State :=
  let d := stnDie n
  match s.sramRead d 3 n (16 * p.cx.val + p.slot.toNat) 1 with
  | (some f, t) => (some f, t)
  | (none, t) => (p.l ++ p.r ++ p.p).foldl (fun (r : Option FI × State) e => match r with
      | (some f, t) => (some f, t)
      | (none, t) => t.sramRead d 2 n e.ord 1) (none, t)

/-- A slot whose result at an index depends on that index alone, so that a firing may stop after any of its tokens (Table 05-9). -/
def byIndex : Instr → Bool
  | .pass .. | .steer .. | .merge .. | .gate .. | .nest .. | .iadd .. | .isub .. | .imul .. | .imac .. | .imin .. | .imax .. | .iabs ..
  | .logic .. | .shift .. | .icmp .. | .sel .. | .slotBitc .. | .fadd .. | .fmul .. | .ffma .. | .fmin .. | .fmax .. | .fcmp ..
  | .fspec .. | .cvt .. | .dqnt .. | .expand .. | .const .. => true
  | _ => false

/-- Where a firing stops after a token of a nest: the part that fires, and the part that does not yet (Table 05-9). -/
def State.nestCut (s : State) (c : Ctx) (h : Head) (p : Pair) : Option (Pair × Pair) :=
  match s.cut, c.instr p.slot with
  | some k, some i =>
    if h.tagop = 1 ∧ byIndex i ∧ 0 < k ∧ k < p.n then some (p.upto k, p.from_ (lvlOf h) k) else none
  | _, _ => none

/-- The head pair of a station fires. The body sees the state without the pair, the station, the context and the
pair. -/
def fire (h : Head) (s : State) (body : State → Nat → Ctx → Pair → StnOut) : Host.Outcome State Fault Refusal :=
  .next (
    let n := s.curStn
    let st := s.stn n
    match st.issueq with
    | [] => s
    | p0 :: q =>
      let c := st.ctxs[p0.cx.val]
      if !s.mayIssue st c.lid then s
      else
        let (p, q) : Pair × List Pair := match s.nestCut c h p0 with
          | some (now, later) => (now, later :: q)
          | none => (p0, q)
        let s1 := s.setStn n { st with issueq := q }
        match s1.fireCheck n p with
        | (some f, t) => t.faultPair n h p f 0 1 (some (p.dropLost n s.ecc))
        | (none, s2) =>
          match body s2 n c p with
          | .done t => t
          | .wait t => t
          | .fault t f off nidx rest => t.faultPair n h p f off nidx (some rest))

/-- A fault of the whole pair: everything returns (R419). -/
def pairFault (s : State) (p : Pair) (f : FI) : StnOut := .fault s f 0 1 p

/-! ## Operands and results -/

/-- A token that stands where a port has none. -/
def noToken : Token := scalarTok .int8 1 0 0

/-- The operand at L. -/
def Pair.left (p : Pair) : Token := (p.l.head?.map fun e => e.operand p.base p.n).getD noToken

/-- The operand at R. -/
def Pair.right (p : Pair) : Token := (p.r.head?.map fun e => e.operand p.base p.n).getD noToken

/-- The operand at P. -/
def Pair.pred (p : Pair) : Token := (p.p.head?.map fun e => e.operand p.base p.n).getD noToken

/-- Tokens sent to a destination, if it is present. -/
def State.sendTo (s : State) (src : Nat) (lid : Option Nat) (d : Option Dest) (ts : List Token) : State :=
  match d with
  | none => s
  | some d => { s with net := s.net ++ ts.map fun t =>
      { src, lid, tok := { t with stn := d.stn, slot := d.slot, port := d.port, act := d.act } } }

/-- Result tokens of a slot sent to dest0, dest1 or both, with the slot's tag operation applied to each. -/
def State.emit (s : State) (n : Nat) (c : Ctx) (p : Pair) (h : Head) (to0 to1 : Bool) (ts : List Token) : State :=
  let out := (ts.map (tagOp h.tagop)).flatten
  let s1 := if to0 then s.sendTo (slotKey n p.slot) c.lid h.d0 out else s
  if to1 then s1.sendTo (slotKey n p.slot) c.lid h.d1 out else s1

/-- Result tokens whose level the instruction has already set, sent as they are. -/
def State.emitRaw (s : State) (n : Nat) (c : Ctx) (p : Pair) (h : Head) (to0 to1 : Bool) (ts : List Token) : State :=
  let s1 := if to0 then s.sendTo (slotKey n p.slot) c.lid h.d0 ts else s
  if to1 then s1.sendTo (slotKey n p.slot) c.lid h.d1 ts else s1

/-- A context's sticky flags ORed (R71, R270). -/
def State.stnFlags (s : State) (n : Nat) (cx : Fin 4) (f : Flags) : State :=
  let st := s.stn n
  s.setStn n { st with ctxs := st.ctxs.set cx.val { st.ctxs[cx.val] with flags := st.ctxs[cx.val].flags ||| f } }

/-- The types at value operands, or TYPE-MISMATCH (R226, R253); then FORMAT-EMULATE for a format without hardware
(R60). -/
def valueTypes (s : State) (p : Pair) (ty : Fmt) (ops : List Token) (k : StnOut) : StnOut :=
  if ops.any fun t => t.ty != ty then pairFault s p { cls := cTypeMismatch }
  else if fmtEmulated ty then pairFault s p { cls := cFormatEmulate, detail := ty.code }
  else k

/-- A check of operand types. -/
def typesOk (s : State) (p : Pair) (ok : Bool) (k : StnOut) : StnOut :=
  if ok then k else pairFault s p { cls := cTypeMismatch }

/-- A completion token: a UINT32 run of value 0 over the pair's interval. -/
def doneTok (L : Nat) (p : Pair) : Token := runTok .uint32 L p.tag p.n 0

end Sys2Proof.Machine
end

