-- ==== Sys2Proof/Machine/Flow.lean ====
section
/-! DEFINITION. Station instructions 0x00 to 0x12: steering, joining, constants, ends, levels, run shapes and XMIT (R225 to
R242). -/

namespace Sys2Proof.Machine

/-! ## Passing, steering, merging (R228 to R231) -/

/-- PASS. -/
def execPass (h : Head) (ty : Fmt) (s : State) : Host.Outcome State Fault Refusal :=
  fire h s fun s n c p => valueTypes s p ty [p.left] (.done (s.emit n c p h true true [p.left]))

/-- Maximal sub-intervals of n indices on which f is constant: offset, length, value. -/
def segmentsFrom {α : Type} [DecidableEq α] (f : Nat → α) : Nat → Nat → List (Nat × Nat × α)
  | _, 0 => []
  | off, n + 1 =>
    match segmentsFrom f (off + 1) n with
    | [] => [(off, 1, f off)]
    | (o, m, v) :: rest => if v = f off then (off, m + 1, v) :: rest else (off, 1, f off) :: (o, m, v) :: rest

/-- The sub-intervals of an operand: a run or scalar is constant. -/
def segmentsOf {α : Type} [DecidableEq α] (t : Token) (n : Nat) (f : Nat → α) : List (Nat × Nat × α) :=
  if t.shape = .dense then segmentsFrom f 0 n else [(0, n, f 0)]

/-- STEER: pieces of L go to dest0 where bit 0 of the control is 1, to dest1 where it is 0. -/
def execSteer (h : Head) (ty : Fmt) (s : State) : Host.Outcome State Fault Refusal :=
  fire h s fun s n c p =>
    let l := p.left
    let r := p.right
    typesOk s p r.ty.isInt (valueTypes s p ty [l] (.done (
      (segmentsOf r p.n fun i => bitOf (r.val i) 0).foldl (fun t (off, m, b) => t.emit n c p h b (!b) [l.sub off m]) s)))

/-- MERGE. -/
def execMerge (h : Head) (ty : Fmt) (s : State) : Host.Outcome State Fault Refusal :=
  fire h s fun s n c p => valueTypes s p ty [p.left] (.done (s.emit n c p h true true [p.left]))

/-- GATE: the trigger may be of any type. -/
def execGate (h : Head) (ty : Fmt) (s : State) : Host.Outcome State Fault Refusal :=
  fire h s fun s n c p => valueTypes s p ty [p.left] (.done (s.emit n c p h true true [p.left]))

/-! ## Joining, constants and ends (R232 to R236) -/

/-- JOIN: a UINT32 scalar of value n at index 0. -/
def execJoin (h : Head) (cnt : BitVec 32) (s : State) : Host.Outcome State Fault Refusal :=
  fire h s fun s n c p =>
    .done (s.emit n c p h true true [scalarTok .uint32 (lvlOf h) (setTagFld p.tag (lvlOf h) 0) cnt.toNat])

/-- The lanes of a constant of a type (R233): imm32, of which an 8-bit or 16-bit type takes the low bits; INT64 takes sext(imm32, 32). -/
def constLanes (ty : Fmt) (v : BitVec 32) : List Word :=
  if ty = .int64 then lanesOf ty (v.signExtend 64).toNat
  else if ty.bits = 8 ∨ ty.bits = 16 then lanesOf ty v.toNat
  else [v]

/-- CONST: arity 0 sends a scalar at index 0; arity 1 sends a run over its trigger's interval. -/
def execConst (h : Head) (ty : Fmt) (exp : BitVec 8) (value : BitVec 32) (s : State) : Host.Outcome State Fault Refusal :=
  fire h s fun s n c p =>
    .done (s.emit n c p h true true [
      mkToken ty (if h.arity = 0 then .scalar else .run) (lvlOf h) p.tag (if h.arity = 0 then 1 else p.n) exp (constLanes ty value)])

/-- SINK: indices are counted over every tag of the context. -/
def execSink (h : Head) (_ty : Fmt) (_count : BitVec 32) (s : State) : Host.Outcome State Fault Refusal :=
  fire h s fun s n c p =>
    let st := s.stn n
    let old := spGet 0 c.sinks p.slot.toNat
    let c1 := { c with sinks := spInsert c.sinks p.slot.toNat (old + BitVec.ofNat 64 p.n) }
    .done (s.setStn n { st with ctxs := st.ctxs.set p.cx.val c1 })

/-- A type read unsigned from 32 bits: UINT32 or INT32. -/
def isU32 (ty : Fmt) : Bool := ty == .uint32 || ty == .int32

/-- COUNT: for each index i of value m, a run [0, m) one level down to dest0 and the last trip's scalar to dest1. -/
def execCount (h : Head) (ty : Fmt) (value : BitVec 32) (s : State) : Host.Outcome State Fault Refusal :=
  fire h s fun s n c p =>
    let l := p.left
    let L := (lvlOf h)
    let m (i : Nat) := l.val i % 2 ^ 32
    typesOk s p (isU32 l.ty) (
      match (List.range p.n).find? fun i => decide (m i > fieldSize (L + 1)) with
      | some i => .fault s { cls := cCountRange, detail := 1 } i 1 p
      | none =>
        .done ((List.range p.n).foldl (fun t i =>
          if m i = 0 then t
          else
            let tag := setTagFld (setTagFld p.tag L (p.base + i)) (L + 1) 0
            let t := t.emitRaw n c p h true false [mkToken ty .run (L + 1) tag (m i) 0 (constLanes ty value)]
            t.emitRaw n c p h false true [scalarTok .uint32 (L + 1) (setTagFld tag (L + 1) (m i - 1)) (m i)]) s))

/-- PURGE: a scalar 0 at its input's tag; its destinations carry the purge action. -/
def execPurge (h : Head) (ty : Fmt) (s : State) : Host.Outcome State Fault Refusal :=
  fire h s fun s n c p => .done (s.emit n c p h true true [scalarTok ty (lvlOf h) p.tag 0])

/-! ## Moving between levels (R238 to R240) -/

/-- WADV: the tag operation advance. -/
def execWadv (h : Head) (ty : Fmt) (s : State) : Host.Outcome State Fault Refusal :=
  fire h s fun s n c p => valueTypes s p ty [p.left] (.done (s.emit n c p h true true [p.left]))

/-- NEST: the tag operation nest. -/
def execNest (h : Head) (ty : Fmt) (s : State) : Host.Outcome State Fault Refusal :=
  fire h s fun s n c p => valueTypes s p ty [p.left] (.done (s.emit n c p h true true [p.left]))

/-- UNNEST: the tag operation unnest; the value at the highest index. -/
def execUnnest (h : Head) (ty : Fmt) (s : State) : Host.Outcome State Fault Refusal :=
  fire h s fun s n c p => valueTypes s p ty [p.left] (.done (s.emit n c p h true true [p.left]))

/-- TSET: field f_k of the tag is written from R. -/
def execTset (h : Head) (ty : Fmt) (k : BitVec 2) (s : State) : Host.Outcome State Fault Refusal :=
  fire h s fun s n c p =>
    let l := p.left
    let r := p.right
    let K := k.toNat + 1
    let idx (i : Nat) := r.val i % 2 ^ 32 % fieldSize K
    typesOk s p (isU32 r.ty) (valueTypes s p ty [l] (.done (
      if K < (lvlOf h) ∧ r.shape ≠ .dense then s.emit n c p h true true [{ l with tag := setTagFld l.tag K (idx 0) }]
      else s.emit n c p h true true ((List.range p.n).map fun i =>
        scalarTok ty (lvlOf h) (setTagFld (setTagFld p.tag (lvlOf h) (p.base + i)) K (idx i)) (l.val i) l.exp))))

/-- TGET: a tag field as data. -/
def execTget (h : Head) (field : BitVec 3) (s : State) : Host.Outcome State Fault Refusal :=
  fire h s fun s n c p =>
    let l := p.left
    let K := field.toNat + 1
    let out :=
      if field = 4 then shapeToks .uint32 l.shape (lvlOf h) p.tag p.base p.n 0 fun _ => (tagCtx p.tag).toNat
      else if K < (lvlOf h) then shapeToks .uint32 l.shape (lvlOf h) p.tag p.base p.n 0 fun _ => tagFld p.tag K
      else shapeToks .uint32 (if l.shape = .scalar then .scalar else .dense) (lvlOf h) p.tag p.base p.n 0 fun i => p.base + i
    .done (s.emit n c p h true true out)

/-! ## Reshaping runs (R241) -/

/-- An interval cut at every multiple of k: offsets and lengths; fuel bounds the pieces. -/
def cutAt (k : Nat) : Nat → Nat → Nat → Nat → List (Nat × Nat)
  | 0, _, _, _ => []
  | f + 1, b, off, n =>
    if n = 0 then []
    else
      let m := min n (k - (b + off) % k)
      (off, m) :: cutAt k f b (off + m) (n - m)

/-- RSPLIT. -/
def execRsplit (h : Head) (ty : Fmt) (k : BitVec 32) (s : State) : Host.Outcome State Fault Refusal :=
  fire h s fun s n c p =>
    let l := p.left
    valueTypes s p ty [l] (.done (s.emit n c p h true true
      ((cutAt k.toNat (p.n + 1) p.base 0 p.n).map fun (off, m) => l.sub off m)))

/-- RLEN. -/
def execRlen (h : Head) (s : State) : Host.Outcome State Fault Refusal :=
  fire h s fun s n c p => .done (s.emit n c p h true true [scalarTok .uint32 (lvlOf h) p.tag p.n])

/-- EXPAND. -/
def execExpand (h : Head) (ty : Fmt) (s : State) : Host.Outcome State Fault Refusal :=
  fire h s fun s n c p =>
    let l := p.left
    valueTypes s p ty [l] (.done (s.emit n c p h true true
      (if l.shape = .run then shapeToks ty .dense (lvlOf h) p.tag p.base p.n l.exp fun _ => l.val 0 else [l])))

/-- PACK: runs of equal lane bits. -/
def execPack (h : Head) (ty : Fmt) (s : State) : Host.Outcome State Fault Refusal :=
  fire h s fun s n c p =>
    let l := p.left
    valueTypes s p ty [l] (.done (s.emit n c p h true true
      (if l.shape = .dense then
        (segmentsFrom l.val 0 p.n).map fun (off, m, v) => runTok ty (lvlOf h) (setTagFld p.tag (lvlOf h) (p.base + off)) m v l.exp
      else [l])))

/-! ## Receive queues (R113, R242) -/

/-- The helper core whose receive queue dest0 of an XMIT names. -/
def queueOf (d : Dest) : Agent :=
  let n := d.stn.toNat
  ⟨if d.port = 0 then .access else .drain, Fin.ofNat 8 (n / 8192), Fin.ofNat 128 (n / 64 % 128)⟩

/-- The queue has room: its 64 entries count tokens on their way to it (log entry 20). -/
def State.queueRoom (s : State) (a : Agent) : Bool :=
  decide ((s.core a).rq.length + (s.xnet.filter fun f => f.agent == a).length < 64)

/-- The head pair of an XMIT slot sent: an entry for the queue, a copy to dest1. -/
def xmitBody (h : Head) (ty : Fmt) (orig : State) (s : State) (n : Nat) (c : Ctx) (p : Pair) : StnOut :=
  let l := p.left
  valueTypes s p ty [l] (
    match h.d0 with
    | none => .done (s.emit n c p h false true [l])
    | some d =>
      let a := queueOf d
      if s.queueRoom a then
        let e : Token := { l with stn := 0, slot := 0, port := 0, act := 0 }
        let f : XFlight := ⟨slotKey n p.slot, a, e⟩
        let s1 : State := { s with xnet := s.xnet ++ [f] }
        .done (s1.emit n c p h false true [l])
      else .wait orig)

/-- XMIT. -/
def execXmit (h : Head) (ty : Fmt) (s : State) : Host.Outcome State Fault Refusal :=
  fire h s (xmitBody h ty s)

/-- The XMIT pair at the head of a station's issue queue goes on when its target queue has room (R113). -/
def execXmitQueueRoom (stn : Nat) (s : State) : Host.Outcome State Fault Refusal :=
  let s1 := { s with curStn := stn }
  match (s.stn stn).issueq with
  | [] => .next s
  | p :: _ =>
    match (s.stn stn).ctxs[p.cx.val].instr p.slot with
    | some (.xmit h ty) => fire h s1 (xmitBody h ty s)
    | _ => .next s

/-- A token enters the receive queue it was sent to, in the order of its sending slot (R107, R113), over links that are
open (R391). -/
def execReceiveQueueArrival (n : Nat) (s : State) : Host.Outcome State Fault Refusal :=
  .next (match s.xnet[n]? with
    | none => s
    | some f =>
      if ((s.xnet.take n).any fun g => g.src == f.src && g.agent == f.agent) || !s.linkOpen (senderDie f.src) f.agent.die.val then s
      else
        let c := s.core f.agent
        ({ s with xnet := listRemove n s.xnet }).setCore f.agent { c with rq := c.rq ++ [f.tok] })

end Sys2Proof.Machine
end

