-- ==== Sys2Proof/Machine/Fspec.lean ====
section
/-! DEFINITION. The functions of FSPEC (R262, Table 11-5): each gives the exact value, or a fixed-point value so close to an
irrational one that rounding cannot tell them apart (log entry 21). -/

namespace Sys2Proof.Machine

/-- Fraction bits of the fixed-point series. -/
def fxW : Nat := 384

/-- acc plus the sum of t z^j / d (k + j) over f terms, in fixed point. -/
def fxSeries (d : Nat → Nat) (z : Nat) : Nat → Nat → Nat → Nat → Nat
  | 0, _, _, acc => acc
  | f + 1, k, t, acc => fxSeries d z f (k + 1) (t * z / 2 ^ fxW) (acc + t / d k)

/-- 2 * atanh(z) of a fixed-point z: the sum of 2 z^(2k+1) / (2k+1). -/
def fxAtanh2 (z : Nat) : Nat := fxSeries (2 * · + 1) (z * z / 2 ^ fxW) 140 0 (2 * z) 0

/-- ln 2 in fixed point. -/
def fxLn2 : Nat := fxAtanh2 (2 ^ fxW / 3)

/-- Terms of e^r added until they vanish: t is r^k / k!. -/
def fxExpGo (r : Nat) : Nat → Nat → Nat → Nat → Nat
  | 0, _, _, acc => acc
  | f + 1, k, t, acc => fxExpGo r f (k + 1) (t * r / 2 ^ fxW / k) (acc + t)

/-- e^r for a fixed-point r from 0 to ln 2. -/
def fxExp (r : Nat) : Nat := fxExpGo r 100 1 (2 ^ fxW) 0

/-- x in fixed point, towards minus infinity; exact for every value of FP32 and BF16. -/
def fxOf (x : Exact) : Int := (if x.neg then -(x.mag : Int) else x.mag) * 2 ^ (x.exp + fxW).toNat

/-- x is below an integer. -/
def Exact.lt' (x : Exact) (b : Int) : Bool := x.lt (Exact.ofInt b)

/-- e^X of a fixed-point X: mantissa in [1, 2) in fixed point and power of two. -/
def fxExpRange (X : Int) : Nat × Int :=
  let n := X / (fxLn2 : Int)
  (fxExp (X - n * fxLn2).toNat, n)

/-- A positive real too small to tell from 0 in any format (R73). -/
def tinyReal : Exact := ⟨false, 0, -150, true⟩

/-- A real that overflows every format. -/
def hugeReal : Exact := ⟨false, 1, 300, true⟩

/-- 1 / x of a nonzero x. -/
def recipX (x : Exact) : Exact :=
  ⟨x.neg, 2 ^ 100 / x.mag, -100 - x.exp, 2 ^ 100 % x.mag != 0⟩

/-- x with an even exponent, its magnitude doubled where that takes it. -/
def evenExp (x : Exact) : Nat × Int := if x.exp % 2 = 0 then (x.mag, x.exp) else (2 * x.mag, x.exp - 1)

/-- The square root of a positive x. -/
def sqrtX (x : Exact) : Exact :=
  let (m, e) := evenExp x
  let r := isqrt (m * 2 ^ 120)
  ⟨false, r, e / 2 - 60, r * r != m * 2 ^ 120⟩

/-- The reciprocal square root of a positive x. -/
def rsqrtX (x : Exact) : Exact :=
  let (m, e) := evenExp x
  let r := isqrt (2 ^ 200 / m)
  ⟨false, r, -(e / 2) - 100, r * r * m != 2 ^ 200⟩

/-- 2^x. -/
def exp2X (x : Exact) : Exact :=
  if !x.lt' 200 then hugeReal
  else if x.lt' (-152) then tinyReal
  else
    let X := fxOf x
    let n := X / (2 ^ fxW : Int)
    let f := (X % (2 ^ fxW : Int)).toNat
    if f = 0 then ⟨false, 1, n, false⟩ else ⟨false, fxExp (f * fxLn2 / 2 ^ fxW), n - fxW, true⟩

/-- e^x. -/
def expX (x : Exact) : Exact :=
  if x.isZero then Exact.ofInt 1
  else if !x.lt' 90 then hugeReal
  else if x.lt' (-106) then tinyReal
  else let (m, n) := fxExpRange (fxOf x); ⟨false, m, n - fxW, true⟩

/-- ln of x = m 2^k for m in [1, 2), in fixed point: k ln 2 + ln m, the second as 2 atanh((m - 1) / (m + 1)). -/
def fxLnMant (x : Exact) : Nat :=
  let b := 2 ^ Nat.log2 x.mag
  fxAtanh2 ((x.mag - b) * 2 ^ fxW / (x.mag + b))

/-- A fixed-point value of an irrational real. -/
def fxReal (v : Int) : Exact := { Exact.ofInt v (-(fxW : Int)) with sticky := true }

/-- log2 of a positive x. -/
def log2X (x : Exact) : Exact :=
  if x.mag = 2 ^ Nat.log2 x.mag then Exact.ofInt x.log2
  else fxReal (x.log2 * 2 ^ fxW + (fxLnMant x * 2 ^ fxW / fxLn2 : Nat))

/-- ln of a positive x. -/
def lnX (x : Exact) : Exact :=
  if x.mag = 2 ^ Nat.log2 x.mag ∧ x.log2 = 0 then Exact.ofInt 0
  else fxReal (x.log2 * fxLn2 + fxLnMant x)

/-- tanh x of a nonzero x: just below x when x is small, just below 1 when it is large. -/
def tanhX (x : Exact) : Exact :=
  if x.log2 < -30 then ⟨x.neg, x.mag * 2 ^ 32 - 1, x.exp - 32, true⟩
  else if 6 ≤ x.log2 then ⟨x.neg, 2 ^ 64 - 1, -64, true⟩
  else
    let (m, n) := fxExpRange (-2 * fxOf { x with neg := false })
    let e := m / 2 ^ (-n).toNat
    ⟨x.neg, (2 ^ fxW - e) * 2 ^ fxW / (2 ^ fxW + e), -(fxW : Int), true⟩

/-- The logistic function 1 / (1 + e^-x). -/
def sigmoidX (x : Exact) : Exact :=
  if x.isZero then ⟨false, 1, -1, false⟩
  else if !x.lt' 64 then ⟨false, 2 ^ 64 - 1, -64, true⟩
  else if x.lt' (-106) then tinyReal
  else
    let (m, n) := fxExpRange (fxOf { x with neg := true })
    let e := m / 2 ^ (-n).toNat
    if x.neg then ⟨false, m * 2 ^ fxW / (2 ^ fxW + e), n - fxW, true⟩
    else ⟨false, 2 ^ fxW * 2 ^ fxW / (2 ^ fxW + e), -(fxW : Int), true⟩

/-- FSPEC of a decoded value: special inputs of Table 11-5, or the exact value rounded by RNE. -/
def fspecVal (fn : Nat) (f : FF) (fzo : Bool) (v : FVal) : Nat × Flags :=
  let inf (neg : Bool) := f.signed neg f.infCode
  let rnd (x : Exact) := roundFmt x f .rne fzo
  let bad : Nat × Flags := (f.nanCode, fNV)
  match v with
  | .nan => (f.nanCode, 0)
  | .inf neg =>
    match fn with
    | 0 => (f.zero neg, 0)
    | 1 | 4 | 6 => if neg then bad else (inf false, 0)
    | 2 => if neg then bad else (f.zero false, 0)
    | 3 | 5 => (if neg then f.zero false else inf false, 0)
    | 7 => rnd { Exact.ofInt 1 with neg := neg }
    | _ => if neg then (f.zero false, 0) else rnd (Exact.ofInt 1)
  | .num x =>
    match fn with
    | 0 => if x.isZero then (inf x.neg, fDZ) else rnd (recipX x)
    | 1 => if x.isZero then (f.zero x.neg, 0) else if x.neg then bad else rnd (sqrtX x)
    | 2 => if x.isZero then (if x.neg then bad else (inf false, fDZ)) else if x.neg then bad else rnd (rsqrtX x)
    | 3 => rnd (exp2X x)
    | 4 => if x.isZero then (inf true, fDZ) else if x.neg then bad else rnd (log2X x)
    | 5 => rnd (expX x)
    | 6 => if x.isZero then (inf true, fDZ) else if x.neg then bad else rnd (lnX x)
    | 7 => if x.isZero then (f.zero x.neg, 0) else rnd (tanhX x)
    | _ => rnd (sigmoidX x)

end Sys2Proof.Machine
end

