-- ==== Sys2Proof/Machine/Arith.lean ====
section
/-! DEFINITION. Station instructions 0x20 to 0x38: integer and float arithmetic, conversion, blocks, reduction, scan and
random values (R252 to R270). -/

namespace Sys2Proof.Machine

/-! ## Operands and results of chapter 11 -/

/-- The bits of an immediate of a type: INT64 takes sext(imm32, 32) (R254). -/
def immVal (ty : Fmt) (v : BitVec 32) : Nat := if ty = .int64 then (v.signExtend 64).toNat else v.toNat

/-- The second operand of a binary slot: R, or imm32 as a run over the pair (R254). -/
def Pair.second (p : Pair) (h : Head) (ty : Fmt) (imm : BitVec 32) : Token :=
  if h.arity = 1 then runTok ty (lvlOf h) p.tag p.n (immVal ty imm) else p.right

/-- The random token of a slot under SR: at R for arity 1, at P for arity 2 (R255). -/
def Pair.random (p : Pair) (h : Head) : Token := if h.arity = 1 then p.right else p.pred

/-- A random token is UINT16 or UINT32 (R255). -/
def randomOk (rnd : BitVec 4) (rt : Token) : Bool := rnd != 4 || rt.ty == .uint16 || rt.ty == .uint32

/-- The rounding of one index: z is bits [15:0] of the random token's value there (R69, R71, R255). -/
def slotRm (m : FpMode) (rnd : BitVec 4) (rt : Token) (off : Nat) : Rm :=
  match rnd.toNat with
  | 1 => .rtz
  | 2 => .rup
  | 3 => .rdn
  | 4 => .sr (rt.val off % 2 ^ 16)
  | 7 => m.dyn
  | _ => .rne

/-- The shape of a result under SR: a run with a dense random token becomes dense (R255). -/
def srShape (rnd : BitVec 4) (rt : Token) (shape : Shape) : Shape :=
  if rnd = 4 ∧ shape = .run ∧ rt.shape = .dense then .dense else shape

/-- An elementwise result: one value and its flags for each index, or one for a scalar or run; flags go to the
context. -/
def elemwise (s : State) (n : Nat) (c : Ctx) (p : Pair) (h : Head) (ty : Fmt) (shape : Shape) (f : Nat → Nat × Flags) :
    StnOut :=
  let rs := (List.range (if shape = .dense then p.n else 1)).map f
  let s1 := s.stnFlags n p.cx (orAll (rs.map (·.2)))
  .done (s1.emit n c p h true true (shapeToks ty shape (lvlOf h) p.tag p.base p.n 0 fun i => (rs.getD i (0, 0)).1))

/-- A slot of one or two value operands of its type: f gives the result of an index from the mode, the rounding, x
and y. rty is the result's type. -/
def arith2 (h : Head) (ty rty : Fmt) (rnd : BitVec 4) (imm : BitVec 32) (f : FpMode → Rm → Nat → Nat → Nat × Flags)
    (s : State) : Host.Outcome State Fault Refusal :=
  fire h s fun s n c p =>
    let l := p.left
    let r := p.second h ty imm
    let rt := p.random h
    let m := p.fpMode
    typesOk s p (randomOk rnd rt) (valueTypes s p ty [l, r] (
      elemwise s n c p h rty (srShape rnd rt (resShape [l.shape, r.shape])) fun i =>
        f m (slotRm m rnd rt i) (l.val i) (r.val i)))

/-- A slot of one value operand of its type. -/
def arith1 (h : Head) (ty rty : Fmt) (f : FpMode → Nat → Nat × Flags) (s : State) : Host.Outcome State Fault Refusal :=
  fire h s fun s n c p =>
    let l := p.left
    let m := p.fpMode
    valueTypes s p ty [l] (elemwise s n c p h rty l.shape fun i => f m (l.val i))

/-! ## Integer arithmetic (R256 to R258) -/

/-- Width and signedness of a slot's integer type. -/
def slotInt (ty : Fmt) : Nat × Bool := (fmtInt ty).getD (32, true)

/-- An integer operation given by its exact value, then wrapped or saturated (R256). -/
def intArith (h : Head) (ty : Fmt) (sat : Bool) (imm : BitVec 32) (g : Int → Int → Int) (s : State) :
    Host.Outcome State Fault Refusal :=
  let (w, sg) := slotInt ty
  arith2 h ty ty 0 imm (fun _ _ x y =>
    let (r, fl) := finishInt w sg sat (g (readInt w sg x) (readInt w sg y))
    (trunc r w, fl)) s

/-- IADD. -/
def execIadd (h : Head) (ty : Fmt) (mode : BitVec 4) (imm : BitVec 32) (s : State) : Host.Outcome State Fault Refusal :=
  intArith h ty (mode == 1) imm (fun x y => x + y) s

/-- ISUB. -/
def execIsub (h : Head) (ty : Fmt) (mode : BitVec 4) (imm : BitVec 32) (s : State) : Host.Outcome State Fault Refusal :=
  intArith h ty (mode == 1) imm (fun x y => x - y) s

/-- IMUL: mode 2 gives the high half of the product. -/
def execImul (h : Head) (ty : Fmt) (mode : BitVec 4) (imm : BitVec 32) (s : State) : Host.Outcome State Fault Refusal :=
  intArith h ty (mode == 1) imm (fun x y => if mode = 2 then x * y / 2 ^ (slotInt ty).1 else x * y) s

/-- IMAC: form 0 is x y + c, form 1 x c + y. -/
def execImac (h : Head) (ty : Fmt) (mode : BitVec 4) (form : Bool) (k : BitVec 32) (s : State) :
    Host.Outcome State Fault Refusal :=
  let (w, sg) := slotInt ty
  let kv := readInt w sg (immVal ty k)
  intArith h ty (mode == 1) 0 (fun x y => if form then x * kv + y else x * y + kv) s

/-- IMIN. -/
def execImin (h : Head) (ty : Fmt) (imm : BitVec 32) (s : State) : Host.Outcome State Fault Refusal :=
  intArith h ty false imm (fun x y => IntFn.min.exact x y) s

/-- IMAX. -/
def execImax (h : Head) (ty : Fmt) (imm : BitVec 32) (s : State) : Host.Outcome State Fault Refusal :=
  intArith h ty false imm (fun x y => IntFn.max.exact x y) s

/-- IABS. -/
def execIabs (h : Head) (ty : Fmt) (mode : BitVec 4) (s : State) : Host.Outcome State Fault Refusal :=
  let (w, sg) := slotInt ty
  arith1 h ty ty (fun _ x =>
    let (r, fl) := finishInt w sg (mode == 1) (readInt w sg x).natAbs
    (trunc r w, fl)) s

/-- A bitwise function of Table 11-3 on w bits. -/
def logicBits (fn w x y : Nat) : Nat :=
  let all := 2 ^ w - 1
  match fn with
  | 0 => x &&& y
  | 1 => x ||| y
  | 2 => x ^^^ y
  | 3 => x &&& (y ^^^ all)
  | 4 => x ||| (y ^^^ all)
  | _ => x ^^^ y ^^^ all

/-- A function of the low w bits of both operands. -/
def bitArith (h : Head) (ty rty : Fmt) (imm : BitVec 32) (g : Nat → Nat → Nat) (s : State) :
    Host.Outcome State Fault Refusal :=
  let w := (slotInt ty).1
  arith2 h ty rty 0 imm (fun _ _ x y => (g (x % 2 ^ w) (y % 2 ^ w), 0)) s

/-- LOGIC. -/
def execLogic (h : Head) (ty : Fmt) (fn : BitVec 4) (imm : BitVec 32) (s : State) : Host.Outcome State Fault Refusal :=
  bitArith h ty ty imm (logicBits fn.toNat (slotInt ty).1) s

/-- SHIFT. -/
def execShift (h : Head) (ty : Fmt) (fn : BitVec 4) (imm : BitVec 32) (s : State) : Host.Outcome State Fault Refusal :=
  bitArith h ty ty imm (shiftFn fn.toNat (slotInt ty).1) s

/-- A relation of Table 11-4. -/
def slotRel (fn : BitVec 4) : Rel :=
  match fn.toNat with
  | 0 => .eq
  | 1 => .ne
  | 2 => .lt
  | 3 => .le
  | 4 => .gt
  | 5 => .ge
  | _ => .un

/-- ICMP: a UINT32 truth. -/
def execIcmp (h : Head) (ty : Fmt) (fn : BitVec 4) (imm : BitVec 32) (s : State) : Host.Outcome State Fault Refusal :=
  let (w, sg) := slotInt ty
  bitArith h ty .uint32 imm (fun x y => b2n (cmpI (slotRel fn) (readInt w sg x) (readInt w sg y))) s

/-- BITC in a slot. -/
def execSlotBitc (h : Head) (ty : Fmt) (fn : BitVec 4) (s : State) : Host.Outcome State Fault Refusal :=
  let w := (slotInt ty).1
  arith1 h ty (if fn = 3 then ty else .uint32) (fun _ x =>
    let v := x % 2 ^ w
    (match fn.toNat with
      | 0 => popcount w v
      | 1 => clz w v
      | 2 => ctz w v
      | _ => brev w v, 0)) s

/-- SEL: pieces on which bit 0 of P is constant; the shape of a piece follows L and R alone (R259). -/
def execSel (h : Head) (ty : Fmt) (s : State) : Host.Outcome State Fault Refusal :=
  fire h s fun s n c p =>
    let l := p.left
    let r := p.right
    let q := p.pred
    let shape := resShape [l.shape, r.shape]
    typesOk s p q.ty.isInt (valueTypes s p ty [l, r] (.done (s.emit n c p h true true (
      ((segmentsOf q p.n fun i => bitOf (q.val i) 0).map fun (off, m, b) =>
        let v := if b then l else r
        shapeToks ty shape (lvlOf h) p.tag (p.base + off) m v.exp fun i => v.val (off + i)).flatten))))

/-! ## Floating-point arithmetic (R260 to R262) -/

/-- The float format of a slot. -/
def slotFF (ty : Fmt) : FF := (fmtFF ty).getD .fp32

/-- A float operation on two operands read after the flush of R72. -/
def floatArith (h : Head) (ty rty : Fmt) (rnd : BitVec 4) (imm : BitVec 32)
    (g : FF → Rm → Bool → FVal → FVal → Nat × Flags) (s : State) : Host.Outcome State Fault Refusal :=
  let f := slotFF ty
  arith2 h ty rty rnd imm (fun m rm x y => g f rm (m.fzo f) (decodeF f x (m.fzi f)) (decodeF f y (m.fzi f))) s

/-- FADD; neg negates R. -/
def execFadd (h : Head) (ty : Fmt) (rnd : BitVec 4) (neg : Bool) (imm : BitVec 32) (s : State) :
    Host.Outcome State Fault Refusal :=
  floatArith h ty ty rnd imm (fun f rm fzo x y => addF f rm fzo x (if neg then negF y else y)) s

/-- FMUL. -/
def execFmul (h : Head) (ty : Fmt) (rnd : BitVec 4) (imm : BitVec 32) (s : State) : Host.Outcome State Fault Refusal :=
  floatArith h ty ty rnd imm mulF s

/-- FFMA: form 0 is a b + c, form 1 a c + b; negp negates the product. -/
def execFfma (h : Head) (ty : Fmt) (rnd : BitVec 4) (form negp : Bool) (k : BitVec 32) (s : State) :
    Host.Outcome State Fault Refusal :=
  let f := slotFF ty
  arith2 h ty ty rnd 0 (fun m rm x y =>
    let a := decodeF f x (m.fzi f)
    let b := decodeF f y (m.fzi f)
    let q := decodeF f k.toNat (m.fzi f)
    if form then fmaF f rm (m.fzo f) negp a q b else fmaF f rm (m.fzo f) negp a b q) s

/-- FMIN. -/
def execFmin (h : Head) (ty : Fmt) (fn : BitVec 4) (imm : BitVec 32) (s : State) : Host.Outcome State Fault Refusal :=
  floatArith h ty ty 0 imm (fun f _ _ x y => (encodeF f (minMaxF false (fn == 1) x y), 0)) s

/-- FMAX. -/
def execFmax (h : Head) (ty : Fmt) (fn : BitVec 4) (imm : BitVec 32) (s : State) : Host.Outcome State Fault Refusal :=
  floatArith h ty ty 0 imm (fun f _ _ x y => (encodeF f (minMaxF true (fn == 1) x y), 0)) s

/-- FCMP: a UINT32 truth. -/
def execFcmp (h : Head) (ty : Fmt) (fn : BitVec 4) (imm : BitVec 32) (s : State) : Host.Outcome State Fault Refusal :=
  floatArith h ty .uint32 0 imm (fun _ _ _ x y => let (b, fl) := cmpF (slotRel fn) x y; (b2n b, fl)) s

/-- FSPEC. -/
def execFspec (h : Head) (ty : Fmt) (fn : BitVec 4) (s : State) : Host.Outcome State Fault Refusal :=
  let f := slotFF ty
  arith1 h ty ty (fun m x => fspecVal fn.toNat f (m.fzo f) (decodeF f x (m.fzi f))) s

/-! ## Conversion (R263, R266) -/

/-- The value of a token at an offset, read in its own type (R263). -/
def Token.read (t : Token) (m : FpMode) (off : Nat) : Val :=
  match fmtInt t.ty, fmtBsi t.ty, fmtFF t.ty with
  | some (w, sg), _, _ => .int (readInt w sg (t.val off))
  | _, some w, _ => .bsi (Exact.ofInt (sext (t.val off) w) ((t.exp.toNat : Int) - 127))
  | _, _, some f => .flt (decodeF f (t.val off) (m.fzi f))
  | _, _, _ => .int 0

/-- A source that CVT reads: any implemented format except E2M1B (R263); a wide cell is no token format. -/
def cvtSource (ty : Fmt) : Bool := ty != .e2m1b && ty != .wide

/-- CVT. -/
def execCvt (h : Head) (ty : Fmt) (rnd : BitVec 4) (sat : Bool) (s : State) : Host.Outcome State Fault Refusal :=
  fire h s fun s n c p =>
    let l := p.left
    let rt := p.random h
    let m := p.fpMode
    typesOk s p (cvtSource l.ty && randomOk rnd rt) (
      if fmtEmulated l.ty then pairFault s p { cls := cFormatEmulate, detail := l.ty.code }
      else if fmtEmulated ty then pairFault s p { cls := cFormatEmulate, detail := ty.code }
      else elemwise s n c p h ty (srShape rnd rt l.shape) fun i =>
        convertTo ty (slotRm m rnd rt i) sat m (l.read m i))

/-- Detail of FORMAT for an E2M1B token of exponent code 0 (R64, Table 23-1). -/
def e2m1Detail : Nat := 0x110

/-- DQNT. -/
def execDqnt (h : Head) (ty : Fmt) (rnd : BitVec 4) (adj : BitVec 8) (s : State) : Host.Outcome State Fault Refusal :=
  fire h s fun s n c p =>
    let l := p.left
    let rt := p.random h
    let m := p.fpMode
    let f := slotFF ty
    let e : Int := (l.exp.toNat : Int) - 127 + adj.toInt
    typesOk s p ((l.ty == .bsi8 || l.ty == .bsi16 || l.ty == .e2m1b) && randomOk rnd rt) (
      if fmtEmulated ty then pairFault s p { cls := cFormatEmulate, detail := ty.code }
      else if l.ty = .e2m1b ∧ l.exp = 0 then pairFault s p { cls := cFormat, detail := e2m1Detail }
      else elemwise s n c p h ty (srShape rnd rt l.shape) fun i =>
        let rm := slotRm m rnd rt i
        if l.ty = .e2m1b then
          match decodeF .e2m1 (l.val i) m.fzi8 with
          | .num x => roundFmt (x.scale e) f rm (m.fzo f)
          | v => convertF v f rm (m.fzo f)
        else roundFmt (Exact.ofInt (sext (l.val i) 16) e) f rm (m.fzo f))

/-! ## Blocks (R265) -/

/-- The entry of a list that holds an index, and the index's place in its token. -/
def entryAt (es : List Entry) (i : Nat) : Token × Nat :=
  match es.find? fun e => e.kind == .sticky || decide (e.tok.base ≤ i ∧ i < e.tok.base + e.tok.n) with
  | some e => (e.tok, if e.kind = .sticky then 0 else i - e.tok.base)
  | none => (noToken, 0)

/-- An element of BQNT: its exact value, 0 with NV for a NaN or infinity. -/
def bqntElem (m : FpMode) (e : Token × Nat) : Exact × Flags :=
  match e.1.read m e.2 with
  | .int x => (Exact.ofInt x, 0)
  | .bsi x => (x, 0)
  | .flt (.num x) => (x, 0)
  | .flt _ => (Exact.ofInt 0, fNV)

/-- The largest magnitude of a list. -/
def amaxOf (xs : List Exact) : Exact :=
  xs.foldl (fun a x => let y : Exact := { x with neg := false }; if a.lt y then y else a) (Exact.ofInt 0)

/-- The quantised lanes of a BSI block of mantissa width w, with its E and flags (R265). -/
def bqntBsi (w : Nat) (xs : List (Exact × Rm)) : List Int × Int × Flags :=
  let top : Int := 2 ^ (w - 1) - 1
  let amax := amaxOf (xs.map (·.1))
  let q (E : Int) : List Int := xs.map fun (x, rm) => (roundInt (x.scale (-E)) rm).1
  let big (v : Int) : Bool := decide (top < v.natAbs)
  let E0 : Int := if amax.isZero then -127
    else
      let E := amax.log2 - ((w : Int) - 2)
      if (q E).any big then E + 1 else E
  let E := min 128 (max (-127) E0)
  let qs := q E
  let out := qs.map fun v => if big v then (if v < 0 then -top else top) else v
  let ix := (out.zip xs).any fun (v, x, _) => !((Exact.ofInt v).eq (x.scale (-E)))
  (out, E, flagIf (qs.any big) fOF ||| flagIf ix fNX ||| flagIf (ix && E == -127) fUF)

/-- ceil(log2(amax / 6)) of a positive amax: the least E with amax at most 6 * 2^E. -/
def e2m1Exp (amax : Exact) : Int :=
  let L := amax.log2
  if (Exact.ofInt 3 (L - 1)).lt amax then L - 1 else L - 2

/-- The codes of an E2M1B block, with its E and flags (R265). -/
def bqntE2m1 (fzo : Bool) (xs : List (Exact × Rm)) : List Nat × Int × Flags :=
  let amax := amaxOf (xs.map (·.1))
  let E := min 128 (max (-126) (if amax.isZero then 0 else e2m1Exp amax))
  let rs := xs.map fun (x, rm) => roundFmt (x.scale (-E)) .e2m1 rm fzo
  (rs.map (·.1), E, orAll (rs.map (·.2)))

/-- Input types of BQNT. -/
def bqntInput (ty : Fmt) : Bool := ty == .fp32 || ty == .bf16 || ty == .int8 || ty == .int16 || ty == .int32

/-- BQNT of one block. -/
def execBqnt (h : Head) (ty : Fmt) (rnd : BitVec 4) (_c : BitVec 32) (s : State) : Host.Outcome State Fault Refusal :=
  fire h s fun s n c p =>
    let m := p.fpMode
    let idx := range p.base p.n
    let es := idx.map fun i => bqntElem m (entryAt p.l i)
    let xs := (idx.zip es).map fun (i, x, _) =>
      let (rt, off) := entryAt p.r i
      (x, slotRm m rnd rt off)
    typesOk s p ((p.l.all fun e => bqntInput e.tok.ty) && p.r.all fun e => randomOk rnd e.tok) (
      let (vals, E, fl) := match fmtBsi ty with
        | some w => let (q, E, fl) := bqntBsi w xs; (q.map fun v => trunc v w, E, fl)
        | none => bqntE2m1 m.fzo8 xs
      let s1 := s.stnFlags n p.cx (fl ||| orAll (es.map (·.2)))
      .done (s1.emit n c p h true true
        (denseToks ty (lvlOf h) p.tag (BitVec.ofInt 8 (E + 127)) (p.n + 1) p.base vals)))

/-! ## Reduction and scan (R267, R268, R197) -/

/-- The bits of a reduction's element: an integer's low bits, or a float code after the flush of R72. -/
def reduElem (ty : Fmt) (m : FpMode) (e : Token × Nat) : Nat :=
  let v := e.1.val e.2
  match fmtInt ty with
  | some (w, _) => v % 2 ^ w
  | none => flushCode (slotFF ty) (m.fzi (slotFF ty)) v

/-- ⊕ of REDU codes 0 to 5 (Table 11-6), on bits with the flags gathered so far. -/
def reduOp (ty : Fmt) (m : FpMode) (fn : Nat) (a b : Nat × Flags) : Nat × Flags :=
  match fmtInt ty with
  | some (w, sg) => (combineInt fn w sg a.1 b.1, a.2 ||| b.2)
  | none =>
    let f := slotFF ty
    if fn = 0 then addCodes f (m.fzo f) a b else mmCodes f (fn == 2) a b

/-- ⊕ of amax and amin on values with their indices: equal values, a +0 and a -0 among them, keep the lower
index. -/
def extremeOp (ty : Fmt) (mx : Bool) (a b : Nat × Nat) : Nat × Nat :=
  match fmtInt ty with
  | some (w, sg) =>
    let x := readInt w sg a.1
    let y := readInt w sg b.1
    if (if mx then x < y else y < x) then b else a
  | none =>
    let f := slotFF ty
    let x := decodeF f a.1 false
    let y := decodeF f b.1 false
    let r := encodeF f (minMaxF mx false x y)
    let better := (if mx then fLess x y else fLess y x) && !(cmpF .eq x y).1
    (r, if better || (x == .nan && y != .nan) then b.2 else a.2)

/-- REDU of one block: a scalar at index base / 32, to dest0; the index of amax and amin to dest1 (R211, R267). -/
def execRedu (h : Head) (ty : Fmt) (fn : BitVec 4) (_c : BitVec 32) (s : State) : Host.Outcome State Fault Refusal :=
  fire h s fun s n c p =>
    let m := p.fpMode
    let L := lvlOf h
    let xs := (range p.base p.n).map fun i => (i, reduElem ty m (entryAt p.l i))
    let tag := setTagFld p.tag L (p.base / 32)
    valueTypes s p ty (p.l.map (·.tok)) (
      if 6 ≤ fn.toNat then
        let (v, i) := tree (extremeOp ty (fn == 6)) (0, 0) 6 (xs.map fun (i, x) => (x, i))
        let s1 := s.emit n c p h true false [scalarTok ty L tag v]
        .done (s1.emit n c p h false true [scalarTok .uint32 L tag i])
      else
        let (v, fl) := tree (reduOp ty m fn.toNat) (0, 0) 6 (xs.map fun (_, x) => (x, (0 : Flags)))
        let s1 := s.stnFlags n p.cx fl
        .done (s1.emit n c p h true false [scalarTok ty L tag v]))

/-- The function of REDU that a SCAN code combines by. -/
def scanFn (fn : BitVec 4) : Nat :=
  match fn.toNat with
  | 2 => 2
  | 3 => 1
  | _ => 0

/-- The results of SCAN over the elements of a block, from the running value; first tells index 0. -/
def scanGo (ty : Fmt) (m : FpMode) (fn : BitVec 4) : Bool → Nat × Flags → List Nat → List Nat × Nat × Flags
  | _, acc, [] => ([], acc.1, acc.2)
  | first, acc, x :: xs =>
    let next := if first && decide (2 ≤ fn.toNat) then (x, acc.2) else reduOp ty m (scanFn fn) acc (x, 0)
    let (out, last, fl) := scanGo ty m fn false next xs
    ((if fn = 1 then acc.1 else next.1) :: out, last, fl)

/-- SCAN's carry entry of a pair's slot and outer fields. -/
def isCarry (p : Pair) (L : Nat) (e : Entry) : Bool :=
  match e.kind with
  | .carry _ => e.at_ p.cx p.slot L (outerOf p.tag L)
  | _ => false

/-- SCAN of one block: the running value comes from the carry entry and goes back to it, which is freed after the last
block. -/
def execScan (h : Head) (ty : Fmt) (fn : BitVec 4) (cnt : BitVec 32) (s : State) : Host.Outcome State Fault Refusal :=
  fire h s fun s n c p =>
    let m := p.fpMode
    let L := lvlOf h
    let st := s.stn n
    let xs := (range p.base p.n).map fun i => reduElem ty m (entryAt p.l i)
    valueTypes s p ty (p.l.map (·.tok)) (
      let start := if p.base = 0 then 0
        else ((st.store.find? (isCarry p L)).map fun e => e.tok.val 0).getD 0
      let (out, last, fl) := scanGo ty m fn (p.base == 0) (start, 0) xs
      let store :=
        if p.base + p.n = cnt.toNat then st.store.filter fun e => !isCarry p L e
        else st.store.map fun e => if isCarry p L e then { e with tok := { e.tok with ty, lanes := lanesOf ty last } } else e
      let s1 := (s.setStn n { st with store }).stnFlags n p.cx fl
      .done (s1.emit n c p h true true (denseToks ty L p.tag 0 (p.n + 1) p.base out)))

/-! ## Random values (R269) -/

/-- RNG in a slot: dense ember values at keys of the seed, a tag field and the position. -/
def execSlotRng (h : Head) (ty : Fmt) (fn : RngFn) (posv : Bool) (seqf : BitVec 3) (d : BitVec 32) (s : State) :
    Host.Outcome State Fault Refusal :=
  fire h s fun s n c p =>
    let l := p.left
    let r := p.right
    let L := lvlOf h
    let seq := if seqf = 7 then 0 else tagFld p.tag (seqf.toNat + 1)
    let key (i : Nat) := emberKey (r.val i) seq (if posv then l.val i % 2 ^ 40 else p.base + i)
    let val (i : Nat) : Nat := match fn with
      | .sr16 => emberSr16 (key i) d.toNat
      | .unif => emberUnif (key i) d.toNat
      | .bits => ember (key i) d.toNat
    typesOk s p (r.ty == .int64 && (!posv || isU32 l.ty || l.ty == .int64)) (
      .done (s.emit n c p h true true (denseToks ty L p.tag 0 (p.n + 1) p.base ((List.range p.n).map val))))

end Sys2Proof.Machine
end

