-- ==== Sys2Proof/Machine/Codec.lean ====
section
/-! DEFINITION. What the save area of a context holds (R138, R139, Table 05-11), as bytes: the state of spilled tables, and save
images. The order of the parts is the spec's; the places of fields within a part are the model's (log entries 32 and 33). -/

namespace Sys2Proof.Machine

/-! ## Reading values from bytes -/

/-- A reader: takes its value from the front of a list of bytes. Past the end it reads zeros. -/
abbrev Get := StateM (List Byte)

/-- A number of k bytes. -/
def getN (k : Nat) : Get Nat := fun bs => (leValue (bs.take k), bs.drop k)

/-- A signed number of k bytes. -/
def getI (k : Nat) : Get Int := do return sext (← getN k) (8 * k)

/-- A bit vector of k bytes. -/
def getB (w k : Nat) : Get (BitVec w) := do return BitVec.ofNat w (← getN k)

/-- A flag. -/
def getF : Get Bool := do return (← getN 1) != 0

/-- n values. -/
def getMany {α : Type} (g : Get α) : Nat → Get (List α)
  | 0 => return []
  | n + 1 => do
    let a ← g
    return a :: (← getMany g n)

/-- A list: its length, then its members. -/
def getL {α : Type} (g : Get α) : Get (List α) := do
  let n ← getN 4
  fun bs => getMany g (min n bs.length) bs

/-- A vector. -/
def getV {α : Type} (d : α) (g : Get α) (n : Nat) : Get (Vector α n) := do
  let xs ← getMany g n
  return Vector.ofFn fun i => xs.getD i.val d

/-- A value or none. -/
def getO {α : Type} (g : Get α) : Get (Option α) := do if ← getF then return some (← g) else return none

/-! ## Writing values as bytes -/

/-- A signed number in k bytes. -/
def putI (k : Nat) (x : Int) : List Byte := leBytes k (trunc x (8 * k))

/-- A bit vector in k bytes. -/
def putB {w : Nat} (k : Nat) (x : BitVec w) : List Byte := leBytes k x.toNat

/-- A flag. -/
def putF (b : Bool) : List Byte := leBytes 1 (b2n b)

/-- Values one after another. -/
def putMany {α : Type} (f : α → List Byte) (xs : List α) : List Byte := (xs.map f).flatten

/-- A list. -/
def putL {α : Type} (f : α → List Byte) (xs : List α) : List Byte := leBytes 4 xs.length ++ putMany f xs

/-- A value or none. -/
def putO {α : Type} (f : α → List Byte) : Option α → List Byte
  | none => putF false
  | some a => putF true ++ f a

/-- Bytes filled up with zeros to a length. -/
def padTo (n : Nat) (bs : List Byte) : List Byte := (bs ++ List.replicate (n - bs.length) 0).take n

/-! ## Table state (R139, R142): 4 KiB for each station and context -/

/-- Where table t's header, descriptor, write generation, binding, generations and journal begin in the 4 KiB. -/
def tableStateAt (t : BitVec 2) : Nat := 512 * t.toNat

/-- Where its kindling entries begin. -/
def tableKindAt (t : BitVec 2) : Nat := 2048 + 256 * t.toNat

/-- Where the bitmaps begin: the bit of local index i of column c is numbered by the narrow entry of T_c[i]. -/
def tableBitsAt : Nat := 3072

/-- Code of a zero flag. -/
def zflagCode : ZFlag → Nat
  | .set => 0
  | .clear => 1
  | .invalid => 2

/-- A zero flag from its code. -/
def zflagOf (n : Nat) : ZFlag := if n = 0 then .set else if n = 1 then .clear else .invalid

/-- A binding. -/
def putBind (b : Binding) : List Byte := leBytes 2 b.stn ++ putB 1 b.t ++ putF b.tr

/-- A binding read. -/
def getBind : Get Binding := do return ⟨← getN 2, ← getB 2 1, ← getF⟩

/-- A journal entry. -/
def putJ (j : JEntry) : List Byte := putB 2 j.gen ++ putB 4 j.pos ++ putI 8 j.delta

/-- A journal entry read. -/
def getJ : Get JEntry := do return ⟨← getB 16 2, ← getB 32 4, ← getI 8⟩

/-- A table's state but for its bitmaps, in 512 bytes. -/
def putTableState (tb : Table) : List Byte :=
  padTo 512 (leBytes 1 tb.lgC ++ putF tb.wide ++ leBytes 2 tb.ks ++ leBytes 2 tb.k0 ++ leBytes 2 tb.n0 ++ leBytes 2 tb.ebase ++ putI 2 tb.et
    ++ leBytes 8 tb.wmax ++ leBytes 8 tb.lsafe ++ putL (fun z => leBytes 1 (zflagCode z)) tb.zflags ++ leBytes 8 tb.wgen
    ++ putO putBind tb.bind ++ putB 2 tb.gen ++ putB 2 tb.pgen ++ leBytes 2 tb.msgs ++ putL putJ tb.journal)

/-- The bitmaps of a table from the bits of the 4 KiB's bitmap part. -/
def bitmapsOf (bits : Nat) (lgC ks ebase : Nat) (wide : Bool) : List Nat :=
  (List.range (2 ^ lgC)).map fun c =>
    (List.range ks).foldl (fun m i => m + b2n (bitOf bits (ebase + (if wide then 2 else 1) * (c * (ks + 1) + i))) * 2 ^ i) 0

/-- A table's state read. -/
def getTableState (ctx : Byte) (t : BitVec 2) (bits : Nat) : Get Table := do
  let lgC := (← getN 1) % 8
  let wide ← getF
  let ks ← getN 2
  let k0 ← getN 2
  let n0 ← getN 2
  let ebase ← getN 2
  let et ← getI 2
  let wmax ← getN 8
  let lsafe ← getN 8
  let zs ← getL (getN 1)
  let wgen ← getN 8
  let bind ← getO getBind
  let gen ← getB 16 2
  let pgen ← getB 16 2
  let msgs ← getN 2
  let journal ← getL getJ
  return { ctx, t, lgC, ks, wide, k0, n0, ebase, et, wmax, lsafe, zflags := zs.map zflagOf
           bitmaps := bitmapsOf bits lgC ks ebase wide, wgen, bind, gen, pgen, journal, msgs }

/-- The bitmap part with a table's bits put in. -/
def putBits (tb : Table) (bits : Nat) : Nat :=
  (List.range (2 ^ tb.lgC)).foldl (fun w c =>
    (List.range tb.ks).foldl (fun w i =>
      let k := tb.ebase + (if tb.wide then 2 else 1) * (c * (tb.ks + 1) + i)
      setFld w k k (b2n (bitOf (tb.bitmaps.getD c 0) i))) w) bits

/-- A kindling entry, in 16 bytes. -/
def putKind (e : Kind) : List Byte := padTo 16 (leBytes 1 1 ++ leBytes 1 e.col ++ leBytes 2 e.k ++ putI 8 e.delta)

/-- A kindling entry read from 16 bytes; none where the place is empty. -/
def kindOf (ctx : Byte) (t : BitVec 2) (bs : List Byte) : Option Kind :=
  if leValue (bs.take 1) = 0 then none
  else some ⟨ctx, t, leValue ((bs.drop 1).take 1), leValue ((bs.drop 2).take 2), sext (leValue ((bs.drop 4).take 8)) 64⟩

/-! ## Save images (R138) -/

/-- A token: its 16-byte header, then its payload (Table 04-3). -/
def putTok (t : Token) : List Byte := leBytes 16 t.header ++ putMany (fun (w : Word) => leBytes 4 w.toNat) t.lanes

/-- Payload lanes that a header announces. -/
def headerLanes (h : Nat) : Nat :=
  match fmtOfShort (fld h 101 98) (fld h 69 64) with
  | some ty => payloadLanes (if fld h 103 102 = 1 then .dense else .scalar) ty (fld h 95 80 + 1)
  | none => 1

/-- A token read. -/
def getTok : Get Token := do
  let h ← getN 16
  let lanes ← getMany (getB 32 4) (headerLanes h)
  return (tokenOf h lanes).getD (scalarTok .int8 1 0 0)

/-- What an entry is. -/
def putEKind : EntryKind → List Byte
  | .normal => leBytes 4 0
  | .sticky => leBytes 4 1
  | .interval => leBytes 4 2
  | .block => leBytes 4 3
  | .carry k => leBytes 4 (4 + k)

/-- What an entry is, read. -/
def getEKind : Get EntryKind := do
  match ← getN 4 with
  | 0 => return .normal
  | 1 => return .sticky
  | 2 => return .interval
  | 3 => return .block
  | n => return .carry (n - 4)

/-- An entry of the matching store: its token, what it is, and its place in the arrival order. -/
def putEntry (e : Entry) : List Byte := putTok e.tok ++ putEKind e.kind ++ leBytes 8 e.ord

/-- An entry read. -/
def getEntry : Get Entry := do
  let tok ← getTok
  let kind ← getEKind
  return ⟨0, kind, tok, ← getN 8⟩

/-- A pair. -/
def putPair (p : Pair) : List Byte :=
  putB 1 p.slot ++ putB 8 p.tag ++ leBytes 4 p.base ++ leBytes 4 p.n ++ putL putEntry p.l ++ putL putEntry p.r ++ putL putEntry p.p ++ putB 8 p.fp

/-- A pair read. -/
def getPair : Get Pair := do
  return ⟨0, ← getB 4 1, ← getB 64 8, ← getN 4, ← getN 4, ← getL getEntry, ← getL getEntry, ← getL getEntry, ← getB 64 8⟩

/-- Bits [319:256] and above of a fault record, with its word. -/
def putRec (r : FRec) : List Byte :=
  putB 8 r.tag ++ putB 7 r.addr ++ putB 1 r.slot ++ putB 1 r.level ++ putB 2 r.pc ++ putB 2 r.detail ++ putB 2 r.nidx ++ putB 2 r.lid
    ++ putB 2 r.src ++ putB 1 r.kind ++ putB 1 r.cls ++ putB 1 r.ctx ++ putB 2 r.code ++ putB 16 r.word

/-- A fault record read. -/
def getRec : Get FRec := do
  return ⟨← getB 64 8, ← getB 56 7, ← getB 4 1, ← getB 2 1, ← getB 16 2, ← getB 16 2, ← getB 16 2, ← getB 16 2, ← getB 16 2, ← getB 2 1,
    ← getB 8 1, ← getB 8 1, ← getB 10 2, ← getB 128 16⟩

/-- A memory node's pair in progress. -/
def putOp (o : NodeOp) : List Byte :=
  putPair o.pair ++ putL (leBytes 4) o.main ++ putL (leBytes 4) o.todo
    ++ putL (fun (v : Nat × Nat × Option Nat) => leBytes 4 v.1 ++ leBytes 8 v.2.1 ++ putO (leBytes 8) v.2.2) o.vals
    ++ putL (fun (f : Nat × Nat × Nat × Nat) => leBytes 4 f.1 ++ leBytes 1 f.2.1 ++ leBytes 8 f.2.2.1 ++ leBytes 2 f.2.2.2) o.faults
    ++ putO putRec o.raised

/-- A memory node's pair read. -/
def getOp : Get NodeOp := do
  return ⟨← getPair, ← getL (getN 4), ← getL (getN 4), ← getL (do return (← getN 4, ← getN 8, ← getO (getN 8))),
    ← getL (do return (← getN 4, ← getN 1, ← getN 8, ← getN 2)), ← getO getRec⟩

/-- A token held at an input. -/
def putHeld (h : Held) : List Byte := putTok h.tok ++ leBytes 2 h.lid

/-- A held token read. -/
def getHeld : Get Held := do return ⟨← getTok, ← getN 2⟩

/-- Pairs of a key and a value. -/
def putS {α : Type} (f : α → List Byte) : Sparse α → List Byte := putL fun (k, a) => leBytes 4 k ++ f a

/-- Pairs of a key and a value read. -/
def getS {α : Type} (g : Get α) : Get (Sparse α) := getL (do return (← getN 4, ← g))

/-- One station's part: the occupancy bitmap and the entries, the sticky flags, the SINK counts in slot order; then what else the model
keeps of it. -/
def putStn (x : StnImage) : List Byte :=
  leBytes 4 x.stn ++ leBytes 8 (2 ^ min x.entries.length 64 - 1) ++ putL putEntry x.entries ++ putB 1 x.flags ++ putS (putB 8) x.sinks
    ++ putL putPair x.sources ++ putL putOp x.nodeOps ++ putL putPair x.faulted ++ putL putHeld x.held

/-- One station's part read. -/
def getStn : Get StnImage := do
  let stn ← getN 4
  let _ ← getN 8
  return ⟨stn, ← getL getEntry, ← getB 5 1, ← getS (getB 64 8), ← getL getPair, ← getL getOp, ← getL getPair, ← getL getHeld⟩

/-- A stream register. -/
def putStream (x : Stream) : List Byte := putB 7 x.base ++ putF x.isOpen ++ putB 4 x.n ++ putB 4 x.j ++ putB 4 x.off ++ putS (putB 4) x.words

/-- A stream register read. -/
def getStream : Get Stream := do return ⟨← getB 56 7, ← getF, ← getB 32 4, ← getB 32 4, ← getB 32 4, ← getS (getB 32 4)⟩

/-- An instruction that waits at issue. -/
def putWait : Wait → List Byte
  | .none => leBytes 1 0
  | .counter k h sat => leBytes 1 1 ++ leBytes 2 k ++ putB 8 h ++ putF sat
  | .event k seen => leBytes 1 2 ++ leBytes 2 k ++ putF seen
  | .bar st ok => leBytes 1 3 ++ leBytes 1 (match st with | .access => 0 | .drain => 1 | .all => 2) ++ putF ok
  | .engine id a => leBytes 1 4 ++ leBytes 8 id ++ putO (putB 8) a
  | .arm a => leBytes 1 5 ++ putO (putO putRec) a
  | .gcfg a => leBytes 1 6 ++ putO (putO putRec) a

/-- An instruction that waits at issue, read. -/
def getWait : Get Wait := do
  match ← getN 1 with
  | 1 => return .counter (← getN 2) (← getB 64 8) (← getF)
  | 2 => return .event (← getN 2) (← getF)
  | 3 =>
    let st ← getN 1
    return .bar (if st = 0 then .access else if st = 1 then .drain else .all) (← getF)
  | 4 => return .engine (← getN 8) (← getO (getB 64 8))
  | 5 => return .arm (← getO (getO getRec))
  | 6 => return .gcfg (← getO (getO getRec))
  | _ => return .none

/-- Code of what a core is doing. -/
def runCode : Run → Nat
  | .idle => 0
  | .running => 1
  | .halted => 2
  | .stopped => 3

/-- What a core is doing, from its code. -/
def runOf (n : Nat) : Run := if n = 0 then .idle else if n = 1 then .running else if n = 2 then .halted else .stopped

/-- A helper core: pc, general registers, predicates, vectors, streams, loop registers, CSRs, receive queue; then what else the model
keeps of it. -/
def putCore (c : Core) : List Byte :=
  putB 2 c.pc ++ putMany (putB 8) c.g.toList ++ putMany (putB 4) c.p.toList ++ putMany (fun (v : Vector Word 32) => putMany (putB 4) v.toList) c.v.toList
    ++ putMany putStream c.st.toList ++ putMany (putB 8) c.lc.toList ++ putMany (putB 8) c.ls.toList ++ putMany (putB 8) c.le.toList
    ++ putMany (putB 8) [c.fpctl, c.ctxid, c.trapbase, c.faultrec, c.epc, c.faddr]
    ++ putL putTok c.rq
    ++ leBytes 1 (runCode c.run) ++ putO (leBytes 2) c.lid ++ putWait c.wait ++ putMany (leBytes 8) c.bars.toList
    ++ putS (fun (s : Nat × Nat) => leBytes 1 s.1 ++ leBytes 1 s.2) c.shapes ++ putL (leBytes 4) c.fed ++ putF c.escalated

/-- A helper core read. -/
def getCore : Get Core := do
  let pc ← getB 16 2
  let g ← getV 0 (getB 64 8) 32
  let p ← getV 0 (getB 32 4) 8
  let v ← getV (Vector.replicate 32 0) (getV 0 (getB 32 4) 32) 16
  let st ← getV {} getStream 8
  let lc ← getV 0 (getB 64 8) 2
  let ls ← getV 0 (getB 64 8) 2
  let le ← getV 0 (getB 64 8) 2
  let fpctl ← getB 64 8
  let ctxid ← getB 64 8
  let trapbase ← getB 64 8
  let faultrec ← getB 64 8
  let epc ← getB 64 8
  let faddr ← getB 64 8
  let rq ← getL getTok
  let run := runOf (← getN 1)
  let lid ← getO (getN 2)
  let wait ← getWait
  let bars ← getV 0 (getN 8) 3
  let shapes ← getS (do return (← getN 1, ← getN 1))
  let fed ← getL (getN 4)
  let escalated ← getF
  return { run, lid, g, p, v, st, lc, ls, le, pc, fpctl, ctxid, trapbase, faultrec, epc, faddr, wait, bars, shapes, fed, rq, escalated }

/-- A region: die, lowest core, width and height. -/
def putRegion (g : Region) : List Byte := leBytes 1 g.die.val ++ leBytes 1 g.core ++ leBytes 1 g.w ++ leBytes 1 g.h

/-- A region read. -/
def getRegion : Get Region := do return ⟨Fin.ofNat 8 (← getN 1), ← getN 1, ← getN 1, ← getN 1⟩

/-- The 64-byte header: cfgid, ctx, class, nreg, and the grant of every region, which names its cores. -/
def putHeader (cfgid : Word) (ctx : Byte) (cls : Nat) (rs : List Region) : List Byte :=
  padTo 64 (putB 4 cfgid ++ putB 1 ctx ++ leBytes 1 cls ++ leBytes 1 rs.length ++ leBytes 1 0 ++ putMany putRegion rs)

/-- The 1 MiB of a core memory, from its cells. -/
def putMem (cells : List Host.Cell) : List Byte := (List.range (2 ^ 20)).map fun i => spGet (0 : Byte) cells i

/-- The cells of a core memory of 1 MiB: every byte that is not 0. -/
def cellsIn (bs : List Byte) : List Host.Cell := ((List.range bs.length).zip bs).filter fun c => c.2 != 0

/-- One core memory read. -/
def getMem : Get (List Host.Cell) := fun bs => (cellsIn (bs.take (2 ^ 20)), bs.drop (2 ^ 20))

/-- A save image: header, stations, residue in the order taken, helper cores, core memories. -/
def putImage (im : Image) (ctx : Byte) (cls : Nat) : List Byte :=
  putHeader im.cfgid ctx cls im.regions ++ putL putStn im.stations
    ++ putL (fun (f : Flight) => leBytes 8 f.src ++ putO (leBytes 2) f.lid ++ putTok f.tok) im.residue
    ++ putL (fun (c : Agent × Core) => leBytes 2 (agentIdx c.1) ++ putCore c.2) im.cores
    ++ putL (fun (m : Nat × List Host.Cell) => leBytes 2 m.1 ++ putMem m.2) im.mems

/-- A save image read. -/
def getImage : Get Image := do
  let h : Get (Word × List Region) := do
    let cfgid ← getB 32 4
    let _ ← getN 2
    let n ← getN 1
    let _ ← getN 1
    return (cfgid, ← getMany getRegion (min n 8))
  let ((cfgid, regions), _) ← (fun bs => (h (bs.take 64), bs.drop 64) : Get ((Word × List Region) × List Byte))
  return {
    cfgid, regions
    stations := ← getL getStn
    residue := ← getL (do return ⟨← getN 8, ← getO (getN 2), ← getTok, none⟩)
    cores := ← getL (do return (agentOf (← getN 2), ← getCore))
    mems := ← getL (do return (← getN 2, ← getMem)) }

end Sys2Proof.Machine
end

