-- ==== Sys2Proof/Machine/Nodes.lean ====
section
/-! DEFINITION. Memory nodes, opcodes 0x13 to 0x16: LDN, STN, AMON, FAMN and the performing of their accesses (R243 to R251,
R108 to R110, R420). -/

namespace Sys2Proof.Machine

/-- The four kinds of memory node. -/
inductive NodeKind where
  | load | store | amo | famo
  deriving DecidableEq, Repr

/-- The kind, type and fields of a slot that is a memory node. -/
def nodeOf : Instr → Option (Head × NodeKind × Fmt × NodeF)
  | .ldn h ty f => some (h, .load, ty, f)
  | .stn h ty f => some (h, .store, ty, f)
  | .amon h ty f => some (h, .amo, ty, f)
  | .famn h f => some (h, .famo, .fp32, f)
  | _ => none

/-- Width of a node's access in bytes (R244). -/
def nodeWidth (k : NodeKind) (ty : Fmt) : Nat :=
  if k = .famo then 32
  else match fmtInt ty, fmtFF ty with
    | some (w, _), _ => w / 8
    | none, some f => f.width / 8
    | none, none => 4

/-- The address at an offset of a pair, before any check (R245). -/
def nodeAddr (k : NodeKind) (ty : Fmt) (f : NodeF) (l : Token) (off : Nat) : Int :=
  (l.val off : Int) + sext f.off.toNat 11 * nodeWidth k ty

/-- Who a node's accesses are made by: its core's window, its context. -/
def nodeWho (n : Nat) (ctx : Byte) : Who :=
  ⟨stnDie n, n / 64 % 128, false, ctx⟩

/-- The place of the access at an offset, or its fault (R245, R249); a load with .fg is a narrow request (R154). -/
def State.nodePlace (s : State) (n : Nat) (ctx : Byte) (k : NodeKind) (ty : Fmt) (f : NodeF) (l : Token) (off : Nat) :
    Except FI Loc :=
  let A := nodeAddr k ty f l off
  let W := nodeWidth k ty
  let w := nodeWho n ctx
  match k with
  | .load => s.access w A W W false f.fg
  | .store => s.access w A W W true
  | .amo => s.accessRmw w A W
  | .famo => s.wideCell w A true

/-- The tag of an index of a pair. -/
def Pair.tagAt (p : Pair) (L off : Nat) : DWord := setTagFld p.tag L (p.base + off)

/-- The access of the predecessor that an offset waits for: none where no arc holds it (R108). A carried arc holds index i + 1
after index i; index 0 has no index before it, also when the level's field has wrapped (log entry 66). -/
def arcNeed (f : NodeF) (p : Pair) (L off : Nat) : Option DWord :=
  if f.pred = 127 then none
  else if f.carried then (if p.base + off = 0 then none else some (setTagFld p.tag L (p.base + off - 1)))
  else some (p.tagAt L off)

/-- The predecessor's access that an offset waits for, when it has been performed. -/
def State.arcFound (s : State) (lid : Nat) (f : NodeF) (tag : DWord) : Option ArcDone :=
  s.arcs.find? fun a => a.lid == lid && a.node == f.pred && a.tag == tag

/-- An arc holds an offset. -/
def State.arcHeld (s : State) (lid : Nat) (f : NodeF) (p : Pair) (L off : Nat) : Bool :=
  match arcNeed f p L off with
  | none => false
  | some tag => (s.arcFound lid f tag).isNone

/-- What the arc chain of an offset has seen (R176). -/
def State.arcKnow (s : State) (lid : Nat) (f : NodeF) (p : Pair) (L off : Nat) : Know :=
  match arcNeed f p L off with
  | none => {}
  | some tag => ((s.arcFound lid f tag).map (·.know)).getD {}

/-- The offsets of a pair in ascending pieces: offset and length. -/
def piecesOf (offs : List Nat) (n : Nat) : List (Nat × Nat) :=
  ((segmentsFrom (fun o => offs.contains o) 0 n).filter (·.2.2)).map fun (off, m, _) => (off, m)

/-- A fault kept for one offset. -/
def faultAt (x : Nat × Nat × Nat × Nat) : FI := { cls := x.2.1, addr := x.2.2.1, detail := x.2.2.2 }

/-- The record of a memory node's pair (R413, R420; log entry 67): the class that comes first in the order of R413, with its address and
detail at the lowest index that meets it; the lowest faulting index; how many indices fault. -/
def nodeRec (n : Nat) (c : Ctx) (h : Head) (op : NodeOp) : FRec :=
  let p := op.pair
  let fs := sortBy (fun a b => decide (a.1 ≤ b.1)) op.faults
  stnRec n c.lid ((spFind c.words p.slot.toNat).getD 0) p.slot h.level ((c.tag).getD 0)
    (setTagFld p.tag (lvlOf h) (p.base + (fs.head?.map (·.1)).getD 0)) fs.length ((firstFault (fs.map faultAt)).getD { cls := 0 })

/-- A launch's record of a pair replaced by a newer one that counts more of its indices, while it has not been appended to a queue. -/
def Launch.swapRec (l : Launch) (old new : FRec) : Launch :=
  let sw (r : FRec) : FRec := if r = old then new else r
  { l with recs := l.recs.map fun x => (x.1, sw x.2), logged := l.logged.map sw }

/-- Some indices of a memory node's pair fault (R420): each returns as operand entries, and one record stands for all that have faulted
so far. -/
def State.nodeFault (s : State) (n : Nat) (c : Ctx) (h : Head) (op : NodeOp) (new : List (Nat × Nat × Nat × Nat)) : NodeOp × State :=
  let op1 := { op with faults := op.faults ++ new }
  let r := nodeRec n c h op1
  let st := (piecesOf (new.map (·.1)) op.pair.n).foldl (fun st (off, m) => st.giveUp ((op.pair.from_ (lvlOf h) off).upto m)) (s.stn n)
  let s1 := s.setStn n st
  ({ op1 with raised := some r },
    match op.raised, c.lid.bind s.launch with
    | some old, some l => if l.recs.any (·.2 == old) then s1.modLaunch l.lid (·.swapRec old r) else s1.stopLaunch c.lid r
    | _, _ => s1.stopLaunch c.lid r)

/-- A memory node issues its pair (R245, R246): the offsets whose address is good wait to be performed, and the others fault (R420). -/
def nodeIssue (h : Head) (k : NodeKind) (ty : Fmt) (f : NodeF) (s : State) : Host.Outcome State Fault Refusal :=
  fire h s fun s n c p =>
    let l := p.left
    let r := p.right
    let L := lvlOf h
    let offs := List.range p.n
    let err (off : Nat) : Option FI := match s.nodePlace n ((c.tag).getD 0) k ty f l off with | .error e => some e | .ok _ => none
    typesOk s p ((isU32 l.ty || l.ty == .int64) && (k == .load || r.ty == ty)) (
      let good := offs.filter fun o => (err o).isNone
      let bad := offs.filterMap fun o => (err o).map fun e => (o, e.cls, e.addr, e.detail)
      let op : NodeOp := { pair := p, main := good.filter fun o => !s.arcHeld (c.lid.getD 0) f p L o, todo := good, vals := [] }
      let (op, s1) := if bad = [] then (op, s) else s.nodeFault n c h op bad
      .done (if good = [] then s1 else s1.setStn n { s1.stn n with nodeOps := (s1.stn n).nodeOps ++ [op] }))

/-- LDN. -/
def execLdn (h : Head) (ty : Fmt) (f : NodeF) (s : State) : Host.Outcome State Fault Refusal := nodeIssue h .load ty f s

/-- STN. -/
def execStn (h : Head) (ty : Fmt) (f : NodeF) (s : State) : Host.Outcome State Fault Refusal := nodeIssue h .store ty f s

/-- AMON. -/
def execAmon (h : Head) (ty : Fmt) (f : NodeF) (s : State) : Host.Outcome State Fault Refusal := nodeIssue h .amo ty f s

/-- FAMN. -/
def execFamn (h : Head) (f : NodeF) (s : State) : Host.Outcome State Fault Refusal := nodeIssue h .famo .fp32 f s

/-! ## Performing accesses (R110, R181, R246, R247) -/

/-- What an access does at its place, for an agent of the station's die: the result and the state. -/
def State.nodeAccess (s : State) (n : Nat) (ak : Nat) (k : NodeKind) (ty : Fmt) (f : NodeF) (l : Loc) (x : Nat) :
    Nat × State :=
  let W := nodeWidth k ty
  let d := stnDie n
  let atomic := k == .amo || k == .famo
  let acq := attr (ordAcq f.ord) atomic f.scope l
  let rel := attr (ordRel f.ord) atomic f.scope l
  match k with
  | .load => let (bs, t) := s.readAt d ak acq l W f.fg; (leValue bs, t)
  | .store => (0, s.write (some d) ak rel l (leBytes W x))
  | .amo =>
    let old := leValue (s.home l W)
    let new := if f.func = 8 then x else amoFn f.func.toNat (8 * W) old (x % 2 ^ (8 * W))
    let (_, t) := s.readAt d ak acq l W
    (old, t.write (some d) ak rel l (leBytes W new) (s.handsOn d.val l W))
  | .famo => (0, s.write (some d) ak rel l (famoCell (s.home l 32) x) (s.handsOn d.val l 32))

/-- An offset's access may be performed now: its arc holds it no more; the links it crosses are open (R391); what comes before
the writes it reads is performed (R178); an atomic's die is up to date (log entry 18); and for a scope beyond the die what its chain
has seen is applied everywhere (R181). -/
def State.nodeReady (s : State) (n lid : Nat) (c : Ctx) (k : NodeKind) (ty : Fmt) (f : NodeF) (L : Nat) (p : Pair) (off : Nat) :
    Bool :=
  !s.arcHeld lid f p L off &&
    (let kn := s.arcKnow lid f p L off
     !(scopeDev f.scope && (union kn.obs (kn.ord.map (·.1))).any s.pending)) &&
    (match s.nodePlace n ((c.tag).getD 0) k ty f p.left off with
      | .ok l => s.linkTo (stnDie n) l &&
          (match k with
            | .load => s.depsMet (nodeKey n p.slot) (stnDie n) l (nodeWidth k ty)
            | .store => true
            | .amo | .famo => s.depsMet (nodeKey n p.slot) (stnDie n) l (nodeWidth k ty) && !s.behind (stnDie n).val l (nodeWidth k ty))
      | .error _ => true)

/-- A memory node's op in a station replaced, or removed when nothing is left of it. -/
def Station.setNodeOp (st : Station) (i : Nat) (op : NodeOp) : Station :=
  { st with nodeOps :=
      if op.todo = [] ∧ op.vals = [] then listRemove i st.nodeOps else listModify (fun _ => op) i st.nodeOps }

/-- One access of a pair performed, or its fault (R420). -/
def State.nodePerform (s : State) (n i : Nat) (c : Ctx) (h : Head) (k : NodeKind) (ty : Fmt) (f : NodeF) (op : NodeOp)
    (off : Nat) : State :=
  let p := op.pair
  let L := lvlOf h
  let lid := c.lid.getD 0
  let ctx := (c.tag).getD 0
  let op1 := { op with todo := op.todo.filter (· ≠ off) }
  match s.nodePlace n ctx k ty f p.left off with
  | .error e =>
    let op2 := { op1 with main := op1.main.filter (· ≠ off) }
    let (op3, t) := s.nodeFault n c h op2 [(off, e.cls, e.addr, e.detail)]
    t.setStn n ((t.stn n).setNodeOp i op3)
  | .ok l =>
    let ak := nodeKey n p.slot
    let (v, t) := (s.setKnow ak (s.arcKnow lid f p L off)).nodeAccess n ak k ty f l (p.right.val off)
    let kn := t.knows ak
    let t := t.setKnow ak {}
    let id := if t.nextW = s.nextW then none else some s.nextW
    let used := match arcNeed f p L off with
      | none => t.arcs
      | some tag => match t.arcFound lid f tag with | some a => t.arcs.erase a | none => t.arcs
    let arcs := if f.succ = 127 then used else used ++ [⟨lid, f.node, p.tagAt L off, kn⟩]
    ({ t with arcs }).setStn n ((t.stn n).setNodeOp i { op1 with vals := op1.vals ++ [(off, v, id)] })

/-- The result tokens of offsets off to off + m - 1. -/
def nodeTokens (h : Head) (k : NodeKind) (ty : Fmt) (p : Pair) (vals : List (Nat × Nat × Option Nat)) (off m : Nat) : List Token :=
  let L := lvlOf h
  let v (o : Nat) : Nat := ((vals.find? (·.1 == off + o)).map (·.2.1)).getD 0
  match k with
  | .store | .famo => [runTok .uint32 L (setTagFld p.tag L (p.base + off)) m 0]
  | _ => shapeToks ty (if p.left.shape = .scalar then .scalar else .dense) L p.tag (p.base + off) m 0 v

/-- The results that may be sent: the offsets no arc held, all together in ascending pieces, or one that an arc held; each once
its write is performed within the node's scope (R110, R247). -/
def State.nodeSend (s : State) (n i : Nat) (c : Ctx) (h : Head) (k : NodeKind) (ty : Fmt) (f : NodeF) (op : NodeOp) : State :=
  let p := op.pair
  let ok (x : Nat × Nat × Option Nat) : Bool := match x.2.2 with
    | some id => !(scopeDev f.scope && s.pending id)
    | none => true
  let ready := op.vals.filter ok
  let has (o : Nat) : Bool := ready.any (·.1 == o)
  let send (t : State) (off m : Nat) : State := t.emit n c p h true true (nodeTokens h k ty p op.vals off m)
  if op.main ≠ [] then
    if op.main.all has then
      let s1 := (piecesOf op.main p.n).foldl (fun t (off, m) => send t off m) s
      s1.setStn n ((s1.stn n).setNodeOp i { op with main := [], vals := op.vals.filter fun x => !op.main.contains x.1 })
    else s
  else
    match ready with
    | [] => s
    | x :: _ => let s1 := send s x.1 1; s1.setStn n ((s1.stn n).setNodeOp i { op with vals := op.vals.filter (·.1 ≠ x.1) })

/-- A memory node's pair goes on: one of its accesses that may be performed is performed, in no fixed order (R109); when none
may, results that are due are sent. -/
def execMemoryNodeAccessPerformed (n i : Nat) (s : State) : Host.Outcome State Fault Refusal :=
  .next (match (s.stn n).nodeOps[i]? with
    | none => s
    | some op =>
      let c := (s.stn n).ctxs[op.pair.cx.val]
      match (c.instr op.pair.slot).bind nodeOf with
      | none => s
      | some (h, k, ty, f) =>
        match pick s.steps (op.todo.filter (s.nodeReady n (c.lid.getD 0) c k ty f (lvlOf h) op.pair)) with
        | some off => s.nodePerform n i c h k ty f op off
        | none => s.nodeSend n i c h k ty f op)

end Sys2Proof.Machine
end

