-- ==== Sys2Proof/Machine/TableState.lean ====
section
/-! DEFINITION. Sum tables and accumulator rows as station state (chapter 02, R141, R142, R377 to R379, R429): entries,
differences, updates, folds, ownership with its spills and restores, segment products. -/

namespace Sys2Proof.Machine

/-! ## A table's geometry and entries (R25 to R28) -/

/-- Columns. -/
def Table.cols (tb : Table) : Nat := 2 ^ tb.lgC

/-- M: the width of an entry. -/
def Table.width (tb : Table) : Nat := if tb.wide then 64 else 32

/-- Narrow entries of one entry. -/
def Table.step (tb : Table) : Nat := if tb.wide then 2 else 1

/-- Narrow entries that a table occupies (R26). -/
def Table.size (tb : Table) : Nat := tb.cols * (tb.ks + 1) * tb.step

/-- The narrow entry of T_c[i] (R28). -/
def Table.place (tb : Table) (c i : Nat) : Nat := tb.ebase + tb.step * (c * (tb.ks + 1) + i)

/-- Two tables share an entry of the table store. -/
def Table.overlaps (a b : Table) : Bool := decide (a.ebase < b.ebase + b.size ∧ b.ebase < a.ebase + a.size)

/-- Lsafe of a largest weight (R32). -/
def lsafeOf (w ks wmax : Nat) : Nat := if wmax = 0 then ks else (2 ^ (w - 1) - 1) / wmax

/-- T_c[i], unsigned. -/
def Station.ent (st : Station) (tb : Table) (c i : Nat) : Nat :=
  let k := tb.place c i
  let lo := (spGet 0 st.tstore k).toNat
  if tb.wide then lo + (spGet 0 st.tstore (k + 1)).toNat * 2 ^ 32 else lo

/-- A narrow entry of the table store written. -/
def Station.putNarrow (st : Station) (k : Nat) (v : Word) : Station := { st with tstore := spSet 0 st.tstore k v }

/-- T_c[i] written, modulo 2^M. -/
def Station.setEnt (st : Station) (tb : Table) (c i : Nat) (v : Int) : Station :=
  let x := trunc v tb.width
  let k := tb.place c i
  let st := st.putNarrow k (BitVec.ofNat 32 x)
  if tb.wide then st.putNarrow (k + 1) (BitVec.ofNat 32 (x / 2 ^ 32)) else st

/-- The listed deltas of a table's column at local indices [a, b) (R34). -/
def Station.kind (st : Station) (tb : Table) (c a b : Nat) : Int :=
  isum ((st.kindling.filter fun e => e.ctx == tb.ctx && e.t == tb.t && e.col == c && decide (a ≤ e.k ∧ e.k < b)).map (·.delta))

/-- D = wrap(T_c[b] - T_c[a] + kind(c, a, b), M) (R31, R34). -/
def Station.diff (st : Station) (tb : Table) (c a b : Nat) : Int :=
  wrap ((st.ent tb c b : Int) - st.ent tb c a + st.kind tb c a b) tb.width

/-- The table that a context holds under a number (R26). -/
def Station.table (st : Station) (ctx : Byte) (t : BitVec 2) : Option Table :=
  st.tables.find? fun tb => tb.ctx == ctx && tb.t == t

/-- A table's header, descriptor and pair state put in place of those it had. -/
def Station.putTable (st : Station) (tb : Table) : Station :=
  if (st.table tb.ctx tb.t).isSome then
    { st with tables := st.tables.map fun x => if x.ctx == tb.ctx && x.t == tb.t then tb else x }
  else { st with tables := st.tables ++ [tb] }

/-- A table and its kindling entries gone from a station. -/
def Station.dropTable (st : Station) (ctx : Byte) (t : BitVec 2) : Station :=
  { st with
    tables := st.tables.filter fun x => !(x.ctx == ctx && x.t == t)
    kindling := st.kindling.filter fun e => !(e.ctx == ctx && e.t == t) }

/-! ## Folds (R43, R44, R286, R287) -/

/-- The suffix add of one delta. -/
def Station.suffixAdd (st : Station) (tb : Table) (c k : Nat) (d : Int) : Station :=
  (range (k + 1) (tb.ks - k)).foldl (fun st i => st.setEnt tb c i (st.ent tb c i + d)) st

/-- The listed entries that p selects added to their tables and taken from the list. No flag, bitmap or write generation
changes. -/
def Station.foldList (st : Station) (p : Kind → Bool) : Station :=
  let st1 := (st.kindling.filter p).foldl (fun st e => match st.table e.ctx e.t with
    | some tb => st.suffixAdd tb e.col e.k e.delta
    | none => st) st
  { st1 with kindling := st.kindling.filter fun e => !p e }

/-- Zero flag and bitmap of a column, exact for its entries (R51, R377). -/
def Station.exactCol (st : Station) (tb : Table) (c : Nat) : ZFlag × Nat :=
  let zero := (range 1 tb.ks).all fun i => st.ent tb c i == 0
  let bits := (List.range tb.ks).foldl (fun m i => if wrap ((st.ent tb c (i + 1) : Int) - st.ent tb c i) tb.width = 0 then m else m + 2 ^ i) 0
  (if zero then .set else .clear, bits)

/-- A table folded: its listed entries, then every column's flag and bitmap, and the write generation (R287). -/
def Station.foldTable (st : Station) (ctx : Byte) (t : BitVec 2) : Station :=
  let st := st.foldList fun e => e.ctx == ctx && e.t == t
  match st.table ctx t with
  | none => st
  | some tb =>
    let cs := (List.range tb.cols).map (st.exactCol tb)
    st.putTable { tb with zflags := cs.map (·.1), bitmaps := cs.map (·.2), wgen := tb.wgen + 1 }

/-! ## Updates (R42, R43, R51, R285, R377) -/

/-- δ applied at column c and local index k of a table: TABLE-INDEX outside the table, TABLE-SPREAD for a weight that
leaves the range. The column's flag becomes clear, an invalid one too (R51; log entry 68). -/
def Station.update (st : Station) (tb : Table) (c k d : Int) (fold : Bool) : Except FI Station :=
  let badC := decide (c < 0 ∨ (tb.cols : Int) ≤ c)
  let badK := decide (k < 0 ∨ (tb.ks : Int) ≤ k)
  if badC || badK then .error { cls := cTableIndex, detail := b2n badC * 2 ^ 9 + b2n badK * 2 ^ 10 }
  else
    let c := c.toNat
    let k := k.toNat
    let w : Int := wrap ((st.ent tb c (k + 1) : Int) - st.ent tb c k) tb.width + st.kind tb c k (k + 1) + d
    if (2 ^ (tb.width - 1) - 1 : Nat) < w.natAbs then .error { cls := cTableSpread, detail := 2 ^ 8 + 2 ^ 10 }
    else
      let wmax := max tb.wmax w.natAbs
      let tb1 := { tb with
        wmax, lsafe := if tb.wmax < wmax then lsafeOf tb.width tb.ks wmax else tb.lsafe
        zflags := listModify (fun _ => .clear) c tb.zflags
        bitmaps := listModify (fun m => m ||| 2 ^ k) c tb.bitmaps
        wgen := tb.wgen + 1 }
      let st1 := st.putTable tb1
      if fold then .ok (st1.suffixAdd tb1 c k d)
      else
        let st2 := if st1.kindling.length < 16 then st1 else st1.foldList fun _ => true
        .ok { st2 with kindling := st2.kindling ++ [⟨tb.ctx, tb.t, c, k, d⟩] }

/-- Where a PUPD's coordinates lie in a table: column and local index (R289). -/
def Table.pupdPlace (tb : Table) (tr : Bool) (pos : Word) : Int × Int :=
  let n : Int := (fld pos.toNat 31 16 : Nat)
  let k : Int := (fld pos.toNat 15 0 : Nat)
  if tr then (k - tb.n0, n - tb.k0) else (n - tb.n0, k - tb.k0)

/-- A half of a PUPD applied to a table: the update, the table's generation and its journal (R46, R429). -/
def Station.pupdApply (st : Station) (tb : Table) (tr : Bool) (pos : Word) (d : Int) (fold : Bool) : Except FI Station := do
  let (c, k) := tb.pupdPlace tr pos
  let st1 ← st.update tb c k d fold
  match st1.table tb.ctx tb.t with
  | none => return st1
  | some t1 =>
    let g := t1.gen + 1
    return st1.putTable { t1 with gen := g, journal := (t1.journal ++ [(⟨g, pos, d⟩ : JEntry)]).drop (t1.journal.length + 1 - 4) }

/-! ## The pattern cache's view of a table (R279, R385) -/

/-- Entries of a table at generations other than its own dropped from its die's pattern cache. -/
def State.dropOld (s : State) (n : Nat) (ctx : Byte) (t : BitVec 2) : State :=
  let d := stnDie n
  match (s.stn n).table ctx t with
  | none => s
  | some tb =>
    let old (x : Slice) : Bool := x.stn == n && x.ctx == ctx && x.t == t && x.wgen != tb.wgen
    s.setDie d { s.die d with pcache := (s.die d).pcache.filter fun e => !old e.slice }

/-- A write generation that no entry or request of a table's identities at a station has had (R279, R386): later than g. -/
def State.freshGen (s : State) (n : Nat) (ctx : Byte) (t : BitVec 2) (g : Nat) : Nat :=
  let d := s.die (stnDie n)
  let ids := d.pcache.map (·.slice) ++ d.preq ++ d.pq
  (ids.filter fun x => x.stn == n && x.ctx == ctx && x.t == t).foldl (fun m x => max m x.wgen) g + 1

/-! ## Damaged words (R437) -/

/-- The words of the table store and descriptor that a use of a table reads, checked (R437 stores 0 and 4). -/
def State.tableCheck (s : State) (n : Nat) (tb : Table) : Option FI × State :=
  match s.sramRead (stnDie n) 0 n tb.ebase tb.size with
  | (some f, t) => (some f, t)
  | (none, t) => t.sramRead (stnDie n) 4 n (4 * tb.ctx.toNat + tb.t.toNat) 1

/-- A check of damaged words as a step that may fault. -/
def checked (r : Option FI × State) : Except FI State :=
  match r with
  | (some f, _) => .error f
  | (none, s) => .ok s

/-! ## Rows in a save area (R139, R141, R142) -/

/-- A row of a station. -/
def State.row (s : State) (n r : Nat) : Row := spGet {} (s.stn n).rows r

/-- A row replaced. -/
def State.setRow (s : State) (n r : Nat) (x : Row) : State := s.setStn n { s.stn n with rows := spInsert (s.stn n).rows r x }

/-- Number of a row among all rows, as the save area numbers it (R142). -/
def rowNum (n r : Nat) : Nat := n * 32 + r

/-- Where a row's cells lie in a save area. -/
def rowCellsOff (j : Nat) : Nat := 256 * j

/-- Where a row's E_acc lies. -/
def rowExpOff (j : Nat) : Nat := 2 ^ 29 + 8 * j

/-- A displaced row written to its owner's save area by the station's collier, for a launch (R142 step 1). A damaged row cannot be read
(R437). -/
def State.spillRow (s : State) (n r : Nat) (lid : Option Nat) : Except FI State := do
  let x := s.row n r
  match x.owner with
  | none => return s
  | some o =>
    let s1 ← checked (s.sramRead (stnDie n) 1 n (32 * r) 32)
    let b ← s.saveBase o
    let j := rowNum n r
    let by_ := byCollier (stnDie n) lid
    let s2 := { (s1.countEntry o).setRow n r {} with spilledRows := (s1.spilledRows.filter (· ≠ (o, j))) ++ [(o, j)] }
    return (s2.writeRange (b + rowCellsOff j) (putMany (putB 8) x.cells.toList) 3 by_).writeRange (b + rowExpOff j) (putI 8 x.eacc) 2 by_

/-- Row r of station n filled for a context from the place of row number j in its save area, as an agent of die d reads it (R142 step
2); the place is cleared. -/
def State.fillRow (s : State) (n r : Nat) (ctx : Byte) (j : Nat) (d : Option (Fin 8)) : Except FI State := do
  let b ← s.saveBase ctx
  let cs ← s.readRange (b + rowCellsOff j) 256 3 d
  let e ← s.readRange (b + rowExpOff j) 8 2 d
  let s1 := ((s.countEntry ctx).countRange (b + rowCellsOff j) 256 3).countRange (b + rowExpOff j) 8 2
  let x : Row := {
    owner := some ctx
    eacc := sext (leValue e) 64
    cells := Vector.ofFn fun i => BitVec.ofNat 64 (leValue ((cs.drop (8 * i.val)).take 8)) }
  return ({ s1 with spilledRows := s1.spilledRows.filter (· ≠ (ctx, j)) }).setRow n r x

/-- A row given to a context: its owner's row is spilled, and the row filled from the context's save area when it spilled it
earlier, else with zeros (R142). -/
def State.takeRow (s : State) (n r : Nat) (ctx : Byte) (lid : Option Nat) : Except FI State := do
  if (s.row n r).owner = some ctx then return s
  let s1 ← s.spillRow n r lid
  if s.spilledRows.contains (ctx, rowNum n r) then s1.fillRow n r ctx (rowNum n r) (some (stnDie n))
  else return s1.setRow n r { owner := some ctx }

/-! ## Tables in a save area (R139, R141, R142) -/

/-- Where a station's table entries lie in a save area (R139). -/
def tableSaveOff (n : Nat) : Nat := 2 ^ 31 + 32768 * n

/-- Where a station's table state lies in a save area (R139). -/
def tableStateOff (n : Nat) : Nat := 2 ^ 30 + 2 ^ 20 + 4096 * n

/-- A context's table of a number has been spilled at a station and not yet restored. -/
def State.isSpilled (s : State) (n : Nat) (ctx : Byte) (t : BitVec 2) : Bool := s.spilledTables.contains (ctx, n, t)

/-- A spilled table's place cleared. -/
def State.unspill (s : State) (n : Nat) (ctx : Byte) (t : BitVec 2) : State :=
  { s with spilledTables := s.spilledTables.filter (· ≠ (ctx, n, t)) }

/-- The state of a table that a context spilled at a station, with its kindling entries, as an agent of die d reads it. -/
def State.savedTable (s : State) (n : Nat) (ctx : Byte) (t : BitVec 2) (d : Option (Fin 8)) : Except FI (Table × List Kind) := do
  let b ← s.saveBase ctx
  let bs ← s.readRange (b + tableStateOff n) 4096 33 d
  let (tb, _) := getTableState ctx t (leValue (bs.drop tableBitsAt)) (bs.drop (tableStateAt t))
  return (tb, (groups 16 16 (bs.drop (tableKindAt t))).filterMap (kindOf ctx t))

/-- A table's state and kindling entries written to the 4 KiB of its station by the station's collier. -/
def State.saveTableState (s : State) (n : Nat) (tb : Table) (ks : List Kind) (lid : Option Nat) : Except FI State := do
  let at_ := (← s.saveBase tb.ctx) + tableStateOff n
  let by_ := byCollier (stnDie n) lid
  let bits ← s.readRange (at_ + tableBitsAt) 1024 9 (some (stnDie n))
  let s1 := ((s.countEntry tb.ctx).countRange (at_ + tableBitsAt) 1024 9).writeRange (at_ + tableStateAt tb.t) (putTableState tb) 5 by_
  let s2 := s1.writeRange (at_ + tableKindAt tb.t) (padTo 256 (putMany putKind ks)) 3 by_
  return s2.writeRange (at_ + tableBitsAt) (leBytes 1024 (putBits tb (leValue bits))) 9 by_

/-- A table written to its owner's save area with its kindling entries, by the station's collier for a launch (R142 step 1). A damaged
table cannot be read (R437). -/
def State.spillTable (s : State) (n : Nat) (tb : Table) (lid : Option Nat) : Except FI State := do
  let s1 ← checked (s.tableCheck n tb)
  let st := s1.stn n
  let ks := st.kindling.filter fun e => e.ctx == tb.ctx && e.t == tb.t
  let s2 := { s1.setStn n (st.dropTable tb.ctx tb.t) with spilledTables := (s1.unspill n tb.ctx tb.t).spilledTables ++ [(tb.ctx, n, tb.t)] }
  let s3 ← s2.saveTableState n tb ks lid
  let bs := putMany (fun k => putB 4 (spGet 0 st.tstore k)) (range tb.ebase tb.size)
  return s3.writeRange ((← s.saveBase tb.ctx) + tableSaveOff n + 4 * tb.ebase) bs (bs.length / 128 + 2) (byCollier (stnDie n) lid)

/-- A table that has to leave a station before table t of a context stands on [lo, hi) of the store: it lies there, or it is another
context's table of that number (R17, R26, R141; log entry 69). -/
def Table.inWay (x : Table) (ctx : Byte) (t : BitVec 2) (lo hi : Nat) : Bool :=
  !(x.ctx == ctx && x.t == t) && ((decide (x.ebase < hi) && decide (lo < x.ebase + x.size)) || x.t == t)

/-- Those tables spilled. -/
def State.makeRoom (s : State) (n : Nat) (ctx : Byte) (t : BitVec 2) (lo hi : Nat) (lid : Option Nat) : Except FI State :=
  ((s.stn n).tables.filter (·.inWay ctx t lo hi)).foldlM (fun (s : State) x => s.spillTable n x lid) s

/-- A spilled table brought into station n from the save area of the station it stood at (R140, R142 step 2). At another station it has a
write generation of its own there (R386; log entry 70). -/
def State.restoreTableTo (s : State) (n from_ : Nat) (ctx : Byte) (t : BitVec 2) (lid : Option Nat) : Except FI State := do
  if !s.isSpilled from_ ctx t then return s
  let d := if from_ = n then some (stnDie n) else none
  let (tb, ks) ← s.savedTable from_ ctx t d
  let s1 ← (s.unspill from_ ctx t).makeRoom n ctx t tb.ebase (tb.ebase + tb.size) lid
  let b ← s1.saveBase ctx
  let at_ := b + tableSaveOff from_ + 4 * tb.ebase
  let bs ← s1.readRange at_ (4 * tb.size) (tb.size / 32 + 2) d
  let s2 := ((s1.countEntry ctx).countRange (b + tableStateOff from_) 4096 33).countRange at_ (4 * tb.size) (tb.size / 32 + 2)
  let tb := if from_ = n then tb else { tb with wgen := s2.freshGen n ctx t tb.wgen }
  let st := (s2.stn n).dropTable ctx t
  let st := ((groups 4 tb.size bs).zip (range tb.ebase tb.size)).foldl (fun st (g, k) => st.putNarrow k (BitVec.ofNat 32 (leValue g))) st
  let st := st.putTable tb
  let st := if st.kindling.length + ks.length ≤ 16 then st else st.foldList fun _ => true
  return (s2.setStn n { st with kindling := st.kindling ++ ks }).dropOld n ctx t

/-- A spilled table brought back where it stood. -/
def State.restoreTable (s : State) (n : Nat) (ctx : Byte) (t : BitVec 2) (lid : Option Nat) : Except FI State :=
  s.restoreTableTo n n ctx t lid

/-! ## Ownership events (R141) -/

/-- An ownership event waits at the collier of a station for the pair at its head. -/
def State.raiseOwn (s : State) (n : Nat) : State := s.setStn n { s.stn n with own := true }

/-- An ownership event for something else than the pair at the head. -/
def State.askOwn (s : State) (n : Nat) (w : Want) : State :=
  let st := s.stn n
  s.setStn n { st with own := true, want := if st.want.contains w then st.want else st.want ++ [w] }

/-- The launch that a context of a station serves. -/
def State.lidAt (s : State) (n : Nat) (ctx : Byte) : Option Nat :=
  ((s.stn n).ctxs.toList.find? fun c => c.tag == some ctx).bind (·.lid)

/-! ## Reaching a table or a row from a pair -/

/-- A build or fold of a table is in progress (R44, R284). -/
def Station.busy (st : Station) (ctx : Byte) (t : BitVec 2) : Bool :=
  st.bg.any fun b => b.kind != .pupd && b.ctx == ctx && b.t == t

/-- A pair's use of its context's table t: it waits while the table is built or folded and for the collier when the table
was spilled; missing is the fault when there is none, first a fault found before anything of the table is read. orig is the state with the
pair at the head. -/
def withTable (orig s : State) (n : Nat) (ctx : Byte) (p : Pair) (t : BitVec 2) (missing : FI) (first : Table → Option FI)
    (k : State → Table → StnOut) : StnOut :=
  if (s.stn n).busy ctx t then .wait orig
  else match (s.stn n).table ctx t with
    | some tb =>
      match first tb with
      | some f => pairFault s p f
      | none => match s.tableCheck n tb with
        | (some f, t) => pairFault t p f
        | (none, s1) => k s1 tb
    | none => if s.isSpilled n ctx t then .wait (orig.raiseOwn n) else pairFault s p missing

/-- TABLE-GEOMETRY (Table 23-1). -/
def geometry (why : Nat) : FI := { cls := cTableGeometry, detail := why }

/-- A use of table t that must have a width (R272). -/
def withWidth (orig s : State) (n : Nat) (ctx : Byte) (p : Pair) (t : BitVec 2) (wide : Bool) (first : Table → Option FI)
    (k : State → Table → StnOut) : StnOut :=
  withTable orig s n ctx p t (geometry 0) first fun s tb =>
    if tb.wide = wide then k s tb else pairFault s p (geometry 1)

/-- Nothing is to be found before the table is read. -/
def noneFirst (_ : Table) : Option FI := none

/-- The pair of a table is divergent (R431): its generations differ, with no message outstanding. -/
def divergent (tb : Table) : Option FI :=
  if tb.bind.isSome && tb.gen != tb.pgen && tb.msgs == 0 then some { cls := cPair, detail := 1 } else none

/-- The row that a pair selects (R272). -/
def rowOf (p : Pair) (rsel : BitVec 3) (row : BitVec 5) : Nat :=
  if rsel = 0 then row.toNat else (row.toNat + tagFld p.tag rsel.toNat) % 32

/-- A pair's use of a row: it waits for the collier unless its context owns the row (R141). A row that is filled anew is
not read (R437 store 1). -/
def withRow (orig s : State) (n : Nat) (ctx : Byte) (p : Pair) (r : Nat) (fill : Bool) (k : State → Row → StnOut) : StnOut :=
  let x := s.row n r
  if x.owner ≠ some ctx then .wait (orig.raiseOwn n)
  else if fill then k (s.sramWrite 1 n (32 * r) 32) x
  else match s.sramRead (stnDie n) 1 n (32 * r) 32 with
    | (some f, t) => pairFault t p f
    | (none, t) => k t x

/-! ## Products (R34, R40) -/

/-- A product entered in a cell: rounded once when its scale is negative, and whether that was inexact. -/
def addCell (cell : DWord) (p s : Int) : DWord × Bool :=
  let (q, ix) := if 0 ≤ s then (p * 2 ^ s.toNat, false) else roundInt (Exact.ofInt p s) .rne
  (BitVec.ofInt 64 (cell.toInt + q), ix)

/-- A product added to column c of a row. -/
def Row.add (x : Row) (c : Nat) (p s : Int) : Row × Bool :=
  let (v, ix) := addCell (x.cells.toList.getD c 0) p s
  ({ x with cells := x.cells.setIfInBounds c v }, ix)

/-- Products added to several columns, each by its column. -/
def Row.addAll (x : Row) (s : Int) (ps : List (Nat × Int)) : Row × Bool :=
  ps.foldl (fun (x, ix) (c, p) => let (y, i) := x.add c p s; (y, ix || i)) (x, false)

/-- Columns that are computed: every one whose zero flag is not set (R50). -/
def Table.live (tb : Table) : List Nat := (List.range tb.cols).filter fun c => tb.zflags.getD c .invalid != .set

/-- The pieces of a segment [a, b): Lsafe indices each from the low end (R33); fuel bounds them. -/
def pieces (lsafe : Nat) : Nat → Nat → Nat → List (Nat × Nat)
  | 0, _, _ => []
  | f + 1, a, b => if b ≤ a then [] else (a, min (a + lsafe) b) :: pieces lsafe f (min (a + lsafe) b) b

/-- SGP on the segment [a, b) for a run of value v (R34). -/
def sgpRow (st : Station) (tb : Table) (x : Row) (s v : Int) (a b : Nat) : Row × Bool :=
  (pieces tb.lsafe (b - a + 1) a b).foldl (fun (x, ix) (lo, hi) =>
    let (y, i) := x.addAll s (tb.live.map fun c => (c, v * st.diff tb c lo hi))
    (y, ix || i)) (x, false)

/-- DMAC's exact dot product of column c over local indices [a, b), for the values xs by local index (R40). -/
def dotCol (st : Station) (tb : Table) (xs : Nat → Int) (c a b : Nat) : Int :=
  isum ((range a (b - a)).map fun i => xs i * st.diff tb c i (i + 1))

/-! ## Slices and micro-programs (R278 to R280, R379 to R381) -/

/-- Indices of slice j of a table. -/
def sliceLen (tb : Table) (j : Nat) : Nat := min 32 (tb.ks - 32 * j)

/-- Bit i of a column's bitmap. -/
def Table.bit (tb : Table) (c i : Nat) : Bool := bitOf (tb.bitmaps.getD c 0) i

/-- nz of R379: set bits of a slice over the columns whose zero flag is not set. -/
def sliceNz (tb : Table) (j : Nat) : Nat :=
  (tb.live.map fun c => ((range (32 * j) (sliceLen tb j)).filter (tb.bit c)).length).sum

/-- The slice's density is below 5/8, and some column is computed. -/
def sliceSparse (tb : Table) (j : Nat) : Bool :=
  tb.live != [] && decide (8 * sliceNz tb j < 5 * (sliceLen tb j * tb.live.length))

/-- The micro-program of a slice (R380). -/
def sliceProg (tb : Table) (j : Nat) : List MicroOp :=
  let idx := range (32 * j) (sliceLen tb j)
  let gathers := (idx.filter fun i => tb.live.any fun c => tb.bit c i).map MicroOp.gather
  let cols := tb.live.filter fun c => idx.any (tb.bit c)
  gathers ++ (cols.map fun c => (idx.filter (tb.bit c)).map (MicroOp.mac c) ++ [.emit c]).flatten ++ [.done]

/-- What the compiler stores for a slice: its program, or a marker above 256 micro-ops (R381). -/
def compileSlice (tb : Table) (j : Nat) : Prog :=
  let p := sliceProg tb j
  if p.length ≤ 256 then .prog p else .marker

/-- A micro-program run over a token's values (0 at indices it does not cover): P of each column that it emits (R380). The
latches are the values themselves, and p is the sum of the column in progress. -/
def runProg (st : Station) (tb : Table) (xs : Nat → Int) : Int → List MicroOp → List (Nat × Int)
  | _, [] => []
  | p, .gather _ :: l => runProg st tb xs p l
  | p, .mac c i :: l => runProg st tb xs (p + xs i * st.diff tb c i (i + 1)) l
  | p, .emit c :: l => (c, p) :: runProg st tb xs 0 l
  | _, .done :: _ => []

end Sys2Proof.Machine
end

