-- ==== Sys2Proof/Machine/Tables.lean ====
section
/-! DEFINITION. Station instructions 0x40 to 0x4F: runs, segment products, the direct and sparse paths, intersections, tables,
pairs and accumulator rows, with the events that complete them (R271 to R297, R427 to R431). -/

namespace Sys2Proof.Machine

/-! ## Activation values -/

/-- Mantissa width of an activation type (R275). -/
def actWidth (ty : Fmt) : Nat := ((fmtBsi ty).getD (slotInt ty).1)

/-- The value at an offset, signed. -/
def Token.mant (t : Token) (off : Nat) : Int := sext (t.val off) (actWidth t.ty)

/-- E_v: the exponent of a block-scaled token, 0 for an integer one (R275). -/
def Token.actExp (t : Token) : Int := if (fmtBsi t.ty).isSome then (t.exp.toNat : Int) - 127 else 0

/-! ## SEGT (R38, R273, R274) -/

/-- The end of the run that starts at i. -/
def segStop (x : Nat → Int) (tau lmax n : Nat) (brk : Nat → Bool) (i : Nat) : Nat → Nat → Nat
  | 0, j => j
  | f + 1, j =>
    if decide (j < n) && decide ((x j - x i).natAbs ≤ tau) && decide (j - i < lmax) && !brk j then
      segStop x tau lmax n brk i f (j + 1)
    else j

/-- Pieces emitted so far (true for a run; offset; length), and the dense elements pending: first offset and count. -/
abbrev SegOut := List (Bool × Nat × Nat) × Nat × Nat

/-- The pending elements emitted, if any. -/
def segFlush (o : SegOut) : SegOut := (if o.2.2 = 0 then o.1 else o.1 ++ [(false, o.2.1, o.2.2)], 0, 0)

/-- An element appended to the pending ones, emitted at 32. -/
def segAdd (o : SegOut) (k : Nat) : SegOut :=
  let o1 : SegOut := (o.1, if o.2.2 = 0 then k else o.2.1, o.2.2 + 1)
  if o1.2.2 = 32 then segFlush o1 else o1

/-- The loop of R38 from offset i. -/
def segGo (x : Nat → Int) (tau mu lmax n : Nat) (brk : Nat → Bool) : Nat → Nat → SegOut → SegOut
  | 0, _, o => o
  | f + 1, i, o =>
    if n ≤ i then o
    else
      let j := segStop x tau lmax n brk i n (i + 1)
      let o := if mu ≤ j - i then ((segFlush o).1 ++ [(true, i, j - i)], 0, 0) else (range i (j - i)).foldl segAdd o
      segGo x tau mu lmax n brk f j (if brk j then segFlush o else o)

/-- A run input cut at multiples of kr and into pieces of at most lmax (R274). -/
def segRun (b n kr lmax mu : Nat) : Nat → Nat → List (Bool × Nat × Nat)
  | 0, _ => []
  | f + 1, off =>
    if n ≤ off then []
    else
      let m := min (min lmax (n - off)) (if kr = 0 then n else kr - (b + off) % kr)
      (decide (mu ≤ m), off, m) :: segRun b n kr lmax mu f (off + m)

/-- The pieces that SEGT makes of a token. -/
def segPieces (t : Token) (mu tau kr lmax : Nat) : List (Bool × Nat × Nat) :=
  if t.shape = .run then segRun t.base t.n kr lmax mu (t.n + 1) 0
  else
    let brk (j : Nat) : Bool := j == t.n || (kr != 0 && (t.base + j) % kr == 0)
    (segGo t.mant tau mu lmax t.n brk (t.n + 1) 0 ([], 0, 0)).1

/-- SEGT: runs to dest0, dense tokens to dest1. -/
def execSegt (h : Head) (ty : Fmt) (mu : BitVec 5) (tau : BitVec 8) (kr lmax : BitVec 16) (s : State) :
    Host.Outcome State Fault Refusal :=
  fire h s fun s n c p =>
    let l := p.left
    let L := lvlOf h
    valueTypes s p ty [l] (.done (
      (segPieces l (mu.toNat + 1) tau.toNat kr.toNat (lmax.toNat + 1)).foldl (fun s (run, off, m) =>
        if run then s.emit n c p h true false [runTok ty L (setTagFld p.tag L (p.base + off)) m (l.val off) l.exp]
        else s.emit n c p h false true
          (denseToks ty L p.tag l.exp (m + 1) (p.base + off) ((range off m).map l.val))) s))

/-! ## Segment products, the direct path, the sparse path (R275 to R280) -/

/-- Forwarding of R276: the whole token along N, the part above the table's range along K. -/
def forward (s : State) (n : Nat) (c : Ctx) (p : Pair) (h : Head) (tb : Table) : State :=
  let top := tb.k0 + tb.ks
  let s1 := s.emit n c p h true false [p.left]
  if top < p.base + p.n then
    let off := top - p.base
    s1.emit n c p h false true [p.left.sub off (p.n - off)]
  else s1

/-- The overlap of a pair with a table's range, as local indices [a, b) (R276). -/
def overlapOf (p : Pair) (tb : Table) : Nat × Nat :=
  (max p.base tb.k0 - tb.k0, min (p.base + p.n) (tb.k0 + tb.ks) - tb.k0)

/-- SGP, DMAC and SPMC alike: the type, the shape, the divergence of a pair (R431), the table with its width, the row; then the products
that f gives for the segment [a, b), the inexact flag, and the forwarded tokens. stop gives the local index where the firing stops, the
rest of the pair going back to the head of the issue queue (Table 05-9). -/
def product (h : Head) (ty : Fmt) (r : RowSel) (wide : Bool) (shapes : List Shape) (stop : Table → Nat → Nat → Nat) (orig : State)
    (f : State → Nat → Table → Row → (Nat → Int) → Int → Nat → Nat → Row × Bool × State) :
    Host.Outcome State Fault Refusal :=
  fire h orig fun s n c p =>
    let l := p.left
    let ctx := (c.tag).getD 0
    valueTypes s p ty [l] (
      if !shapes.contains l.shape then pairFault s p { cls := cShape }
      else withWidth orig s n ctx p r.t wide divergent fun s tb =>
        let (a, b) := overlapOf p tb
        if b ≤ a ∨ tb.ks ≤ a then .done (forward s n c p h tb)
        else
          let k := rowOf p r.rsel r.row
          withRow orig s n ctx p k false fun s x =>
            let xs (i : Nat) : Int :=
              if tb.k0 + i < p.base ∨ p.base + p.n ≤ tb.k0 + i then 0 else l.mant (tb.k0 + i - p.base)
            let z := stop tb a b
            let (y, ix, s1) := f s n tb x xs (l.actExp + tb.et - x.eacc) a z
            let s2 := (s1.setRow n k y).stnFlags n p.cx (flagIf ix fNX)
            if z = b then .done (forward s2 n c p h tb)
            else
              let off := tb.k0 + z - p.base
              let st := s2.stn n
              .done (forward (s2.setStn n { st with issueq := p.from_ (lvlOf h) off :: st.issueq }) n c (p.upto off) h tb))

/-- The end of a segment: no stop before it. -/
def wholeSeg (_ : Table) (_ b : Nat) : Nat := b

/-- The end of the k-th piece of a segment under R33, when the firing stops there (Table 05-9). -/
def State.pieceStop (s : State) (tb : Table) (a b : Nat) : Nat :=
  match s.cut with
  | some k => if 0 < k ∧ a + k * tb.lsafe < b ∧ a < a + k * tb.lsafe then a + k * tb.lsafe else b
  | none => b

/-- SGP: one product for each piece of R33. -/
def sgp (h : Head) (ty : Fmt) (r : RowSel) (wide : Bool) (s : State) : Host.Outcome State Fault Refusal :=
  product h ty r wide [.run, .scalar] s.pieceStop s fun s n tb x xs e a b =>
    let (y, ix) := sgpRow (s.stn n) tb x e (xs a) a b
    (y, ix, s)

/-- DMAC: one exact dot product for each column, rounded once. -/
def dmac (h : Head) (ty : Fmt) (r : RowSel) (wide : Bool) (s : State) : Host.Outcome State Fault Refusal :=
  product h ty r wide [.dense, .scalar] wholeSeg s fun s n tb x xs e a b =>
    let (y, ix) := x.addAll e (tb.live.map fun c => (c, dotCol (s.stn n) tb xs c a b))
    (y, ix, s)

/-- SGP.n32. -/
def execSgpN32 (h : Head) (ty : Fmt) (r : RowSel) (s : State) : Host.Outcome State Fault Refusal := sgp h ty r false s

/-- SGP.n64. -/
def execSgpN64 (h : Head) (ty : Fmt) (r : RowSel) (s : State) : Host.Outcome State Fault Refusal := sgp h ty r true s

/-- DMAC.n32. -/
def execDmacN32 (h : Head) (ty : Fmt) (r : RowSel) (s : State) : Host.Outcome State Fault Refusal := dmac h ty r false s

/-- DMAC.n64. -/
def execDmacN64 (h : Head) (ty : Fmt) (r : RowSel) (s : State) : Host.Outcome State Fault Refusal := dmac h ty r true s

/-- SPMC's path for one slice (R279, R382 to R384): the columns' sums over the part [a, b) of it, by its program when that is
ready, else as DMAC with a request when none stands under the identity. A program or marker that it meets counts as used; a corrupt program
is dropped (R384, R438). -/
def slicePath (s : State) (n : Nat) (tb : Table) (xs : Nat → Int) (a b j : Nat) : List (Nat × Int) × State :=
  let st := s.stn n
  let d := stnDie n
  let id : Slice := ⟨n, tb.ctx, tb.t, j, tb.wgen⟩
  let direct := tb.live.map fun c => (c, dotCol st tb xs c (max a (32 * j)) (min b (32 * j + sliceLen tb j)))
  let used := s.setDie d { s.die d with
    pcache := (s.die d).pcache.map fun e => if e.slice == id then { e with used := s.steps } else e }
  match (s.die d).pcache.find? (·.slice == id) with
  | some ⟨_, .prog ops, _, false⟩ => (runProg st tb xs 0 ops, used)
  | some ⟨_, .prog _, _, true⟩ =>
    (direct, (s.setDie d { s.die d with pcache := (s.die d).pcache.filter fun e => !(e.slice == id) }).countEcc d 0 1)
  | some ⟨_, .marker, _, _⟩ => (direct, used)
  | some ⟨_, .pending, _, _⟩ => (direct, s)
  | none => (direct, if sliceSparse tb j then s.setDie d { s.die d with preq := (s.die d).preq ++ [id] } else s)

/-- SPMC: slice by slice in ascending order; P enters a cell once per column and token, as with DMAC (R278, R280). -/
def execSpmc (h : Head) (ty : Fmt) (wide : Bool) (r : RowSel) (s : State) : Host.Outcome State Fault Refusal :=
  product h ty r wide [.dense, .scalar] wholeSeg s fun s n tb x xs e a b =>
    let (ps, s1) := (range (a / 32) (ceilDiv b 32 - a / 32)).foldl (fun (r : List (Nat × Int) × State) j =>
      let (q, t) := slicePath r.2 n tb xs a b j
      (r.1 ++ q, t)) ([], s)
    let total := tb.live.map fun c => (c, isum ((ps.filter (·.1 == c)).map (·.2)))
    let (y, ix) := x.addAll e total
    (y, ix, s1)

/-! ## ISECT (R281) -/

/-- The places of the set bits of a 32-bit word, ascending. -/
def setBits (m : Nat) : List Nat := (List.range 32).filter (bitOf m)

/-- ISECT: for each index, the offsets and positions of the common bits, one level down. -/
def execIsect (h : Head) (fn : BitVec 4) (s : State) : Host.Outcome State Fault Refusal :=
  fire h s fun s n c p =>
    let l := p.left
    let r := p.right
    let L := lvlOf h
    typesOk s p (l.ty == .int64 && r.ty == .int64) (.done (
      (List.range p.n).foldl (fun s i =>
        let j := p.base + i
        let a := l.val i % 2 ^ 32
        let b := r.val i % 2 ^ 32
        let ps := setBits (a &&& b)
        let offs (w v : Nat) := ps.map fun q => (v / 2 ^ 32 + popcount q w) % 2 ^ 32
        let oa := offs a (l.val i)
        let ob := offs b (r.val i)
        let pos := ps.map fun q => (32 * j + q) % 2 ^ 32
        let toks (vs : List Nat) := denseToks .uint32 (L + 1) (setTagFld p.tag L j) 0 2 0 vs
        let s1 := s.emitRaw n c p h true false (toks (if fn = 2 then pos else oa))
        s1.emitRaw n c p h false true (toks (if fn = 1 then pos else ob))) s))

/-! ## TBLD (R282 to R284, R296, R427) -/

/-- Steps of a build: reads of the engine domain, each of which may fault. -/
abbrev Build := StateT State (Except FI)

/-- n bytes at an address, aligned, in the die's view. -/
def buildRead (n : Nat) (ctx : Byte) (A k align : Nat) : Build (List Byte) := fun s => do
  let l ← s.access (nodeWho n ctx) A k align false
  return (s.view (stnDie n).val l k, s.correct (stnDie n) l k)

/-- k lines of 128 bytes from an address. -/
def buildLines (n : Nat) (ctx : Byte) : Nat → Nat → Build (List Byte)
  | 0, _ => return []
  | k + 1, A => do
    let a ← buildRead n ctx A 128 128
    let b ← buildLines n ctx k (A + 128)
    return a ++ b

/-- The leaf index of row and column leaves: their bits interleaved, the column's first (R165). -/
def leafIndex (ln lk : Nat) : Nat :=
  (List.range 3).foldl (fun m i => m + b2n (bitOf lk i) * 2 ^ (2 * i) + b2n (bitOf ln i) * 2 ^ (2 * i + 1)) 0

/-- The place of element (n, k) of a tile among its elements (R165). -/
def tilePlace (n k : Nat) : Nat := 16 * leafIndex (fld n 4 2) (fld k 4 2) + 4 * (n % 4) + k % 4

/-- b bits at bit position q of bytes. -/
def bitsAt (bs : List Byte) (q b : Nat) : Nat := leValue ((bs.drop (q / 8)).take 3) / 2 ^ (q % 8) % 2 ^ b

/-- The fields of a table descriptor and its layout word (Tables 12-3, 06-5). -/
structure TDesc where
  lw : Nat
  k0 : Nat
  n0 : Nat
  ks : Nat
  ebase : Nat
  lgC : Nat
  wide : Bool
  fixe : Bool
  etv : Nat
  reserved : Bool
  deriving DecidableEq, Repr

/-- A descriptor's 256 bits (Table 12-3). -/
def tdesc (d : Nat) : TDesc :=
  ⟨fld d 127 72, fld d 71 56, fld d 55 40, fld d 39 27, fld d 26 14, fld d 13 11, bitOf d 10, bitOf d 9, fld d 8 1,
    decide (fld d 255 128 ≠ 0 ∨ bitOf d 0 = true ∨ 5 < fld d 13 11)⟩

/-- A tile's mantissas and exponents. -/
structure Tile where
  num : Nat
  mant : List Byte
  exps : List Byte
  deriving DecidableEq, Repr

/-- An element's mantissa and block exponent; an E2M1B code becomes BSI8 (R64). -/
def tileElem (e2m1 : Bool) (b : Nat) (t : Tile) (n k : Nat) : Except FI (Int × Int) :=
  let v := bitsAt t.mant (tilePlace n k * b) b
  let e := ((t.exps.getD n 0).toNat : Int)
  if e2m1 then
    if e = 0 then .error { cls := cFormat, detail := e2m1Detail }
    else match decodeF .e2m1 v false with
      | .num x => .ok ((x.scale 1).at 0, e - 1 - 127)
      | _ => .ok (0, e - 1 - 127)
  else .ok (sext v b, e - 127)

/-- The element width of a layout word's format, and whether it is E2M1B (R164). -/
def layoutFmt (code : Nat) : Option (Nat × Bool) :=
  if code = 0x10 then some (4, true)
  else match (fmtOfCode code).bind fmtBsi with
    | some b => some (b, false)
    | none => none

/-- A table built and its entries, before they enter the station. -/
structure Built where
  tb : Table
  ents : List (List Nat)
  deriving DecidableEq, Repr

/-- The entries T[0] to T[Ks] of a column of weights (R25). -/
def prefixSums (w : Nat) (t : Nat) : List Int → List Nat
  | [] => [t]
  | x :: xs => t :: prefixSums w (trunc ((t : Int) + x) w) xs

/-- The table that a descriptor at an address describes (R283), for a station's context. A layout word whose format is emulated raises
FORMAT (R60, R164; log entry 71); an extent over another table of the context raises TABLE-GEOMETRY, a spilled one too (R26; log entry
72). -/
def buildTable (n : Nat) (ctx : Byte) (t : BitVec 2) (A : Nat) : Build Built := do
  let d := tdesc (leValue (← buildRead n ctx A 32 32))
  if d.reserved then throw (geometry 4)
  if d.ks = 0 then throw (geometry 2)
  if d.wide && d.ebase % 2 == 1 then throw (geometry 5)
  let lay := leValue (← buildRead n ctx d.lw 32 32)
  let some (b, e2m1) := layoutFmt (fld lay 5 0) | throw { cls := cFormat, detail := fld lay 5 0 }
  let tr := bitOf lay 8
  let tk := fld lay 183 168 + 1
  let vn := 32 * (fld lay 199 184 + 1)
  let vk := 32 * tk
  let C := 2 ^ d.lgC
  if d.n0 + C > (if tr then vk else vn) ∨ d.k0 + d.ks > (if tr then vn else vk) then throw (geometry 3)
  let mbase := fld lay 111 56
  let ebase := fld lay 167 112
  if mbase % 128 ≠ 0 then throw { cls := cAlign, addr := mbase }
  if ebase % 32 ≠ 0 then throw { cls := cAlign, addr := ebase }
  -- stored coordinates of an element of the view (R166)
  let at_ (c i : Nat) : Nat × Nat := if tr then (d.k0 + i, d.n0 + c) else (d.n0 + c, d.k0 + i)
  let tileOf (c i : Nat) : Nat := let (sn, sk) := at_ c i; sn / 32 * tk + sk / 32
  let nums := (range (d.n0 / 32) ((d.n0 + C - 1) / 32 + 1 - d.n0 / 32)).map (fun x =>
    (range (d.k0 / 32) ((d.k0 + d.ks - 1) / 32 + 1 - d.k0 / 32)).map fun y => if tr then y * tk + x else x * tk + y)
  let tiles ← nums.flatten.mapM fun x => do
    return (⟨x, ← buildLines n ctx b (mbase + 128 * b * x), ← buildRead n ctx (ebase + 32 * x) 32 32⟩ : Tile)
  let elem (c i : Nat) : Except FI (Int × Int) :=
    let (sn, sk) := at_ c i
    match tiles.find? (·.num == tileOf c i) with
    | some tl => tileElem e2m1 b tl (sn % 32) (sk % 32)
    | none => .ok (0, 0)
  let raw ← (List.range C).mapM fun c => (List.range d.ks).mapM fun i => (elem c i : Except FI (Int × Int))
  -- the exponents that take part (R29)
  let es := (raw.flatten.filter (·.1 ≠ 0)).map (·.2)
  let lo := es.foldl min (es.headD 0)
  let hi := es.foldl max (es.headD 0)
  let ET : Int := if d.fixe then (d.etv : Int) - 127 else if es = [] then 0 else lo
  let etv := decide (d.fixe ∧ es ≠ [] ∧ lo < ET)
  let spread := if es = [] then 0 else (hi - ET).toNat
  let M := if d.wide then 64 else 32
  let ws : List (List Int) := raw.map fun col => col.map fun (m, e) => m * 2 ^ (e - ET).toNat
  let wmax := ws.flatten.foldl (fun a x => max a x.natAbs) 0
  let big := decide (wmax > 2 ^ (M - 1) - 1)
  if etv || big || decide (spread > (if d.wide then 55 else 23)) then
    throw { cls := cTableSpread, detail := min spread 255 + b2n big * 2 ^ 8 + b2n etv * 2 ^ 9 }
  let s ← get
  let st := s.stn n
  let old ← match st.table ctx t with
    | some o => pure (some o)
    | none => if s.isSpilled n ctx t then (s.savedTable n ctx t (some (stnDie n))).map fun x => some x.1 else pure none
  let tb : Table := {
    ctx, t, lgC := d.lgC, ks := d.ks, wide := d.wide, k0 := d.k0, n0 := d.n0, ebase := d.ebase, et := ET, wmax
    lsafe := lsafeOf M d.ks wmax
    zflags := ws.map fun col => if col.all (· == 0) then .set else .clear
    bitmaps := ws.map fun col => ((List.range d.ks).zip col).foldl (fun m (i, x) => if x = 0 then m else m + 2 ^ i) 0
    wgen := s.freshGen n ctx t ((old.map fun o => o.wgen).getD 0)
    bind := none, gen := (old.map fun o => o.gen).getD 0, pgen := (old.map fun o => o.pgen).getD 0, journal := [], msgs := 0 }
  let away ← (s.spilledTables.filter fun x => x.1 == ctx && x.2.1 == n && x.2.2 != t).mapM fun x =>
    (s.savedTable n ctx x.2.2 (some (stnDie n))).map (·.1)
  if tb.ebase + tb.size > 8192 ∨ (st.tables ++ away).any fun o => o.ctx == ctx && o.t != t && o.overlaps tb then
    throw (geometry 2)
  return ⟨tb, ws.map (prefixSums M 0)⟩

/-- A table that is bound to a partner, unbound (R429). -/
def Table.cutFrom (tb : Table) (to_ : Nat) (toT : BitVec 2) : Table :=
  match tb.bind with
  | some b => if b.stn = to_ ∧ b.t = toT then { tb with bind := none, journal := [] } else tb
  | none => tb

/-- A table of a station unbound, where it is bound to a given partner (R429); a spilled one in its save area. -/
def State.unbindAt (s : State) (n : Nat) (ctx : Byte) (t : BitVec 2) (to_ : Nat) (toT : BitVec 2) : State :=
  let st := s.stn n
  let s1 := s.setStn n { st with tables := st.tables.map fun tb => if tb.ctx == ctx && tb.t == t then tb.cutFrom to_ toT else tb }
  if !s.isSpilled n ctx t then s1
  else
    let r : Except FI State := do
      let (tb, ks) ← s1.savedTable n ctx t (some (stnDie n))
      s1.saveTableState n (tb.cutFrom to_ toT) ks (s.lidAt n ctx)
    match r with | .ok s2 => s2 | .error _ => s1

/-- A table's pair dissolved: both tables unbound and their journals emptied (R429, R432). -/
def State.unpair (s : State) (n : Nat) (tb : Table) : State :=
  match tb.bind with
  | none => s
  | some b => (s.unbindAt n tb.ctx tb.t b.stn b.t).unbindAt b.stn tb.ctx b.t n tb.t

/-- A built table put in place of the one before it (R283): kindling entries discarded, pair unbound, damaged words written anew
(R437). -/
def State.install (s : State) (n : Nat) (x : Built) : State :=
  let tb := x.tb
  let s := match (s.stn n).table tb.ctx tb.t with
    | some o => s.unpair n o
    | none => s
  let s := s.unspill n tb.ctx tb.t
  let st := ((s.stn n).dropTable tb.ctx tb.t).putTable tb
  let st := ((List.range tb.cols).zip x.ents).foldl (fun st (c, es) =>
    ((List.range (tb.ks + 1)).zip es).foldl (fun st (i, v) => st.setEnt tb c i v) st) st
  (((s.setStn n st).dropOld n tb.ctx tb.t).sramWrite 0 n tb.ebase tb.size).sramWrite 4 n (4 * tb.ctx.toNat + tb.t.toNat) 1

/-- The extent on the table store that a descriptor's 32 bytes give. -/
def TDesc.extent (d : TDesc) : Nat × Nat := (d.ebase, d.ebase + 2 ^ d.lgC * (d.ks + 1) * (if d.wide then 2 else 1))

/-- The extents of a TBLD's tables, as their descriptors can be read now, that tables of other contexts are in the way of (R141). -/
def State.displaced (s : State) (n : Nat) (ctx : Byte) (p : Pair) (t : BitVec 2) : List (Nat × Nat) :=
  (List.range p.n).filterMap fun i =>
    match (buildRead n ctx (p.left.val i) 32 32).run s with
    | .error _ => none
    | .ok (bs, _) =>
      let (lo, hi) := (tdesc (leValue bs)).extent
      if (s.stn n).tables.any fun x => x.ctx != ctx && x.inWay ctx t lo hi then some (lo, hi) else none

/-- A background operation put at the end of a station's list. -/
def State.addBg (s : State) (n : Nat) (b : Bg) : State := let st := s.stn n; s.setStn n { st with bg := st.bg ++ [b] }

/-- TBLD: the build goes on in the background. -/
def execTbld (h : Head) (t : BitVec 2) (orig : State) : Host.Outcome State Fault Refusal :=
  fire h orig fun s n c p =>
    let ctx := (c.tag).getD 0
    typesOk s p (p.left.ty == .int64) (
      if (s.stn n).busy ctx t then .wait orig
      else if s.isSpilled n ctx t || s.displaced n ctx p t != [] then .wait (orig.raiseOwn n)
      else .done (s.addBg n ⟨.build, t, ctx, p, 0⟩))

/-- A background operation of a station removed, or moved to another index. -/
def State.setBg (s : State) (n i : Nat) (b : Option Bg) : State :=
  let st := s.stn n
  s.setStn n { st with bg := match b with
    | none => listRemove i st.bg
    | some x => listModify (fun _ => x) i st.bg }

/-- The context and head of the slot a pair belongs to. -/
def State.slotOf (s : State) (n : Nat) (p : Pair) : Option (Ctx × Head) :=
  let c := (s.stn n).ctxs[p.cx.val]
  ((c.instr p.slot).bind stnHead).map fun h => (c, h)

/-- A TBLD builds the table of its next index (R284): the token follows the last one, and a fault returns the pair from that
index. A table of another context that has come to stand in its way is spilled first (R141). -/
def execTableBuildComplete (n i : Nat) (s : State) : Host.Outcome State Fault Refusal :=
  .next (match (s.stn n).bg[i]? with
    | none => s
    | some b =>
      match b.kind, s.slotOf n b.pair with
      | .build, some (c, h) =>
        match (buildTable n b.ctx b.t (b.pair.left.val b.next)).run s with
        | .error f => (s.setBg n i none).faultPair n h b.pair f b.next 1 (some (b.pair.from_ (lvlOf h) b.next))
        | .ok (x, s1) =>
          let hi := x.tb.ebase + x.tb.size
          if (s.stn n).tables.any (fun o => o.ctx != b.ctx && o.inWay b.ctx b.t x.tb.ebase hi) then
            s.askOwn n (.room b.ctx c.lid b.t x.tb.ebase hi)
          else
          let s2 := s1.install n x
          if b.next + 1 < b.pair.n then s2.setBg n i (some { b with next := b.next + 1 })
          else (s2.setBg n i none).emit n c b.pair h true true [doneTok (lvlOf h) b.pair]
      | _, _ => s)

/-! ## TUPD, TFOLD (R285 to R287) -/

/-- The operand types of TUPD and PUPD (R285). -/
def updTypes (ty : Fmt) (p : Pair) : Bool := isU32 p.left.ty && p.right.ty == ty

/-- The indices of a TUPD pair applied in order, up to the first that faults. -/
def tupdGo (p : Pair) (ctx : Byte) (t : BitVec 2) (fold : Bool) (w : Nat) : List Nat → Station → Station × Option (Nat × FI)
  | [], st => (st, none)
  | i :: is, st =>
    match st.table ctx t with
    | none => (st, some (i, geometry 0))
    | some tb =>
      let v := p.left.val i % 2 ^ 32
      let r := if fld v 31 21 ≠ 0 then .error { cls := cTableIndex, detail := 2 ^ 10 }
        else st.update tb (fld v 20 16 : Nat) ((fld v 15 0 : Nat) - (tb.k0 : Int)) (sext (p.right.val i) w) fold
      match r with
      | .error f => (st, some (i, f))
      | .ok st1 => tupdGo p ctx t fold w is st1

/-- TUPD. -/
def execTupd (h : Head) (ty : Fmt) (fold : Bool) (t : BitVec 2) (orig : State) : Host.Outcome State Fault Refusal :=
  fire h orig fun s n c p =>
    let ctx := (c.tag).getD 0
    typesOk s p (updTypes ty p) (withWidth orig s n ctx p t (ty == .int64) noneFirst fun s _ =>
      let (st, r) := tupdGo p ctx t fold (slotInt ty).1 (List.range p.n) (s.stn n)
      let s1 := (s.setStn n st).dropOld n ctx t
      match r with
      | some (i, f) => .fault s1 f i 1 (p.from_ (lvlOf h) i)
      | none => .done (s1.emit n c p h true true [doneTok (lvlOf h) p]))

/-- FORMAT-EMULATE for a slot whose type has no hardware (R60, R223). -/
def emulated (s : State) (p : Pair) (ty : Fmt) (k : StnOut) : StnOut :=
  if fmtEmulated ty then pairFault s p { cls := cFormatEmulate, detail := ty.code } else k

/-- TFOLD: the folds go on in the background. -/
def execTfold (h : Head) (ty : Fmt) (all : Bool) (t : BitVec 2) (orig : State) : Host.Outcome State Fault Refusal :=
  fire h orig fun s n c p =>
    let ctx := (c.tag).getD 0
    let ts := ((s.stn n).tables.filter fun tb => tb.ctx == ctx).map (·.t)
    let away := [(0 : BitVec 2), 1, 2, 3].filter (s.isSpilled n ctx)
    emulated s p ty (
      if all then
        if away != [] then .wait (orig.raiseOwn n)
        else if ts.any fun u => (s.stn n).busy ctx u then .wait orig
        else .done (ts.foldl (fun s u => s.addBg n ⟨.fold, u, ctx, p, if u = ts.getLastD 0 then 1 else 0⟩)
          (if ts = [] then s.emit n c p h true true [doneTok (lvlOf h) p] else s))
      else withTable orig s n ctx p t (geometry 0) noneFirst fun s _ => .done (s.addBg n ⟨.fold, t, ctx, p, 1⟩))

/-- A TFOLD folds a table; its token follows the last of them. A damaged table cannot be read (R437): the pair returns. -/
def execFoldComplete (n i : Nat) (s : State) : Host.Outcome State Fault Refusal :=
  .next (match (s.stn n).bg[i]? with
    | none => s
    | some b =>
      match b.kind, s.slotOf n b.pair with
      | .fold, some (c, h) =>
        let same (x : Bg) : Bool := x.kind == .fold && x.pair == b.pair
        if b.next = 1 ∧ ((s.stn n).bg.take i).any same then s
        else
          match ((s.stn n).table b.ctx b.t).map (s.tableCheck n) with
          | some (some f, _) =>
            let st := s.stn n
            (s.setStn n { st with bg := st.bg.filter fun x => !same x }).faultPair n h b.pair f 0 1 (some b.pair)
          | r =>
            let s := match r with | some (_, t) => t | none => s
            let s1 := (s.setStn n ((s.stn n).foldTable b.ctx b.t)).dropOld n b.ctx b.t
            let s2 := s1.setBg n i none
            if b.next = 1 then s2.emit n c b.pair h true true [doneTok (lvlOf h) b.pair] else s2
      | _, _ => s)

/-! ## PBIND (R288, R429) -/

/-- A message put on its way between tables. -/
def State.tell (s : State) (m : TMsg) : State := { s with tmsgs := s.tmsgs ++ [m] }

/-- Detail of PAIR (Table 23-1): a missing table. -/
def pairMissing : FI := { cls := cPair, detail := 4 }

/-- PBIND: a bind message goes to the partner, which does not wait for the station's other pairs. -/
def execPbind (h : Head) (ty : Fmt) (tr : Bool) (pt t : BitVec 2) (partner gen : BitVec 16) (orig : State) :
    Host.Outcome State Fault Refusal :=
  fire h orig fun s n c p =>
    let ctx := (c.tag).getD 0
    emulated s p ty (withTable orig s n ctx p t pairMissing noneFirst fun s tb =>
      .done (s.tell ⟨.bind tr pt gen tb.et, n, t, partner.toNat, pt, ctx, some p⟩))

/-- The first message between tables is delivered at a station, over links that are open (R15, R391), when the table it is for is not
being built or folded; for a spilled table an ownership event is raised first (R141). -/
def State.deliver (s : State) (i : Nat) (f : State → TMsg → State) : State :=
  match s.tmsgs[i]? with
  | none => s
  | some m =>
    if (s.stn m.to_).busy m.ctx m.toT || !s.linkOpen (some (m.from_ / 8192)) (m.to_ / 8192) then s
    else if ((s.stn m.to_).table m.ctx m.toT).isNone && s.isSpilled m.to_ m.ctx m.toT then
      s.askOwn m.to_ (.table m.ctx (s.lidAt m.to_ m.ctx) m.toT)
    else f { s with tmsgs := listRemove i s.tmsgs } m

/-- A bind message at the partner (R288): its table takes the other orientation, or the answer says why not. -/
def execPbindMessage (i : Nat) (s : State) : Host.Outcome State Fault Refusal :=
  .next (match (s.tmsgs[i]?).map TMsg.kind with
    | some (TMsgKind.bind tr pt gen et) => s.deliver i fun s1 m =>
      let answer (ok : Bool) (d : BitVec 16) : TMsg := ⟨.bindAnswer ok d, m.to_, pt, m.from_, m.fromT, m.ctx, m.pair⟩
      match (s1.stn m.to_).table m.ctx pt with
      | none =>
        let other := (s1.stn m.to_).tables.any fun x => x.t == pt
        s1.tell (answer false (if other then 8 else 4))
      | some tb =>
        if tb.et ≠ et then s1.tell (answer false 16)
        else
          let tb1 := { tb with bind := some ⟨m.from_, m.fromT, !tr⟩, gen, pgen := gen, journal := [] }
          (s1.setStn m.to_ ((s1.stn m.to_).putTable tb1)).tell (answer true 0)
    | _ => s)

/-- The answer to a bind message: the initiator's table is bound and the completion token sent, or PAIR is raised. -/
def execPbindConfirm (i : Nat) (s : State) : Host.Outcome State Fault Refusal :=
  .next (match s.tmsgs[i]? with
    | some ⟨.bindAnswer ok detail, from_, fromT, n, t, ctx, some p⟩ =>
      match s.slotOf n p with
      | none => s
      | some (c, h) => s.deliver i fun s _ =>
        if !ok then s.faultPair n h p { cls := cPair, detail := detail.toNat } 0 1 (some p)
        else
          match (s.stn n).table ctx t, c.instr p.slot with
          | some tb, some (.pbind _ _ tr _ _ _ gen) =>
            let tb1 := { tb with bind := some ⟨from_, fromT, tr⟩, gen, pgen := gen, journal := [] }
            (s.setStn n ((s.stn n).putTable tb1)).emit n c p h true true [doneTok (lvlOf h) p]
          | _, _ => s.faultPair n h p pairMissing 0 1 (some p)
    | _ => s)

/-! ## PUPD (R289, R430) -/

/-- Index i of a PUPD pair: applied to the own table and journalled, and its update sent to the partner. -/
def pupdStep (s : State) (n : Nat) (p : Pair) (ctx : Byte) (t : BitVec 2) (fold : Bool) (w i : Nat) : Except FI State := do
  let st := s.stn n
  match st.table ctx t with
  | none => throw (geometry 0)
  | some tb =>
    match tb.bind with
    | none => throw { cls := cPair, detail := 2 }
    | some b =>
      let pos := BitVec.ofNat 32 (p.left.val i)
      let d := sext (p.right.val i) w
      let st1 ← st.pupdApply tb b.tr pos d fold
      let st2 := match st1.table ctx t with
        | some x => st1.putTable { x with msgs := x.msgs + 1 }
        | none => st1
      let g := ((st1.table ctx t).map fun x => x.gen).getD 0
      return ((s.setStn n st2).dropOld n ctx t).tell ⟨.update pos d fold g, n, t, b.stn, b.t, ctx, some p⟩

/-- PUPD: its first index; the others follow one acknowledgement after another. -/
def execPupd (h : Head) (ty : Fmt) (fold : Bool) (t : BitVec 2) (orig : State) : Host.Outcome State Fault Refusal :=
  fire h orig fun s n c p =>
    let ctx := (c.tag).getD 0
    typesOk s p (updTypes ty p) (withWidth orig s n ctx p t (ty == .int64) noneFirst fun s _ =>
      match pupdStep s n p ctx t fold (slotInt ty).1 0 with
      | .error f => pairFault s p f
      | .ok s1 => .done (s1.addBg n ⟨.pupd, t, ctx, p, 0⟩))

/-- What a refusal tells of the partner's fault (Table 23-1): column or index out of range. -/
def refusalDetail (f : FI) : BitVec 16 := if f.cls = cTableIndex then BitVec.ofNat 16 f.detail else 0

/-- An update message at the partner (R430 steps 3 and 4): pgen first, then the update; a table that cannot take it
refuses. A damaged partner also raises SRAM-ECC at its station, which reads it (R437; log entry 73). -/
def execPupdUpdateMessage (i : Nat) (s : State) : Host.Outcome State Fault Refusal :=
  .next (match (s.tmsgs[i]?).map TMsg.kind with
    | some (TMsgKind.update pos d fold g) => s.deliver i fun s m =>
      let n := m.to_
      let answer (k : TMsgKind) : TMsg := ⟨k, n, m.toT, m.from_, m.fromT, m.ctx, m.pair⟩
      match (s.stn n).table m.ctx m.toT with
      | none => s.tell (answer (.refuse 0))
      | some tb =>
        match tb.bind with
        | none => s.tell (answer (.refuse 0))
        | some b =>
          if b.stn ≠ m.from_ ∨ b.t ≠ m.fromT then s.tell (answer (.refuse 0))
          else
            let tb1 := { tb with pgen := g }
            let s0 := s.setStn n ((s.stn n).putTable tb1)
            match s0.tableCheck n tb1 with
            | (some f, t) =>
              let lid := t.lidAt n m.ctx
              (t.tell (answer (.refuse 0))).stopLaunch lid (stnRec n lid 0 0 0 m.ctx 0 1 f)
            | (none, s1) =>
              match (s1.stn n).pupdApply tb1 b.tr pos d fold with
              | .error f => s1.tell (answer (.refuse (refusalDetail f)))
              | .ok st1 =>
                let g1 := ((st1.table m.ctx m.toT).map fun x => x.gen).getD 0
                ((s1.setStn n st1).dropOld n m.ctx m.toT).tell (answer (.ack g1))
    | _ => s)

/-- An acknowledgement or refusal at the initiator (R430 step 5, R289): the next index, the completion token, or
TABLE-INDEX for the refused index, which is not returned, with what the partner found (Table 23-1). -/
def execPupdAcknowledge (i : Nat) (s : State) : Host.Outcome State Fault Refusal :=
  .next (match s.tmsgs[i]? with
    | none => s
    | some m =>
      let n := m.to_
      match m.kind, findIdx (fun (b : Bg) => b.kind == .pupd && some b.pair == m.pair) (s.stn n).bg with
      | .update .., _ => s
      | .bind .., _ => s
      | .bindAnswer .., _ => s
      | _, none => s
      | k, some (j, b) =>
        match s.slotOf n b.pair, (s.stn n).ctxs[b.pair.cx.val].instr b.pair.slot with
        | some (c, h), some (.pupd _ ty fold _) => s.deliver i fun s m =>
          let st := s.stn n
          let ack (x : Table) : Table := match k with
            | .ack g => { x with msgs := x.msgs - 1, pgen := g }
            | _ => { x with msgs := x.msgs - 1 }
          let s1 := match st.table m.ctx m.toT with
            | some x => s.setStn n (st.putTable (ack x))
            | none => s
          let rest (o : Nat) : Option Pair := if o < b.pair.n then some (b.pair.from_ (lvlOf h) o) else none
          let fail (f : FI) (at_ from_ : Nat) : State := (s1.setBg n j none).faultPair n h b.pair f at_ 1 (rest from_)
          match k with
          | .ack _ =>
            if b.next + 1 = b.pair.n then (s1.setBg n j none).emit n c b.pair h true true [doneTok (lvlOf h) b.pair]
            else match pupdStep s1 n b.pair b.ctx b.t fold (slotInt ty).1 (b.next + 1) with
              | .ok s2 => s2.setBg n j (some { b with next := b.next + 1 })
              | .error f => fail f (b.next + 1) (b.next + 1)
          | .refuse detail => fail { cls := cTableIndex, detail := 2 ^ 8 + detail.toNat } b.next (b.next + 1)
          | _ => s
        | _, _ => s)

/-! ## TSUM, TRD (R290, R291) -/

/-- TSUM. -/
def execTsum (h : Head) (ty : Fmt) (t : BitVec 2) (orig : State) : Host.Outcome State Fault Refusal :=
  fire h orig fun s n c p =>
    withWidth orig s n ((c.tag).getD 0) p t (ty == .int64) noneFirst fun s tb =>
      let (a, b) := overlapOf p tb
      let L := lvlOf h
      if b ≤ a ∨ tb.ks ≤ a then .done s
      else
        let col (k : Nat) : Nat := if tb.zflags.getD k .invalid = .set then 0 else trunc ((s.stn n).diff tb k a b) tb.width
        .done (s.emitRaw n c p h true true
          (denseToks ty (L + 1) (setTagFld p.tag L p.base) 0 (tb.cols + 1) 0 ((List.range tb.cols).map col)))

/-- TRD: entries or weights of one column. -/
def execTrd (h : Head) (ty : Fmt) (fn : BitVec 4) (col : BitVec 5) (t : BitVec 2) (orig : State) :
    Host.Outcome State Fault Refusal :=
  fire h orig fun s n c p =>
    withWidth orig s n ((c.tag).getD 0) p t (ty == .int64) noneFirst fun s tb =>
      let st := s.stn n
      let top := if fn = 0 then tb.ks else tb.ks - 1
      let bad (i : Nat) : Bool := decide (p.base + i < tb.k0 ∨ tb.k0 + top < p.base + i)
      if tb.cols ≤ col.toNat then pairFault s p { cls := cTableIndex, detail := 2 ^ 9 }
      else match (List.range p.n).find? bad with
        | some i => .fault s { cls := cTableIndex, detail := 2 ^ 10 } i 1 p
        | none =>
          let v (i : Nat) : Nat :=
            let k := p.base + i - tb.k0
            if fn = 0 then st.ent tb col.toNat k else trunc (st.diff tb col.toNat k (k + 1)) tb.width
          .done (s.emit n c p h true true (denseToks ty (lvlOf h) p.tag 0 (p.n + 1) p.base ((List.range p.n).map v)))

/-! ## ACLR, AEMIT (R292 to R294) -/

/-- ACLR. -/
def execAclr (h : Head) (ty : Fmt) (fn : BitVec 4) (rsel : BitVec 3) (row : BitVec 5) (eacc : BitVec 12) (orig : State) :
    Host.Outcome State Fault Refusal :=
  fire h orig fun s n c p =>
    let ctx := (c.tag).getD 0
    let L := lvlOf h
    let clear (s : State) : State :=
      let st := s.stn n
      s.setStn n { st with ctxs := st.ctxs.set p.cx.val { st.ctxs[p.cx.val] with flags := 0 } }
    let send (s : State) (v : Nat) : StnOut := .done (s.emit n c p h true true [scalarTok .uint32 L p.tag v])
    emulated s p ty (
      if fn = 2 then send (clear s) c.flags.toNat
      else withRow orig s n ctx p (rowOf p rsel row) true fun s x =>
        let s1 := s.setRow n (rowOf p rsel row) { x with eacc := eacc.toInt, cells := Vector.replicate 32 0 }
        send (if fn = 1 then clear s1 else s1) 0)

/-- Column values of AEMIT and their flags (R293). -/
def emitCol (ty : Fmt) (rm : Rm) (m : FpMode) (cell : DWord) (e : Int) : Nat × Flags :=
  let x := Exact.ofInt cell.toInt e
  if ty = .int64 then (cell.toNat, 0)
  else match fmtInt ty, fmtFF ty with
    | some (w, sg), _ => let (v, f) := toIntClamp (.num x) (intLo w sg) (intHi w sg) rm; (trunc v w, f)
    | none, some f => roundFmt x f rm (m.fzo f)
    | none, none => (0, 0)

/-- The random values of AEMIT's columns: lane c of the token at R, its one lane for a scalar or run; a dense token that has no
lane c supplies a free value (R293; log entry 22). -/
def State.emitRandom (s : State) (rnd : BitVec 4) (rt : Token) (ncols : Nat) : List Nat × State :=
  if rnd = 4 ∧ rt.shape = .dense ∧ rt.n < ncols then
    let (bs, t) := s.freeBytes (2 * ncols)
    ((List.range ncols).map fun c =>
      if c < rt.n then rt.val c % 2 ^ 16 else leValue ((bs.drop (2 * c)).take 2), t)
  else ((List.range ncols).map fun c => rt.val c % 2 ^ 16, s)

/-- AEMIT. Under seg its tokens arrive at the SEGT slot of its own station and context. -/
def execAemit (h : Head) (ty : Fmt) (rnd : BitVec 4) (seg clear : Bool) (slot : BitVec 4) (rsel : BitVec 3) (row : BitVec 5)
    (adj : BitVec 8) (ncols : BitVec 6) (kbase : BitVec 16) (orig : State) : Host.Outcome State Fault Refusal :=
  fire h orig fun s n c p =>
    let ctx := (c.tag).getD 0
    let L := lvlOf h
    let rt := p.right
    let k := rowOf p rsel row
    let N := ncols.toNat + 1
    typesOk s p (randomOk rnd rt) (withRow orig s n ctx p k false fun s x =>
      let m := p.fpMode
      let (zs, s1) := s.emitRandom rnd rt N
      let rm (col : Nat) : Rm := match rnd.toNat with
        | 1 => .rtz
        | 2 => .rup
        | 3 => .rdn
        | 4 => .sr (zs.getD col 0)
        | 7 => m.dyn
        | _ => .rne
      let rs := (List.range N).map fun col => emitCol ty (rm col) m (x.cells.toList.getD col 0) (x.eacc + adj.toInt)
      let y := if clear then { x with cells := (List.range N).foldl (fun v col => v.setIfInBounds col 0) x.cells } else x
      let s2 := (s1.setRow n k y).stnFlags n p.cx (orAll (rs.map (·.2)))
      let toks := denseToks ty L p.tag 0 (N + 1) kbase.toNat (rs.map (·.1))
      if seg then
        .done ((toks.map (tagOp h.tagop)).flatten.foldl (fun s t =>
          s.arrive n c.lid { t with stn := BitVec.ofNat 16 n, slot, port := 0, act := 0 }) s2)
      else .done (s2.emit n c p h true true toks))

/-! ## The ownership event at the collier (R142) -/

/-- The row that the pair of a slot uses, when it may belong to another context. -/
def rowUse (i : Instr) (p : Pair) : Option Nat :=
  match i with
  | .sgpN32 _ _ r | .sgpN64 _ _ r | .dmacN32 _ _ r | .dmacN64 _ _ r | .spmc _ _ _ r => some (rowOf p r.rsel r.row)
  | .aclr _ _ fn rsel row _ => if fn = 2 then none else some (rowOf p rsel row)
  | .aemit _ _ _ _ _ _ rsel row _ _ _ => some (rowOf p rsel row)
  | _ => none

/-- The table that a slot names. -/
def tableUse : Instr → Option (BitVec 2)
  | .sgpN32 _ _ r | .sgpN64 _ _ r | .dmacN32 _ _ r | .dmacN64 _ _ r | .spmc _ _ _ r => some r.t
  | .tbld _ t | .tupd _ _ _ t | .pupd _ _ _ t | .pbind _ _ _ _ t _ _ | .tfold _ _ _ t | .tsum _ _ t | .trd _ _ _ _ t => some t
  | _ => none

/-- What the collier does for the pair at the head of a station: the tables first, then what a build displaces, then the row. -/
def ownServe (s : State) (n : Nat) (ctx : Byte) (lid : Option Nat) (i : Instr) (p : Pair) : Except FI State := do
  let ts : List (BitVec 2) := match i with
    | .tfold _ _ true _ => [0, 1, 2, 3]
    | i => (tableUse i).toList
  let s1 ← ts.foldlM (fun (s : State) t => if ((s.stn n).table ctx t).isSome then .ok s else s.restoreTable n ctx t lid) s
  let s2 ← match i with
    | .tbld _ t => (s1.displaced n ctx p t).foldlM (fun (s : State) (lo, hi) => s.makeRoom n ctx t lo hi lid) s1
    | _ => pure s1
  match rowUse i p with
  | some r => s2.takeRow n r ctx lid
  | none => return s2

/-- What a want asks for. -/
def Want.serve (n : Nat) (s : State) : Want → Except FI State
  | .row ctx lid r => s.takeRow n r ctx lid
  | .table ctx lid t => if ((s.stn n).table ctx t).isSome then .ok s else s.restoreTable n ctx t lid
  | .room ctx lid t lo hi => s.makeRoom n ctx t lo hi lid

/-- Context and launch of a want. -/
def Want.for_ : Want → Byte × Option Nat
  | .row ctx lid _ | .table ctx lid _ | .room ctx lid _ _ _ => (ctx, lid)

/-- A service of the collier of a station: a save area or a damaged word that cannot be read stops the launch (log entry 23). -/
def served (s : State) (n : Nat) (ctx : Byte) (lid : Option Nat) (r : Except FI State) : State :=
  match r with
  | .ok t => t
  | .error f => s.stopLaunch lid { (unitRec f ctx (agentSrc (collierOf (stnDie n))) 0) with lid := lidBits lid }

/-- OWNERSHIP_SERVICE: the collier serves the event of a station: what the pair at its head needs, which then issues as if it had never
waited, and what else was asked for. -/
def execOwnershipService (n : Nat) (s : State) : Host.Outcome State Fault Refusal :=
  .next (
    let st := s.stn n
    if !st.own then s
    else
      let s0 := s.setStn n { st with own := false, want := [] }
      let s1 := match st.issueq with
        | [] => s0
        | p :: _ =>
          let c := st.ctxs[p.cx.val]
          let ctx := (c.tag).getD 0
          match c.instr p.slot with
          | none => s0
          | some i => served s0 n ctx c.lid (ownServe s0 n ctx c.lid i p)
      st.want.foldl (fun t w => served t n w.for_.1 w.for_.2 (w.serve n t)) s1)

end Sys2Proof.Machine
end

