-- ==== Sys2Proof/Machine/Experts.lean ====
section
/-! DEFINITION. The expert queue unit (chapter 15, R450 to R453, R464): entries and their places, spilling and refilling,
configuration, firing, dispatch, batches; EQCFG, EQPUSH and EQPOP. -/

namespace Sys2Proof.Machine

/-! ## Queues and their entries (R363 to R366) -/

/-- Queue number q (R342): its die. -/
def eqDie (q : Nat) : Fin 8 := Fin.ofNat 8 (q / 256)

/-- A queue. -/
def State.eq (s : State) (q : Nat) : EQueue := spGet {} s.eqs q

/-- A queue replaced. -/
def State.setEq (s : State) (q : Nat) (e : EQueue) : State := { s with eqs := spInsert s.eqs q e }

/-- An entry stands in the spill ring. -/
def EqEntry.spilled (e : EqEntry) : Bool := match e.place with | .spill _ => true | .chip _ => false

/-- Entries in the spill ring. -/
def EQueue.spilled (e : EQueue) : List EqEntry := e.entries.filter (·.spilled)

/-- The lowest free on-chip place of the 512. -/
def EQueue.freeChip (e : EQueue) : Option Nat := (List.range 512).find? fun k => e.entries.all fun x => x.place != .chip k

/-- The address of a place of the spill ring. -/
def EQueue.spillAddr (e : EQueue) (place : Nat) : Nat := e.sbase + 32 * place

/-- The word of an on-chip entry among the words of store 8 (R437). -/
def chipWord (q place : Nat) : Nat := 2 ^ 16 * q + place

/-- An access of the unit to 32 bytes of a queue's spill region: translated under the queue's context (R363). -/
def State.spillAccess (s : State) (q : Nat) (A : Nat) (write : Bool) : Except FI Loc :=
  if A < 2 ^ 32 then .error { cls := cTranslation, addr := A, detail := trDetail 7 8 }
  else s.access ⟨eqDie q, 0, true, (s.eq q).ctx⟩ A 32 32 write

/-- The handle of an entry (Table 14-4). -/
def handleOf (data : BitVec 256) : DWord := data.setWidth 64

/-- What EQPOP delivers for a damaged entry (R452). -/
def damaged : BitVec 256 := 0xFFFFFFFFFFFFFFFF

/-- A record of the unit to its die's collier (R421). -/
def State.unitFault (s : State) (q : Nat) (ctx : Byte) (tag : DWord) (f : FI) : State :=
  s.queueFault (eqDie q) (unitRec f ctx (agentSrc (collierOf (eqDie q))) tag)

/-- A write of an entry to a place of the spill ring. -/
def State.spillWrite (s : State) (q place : Nat) (data : BitVec 256) : Except FI State := do
  let l ← s.spillAccess q ((s.eq q).spillAddr place) true
  return s.write (some (eqDie q)) (unitKey (eqDie q)) none l (leBytes 32 data.toNat)

/-- An entry as the unit reads it from where it is stored. A damaged one is reported and read as R452 states. Spill bytes
that software has changed are free (R366). -/
def State.entryRead (s : State) (q : Nat) (e : EqEntry) : BitVec 256 × State :=
  let d := eqDie q
  match e.place with
  | .chip k =>
    match s.sramRead d 8 0 (chipWord q k) 1 with
    | (none, t) => (e.data, t)
    | (some f, t) => (damaged, t.unitFault q (s.eq q).ctx (handleOf e.data) { f with detail := 8 + k % 2048 * 16 })
  | .spill k =>
    match s.spillAccess q ((s.eq q).spillAddr k) false with
    | .error f => (damaged, s.unitFault q (s.eq q).ctx (handleOf e.data) f)
    | .ok l =>
      let (bs, t) := s.readAt d (unitKey d) none l 32
      if leValue bs = e.data.toNat then (e.data, t)
      else
        let (bs, t) := t.freeBytes 32
        (BitVec.ofNat 256 (leValue bs), t)

/-- Spilled entries back on chip, in spill order, while places are free (R366); fuel bounds their number. -/
def State.refill (s : State) (q : Nat) : Nat → State
  | 0 => s
  | n + 1 =>
    match (s.eq q).spilled, (s.eq q).freeChip with
    | e :: _, some k =>
      let (data, t) := s.entryRead q e
      let t := t.sramWrite 8 0 (chipWord q k) 1
      let x := t.eq q
      (t.setEq q { x with entries := x.entries.map fun y => if y.place = e.place then { y with data, place := .chip k } else y }).refill q n
    | _, _ => s

/-- How an entry that the unit takes ends: accepted, no place, or its spill write faults. -/
inductive Placed where
  | ok (s : State)
  | full
  | failed (f : FI)

/-- An entry that must be spilled, beside k that are (R366). -/
def State.placeSpill (s : State) (q : Nat) (data : BitVec 256) (e : EQueue) (k : Nat) : Placed :=
  if e.scap ≤ k then .full
  else
    let p := if k = 0 then 0 else e.spillNext
    match s.spillWrite q p data with
    | .error f => .failed f
    | .ok t => .ok (t.setEq q { e with
        entries := e.entries ++ [⟨data, s.now, .spill p, none⟩], spillNext := (p + 1) % e.scap })

/-- An entry given its place (R366). -/
def State.place (s : State) (q : Nat) (data : BitVec 256) : Placed :=
  let e := s.eq q
  let k := e.spilled.length
  match e.freeChip with
  | some c =>
    if k = 0 then
      .ok ((s.sramWrite 8 0 (chipWord q c) 1).setEq q { e with entries := e.entries ++ [⟨data, s.now, .chip c, none⟩] })
    else s.placeSpill q data e k
  | none => s.placeSpill q data e k

/-- An engine operation that has ended. -/
def State.endOp (s : State) (id : Nat) : State := { s with engine := s.engine.filter (·.id ≠ id) }

/-- A push taken by its queue or left to hold it (R450, R464). -/
def State.takePush (s : State) (q : Nat) (p : EqPush) : State :=
  match s.place q p.data with
  | .ok t => (t.setEq q { t.eq q with held := none, stuck := false }).endOp p.op
  | .full =>
    let e := s.eq q
    (s.setEq q { e with held := some p }).unitFault q e.ctx (handleOf p.data)
      { cls := cEqSpill, addr := e.sbase, detail := q % 256 + b2n (e.scap = 0) * 2 ^ 8 }
  | .failed f =>
    let e := s.eq q
    (s.setEq q { e with held := some p, stuck := true }).unitFault q e.ctx (handleOf p.data) f

/-- The held entry of a queue accepted when there is room for it; while its spill write has failed, only an on-chip place
releases the queue (R450, R451, R464). -/
def State.release (s : State) (q : Nat) : State :=
  let e := s.eq q
  match e.held with
  | none => s
  | some p =>
    let chip := e.spilled.length = 0 ∧ e.freeChip.isSome
    if chip ∨ (e.stuck = false ∧ e.spilled.length < e.scap) then s.takePush q p else s

/-- Places of a queue have become free: spilled entries return, and a held entry is accepted. -/
def State.settle (s : State) (q : Nat) : State := (s.refill q (s.eq q).entries.length).release q

/-- A batch gone from its queue with its entries; their places are freed (R372, R449). -/
def State.dropBatch (s : State) (q bseq : Nat) : State :=
  let e := s.eq q
  (s.setEq q { e with
    entries := e.entries.filter (·.batch ≠ some bseq)
    batches := e.batches.filter (·.bseq ≠ bseq) }).settle q

/-! ## Accepting entries (R365, R450, R453) -/

/-- A push refused: EQ-CONFIG to the unit's collier and to the pushing context's fault log (R453). -/
def State.refusePush (s : State) (p : EqPush) (why : Nat) : State :=
  let f : FI := { cls := cEqConfig, addr := p.addr, detail := p.q % 256 + why * 2 ^ 8 }
  let d := eqDie p.q
  let r := { (unitRec f p.ctx (agentSrc (collierOf d)) (handleOf p.data)) with lid := lidBits (s.openLaunch p.lid) }
  ((s.endOp p.op).queueFault d r).logFault p.ctx r

/-! ## Firing and dispatch (R367 to R370, R449) -/

/-- A queue's batch waits for dispatch (R367). -/
def State.inDispatch (s : State) (d : Fin 8) (q : Fin 256) : Bool := (s.die d).dispatch.any (·.q == q)

/-- Entries that count for a firing in this cycle (R367). -/
def EQueue.ready (e : EQueue) (now : Nat) : List EqEntry := e.entries.filter fun x => x.batch == none && decide (x.at_ < now)

/-- An entry has reached the age that makes its queue fire (R367). -/
def EqEntry.old (x : EqEntry) (e : EQueue) (now : Nat) : Bool := decide ((e.age : Int) ≤ now - x.at_)

/-- A firing: a batch of the oldest waiting entries enters the dispatch list (R368, R369). -/
def State.fireQueue (s : State) (d : Fin 8) (q : Fin 256) : State :=
  let k := d.val * 256 + q.val
  let e := s.eq k
  let n := min (e.ready s.now).length e.maxb
  let marked := e.entries.foldl (fun (r : List EqEntry × Nat) x =>
    if x.batch = none ∧ r.2 < n then (r.1 ++ [{ x with batch := some e.bseq }], r.2 + 1) else (r.1 ++ [x], r.2)) ([], 0)
  let s1 := s.setEq k { e with
    entries := marked.1
    batches := e.batches ++ [⟨e.bseq, n, false⟩]
    bseq := (e.bseq + 1) % 2 ^ 32 }
  s1.setDie d { s1.die d with dispatch := (s1.die d).dispatch ++ [⟨q, e.bseq, n, s.now, 0⟩] }

/-- The queues have been sent to a neighbour: nothing more happens to them here (R395, R396). -/
def State.queuesMoved (s : State) : Bool := s.evict == .moving && s.evictSent

/-- A queue may fire: enabled, with a waiting entry, and no earlier batch waiting for dispatch. -/
def State.mayFire (s : State) (d : Fin 8) (q : Fin 256) : Bool :=
  let e := s.eq (d.val * 256 + q.val)
  e.en && (e.ready s.now) != [] && !s.inDispatch d q && !s.queuesMoved

/-- A firing of a queue is due in this cycle (R367). -/
def State.fireDue (s : State) (d : Fin 8) (q : Fin 256) : Bool :=
  let e := s.eq (d.val * 256 + q.val)
  let ws := e.ready s.now
  s.mayFire d q && (decide (e.fill ≤ ws.length) || ws.head?.any (·.old e s.now))

/-- EQ_ENTRY_ACCEPT: the n-th arrival at a die's unit, when no earlier one for its queue waits and the queue is not held; a firing that is
due comes first (R367). -/
def execEqEntryAccept (die : Fin 8) (n : Nat) (s : State) : Host.Outcome State Fault Refusal :=
  .next (
    let ins := (s.die die).eqIn
    match ins[n]? with
    | none => s
    | some p =>
      let e := s.eq p.q
      if ((ins.take n).any fun x => x.q == p.q) || e.held.isSome || s.fireDue die (Fin.ofNat 256 p.q) || s.queuesMoved then s
      else
        let t := s.setDie die { s.die die with eqIn := listRemove n ins }
        if !e.en then t.refusePush p 0
        else if e.ctx ≠ p.ctx then t.refusePush p 1
        else t.takePush p.q p)

/-- A queue fires on fill (R367). -/
def execQueueFireOnFill (die : Fin 8) (q : Fin 256) (s : State) : Host.Outcome State Fault Refusal :=
  let e := s.eq (die.val * 256 + q.val)
  .next (if s.mayFire die q && decide (e.fill ≤ (e.ready s.now).length) then s.fireQueue die q else s)

/-- A queue fires on age (R367). -/
def execQueueFireOnAge (die : Fin 8) (q : Fin 256) (s : State) : Host.Outcome State Fault Refusal :=
  let e := s.eq (die.val * 256 + q.val)
  .next (if s.mayFire die q && (e.ready s.now).head?.any (·.old e s.now) then s.fireQueue die q else s)

/-- A record has a pending launch, or an arming in some arm queue (R122). -/
def State.recBusy (s : State) (rec : Nat) : Bool := s.launches.any (·.recno == rec)

/-- The address of a launch record (R117). -/
def State.recAddr (s : State) (rec : Nat) : Nat := s.recPool + 256 * rec

/-- The context of a record in the pool. -/
def State.recCtx (s : State) (rec : Nat) : Except FI Byte := do
  return BitVec.ofNat 8 (leValue (← s.readPA (s.recAddr rec + 4) 1))

/-- Detail of the launch classes (Table 24-1): why, and whether the device armed it. -/
def launchDetail (why : Nat) (dev : Bool) : Nat := why + b2n dev * 16

/-- The batch descriptor of R344. -/
def batchDesc (q bseq count : Nat) : DWord := BitVec.ofNat 64 (bseq * 2 ^ 32 + count * 2 ^ 16 + q)

/-- A firing goes before another: one passed over 64 times, then the higher class, then the earlier (R369). -/
def State.goesBefore (s : State) (d : Fin 8) (a b : Firing) : Bool :=
  let cls (f : Firing) := (s.eq (d.val * 256 + f.q.val)).cls
  let pa := decide (64 ≤ a.passed)
  let pb := decide (64 ≤ b.passed)
  if pa != pb then pa
  else if pa then decide (a.ord ≤ b.ord)
  else if cls a ≠ cls b then decide (cls b < cls a) else decide (a.ord ≤ b.ord)

/-- QUEUE_DISPATCH: one firing whose record is idle is selected and arms its record with the batch descriptor; one whose
record has another context is discarded and logged (R369, R370, R449). -/
def execQueueDispatch (die : Fin 8) (s : State) : Host.Outcome State Fault Refusal :=
  .next (
    let num (f : Firing) := die.val * 256 + f.q.val
    let busy (f : Firing) : Bool :=
      s.recBusy (s.eq (num f)).recno || s.dies.toList.any fun x => x.armq.any fun r => r.recno == (s.eq (num f)).recno
    let fs := if s.queuesMoved then [] else (s.die die).dispatch.filter fun f => !busy f
    match fs.find? fun f => fs.all fun g => s.goesBefore die f g with
    | none => s
    | some f =>
      let e := s.eq (num f)
      let rest := ((s.die die).dispatch.erase f).map fun g => if busy g then g else { g with passed := g.passed + 1 }
      let s1 := s.setDie die { s.die die with dispatch := rest }
      match s.recCtx e.recno with
      | .ok c =>
        if c ≠ e.ctx then
          let r := unitRec { cls := cLaunchRecord, addr := s.recAddr e.recno, detail := launchDetail 12 true } e.ctx
            (agentSrc (collierOf die)) (BitVec.ofNat 64 die.val)
          (s1.dropBatch (num f) f.bseq).logFault e.ctx r
        else
          let q : ArmReq := ⟨e.recno, some (batchDesc (num f) f.bseq f.count), e.ctx, none, some (num f, f.bseq), s.relSet (unitKey die)⟩
          s1.setDie die { s1.die die with armq := (s1.die die).armq ++ [q] }
      | .error _ =>
        let q : ArmReq := ⟨e.recno, some (batchDesc (num f) f.bseq f.count), e.ctx, none, some (num f, f.bseq), s.relSet (unitKey die)⟩
        s1.setDie die { s1.die die with armq := (s1.die die).armq ++ [q] })

/-! ## EQCFG (R342, R451) -/

/-- A queue number in range, or EQ-RANGE (R342). -/
def queueNum (v : DWord) (k : Nat → CoreOut) : CoreOut :=
  if v.toNat < 2048 then k v.toNat else .fault { cls := cEqRange }

/-- A configuration block whose reserved bits are 0 and whose values are in range (Table 14-3). -/
def eqBlockOk (b : Nat) : Bool :=
  let maxb := fld b 95 80
  let fill := fld b 79 64
  decide (fld b 255 248 = 0 ∧ fld b 143 130 = 0 ∧ fld b 63 1 = 0 ∧ fld b 247 192 % 4096 = 0 ∧ fld b 191 160 % 128 = 0
    ∧ 1 ≤ fld b 127 96 ∧ 1 ≤ maxb ∧ maxb ≤ 512 ∧ 1 ≤ fill ∧ fill ≤ maxb)

/-- The block asks for a change that the queue's entries forbid (R342). -/
def EQueue.blocks (e : EQueue) (b : Nat) : Bool :=
  let holds := e.entries != [] || e.batches != [] || e.held.isSome
  (holds && (fld b 247 192 != e.sbase || fld b 159 144 != e.recno || (e.en && !bitOf b 0))) ||
    decide (fld b 191 160 < e.spilled.length)

/-- The place that a spilled entry, the i-th in spill order, has under a new capacity (R342, R451). first is the place of the
ring's head. -/
def movedPlace (old new first : Nat) (high : Bool) (i place : Nat) : Nat :=
  if old < new then (if place < first then (old + place) % new else place)
  else if high then i else place

/-- Spilled entries at their places under a new capacity; the ones that move are read and written again, in order. -/
def State.moveSpill (s : State) (q new : Nat) : State :=
  let e := s.eq q
  let sp := e.spilled
  let at_ (x : EqEntry) : Nat := match x.place with | .spill k => k | .chip k => k
  let first := (sp.head?.map at_).getD 0
  let high := sp.any fun x => decide (new ≤ at_ x)
  let moves := (sp.zip (List.range sp.length)).map fun (x, i) => (x, movedPlace e.scap new first high i (at_ x))
  let mv := moves.filter fun (x, p) => at_ x ≠ p
  let (got, s1) := mv.foldl (fun (r : List (EqEntry × Nat × BitVec 256) × State) (x, p) =>
    let (data, t) := r.2.entryRead q x
    (r.1 ++ [(x, p, data)], t)) ([], s)
  let s2 := got.foldl (fun (t : State) (x, p, data) => match t.spillWrite q p data with
    | .ok u => u
    | .error f => t.unitFault q e.ctx (handleOf x.data) f) s1
  let e2 := s2.eq q
  let moved := e2.entries.map fun y => match got.find? fun (x, _, _) => x.place == y.place with
    | some (_, p, data) => { y with data, place := .spill p }
    | none => y
  let last := (moves.getLast?.map (·.2)).getD 0
  s2.setEq q { e2 with entries := moved, scap := new, spillNext := if new = 0 then 0 else (last + 1) % new }

/-- A block applied to a queue: binding at the rise of en, moves of spilled entries, release of a held queue. -/
def State.applyBlock (s : State) (q b : Nat) (ctx : Byte) : State :=
  let s1 := if fld b 191 160 = (s.eq q).scap then s else s.moveSpill q (fld b 191 160)
  let e := s1.eq q
  let en := bitOf b 0
  let rise := en && !e.en
  (s1.setEq q { e with
    en, sbase := fld b 247 192, recno := fld b 159 144, cls := fld b 129 128, age := fld b 127 96
    maxb := fld b 95 80, fill := fld b 79 64, stuck := false
    ctx := if rise then ctx else if en then e.ctx else 0
    bseq := if rise then 0 else e.bseq }).release q

/-- EQCFG: its block is read at .dev, after every earlier access of the issuer has been performed there (R342, R361). -/
def execEqcfg (x : Guard) (a b : GReg) (s : State) : Host.Outcome State Fault Refusal :=
  issue x s (queueNum (s.me.rg a) fun q =>
    orFault (s.access s.whoMe (s.src2 b).toNat 32 32 false) fun l =>
      let (bs, t) := s.readAt s.cur.die (agentIdx s.cur) none l 32
      let blk := leValue bs
      if s.mustRelease (some .dev) || !s.mayAccess (agentIdx s.cur) s.cur.die l 32 then .wait s
      else if !eqBlockOk blk then .fault { cls := cEqConfig }
      else if (s.eq q).blocks blk then .fault { cls := cEqBusy }
      else .done (t.applyBlock q blk s.me.ctx))

/-! ## EQPUSH and EQPOP (R343, R344) -/

/-- EQPUSH: handed to the copy engine. -/
def execEqpush (x : Guard) (a b : GReg) (s : State) : Host.Outcome State Fault Refusal :=
  let A := (s.src2 b).toNat
  issue x s (queueNum (s.me.rg a) fun q =>
    if A % 32 ≠ 0 then .fault { cls := cAlign, addr := A % 2 ^ 56 }
    else .done (s.handOver (.eqpush q A)))

/-- The batch that a descriptor names is the one given to the launch of a core (R344). -/
def State.ownBatch (s : State) (c : Core) (desc : DWord) : Bool :=
  match c.lid.bind s.launch with
  | none => false
  | some l =>
    l.batch == some (fld desc.toNat 10 0, fld desc.toNat 63 32) && leValue ((l.bytes.drop 64).take 8) == desc.toNat

/-- The launch of a core has taken its batch (R372). -/
def State.batchTaken (s : State) (c : Core) : Bool := match c.lid.bind s.launch with | some l => l.batchDone | none => false

/-- EQPOP: the first of a batch hands its copy to the engine and waits for it; a later one gives 0. -/
def execEqpop (x : Guard) (d a b : GReg) (s : State) : Host.Outcome State Fault Refusal :=
  let c := s.me
  let desc := c.rg a
  let q := fld desc.toNat 10 0
  let bseq := fld desc.toNat 63 32
  let A := (s.src2 b).toNat
  issue x s (onlyBy s [.access, .drain] (
    match c.wait with
    | .engine _ (some v) => .done (s.putG d v)
    | .engine _ none => .wait s
    | _ =>
      if !s.ownBatch c desc then .fault { cls := cEqBatch }
      else if A % 32 ≠ 0 then .fault { cls := cAlign, addr := A % 2 ^ 56 }
      else
        let e := s.eq q
        match e.batches.find? fun y => y.bseq == bseq && !y.taking && !s.batchTaken c with
        | none => .done (s.putG d 0)
        | some y =>
          let t := s.setEq q { e with batches := e.batches.map fun z => if z.bseq = bseq then { z with taking := true } else z }
          let t := t.handOver (.eqpop q bseq y.count A)
          .wait (t.setMe { t.me with wait := .engine s.nextId none })))

end Sys2Proof.Machine
end

