-- ==== Sys2Proof/Machine/Engine.lean ====
section
/-! DEFINITION. The copy engines (R171, R313, R314): the event that completes a transfer, with QPUSH, QPOP and SCLONE (R340,
R341, R355). -/

namespace Sys2Proof.Machine

/-! ## What an engine reads and writes -/

/-- Who an engine's accesses are made by: its core, under the context of the instruction that handed the work over. -/
def EngOp.who (o : EngOp) : Who := ⟨o.agent.die, o.agent.core.val, o.agent.kind == .collier, o.ctx⟩

/-- n bytes from an address, read in parts that end where lines of 128 bytes end; fuel bounds the parts. -/
def State.engRead (s : State) (o : EngOp) (A : Nat) (acq : Option Scope) : Nat → Nat → Except FI (List Byte × State)
  | _, 0 => .ok ([], s)
  | 0, _ => .ok ([], s)
  | f + 1, n => do
    let k := min n (128 - A % 128)
    let l ← s.access o.who A k 1 false
    let (bs, t) := s.readAt o.agent.die (engKey o.agent) acq l k
    let (rest, u) ← t.engRead o (A + k) acq f (n - k)
    return (bs ++ rest, u)

/-- Bytes written from an address, one line's part after another: whole aligned lines as full-line writes (R313). What was
written before a fault stays written. fuel bounds the parts. -/
def State.engWrite (s : State) (o : EngOp) (A : Nat) (bs : List Byte) : Nat → State × Option FI
  | 0 => (s, none)
  | f + 1 =>
    if bs = [] then (s, none)
    else
      let k := min bs.length (128 - A % 128)
      match s.access o.who A k 1 true with
      | .error e => (s, some e)
      | .ok l => (s.write (some o.agent.die) (engKey o.agent) none l (bs.take k)).engWrite o (A + k) (bs.drop k) f

/-- Parts that n bytes from any address have at most. -/
def partsOf (n : Nat) : Nat := n / 128 + 2

/-- The accesses of an operation to n bytes from an address can be performed: the links that they cross are open (R391), and what comes
before the writes that they read is performed (R178). -/
def State.engOpen (s : State) (o : EngOp) (A n : Nat) (write : Bool) : Bool :=
  n == 0 || (range (A / 128) (ceilDiv (A % 128 + n) 128)).all fun i =>
    let lo := max A (128 * i)
    let k := min (A + n) (128 * i + 128) - lo
    match s.resolve o.who lo k write with
    | .ok l => s.linkTo o.agent.die l && (write || s.depsMet (engKey o.agent) o.agent.die l k)
    | .error _ => true

/-- A mem copy: line by line of the destination (R313). -/
def State.copyMem (s : State) (o : EngOp) (dst src : Nat) : Nat → Nat → State × Option FI
  | _, 0 => (s, none)
  | 0, _ => (s, none)
  | f + 1, n =>
    let k := min n (128 - dst % 128)
    match s.engRead o src none 3 k with
    | .error e => (s, some e)
    | .ok (bs, t) =>
      match t.engWrite o dst bs 2 with
      | (u, some e) => (u, some e)
      | (u, none) => u.copyMem o (dst + k) (src + k) f (n - k)

/-- A mem copy whose ranges overlap leaves free bytes at its destination (R312, R3). -/
def State.copyFree (s : State) (o : EngOp) (dst n : Nat) : State × Option FI :=
  let (bs, t) := s.freeBytes n
  t.engWrite o dst bs (partsOf n)

/-- Writes of an agent that some die has not applied and that touch the n bytes at a place. -/
def State.writesTo (s : State) (ak : Nat) (l : Loc) (n : Nat) : List Nat :=
  (s.pend.filter fun w => w.agent == ak && w.cells.any fun c => decide (l.at_ ≤ c.1 ∧ c.1 < l.at_ + n)).map (·.id)

/-- A write that must be applied after others. -/
def State.writeAfter (s : State) (d : Fin 8) (ak : Nat) (after : List (Nat × Scope)) (l : Loc) (bs : List Byte) : State :=
  let deps := (union (s.before ak none) after).filter fun e => s.pending e.1
  (({ s with nextW := s.nextW + 1 }).enter s.nextW (some d) ak deps (some .dev) [] l bs).noteOwn ak s.nextW

/-- A write to a queue descriptor by an operation on it, which leaves other operations on it alone. -/
def State.unspoiled (s : State) (t : State) : State := { t with engine := s.engine, spoiled := s.spoiled }

/-! ## Faults of an engine (R313) -/

/-- A core no longer waits for an engine operation. -/
def Core.unwait (c : Core) (id : Nat) : Core :=
  match c.wait with
  | .engine i none => if i = id then { c with wait := .none } else c
  | _ => c

/-- Work that an engine does for a device queue or an expert queue. -/
def EngKind.forQueue : EngKind → Bool
  | .qpush .. | .qpop .. | .eqpush .. | .eqsent .. | .eqpop .. => true
  | _ => false

/-- The class and detail that an engine's fault is raised with: COPY (R313, R355); LINK where the host link is down (R454); MEM-ECC for
an uncorrectable error met by work for a queue (R412, R436). -/
def EngOp.raises (o : EngOp) (f : FI) : FI :=
  if f.cls = cLink ∨ (f.cls = cMemEcc ∧ o.kind.forQueue) then f else { f with cls := cCopy, detail := 0 }

/-- The record of an engine's fault: pc and words of the instruction that handed the work over (R421). -/
def State.copyRec (s : State) (o : EngOp) (f : FI) : FRec :=
  let f := o.raises f
  { addr := BitVec.ofNat 56 f.addr, pc := o.pc, detail := BitVec.ofNat 16 f.detail, lid := lidBits (s.openLaunch o.lid), src := agentSrc o.agent
    kind := agentKind o.agent, cls := BitVec.ofNat 8 f.cls, ctx := o.ctx, word := BitVec.ofNat 128 (o.word.toNat * 2 ^ 64) }

/-- A fault that an engine meets: its operation ends, a batch it was taking is untaken again, and the launch stops. -/
def State.copyFault (s : State) (o : EngOp) (f : FI) : State :=
  let s := s.endOp o.id
  let s := s.setCore o.agent ((s.core o.agent).unwait o.id)
  let s := match o.kind with
    | .eqpop q bseq _ _ =>
      let e := s.eq q
      s.setEq q { e with batches := e.batches.map fun (b : EqBatch) => if b.bseq = bseq then { b with taking := false } else b }
    | _ => s
  s.stopLaunch (s.openLaunch o.lid) (s.copyRec o f)

/-- An operation that has been performed, or has met a fault. -/
def engDone (o : EngOp) : State × Option FI → State
  | (t, none) => t.endOp o.id
  | (t, some f) => t.copyFault o f

/-! ## Rows and tables (R313, R433) -/

/-- Row r of a station is owned by another context than an operation's: an ownership event is raised, and the operation waits (R141,
R313). -/
def State.rowWaits (s : State) (o : EngOp) (n r : Nat) : Bool := (s.row n r).owner != some o.ctx

/-- Row r of a station written out. -/
def State.rowOut (s : State) (o : EngOp) (n r dst : Nat) : State × Option FI :=
  match s.sramRead (stnDie n) 1 n (32 * r) 32 with
  | (some f, u) => (u, some f)
  | (none, u) => u.engWrite o dst (putMany (putB 8) (u.row n r).cells.toList) 5

/-- Row r of a station filled; its E_acc stays. -/
def State.rowIn (s : State) (o : EngOp) (n r src : Nat) : State × Option FI :=
  match s.engRead o src none 5 256 with
  | .error f => (s, some f)
  | .ok (bs, u) =>
    ((u.sramWrite 1 n (32 * r) 32).setRow n r { u.row n r with
      cells := Vector.ofFn fun i => BitVec.ofNat 64 (leValue ((bs.drop (8 * i.val)).take 8)) }, none)

/-- Rows one after another: the first row, the address, and how many. -/
def rowsGo (f : State → Nat → Nat → State × Option FI) : State → Nat → Nat → Nat → State × Option FI
  | s, _, _, 0 => (s, none)
  | s, r, A, k + 1 =>
    match f s r A with
    | (t, some e) => (t, some e)
    | (t, none) => rowsGo f t (r + 1) (A + 256) k

/-- A table after narrow entries [e, e + n) were written through the debug window (R51, R377, R378). -/
def Table.debugWrite (tb : Table) (e n : Nat) : Table :=
  let lo := max e tb.ebase
  let hi := min (e + n) (tb.ebase + tb.size)
  if hi ≤ lo then tb
  else
    let hit := (range lo (hi - lo)).map fun k => (k - tb.ebase) / tb.step
    let places := hit.map fun k => (k / (tb.ks + 1), k % (tb.ks + 1))
    places.foldl (fun (tb : Table) (c, i) =>
      let set (m : Nat) : Nat := (if 0 < i then m ||| 2 ^ (i - 1) else m) ||| (if i < tb.ks then 2 ^ i else 0)
      { tb with zflags := listModify (fun _ => .invalid) c tb.zflags, bitmaps := listModify set c tb.bitmaps })
      { tb with wgen := tb.wgen + 1 }

/-- cpy.tbl: raw entries into the table store. -/
def State.tblIn (s : State) (o : EngOp) (n e k src : Nat) : State × Option FI :=
  match s.engRead o src none (partsOf (4 * k)) (4 * k) with
  | .error f => (s, some f)
  | .ok (bs, t) =>
    let st := t.stn n
    let st1 := ((groups 4 k bs).zip (range e k)).foldl (fun (st : Station) (g, i) => st.putNarrow i (BitVec.ofNat 32 (leValue g))) st
    let st2 := { st1 with tables := st1.tables.map fun (tb : Table) => tb.debugWrite e k }
    (st2.tables.foldl (fun (u : State) (tb : Table) => u.dropOld n tb.ctx tb.t) (t.setStn n st2), none)

/-! ## Device queues (R340, R341) -/

/-- A descriptor's 256 bits. -/
structure QDesc where
  base : Nat
  size : Nat
  pub : Nat
  tail : Nat
  head : Nat
  ok : Bool
  deriving DecidableEq, Repr

/-- The fields of Table 14-2. -/
def qdesc (d : Nat) : QDesc :=
  { base := fld d 187 132, size := 16 * 2 ^ fld d 131 128, pub := fld d 127 96, tail := fld d 95 64, head := fld d 63 32
    ok := decide (fld d 255 188 = 0 ∧ fld d 131 128 ≤ 12 ∧ fld d 31 0 = 0) }

/-- The address of a slot. -/
def QDesc.slot (q : QDesc) (i : Nat) : Nat := q.base + 64 * (i % q.size)

/-- n bytes of a descriptor as its home holds them; those that are undefined are free (R340, R3; log entry 75). -/
def State.descBytes (s : State) (l : Loc) (n : Nat) : List Byte × State :=
  if (range l.at_ n).any s.spoiled.contains then
    let (free, t) := s.freeBytes n
    (((s.home l n).zip (free.zip (range l.at_ n))).map fun (b, f, k) => if s.spoiled.contains k then f else b, t)
  else (s.home l n, s)

/-- The place of a descriptor and what its home holds, or a fault (R341): alignment of both operands, then the access, then
QUEUE-DESC. -/
def State.queueDesc (s : State) (A E : Nat) : Except FI (Loc × QDesc × State) := do
  if A % 32 ≠ 0 then throw { cls := cAlign, addr := A % 2 ^ 56 }
  if E % 64 ≠ 0 then throw { cls := cAlign, addr := E % 2 ^ 56 }
  let l ← s.access s.whoMe A 32 32 true
  if l.space ≠ .dev then throw { cls := cQueueDesc }
  match s.accessFault l 32 false (A % 2 ^ 56) with
  | some f => throw f
  | none =>
    let (bs, t) := s.descBytes l 32
    let q := qdesc (leValue bs)
    if q.ok then return (l, q, t) else throw { cls := cQueueDesc }

/-- A place some bytes further. -/
def Loc.plus (l : Loc) (n : Nat) : Loc := { l with at_ := l.at_ + n }

/-- A read and write of a descriptor at its home must wait: for a link (R391), or until the issuer's die has applied its earlier writes
(log entry 18). -/
def State.descWaits (s : State) (d : Fin 8) (l : Loc) : Bool := s.behind d.val l 32 || !s.linkTo d l

/-- QPUSH: a slot reserved at the descriptor's home, the entry's copy handed over. -/
def execQpush (x : Guard) (d a b : GReg) (s : State) : Host.Outcome State Fault Refusal :=
  let A := (s.me.rg a).toNat
  let E := (s.src2 b).toNat
  issue x s (orFault (s.queueDesc A E) fun (l, q, s0) =>
    if s.descWaits s.cur.die l then .wait s
    else if q.size ≤ (q.tail + 2 ^ 32 - q.head) % 2 ^ 32 then .done (s0.putG d 1)
    else
      let t := s0.unspoiled (s0.write (some s.cur.die) (engKey s.cur) none (l.plus 8) (leBytes 4 ((q.tail + 1) % 2 ^ 32)))
      .done ((t.handOver (.qpush A (q.slot q.tail) E q.tail false) [(l.at_, 32)]).putG d 0))

/-- QPOP: a slot taken at the descriptor's home; the result comes when the engine has copied it. -/
def execQpop (x : Guard) (d a b : GReg) (s : State) : Host.Outcome State Fault Refusal :=
  let A := (s.me.rg a).toNat
  let E := (s.src2 b).toNat
  issue x s (
    match s.me.wait with
    | .engine _ (some v) => .done (s.putG d v)
    | .engine _ none => .wait s
    | _ => orFault (s.queueDesc A E) fun (l, q, s0) =>
      if s.descWaits s.cur.die l then .wait s
      else if q.head = q.tail then .done (s0.putG d 0)
      else if q.head = q.pub then .wait s0
      else
        let t := s0.unspoiled (s0.write (some s.cur.die) (engKey s.cur) none (l.plus 4) (leBytes 4 ((q.head + 1) % 2 ^ 32)))
        let t := t.handOver (.qpop A (q.slot q.head) E) [(l.at_, 32)]
        .wait (t.setMe { t.me with wait := .engine s.nextId none }))

/-- A core that waits for an operation gets its answer; what the operation wrote and what its reads returned are ordered before
the core's later accesses (R341, R344). before is what the engine had seen when it began. -/
def State.answer (s : State) (o : EngOp) (before : List Nat) (v : DWord) : State :=
  let c := s.core o.agent
  match c.wait with
  | .engine i none =>
    if i = o.id then
      let ak := agentIdx o.agent
      let seen := (s.knows (engKey o.agent)).obs.filter fun id => s.pending id && !before.contains id
      (s.setCore o.agent { c with wait := .engine i (some v) }).setKnow ak
        ⟨union (s.knows ak).obs seen, union (s.knows ak).ord (seen.map (·, Scope.dev))⟩
    else s
  | _ => s

/-- An operation with another kind. -/
def State.setOp (s : State) (id : Nat) (k : EngKind) : State :=
  { s with engine := s.engine.map fun (e : EngOp) => if e.id = id then { e with kind := k } else e }

/-- A QPUSH goes on: the entry copied to its slot, then pub moved past it once every earlier slot has been copied. The move of
pub is a release: the copy and what is ordered before the push come first (R173, R341). On an undefined descriptor pub takes a free value
(R340; log entry 75). -/
def State.pushGo (s : State) (o : EngOp) (desc slot entry idx : Nat) (copied : Bool) : State :=
  let ek := engKey o.agent
  if !copied then
    if !(s.engOpen o entry 64 false && s.engOpen o slot 64 true) then s
    else match s.engRead o entry none 2 64 with
      | .error f => s.copyFault o f
      | .ok (bs, t) =>
        match t.engWrite o slot bs 3 with
        | (u, some f) => u.copyFault o f
        | (u, none) => u.setOp o.id (.qpush desc slot entry idx true)
  else
    match s.access o.who desc 32 32 true, s.access o.who slot 64 1 false with
    | .ok l, .ok sl =>
      let (bs, t) := s.descBytes (l.plus 12) 4
      let lost := (range l.at_ 32).any s.spoiled.contains
      if s.descWaits o.agent.die l then s
      else if !lost && leValue bs != idx then s
      else
        let new := if lost then bs else leBytes 4 ((idx + 1) % 2 ^ 32)
        (t.unspoiled (t.writeAfter o.agent.die ek (union (s.knows ek).ord ((s.writesTo ek sl 64).map (·, Scope.dev))) (l.plus 12) new)).endOp o.id
    | .error f, _ => s.copyFault o f
    | _, .error f => s.copyFault o f

/-- A QPOP's copy (R341): pub and the slot are read as an acquire. -/
def State.popGo (s : State) (o : EngOp) (desc slot dst : Nat) : State :=
  if !(s.engOpen o (desc + 12) 4 false && s.engOpen o slot 64 false && s.engOpen o dst 64 true) then s
  else match s.engRead o (desc + 12) (some .dev) 2 4 with
    | .error f => s.copyFault o f
    | .ok (_, s1) =>
      match s1.engRead o slot (some .dev) 2 64 with
      | .error f => s1.copyFault o f
      | .ok (bs, t) =>
        match t.engWrite o dst bs 3 with
        | (u, some f) => u.copyFault o f
        | (u, none) => (u.answer o (s.knows (engKey o.agent)).obs 1).endOp o.id

/-! ## Expert queues (R343, R344, R372) -/

/-- An entry's 256 bits without those that are reserved (R7, Table 14-4). -/
def entryBits (d : Nat) : BitVec 256 := BitVec.ofNat 256 (setFld (setFld (setFld (setFld d 255 248 0) 191 176 0) 159 152 0) 143 128 0)

/-- An EQPUSH goes on: its entry is read and sent to the unit, after the earlier pushes of its core to the queue and after
everything ordered before it (R343), when the links it crosses are open. -/
def State.eqpushGo (s : State) (o : EngOp) (q A : Nat) : State :=
  let earlier := s.engine.any fun e => e.agent == o.agent && decide (e.id < o.id) && (match e.kind with
    | .eqpush k _ => k == q
    | _ => false)
  if earlier || ((s.knows (engKey o.agent)).ord.any fun e => s.pending e.1) || !s.engOpen o A 32 false
      || !s.linkOpen (some o.agent.die.val) (eqDie q).val then s
  else match s.engRead o A none 2 32 with
    | .error f => s.copyFault o f
    | .ok (bs, t) =>
      let d := eqDie q
      let p : EqPush := ⟨q, entryBits (leValue bs), o.ctx, o.lid, A, o.id⟩
      (t.setDie d { t.die d with eqIn := (t.die d).eqIn ++ [p] }).setOp o.id (.eqsent q)

/-- Entries read from wherever they are stored, in queue order. -/
def State.entriesRead (s : State) (q : Nat) : List EqEntry → List Byte × State
  | [] => ([], s)
  | e :: es =>
    let (d, t) := s.entryRead q e
    let (bs, u) := t.entriesRead q es
    (leBytes 32 d.toNat ++ bs, u)

/-- An EQPOP's copy: the batch's entries, then their places freed (R344, R372). -/
def State.eqpopGo (s : State) (o : EngOp) (q bseq count dst : Nat) : State :=
  if !(s.engOpen o dst (32 * count) true && s.linkOpen (some (eqDie q).val) o.agent.die.val) then s
  else
    let (bs, t) := s.entriesRead q ((s.eq q).entries.filter (·.batch == some bseq))
    match t.engWrite o dst bs (partsOf (32 * count)) with
    | (u, some f) => u.copyFault o f
    | (u, none) =>
      let v := (u.dropBatch q bseq).answer o (s.knows (engKey o.agent)).obs (BitVec.ofNat 64 count)
      match o.lid with
      | some lid => (v.modLaunch lid fun l => { l with batchDone := true }).endOp o.id
      | none => v.endOp o.id

/-! ## SCLONE (R355, R454) -/

/-- The header of an SCLONE list: cval, cnt, n. -/
def cloneHead (h : Nat) : Bool × Nat × Nat := (bitOf h 30, fld h 29 16, fld h 15 0)

/-- The places of n bytes of a list from an address, part by part, as far as they resolve. -/
def State.placesOf (s : State) (w : Who) (A n : Nat) : List (Nat × Nat) :=
  (range (A / 128) (ceilDiv (A % 128 + n) 128)).filterMap fun i =>
    let lo := max A (128 * i)
    let k := min (A + n) (128 * i + 128) - lo
    match s.resolve w lo k false with
    | .ok l => some (l.at_, k)
    | .error _ => none

/-- SCLONE: the list's header is read at issue. -/
def execSclone (x : Guard) (a b : GReg) (s : State) : Host.Outcome State Fault Refusal :=
  let p := (s.me.rg a).toNat
  let A := (s.src2 b).toNat
  issue x s (
    if 18 ≤ p ∨ A % 16 ≠ 0 then copyRange
    else orFault (s.access s.whoMe A 16 16 false) fun l =>
      if !s.mayAccess (agentIdx s.cur) s.cur.die l 16 then .wait s
      else
        let (bs, t) := s.readAt s.cur.die (agentIdx s.cur) none l 16
        let (_, _, n) := cloneHead (leValue bs)
        if 1 ≤ n ∧ n ≤ 4096 then .done (t.handOver (.sclone p A 0 0 none) (s.placesOf s.whoMe A (16 + 32 * n))) else copyRange)

/-- Bytes of an SCLONE's list: free ones once the list has been changed (R355, R3; log entry 74). -/
def State.listRead (s : State) (o : EngOp) (A n : Nat) : Except FI (List Byte × State) := do
  let (bs, t) ← s.engRead o A none 2 n
  if o.bad then return t.freeBytes n else return (bs, t)

/-- Sends a read request for the next part of an SCLONE, or, when every entry has been performed at .dev, ends it with its
counter's increment (R355). A link that is down ends it with COPY (R454). -/
def State.cloneGo (s : State) (o : EngOp) (p list entry off : Nat) (asked : Option Nat) : State :=
  let ek := engKey o.agent
  if asked.isSome || !s.engOpen o list 16 false || !s.engOpen o (list + 16 + 32 * entry) 32 false then s
  else match s.listRead o list 16 with
    | .error f => s.copyFault o f
    | .ok (h, s1) =>
      let (cval, cnt, n) := cloneHead (leValue h)
      if n ≤ entry then
        if s1.ownPending ek then s
        else
          let t := s1.endOp o.id
          if cval then { t with cmsgs := t.cmsgs ++ [⟨agentIdx o.agent, cnt, true, 1, []⟩] } else t
      else match s1.listRead o (list + 16 + 32 * entry) 32 with
        | .error f => s1.copyFault o f
        | .ok (e, t) =>
          let len := fld (leValue e) 191 128
          let from_ := (fld (leValue e) 55 0 + off) % 2 ^ 56
          if len ≤ off then t.setOp o.id (.sclone p list (entry + 1) 0 none)
          else if h : p < 18 then
            if t.peers[p].up then
              ({ t with peers := t.peers.set p (t.peers[p].send 2 (min 224 (len - off)) from_ []) }).setOp o.id
                (.sclone p list entry off (some from_))
            else t.copyFault o { cls := cCopy, addr := from_ }
          else t

/-- Read data that a peer sends is written for the SCLONE that asked for its address (R355). -/
def State.cloneData (s : State) (p : Nat) (f : Flit) : State :=
  let asks (o : EngOp) : Bool := match o.kind with | .sclone q _ _ _ (some A) => q == p && A == f.addr | _ => false
  match s.engine.find? asks with
  | none => s
  | some o =>
    match o.kind with
    | .sclone q list entry off _ =>
      match s.listRead o (list + 16 + 32 * entry) 32 with
      | .error e => s.copyFault o e
      | .ok (e, t) =>
        let local_ := fld (leValue e) 119 64
        let bs := f.payload.take f.used
        match t.engWrite o (local_ + off) bs 4 with
        | (u, some e) => u.copyFault o e
        | (u, none) => u.setOp o.id (.sclone q list entry (off + bs.length) none)
    | _ => s

/-! ## The event -/

/-- A build or fold runs at a station: debug writes wait for it (R433). -/
def Station.building (st : Station) : Bool := st.bg.any fun b => b.kind != .pupd

/-- Ownership events for the rows of a copy that another context owns; none when it owns them all. -/
def State.askRows (s : State) (o : EngOp) (n r k : Nat) : Option State :=
  let other := (range r k).filter (s.rowWaits o n)
  if other = [] then none else some (other.foldl (fun (t : State) j => t.askOwn n (.row o.ctx o.lid j)) s)

/-- COPY_COMPLETE: the n-th outstanding engine operation is performed, or goes on (R153, R171, R313). It waits for links that it crosses
(R391) and, at a row of another context, for the collier (R141). -/
def execCopyComplete (n : Nat) (s : State) : Host.Outcome State Fault Refusal :=
  .next (match s.engine[n]? with
    | none => s
    | some o =>
      match o.kind with
      | .mem dst src len =>
        if !(s.engOpen o src len false && s.engOpen o dst len true) then s
        else if len ≠ 0 ∧ dst < src + len ∧ src < dst + len then engDone o (s.copyFree o dst len)
        else engDone o (s.copyMem o dst src (partsOf len) len)
      | .aout dst stn row k =>
        if !s.engOpen o dst (256 * k) true then s
        else (s.askRows o stn row k).getD (engDone o (rowsGo (fun t r A => t.rowOut o stn r A) s row dst k))
      | .ain stn row k src =>
        if !s.engOpen o src (256 * k) false then s
        else (s.askRows o stn row k).getD (engDone o (rowsGo (fun t r A => t.rowIn o stn r A) s row src k))
      | .tbl stn e k src =>
        if (s.stn stn).building || !s.engOpen o src (4 * k) false then s else engDone o (s.tblIn o stn e k src)
      | .qpush desc slot entry idx copied => s.pushGo o desc slot entry idx copied
      | .qpop desc slot dst => s.popGo o desc slot dst
      | .eqpush q A => s.eqpushGo o q A
      | .eqsent _ => s
      | .eqpop q bseq count dst => s.eqpopGo o q bseq count dst
      | .sclone p list entry off asked => s.cloneGo o p list entry off asked)

end Sys2Proof.Machine
end

