-- ==== Sys2Proof/Machine/Futures.lean ====
section
/-! DEFINITION. Futures, launch from the device and shapes (R345 to R350, R129): FREAD, FWRITE and the walk that follows it,
LPATCH, LARM, SHAPE. -/

namespace Sys2Proof.Machine

/-! ## Regions (R88, R125) -/

/-- The core of a die at a place of a region: index over the width, in rows of 16 cores (R16, R88). -/
def Region.coreAt (g : Region) (i : Nat) : Nat := g.core + i / g.w * 16 + i % g.w

/-- The physical station that a relative station field names (R88). -/
def physOf (rs : List Region) (rel : BitVec 16) : Option (BitVec 16) :=
  let n := rel.toNat
  match rs[n / 8192]? with
  | none => none
  | some g =>
    let i := n / 64 % 128
    if i < g.w * g.h then some (BitVec.ofNat 16 (g.die.val * 8192 + g.coreAt i * 64 + n % 64)) else none

/-- The launch of the issuing core. -/
def State.myLaunch (s : State) : Option Launch := s.me.lid.bind s.launch

/-- The launch of the issuing core was armed by a LARM or by a queue, not by a host request (R442; log entry 26). -/
def State.myDev (s : State) : Bool := match s.myLaunch with | some l => l.dev | none => false

/-- CONFIG-RANGE for a destination out of range (Table 24-1). -/
def configRange (dev : Bool) : FI := { cls := cConfigRange, detail := launchDetail 9 dev }

/-- The slot that a launch's configuration places at a station: its instruction. -/
def State.slotAt (s : State) (lid n : Nat) (slot : BitVec 4) : Option Instr :=
  ((s.stn n).ctxs.toList.find? fun c => c.lid == some lid && c.tag.isSome).bind fun c => c.instr slot

/-! ## FREAD and FWRITE (R345 to R347) -/

/-- LAUNCH-RECORD or another launch class at an instruction (R442). -/
def launchFault (cls why : Nat) (dev : Bool) : FI := { cls, detail := launchDetail why dev }

/-- A continuation record checked and made ready for linking: its bytes with the physical destination (R346). -/
def State.checkRecord (s : State) (bs : List Byte) : Except FI (List Byte) :=
  let r := leValue bs
  match fld r 159 158 with
  | 0 =>
    match s.recCtx (fld r 143 128) with
    | .ok c => if c = s.me.ctx then .ok bs else .error (launchFault cLaunchRecord 5 s.myDev)
    | .error _ => .error (launchFault cLaunchRecord 0 s.myDev)
  | 1 =>
    match s.myLaunch.bind fun l => physOf l.placed (BitVec.ofNat 16 (fld r 149 134)) with
    | some p => .ok (leBytes 32 (setFld r 149 134 p.toNat))
    | none => .error (configRange s.myDev)
  | _ => .error (launchFault cLaunchRecord 0 s.myDev)

/-- The future's place, its bytes at home. -/
def State.future (s : State) (A : Nat) (write : Bool) : Except FI (Loc × Nat) := do
  let l ← s.access s.whoMe A 16 16 write
  match s.accessFault l 16 false A with
  | some f => throw f
  | none => return (l, leValue (s.home l 16))

/-- FREAD on an empty future with a record: the record checked and written, then linked at the head. -/
def State.linkRecord (s : State) (l : Loc) (fut R : Nat) (A : Nat) : Except FI State := do
  let r ← s.access s.whoMe R 32 32 true
  match s.accessFault r 32 false R with
  | some f => throw f
  | none =>
    let bs ← s.checkRecord (s.home r 32)
    let _ ← s.future A true
    let new := leBytes 7 (fld fut 119 64) ++ bs.drop 7
    let d := s.cur.die
    let ak := agentIdx s.cur
    let t := s.write (some d) ak none r new
    let t := t.writeAfter d ak [(s.nextW, .dev)] (l.plus 8) (leBytes 7 R)
    return { t with readers := spInsert t.readers r.at_ s.me.ctx }

/-- A future's access must wait: until its die has applied the future's earlier writes (log entry 18), for a link (R391), or for an earlier
access of its core to it. -/
def State.futureWaits (s : State) (l : Loc) : Bool :=
  s.behind s.cur.die.val l 16 || !s.mayAccess (agentIdx s.cur) s.cur.die l 16

/-- FREAD: the guard predicate tells whether the value was there. -/
def execFread (x : Guard) (d a b : GReg) (s : State) : Host.Outcome State Fault Refusal :=
  let A := (s.me.rg a).toNat
  let R := (s.src2 b).toNat
  issue x s (orFault (s.future A false) fun (l, fut) =>
    if s.futureWaits l then .wait s
    else if bitOf fut 127 then
      let (_, t) := s.readAt s.cur.die (agentIdx s.cur) (some .dev) l 16
      .done ((t.putG d (BitVec.ofNat 64 fut)).putP x.p (BitVec.allOnes 32))
    else
      let t := s.noteRead s.cur.die.val (agentIdx s.cur) none l 16
      if R = 0 then .done (t.putP x.p 0)
      else orFault (t.linkRecord l fut R A) fun u => .done (u.putP x.p 0))

/-- FWRITE: the future is filled, its reserved bits as 0 (R7); the walk over its list follows. -/
def execFwrite (x : Guard) (a b : GReg) (s : State) : Host.Outcome State Fault Refusal :=
  let A := (s.me.rg a).toNat
  let v := s.src2 b
  let c := s.me
  issue x s (orFault (s.future A true) fun (l, fut) =>
    if s.futureWaits l then .wait s
    else if bitOf fut 127 then .fault { cls := cFutureFull }
    else if s.mustRelease (some .dev) then .wait s
    else
      let t := (s.markRelease (some .dev)).write (some s.cur.die) (agentIdx s.cur) (some .dev) l
        (leBytes 8 v.toNat ++ leBytes 8 (fut / 2 ^ 64 % 2 ^ 56 + 2 ^ 63))
      let head := fld fut 119 64
      let w := s.coreWord s.cur c.pc.toNat * 2 ^ 32 + (if s.limm.isSome then s.coreWord s.cur (c.pc.toNat + 4) else 0)
      let k : Cont := ⟨s.cur, c.ctx, c.lid, c.pc, BitVec.ofNat 64 w, head, v, t.relSet (agentIdx s.cur)⟩
      .done (if head = 0 then t else { t with conts := t.conts ++ [k] }))

/-- A walk as an operation of its core's engine. -/
def Cont.op (k : Cont) : EngOp := { id := 0, agent := k.agent, ctx := k.ctx, lid := k.lid, pc := k.pc, word := k.word, kind := .eqsent 0 }

/-- Key of a core's engine among the senders of tokens (R107). -/
def engSrc (a : Agent) : Nat := 2 ^ 25 + agentIdx a

/-- The level of the slot that a token is sent to, as the context of a tag at that station has it; level 1 where it has
none. -/
def State.slotLevel (s : State) (n : Nat) (ctx : Byte) (slot : BitVec 4) : Nat :=
  match (s.stn n).ctxs.toList.find? fun c => c.tag == some ctx with
  | some c => (((c.instr slot).bind stnHead).map lvlOf).getD 1
  | none => 1

/-- One record of a list carried out (R347): a launch armed as a LARM would, or an INT64 scalar sent. -/
def State.runRecord (s : State) (k : Cont) (at_ r : Nat) : State :=
  match fld r 159 158 with
  | 0 =>
    let d := k.agent.die
    s.setDie d { s.die d with armq := (s.die d).armq ++ [⟨fld r 143 128, some k.value, k.ctx, none, none, []⟩] }
  | 1 =>
    let ctx := (spFind s.readers at_).getD k.ctx
    let dest : Dest := ⟨BitVec.ofNat 16 (fld r 149 134), BitVec.ofNat 4 (fld r 133 130), BitVec.ofNat 2 (fld r 129 128), 0⟩
    let L := s.slotLevel dest.stn.toNat ctx dest.slot
    let tok := scalarTok .int64 L (cutTag (setTagCtx (BitVec.ofNat 64 (fld r 127 64)) ctx) L) k.value.toNat
    s.sendTo (engSrc k.agent) none (some dest) [tok]
  | _ => s

/-- CONTINUATION_DISPATCH: the next record of the n-th walk, once what is ordered before the fill has been performed. -/
def execContinuationDispatch (n : Nat) (s : State) : Host.Outcome State Fault Refusal :=
  .next (match s.conts[n]? with
    | none => s
    | some k =>
      if k.after.any s.pending || !s.engOpen k.op k.addr 32 false then s
      else
        let go (t : State) (next : Nat) : State :=
          { t with conts := if next = 0 then listRemove n t.conts else listModify (fun k => { k with addr := next }) n t.conts }
        match s.access k.op.who k.addr 32 32 false with
        | .error f => go (s.stopLaunch (s.openLaunch k.lid) (s.copyRec k.op f)) 0
        | .ok l =>
          let (bs, t) := s.readAt k.agent.die (engKey k.agent) none l 32
          let r := leValue bs
          let u := t.runRecord k l.at_ r
          go { u with readers := spErase u.readers l.at_ } (fld r 55 0))

/-! ## LPATCH and LARM (R129, R348, R349) -/

/-- The place of n bytes of the record pool, written under key 0 (R117, R161). -/
def State.poolLoc (s : State) (pa n : Nat) : Except FI Loc :=
  if devSize ≤ pa then .error { cls := cTranslation, addr := pa % 2 ^ 56, detail := trDetail 7 5 }
  else match spFind s.keys 0 with
    | none => .error { cls := cKey, addr := pa }
    | some k => match s.lineFault pa n true pa with
      | some f => .error f
      | none => .ok { space := .dev, at_ := pa, key := k }

/-- LPATCH. -/
def execLpatch (x : Guard) (a b : GReg) (u : BitVec 5) (s : State) : Host.Outcome State Fault Refusal :=
  let rec_ := (s.me.rg a).toNat
  if 24 ≤ u.toNat then illegal s
  else issue x s (
    if 65536 ≤ rec_ then .fault (launchFault cLaunchRecord 0 s.myDev)
    else orFault (s.recCtx rec_) fun c =>
      if c ≠ s.me.ctx then .fault (launchFault cLaunchRecord 5 s.myDev)
      else if s.recBusy rec_ then .fault (launchFault cLaunchBusy 8 s.myDev)
      else orFault (s.poolLoc (s.recAddr rec_ + 64 + 8 * u.toNat) 8) fun l =>
        storeOut s false .dev l (leBytes 8 (s.src2 b).toNat))

/-- LARM: a request in the die's arm queue; it completes with the scheduler's answer. -/
def execLarm (x : Guard) (a : GReg) (s : State) : Host.Outcome State Fault Refusal :=
  let rec_ := (s.me.rg a).toNat
  let c := s.me
  let d := s.cur.die
  issue x s (
    match c.wait with
    | .arm (some none) => .done s
    | .arm (some (some r)) => .fault { cls := r.cls.toNat, addr := r.addr.toNat, detail := r.detail.toNat }
    | .arm none => .wait s
    | _ =>
      if 65536 ≤ rec_ then .fault (launchFault cLaunchRecord 0 true)
      else
        let q : ArmReq := ⟨rec_, none, c.ctx, some s.cur, none, s.relSet (agentIdx s.cur)⟩
        .wait ((s.setDie d { s.die d with armq := (s.die d).armq ++ [q] }).setMe { c with wait := .arm none }))

/-! ## SHAPE (R350) -/

/-- A region request byte (R117): exact, width, height. -/
def requestOf (b : Nat) : Bool × Nat × Nat := (bitOf b 7, fld b 3 0 + 1, fld b 6 4 + 1)

/-- The request byte of a width and height. -/
def requestByte (exact : Bool) (w h : Nat) : Nat := b2n exact * 128 + (h - 1) * 16 + (w - 1)

/-- A core's shape of a region; it starts as the grant. -/
def Core.shape (c : Core) (g : Region) (j : Nat) : Nat × Nat := spGet (g.w, g.h) c.shapes j

/-- The region that a SHAPE names, or CONFIG-RANGE. -/
def shapeRegion (s : State) (a : GReg) (k : Region → Nat → CoreOut) : CoreOut :=
  let j := (s.me.rg a).toNat
  match s.myLaunch.bind fun l => l.regions[j]? with
  | some g => k g j
  | none => .fault (configRange s.myDev)

/-- SHAPE request. A request above 8 bits has no result that the spec gives: a free value. -/
def execShapeRequest (x : Guard) (d a b : GReg) (s : State) : Host.Outcome State Fault Refusal :=
  let v := (s.src2 b).toNat
  issue x s (onlyBy s [.access, .drain] (shapeRegion s a fun g j =>
    if 256 ≤ v then
      let (bs, t) := s.freeBytes 8
      .done (t.putG d (BitVec.ofNat 64 (leValue bs)))
    else
      let (exact, w, h) := requestOf v
      let gw := if exact then w else min w g.w
      let ok := if exact then decide (w ≤ g.w ∧ h ≤ g.h) else decide (h ≤ g.h ∧ ceilDiv w 2 ≤ gw)
      if ok then
        let c := s.me
        .done ((s.setMe { c with shapes := spInsert c.shapes j (gw, h) }).putG d (BitVec.ofNat 64 (256 + requestByte exact gw h)))
      else .done (s.putG d 0)))

/-- SHAPE query. -/
def execShapeQuery (x : Guard) (d a _b : GReg) (s : State) : Host.Outcome State Fault Refusal :=
  issue x s (onlyBy s [.access, .drain] (shapeRegion s a fun g j =>
    let (w, h) := s.me.shape g j
    .done (s.putG d (BitVec.ofNat 64 (256 + requestByte false w h)))))

end Sys2Proof.Machine
end

