-- ==== Sys2Proof/Machine/Inject.lean ====
section
/-! DEFINITION. Tokens between cores and the fabric (R113, R115, R116, R352, R353) and random values (R354): TINJ, TRCV, RNG. -/

namespace Sys2Proof.Machine

/-! ## TINJ (R352) -/

/-- A TINJ descriptor's 64 bits. -/
structure InjDesc where
  exp : Nat
  len : Nat
  fcode : Nat
  act : BitVec 2
  stn : BitVec 16
  slot : BitVec 4
  port : BitVec 2
  zero : Bool
  deriving DecidableEq, Repr

/-- The fields of a descriptor register. -/
def injDesc (v : DWord) : InjDesc :=
  let n := v.toNat
  { exp := fld n 55 48, len := fld n 47 32, fcode := fld n 29 24, act := BitVec.ofNat 2 (fld n 23 22)
    stn := BitVec.ofNat 16 (fld n 21 6), slot := BitVec.ofNat 4 (fld n 5 2), port := BitVec.ofNat 2 (fld n 1 0)
    zero := decide (fld n 63 56 = 0 ∧ fld n 31 30 = 0) }

/-- The format of a token to inject, or none where the descriptor is illegal. -/
def InjDesc.fmt (d : InjDesc) (ty : BitVec 4) : Option Fmt :=
  if !d.zero || d.act == 3 || (ty != 0xF && d.fcode != 0) then none
  else match fmtOfShort ty.toNat d.fcode with
    | some .wide => none
    | some f => if d.exp ≠ 0 ∧ (fmtBsi f).isNone ∧ f ≠ .e2m1b then none else some f
    | none => none

/-- The destination of an injection: the launch, the physical station, the level of the slot there. -/
def State.injDest (s : State) (d : InjDesc) : Option (Nat × BitVec 16 × Nat) :=
  match s.myLaunch with
  | none => none
  | some l =>
    match physOf l.placed d.stn with
    | none => none
    | some p =>
      match s.slotAt l.lid p.toNat d.slot with
      | none => none
      | some i => if (slotPorts i).contains d.port then (stnHead i).map fun h => (l.lid, p, lvlOf h) else none

/-- What an earlier fence or release of the issuing core orders before a token is not all performed yet: its accesses on their way, and
the writes that its counter writes release (R352). -/
def State.tokenWaits (s : State) : Bool :=
  let ak := agentIdx s.cur
  s.flying.any (fun f => agentIdx f.agent == ak && f.ordered) || s.cmsgs.any fun m => m.src == ak && m.after.any s.pending

/-- A token injected, when its station accepts tokens (R103, R113) and what is ordered before it is performed (R352). -/
def injectOut (s : State) (d : InjDesc) (lid : Nat) (p : BitVec 16) (ts : List Token) : CoreOut :=
  if (s.stn p.toNat).free < 4 || s.tokenWaits then .wait s
  else .done (s.sendTo (coreKey s.cur) (some lid) (some ⟨p, d.slot, d.port, d.act⟩) ts)

/-- The tag of an injected token: the core's context, fields deeper than the level 0. -/
def injTag (c : Core) (v : DWord) (L : Nat) : DWord := setTagCtx (cutTag v L) c.ctx

/-- TINJ, R form: a scalar, or a run. -/
def execTinjR (x : Guard) (run : Bool) (ty : BitVec 4) (t a b : GReg) (s : State) : Host.Outcome State Fault Refusal :=
  let c := s.me
  let d := injDesc (s.src2 b)
  issue x s (onlyBy s [.access] (
    match d.fmt ty with
    | none => .fault { cls := cIllegal }
    | some f =>
      match s.injDest d with
      | none => .fault (configRange s.myDev)
      | some (lid, p, L) =>
        let n := if run then d.len + 1 else 1
        let tag := injTag c (c.rg t) L
        if fieldSize L < n then .fault { cls := cShape }
        else if fmtEmulated f then .fault { cls := cFormatEmulate, detail := f.code }
        else
          let v := (c.rg a).toNat
          let lanes := lanesOf f (if twoLanes f then v else v % 2 ^ 32)
          injectOut s d lid p (splitTok (mkToken f (if run then .run else .scalar) L tag n (BitVec.ofNat 8 d.exp) lanes))))

/-- A g register named by a V-form field. -/
def gOf (n : Fin 16) : GReg := Fin.ofNat 32 n.val

/-- TINJ, V form: a dense token over the mask's lanes 0 to n - 1. FP64 has no hardware (R60). -/
def execTinjV (x : Guard) (ty : BitVec 4) (desc : Fin 16) (a : VReg) (t : Fin 16) (m : PReg) (s : State) :
    Host.Outcome State Fault Refusal :=
  let c := s.me
  let d := injDesc (c.rg (gOf desc))
  let mask := (c.rp m).toNat
  let n := popcount 32 mask
  if ty = 3 then illegal s
  else issue x s (onlyBy s [.access] (
    match d.fmt ty with
    | none => .fault { cls := cIllegal }
    | some f =>
      if mask ≠ 2 ^ n - 1 then .fault { cls := cShape }
      else match s.injDest d with
        | none => .fault (configRange s.myDev)
        | some (lid, p, L) =>
          if fmtEmulated f then .fault { cls := cFormatEmulate, detail := f.code }
          else if n = 0 then .done s
          else
            let lanes := (((c.rv a).toList.take n).map fun (v : Word) => lanesOf f v.toNat).flatten
            injectOut s d lid p (splitTok (mkToken f .dense L (injTag c (c.rg (gOf t)) L) n (BitVec.ofNat 8 d.exp) lanes))))

/-! ## TRCV (R353) -/

/-- The header summary of an entry. -/
def Token.summary (t : Token) : DWord :=
  BitVec.ofNat 64 (t.ty.fcode * 2 ^ 24 + t.level.toNat * 2 ^ 22 + shapeCode t.shape * 2 ^ 20 + t.ty.short * 2 ^ 16
    + (t.n - 1) % 2 ^ 16)

/-- Lane 0 as a register value, extended under R95, or lanes 0 and 1 of a two-lane type. -/
def Token.scalarValue (t : Token) : DWord :=
  if twoLanes t.ty then BitVec.ofNat 64 (t.val 0)
  else match fmtInt t.ty, fmtBsi t.ty with
    | some (_, true), _ => BitVec.ofInt 64 (sext (t.val 0) 32)
    | none, some _ => BitVec.ofInt 64 (sext (t.val 0) 32)
    | _, _ => BitVec.ofNat 64 (t.val 0)

/-- The oldest entry of the issuing core's queue. -/
def withEntry (s : State) (k : Token → List Token → CoreOut) : CoreOut :=
  match s.me.rq with
  | [] => .wait s
  | t :: rest => k t rest

/-- TRCV take. -/
def execTrcvTake (x : Guard) (d t : GReg) (s : State) : Host.Outcome State Fault Refusal :=
  issue x s (onlyBy s [.access, .drain] (withEntry s fun e rest =>
    if e.shape = .dense then .fault { cls := cShape }
    else .done (s.setMe ((({ s.me with rq := rest } : Core).wg d e.scalarValue).wg t e.tag))))

/-- TRCV peek. -/
def execTrcvPeek (x : Guard) (d t : GReg) (s : State) : Host.Outcome State Fault Refusal :=
  issue x s (onlyBy s [.access, .drain] (withEntry s fun e _ => .done (s.setMe ((s.me.wg d e.summary).wg t e.tag))))

/-- A destination parameter block (Table 04-7). -/
structure PBlock where
  adj : Int
  pack : Bool
  sat : Bool
  rnd : Nat
  fmt : Fmt
  deriving DecidableEq, Repr

/-- A block's 128 bits, or none where a value is reserved or the format is not one of the seven; reserved bits are ignored (R7). -/
def pblock (b : Nat) : Option PBlock :=
  if fld b 10 8 ≤ 4 then
    match fmtOfCode (fld b 5 0) with
    | some f =>
      if [Fmt.int8, .int16, .int32, .e4m3, .e5m2, .bf16, .fp32].contains f then
        some ⟨sext (fld b 31 24) 8, bitOf b 13, bitOf b 12, fld b 10 8, f⟩
      else none
    | none => none
  else none

/-- The rounding mode of a block, with its random value. -/
def PBlock.rm (b : PBlock) (z : Nat) : Rm :=
  match b.rnd with | 0 => .rne | 1 => .rtz | 2 => .rup | 3 => .rdn | _ => .sr z

/-- A value of an entry, decoded, times 2^adj. -/
def PBlock.input (b : PBlock) (m : FpMode) (t : Token) (i : Nat) : FVal :=
  if t.ty = .e2m1b then
    match decodeF .e2m1 (t.val i) m.fzi8 with
    | .num x => .num (x.scale ((t.exp.toNat : Int) - 127 + b.adj))
    | v => v
  else match t.read m i with
    | .int x => .num (Exact.ofInt x b.adj)
    | .bsi x => .num (x.scale b.adj)
    | .flt (.num x) => .num (x.scale b.adj)
    | .flt v => v

/-- One converted value and its flags (R116). Where an integer format meets a NaN or an infinity, which R116 does not
wrap, the result is that of a clamp, with NV (log entry 76). -/
def PBlock.convert (b : PBlock) (m : FpMode) (rm : Rm) (v : FVal) : Nat × Flags :=
  match fmtInt b.fmt, fmtFF b.fmt with
  | some (w, sg), _ =>
    match v with
    | .num x =>
      let (y, ix) := roundInt x rm
      let fx := flagIf ix fNX
      if b.sat then
        let z := max (intLo w sg) (min (intHi w sg) y)
        (trunc z w, fx ||| flagIf (z != y) fNV)
      else (trunc y w, fx)
    | v => let (y, f) := toIntClamp v (intLo w sg) (intHi w sg) rm; (trunc y w, f)
  | none, some f => convertF v f rm (m.fzo f)
  | none, none => (0, 0)

/-- Bytes of a result packed in vd. -/
def PBlock.bytes (b : PBlock) : Nat :=
  match fmtInt b.fmt, fmtFF b.fmt with
  | some (w, _), _ => w / 8
  | none, some f => f.width / 8
  | none, none => 4

/-- The lanes of vd for the results of a block; results beyond what vd holds are dropped (log entry 77). -/
def PBlock.lanes (b : PBlock) (rs : List Nat) : Vector Word 32 :=
  if b.pack then
    let bs := (rs.map (leBytes b.bytes)).flatten
    Vector.ofFn fun j => BitVec.ofNat 32 (leValue ((bs.drop (4 * j.val)).take 4))
  else Vector.ofFn fun j => ((rs[j.val]?).bind fun r => (lanesOf b.fmt r).head?).getD 0

/-- The entries that a TRCV V under a block takes: the value entry and, under SR, its random entry (R116). -/
def pickEntries (sr : Bool) (rq : List Token) : Option (Token × Option Token) :=
  if sr then
    match rq.find? fun t => t.ty != .uint16 with
    | none => none
    | some v =>
      (rq.find? fun t => t.ty == .uint16 && t.level == v.level && t.tag == v.tag && decide (v.n ≤ t.n)).map fun z => (v, some z)
  else rq.head?.map fun v => (v, none)

/-- The results of a value entry under a block. -/
def PBlock.results (b : PBlock) (m : FpMode) (v : Token) (z : Option Token) : List (Nat × Flags) :=
  (List.range v.n).map fun i =>
    let r := match z with | some z => z.val (v.base + i - z.base) % 2 ^ 16 | none => 0
    b.convert m (b.rm r) (b.input m v i)

/-- TRCV, V form: raw lanes, or lanes converted under a parameter block. -/
def execTrcvV (x : Guard) (d : VReg) (t : Fin 16) (b : Fin 16) (h : GReg) (s : State) : Host.Outcome State Fault Refusal :=
  let c := s.me
  let finish (c : Core) (v : Vector Word 32) (e : Token) : State :=
    s.setMe (((c.wv d v).wg (gOf t) e.tag).wg h e.summary)
  issue x s (onlyBy s [.access, .drain] (
    if b = 0 then withEntry s fun e rest =>
      .done (finish { c with rq := rest } (Vector.ofFn fun j => e.lanes.getD j.val 0) e)
    else if s.cur.kind ≠ .drain then .fault { cls := cIllegal }
    else orFault (s.access s.whoMe (0xFFE00 + 16 * b.val : Nat) 16 16 false) fun l =>
      if !s.mayAccess (agentIdx s.cur) s.cur.die l 16 then .wait s
      else
      let (bs, s) := s.readAt s.cur.die (agentIdx s.cur) none l 16
      let raw := leValue bs
      let finish (c : Core) (v : Vector Word 32) (e : Token) : State :=
        s.setMe (((c.wv d v).wg (gOf t) e.tag).wg h e.summary)
      match pblock raw with
      | none => .fault { cls := cFormat, detail := fld raw 5 0 }
      | some pb =>
        match pickEntries (pb.rnd == 4) c.rq with
        | none => .wait s
        | some (v, z) =>
          if fmtEmulated v.ty then .fault { cls := cFormatEmulate, detail := v.ty.code }
          else if v.ty = .e2m1b ∧ v.exp = 0 then .fault { cls := cFormat, detail := e2m1Detail }
          else
            let rs := pb.results (fpMode c.fpctl) v z
            let rq := (c.rq.erase v)
            let rq := match z with | some z => rq.erase z | none => rq
            .done (finish (({ c with rq } : Core).orFlags (orAll (rs.map (·.2)))) (pb.lanes (rs.map (·.1))) v)))

/-! ## RNG (R354) -/

/-- The value of a draw (R269, R354). -/
def draw (fn : RngFn) (key : DWord) (d : Nat) : Nat :=
  match fn with
  | .sr16 => emberSr16 key.toNat (d % 2 ^ 64)
  | .unif => emberUnif key.toNat (d % 2 ^ 64)
  | .bits => ember key.toNat (d % 2 ^ 64)

/-- RNG, R form. -/
def execRngR (x : Guard) (fn : RngFn) (d a b : GReg) (s : State) : Host.Outcome State Fault Refusal :=
  putResult x d (BitVec.ofNat 64 (draw fn (s.me.rg a) (s.src2 b).toNat)) s

/-- RNG, V form: active lanes only. -/
def execRngV (x : Guard) (fn : RngFn) (d : VReg) (k dr : Fin 16) (m : PReg) (s : State) :
    Host.Outcome State Fault Refusal :=
  let c := s.me
  if fn = .bits then illegal s
  else issue x s (.done (s.setMe (c.wv d (Vector.ofFn fun j =>
    if (c.rp m).getLsbD j.val then BitVec.ofNat 32 (draw fn (c.rg (gOf k)) ((c.rg (gOf dr)).toNat + j.val))
    else (c.rv d)[j]))))

end Sys2Proof.Machine
end

