-- ==== Sys2Proof/Machine/Pattern.lean ====
section
/-! DEFINITION. The pattern compiler (R377 to R385, R438) and the walkers' events (R149 to R152). -/

namespace Sys2Proof.Machine

/-- A new entry in a die's pattern cache; at 1,024 the least recently used program or marker is dropped, never a pending
entry (R384). -/
def addPattern (c : List PEntry) (e : PEntry) : List PEntry :=
  let c := if c.length < 1024 then c
    else match (c.filter fun x => x.prog != .pending).foldl (fun (m : Option PEntry) x => match m with
        | none => some x
        | some y => if x.used < y.used then some x else some y) none with
      | some old => c.erase old
      | none => c
  c ++ [e]

/-- PATTERN_REQUEST_ARRIVAL: a request reaches its die's compiler: nothing when an entry stands under its identity, refused when
the queue of 64 is full, else queued with a pending entry (R382). -/
def execPatternRequestArrival (die : Fin 8) (s : State) : Host.Outcome State Fault Refusal :=
  .next (
    let d := s.die die
    match d.preq with
    | [] => s
    | id :: rest =>
      if d.pcache.any (·.slice == id) || decide (64 ≤ d.pq.length) then s.setDie die { d with preq := rest }
      else s.setDie die { d with
        preq := rest, pq := d.pq ++ [id], pcache := addPattern d.pcache { slice := id, prog := .pending, used := s.steps } })

/-- A slice's table, resident or spilled, at the slice's write generation. -/
def State.sliceTable (s : State) (id : Slice) : Option Table :=
  let tb : Option Table := match (s.stn id.stn).table id.ctx id.t with
    | some tb => some tb
    | none =>
      if s.isSpilled id.stn id.ctx id.t then ((s.savedTable id.stn id.ctx id.t (some (stnDie id.stn))).toOption).map (·.1) else none
  tb.filter fun tb => tb.wgen == id.wgen

/-- PATTERN_COMPILE_COMPLETE: the compile at the head of the queue ends. It stores a program or marker, unless the write
generation has advanced, its entry is gone, or a soft error met its bitmaps (R382, R438). -/
def execPatternCompileComplete (die : Fin 8) (s : State) : Host.Outcome State Fault Refusal :=
  .next (
    let d := s.die die
    match d.pq with
    | [] => s
    | id :: rest =>
      let soft := s.ecc.any fun e => e.sram && e.store == 4 && e.unit == id.stn && e.word == 4 * id.ctx.toNat + id.t.toNat
      let free := d.pcache.filter fun e => !(e.slice == id && e.prog == .pending)
      if soft then (s.setDie die { d with pq := rest, pcache := free }).countEcc die 0 1
      else match s.sliceTable id with
        | none => s.setDie die { d with pq := rest, pcache := free }
        | some tb => s.setDie die { d with
            pq := rest
            pcache := d.pcache.map fun e => if e.slice == id && e.prog == .pending then { e with prog := compileSlice tb id.j } else e })

/-- TRANSLATION_WALK_COMPLETE: a walk ends; a leaf it found is kept in the die's translation cache (R149, R152). -/
def execTranslationWalkComplete (die : Fin 8) (ctx : BitVec 8) (va : Nat) (s : State) : Host.Outcome State Fault Refusal :=
  .next (
    let cached := s.tlb.any fun l => l.die == die && l.ctx == ctx && decide (l.va ≤ va ∧ va < l.va + l.size)
    if cached || decide (va < 2 ^ 32 ∨ 2 ^ 56 ≤ va) then s
    else match s.walk ctx va with
      | .ok p =>
        let mine := s.tlb.filter (·.die == die)
        let tlb := if mine.length < 4096 then s.tlb else match pick s.steps mine with
          | some l => s.tlb.erase l
          | none => s.tlb
        { s with tlb := tlb ++ [⟨die, ctx, p.va, p.size, p.pa, p.key, p.wr⟩] }
      | .error _ => s)

end Sys2Proof.Machine
end

