-- ==== Sys2Proof/Machine/Load.lean ====
section
/-! DEFINITION. The configuration loader (R86 to R89, R108, R211 to R213, R227, R447) and the start of a launch: registration
of images, the checks at load, contexts of stations, a fresh start (R127), and the restart from a save image (R140). -/

namespace Sys2Proof.Machine

/-! ## The cores and stations of a grant (R88) -/

/-- A core of a grant: its region, its index within the region, its die and its number. -/
structure GCore where
  reg : Nat
  idx : Nat
  die : Fin 8
  core : Nat
  deriving DecidableEq, Repr

/-- The cores of regions, region by region, by index. -/
def coresOf (rs : List Region) : List GCore :=
  (((List.range rs.length).zip rs).map fun (j, g) =>
    (List.range (g.w * g.h)).map fun i => (⟨j, i, g.die, g.coreAt i⟩ : GCore)).flatten

/-- Number of a core on the module. -/
def GCore.key (p : GCore) : Nat := p.die.val * 128 + p.core

/-- Its access core. -/
def GCore.access (p : GCore) : Agent := ⟨.access, p.die, Fin.ofNat 128 p.core⟩

/-- Its drain core. -/
def GCore.drain (p : GCore) : Agent := ⟨.drain, p.die, Fin.ofNat 128 p.core⟩

/-- The physical stations of regions. -/
def stationsOf (rs : List Region) : List Nat := ((coresOf rs).map fun p => range (p.key * 64) 64).flatten

/-! ## The checks of a configuration at load -/

/-- CONFIG-WORD (Table 24-1). -/
def configWord (dev : Bool) : FI := { cls := cConfigWord, detail := launchDetail 10 dev }

/-- Number of a slot of a relative station. -/
def slotNum (rel : BitVec 16) (slot : BitVec 4) : Nat := rel.toNat * 16 + slot.toNat

/-- The instructions that a configuration places, by slot number. -/
def Cfg.instrs (c : Cfg) : Sparse Instr :=
  c.slots.foldl (fun m (rel, slot, w) => match decodeStation w.toNat with
    | .ok i => spInsert m (slotNum rel slot) i
    | .error _ => m) []

/-- The destinations of a slot that are present. -/
def destsOf (i : Instr) : List Dest :=
  match stnHead i with
  | none => []
  | some h => h.d0.toList ++ h.d1.toList

/-- Those that name a slot: dest0 of XMIT names a queue (R242). -/
def slotDests (i : Instr) : List Dest :=
  match i with
  | .xmit h _ => h.d1.toList
  | i => destsOf i

/-- The level of the tokens that a slot sends (R91, R92). -/
def outLevel (h : Head) : Nat :=
  match h.tagop.toNat with
  | 1 => lvlOf h + 1
  | 2 => lvlOf h - 1
  | _ => lvlOf h

/-- A slot handles the sticky and purge actions at a port (R227). -/
def takesAction (i : Instr) (port : BitVec 2) : Bool :=
  match stnHead i with
  | none => true
  | some h => !(slotKind i == .merge || (decide (h.arity.toNat < 2) && !(takesRandom i && h.arity == 1 && port == 1)))

/-- A token of level L may be sent to a slot, when the configuration places it (R89, R91, R227). -/
def sendOk (m : Sparse Instr) (L : Nat) (d : Dest) : Bool :=
  match spFind m (slotNum d.stn d.slot) with
  | none => true
  | some i => (slotPorts i).contains d.port && (stnHead i).all (fun h => lvlOf h == L) && (d.act == 0 || takesAction i d.port)

/-- The memory nodes of a configuration have distinct numbers, and every arc is named by both its ends, at one level (R108,
R243). -/
def nodesOk (m : Sparse Instr) : Bool :=
  let ns : List (Head × NodeF) := m.filterMap fun (_, i) => (nodeOf i).map fun (h, _, _, f) => (h, f)
  ns.all fun (h, f) =>
    (ns.filter fun (_, g) => g.node == f.node).length == 1 &&
    (f.pred == 127 || ns.any fun (k, g) => g.node == f.pred && g.succ == f.node && k.level == h.level) &&
    (f.succ == 127 || ns.any fun (k, g) => g.node == f.succ && g.pred == f.node && k.level == h.level)

/-- The slot that an AEMIT with seg names is a SEGT of its type at its station (R294). k is the AEMIT's slot number. -/
def segOk (m : Sparse Instr) (k : Nat) (i : Instr) : Bool :=
  match i with
  | .aemit _ ty _ true _ slot _ _ _ _ _ =>
    match spFind m (k / 16 * 16 + slot.toNat) with
    | some (.segt _ t _ _ _ _) => t == ty
    | _ => false
  | _ => true

/-- The words of a configuration pass R89, R91, R108, R212, R227, R243 and R294. -/
def Cfg.wordsOk (c : Cfg) : Bool :=
  let m := c.instrs
  c.slots.all (fun (_, _, w) => (decodeStation w.toNat).toOption.isSome) &&
    m.all (fun (k, i) => segOk m k i && (stnHead i).all fun h => (slotDests i).all (sendOk m (outLevel h))) &&
    nodesOk m && c.inits.all fun t => sendOk m t.L ⟨t.stn, t.slot, t.port, t.act⟩

/-- A slot that the configuration places, in the grant (R88). -/
def placedIn (rs : List Region) (m : Sparse Instr) (stn : BitVec 16) (slot : BitVec 4) : Bool :=
  (physOf rs stn).isSome && (spFind m (slotNum stn slot)).isSome

/-- Every station, destination and partner of a configuration lies in the grant (R88, R125, R288). -/
def Cfg.rangeOk (c : Cfg) (rs : List Region) : Bool :=
  let m := c.instrs
  c.slots.all (fun (rel, _, _) => (physOf rs rel).isSome) &&
    m.all (fun (_, i) =>
      (slotDests i).all (fun d => placedIn rs m d.stn d.slot) && (destsOf i).all (fun d => (physOf rs d.stn).isSome) &&
        (match i with | .pbind _ _ _ _ _ partner _ => (physOf rs partner).isSome | _ => true)) &&
    c.inits.all fun t => placedIn rs m t.stn t.slot

/-- The check of a configuration on regions: words first, then ranges. -/
def Cfg.check (c : Cfg) (rs : List Region) (dev : Bool) : Option FI :=
  if !c.wordsOk then some (configWord dev) else if !c.rangeOk rs then some (configRange dev) else none

/-! ## Words placed in contexts (R86 to R88) -/

/-- A station word with physical stations in the place of relative ones (R88, R288). -/
def physWord (rs : List Region) (w : SWord) : SWord :=
  let at_ (hi lo n : Nat) : Nat := match physOf rs (BitVec.ofNat 16 (fld n hi lo)) with
    | some p => setFld n hi lo p.toNat
    | none => n
  let a := if bitOf w.toNat 53 then at_ 104 89 w.toNat else w.toNat
  let b := if bitOf a 54 then at_ 82 67 a else a
  BitVec.ofNat 128 (if fld b 127 120 = 0x4A then at_ 31 16 b else b)

/-- The words of a configuration at a physical station. -/
def Cfg.wordsAt (c : Cfg) (rs : List Region) (n : Nat) : Sparse SWord :=
  c.slots.foldl (fun m (rel, slot, w) =>
    if (physOf rs rel).any (fun p => p.toNat == n) then spInsert m slot.toNat (physWord rs w) else m) []

/-- The context of a station that takes a configuration: the one that holds the tag, else a free one, else the least recently
loaded (R87). -/
def Station.ctxFor (st : Station) (tag : Byte) : Fin 4 :=
  let ks := List.finRange 4
  match ks.find? fun k => st.ctxs[k.val].tag == some tag with
  | some k => k
  | none => match ks.find? fun k => st.ctxs[k.val].tag == none with
    | some k => k
    | none => ks.foldl (fun b k => if st.ctxs[k.val].stamp < st.ctxs[b.val].stamp then k else b) 0

/-- A configuration placed at one station. A context that already holds the same configuration keeps its words and is not loaded again
(R87). keep tells that the sticky flags stay (R351). -/
def State.placeAt (s : State) (lid : Nat) (ctx : Byte) (c : Cfg) (rs : List Region) (keep : Bool) (n : Nat) : State :=
  let st := s.stn n
  let k := st.ctxFor ctx
  let old := st.ctxs[k.val]
  let same := old.tag.isSome ∧ old.cfgid = c.cfgid
  let s1 := if same then s else s.sramWrite 3 n (16 * k.val) 16
  let new : Ctx := {
    tag := some ctx, cfgid := c.cfgid, lid := some lid, words := if same then old.words else c.wordsAt rs n
    flags := if keep then old.flags else 0, sinks := [], stamp := if same then old.stamp else s.nextId }
  s1.setStn n { st with ctxs := st.ctxs.set k.val new }

/-- The initial tokens of a configuration on their way, in record order (R127, R213). -/
def Cfg.flights (c : Cfg) (rs : List Region) (lid : Nat) (ctx : Byte) : List Flight :=
  c.inits.map fun t =>
    { src := loaderSrc lid, lid := some lid, fifo := some lid, tok := { t with tag := setTagCtx t.tag ctx, stn := (physOf rs t.stn).getD 0 } }

/-- The source slots of a station in its issue queue (R233): one pair each, at index 0 with the launch's context. -/
def State.startSources (s : State) (ctx : Byte) (n : Nat) : State :=
  let st := s.stn n
  let k := st.ctxFor ctx
  let c := st.ctxs[k.val]
  let source (slot : Nat) : Bool := ((c.instr (BitVec.ofNat 4 slot)).bind stnHead).any fun h => h.arity == 0
  let ps : List Pair := (c.words.filter fun (slot, _) => source slot).map fun (slot, _) =>
    ⟨k, BitVec.ofNat 4 slot, BitVec.ofNat 64 (ctx.toNat * 2 ^ 56), 0, 1, [], [], [], s.stnFpctl n⟩
  s.setStn n { st with issueq := st.issueq ++ ps }

/-- Initial tokens and source slots fire (R127). -/
def State.fireConfig (s : State) (lid : Nat) (ctx : Byte) (c : Cfg) (rs : List Region) : State :=
  let s1 := (stationsOf rs).foldl (fun t n => t.startSources ctx n) s
  { s1 with net := s1.net ++ c.flights rs lid ctx }

/-! ## Registration of an image (R213) -/

/-- The words of n code words. -/
def codeWords (bs : List Byte) (n : Nat) : List Word := (groups 4 n bs).map fun g => BitVec.ofNat 32 (leValue g)

/-- A slot record; its bits [255:148] are reserved. -/
def slotRec (r : Nat) : Option (BitVec 16 × BitVec 4 × SWord) :=
  if fld r 255 148 = 0 then some (BitVec.ofNat 16 (fld r 143 128), BitVec.ofNat 4 (fld r 147 144), BitVec.ofNat 128 r) else none

/-- n initial-token records, and nothing after them. -/
def initRecs : Nat → List Byte → Option (List Token)
  | 0, bs => if bs = [] then some [] else none
  | n + 1, bs =>
    let h := leValue (bs.take 16)
    let rest := bs.drop 16
    match tokenOf h ((groups 4 64 rest).map fun g => BitVec.ofNat 32 (leValue g)) with
    | none => none
    | some t =>
      let k := 4 * payloadLanes t.shape t.ty t.n
      let size := 16 * ceilDiv k 16
      if bs.length < 16 + size ∨ ((rest.take size).drop k).any (· != 0) then none
      else (initRecs n (rest.drop size)).map (t :: ·)

/-- A configuration read from an image, or none where it breaks a limit of R213. -/
def parseImage (bs : List Byte) : Option Cfg :=
  let h := leValue (bs.take 64)
  let aw := fld h 223 208
  let dw := fld h 255 240
  let ao := fld h 207 192
  let do_ := fld h 239 224
  let ns := fld h 287 256
  let body := bs.drop 64
  let slots := body.drop (4 * (aw + dw))
  if bs.length < 64 ∨ fld h 511 323 ≠ 0 ∨ fld h 191 32 ≠ 0 ∨ ao % 4 ≠ 0 ∨ do_ % 4 ≠ 0 ∨ 16384 < aw ∨ 16384 < dw
      ∨ 65536 < ao + 4 * aw ∨ 65536 < do_ + 4 * dw ∨ body.length < 4 * (aw + dw) + 32 * ns then none
  else
    match ((groups 32 ns slots).map leValue).mapM slotRec, initRecs (min (fld h 319 288) (bs.length + 1)) (slots.drop (32 * ns)) with
    | some ss, some is => some {
        cfgid := BitVec.ofNat 32 h, nreg := fld h 322 320, aoff := ao, acode := codeWords body aw
        doff := do_, dcode := codeWords (body.drop (4 * aw)) dw, slots := ss, inits := is }
    | _, _ => none

/-- CONFIG_REGISTRATION: the driver's next image is registered under its identifier, or refused with CONFIG-WORD. -/
def execConfigRegistration (s : State) : Host.Outcome State Fault Refusal :=
  .next (match s.cfgIn with
    | [] => s
    | bs :: rest =>
      match parseImage bs with
      | some c => { s with cfgIn := rest, configs := (s.configs.filter (·.cfgid ≠ c.cfgid)) ++ [c], cfgAnswer := none }
      | none => { s with cfgIn := rest, cfgAnswer := some (unitRec (configWord false) 0 0 0) })

/-! ## The parts of a start (R126, R127) -/

/-- Bits of a launch's accepted copy (Table 05-1). -/
def Launch.bits (l : Launch) (hi lo : Nat) : Nat := fld (leValue l.bytes) hi lo

/-- The 64 bytes of a start block's header (Table 05-5). -/
def startHeader (l : Launch) (p : GCore) : List Byte :=
  match l.regions[p.reg]? with
  | none => leBytes 64 0
  | some g => leBytes 64 (l.lseq % 2 ^ 64 * 2 ^ 64 + b2n l.resumed * 2 ^ 63 + (g.h - 1) * 2 ^ 60 + (g.w - 1) * 2 ^ 56
      + p.die.val * 2 ^ 53 + p.idx * 2 ^ 46 + p.reg * 2 ^ 43 + l.cls * 2 ^ 40 + l.ctx.toNat * 2 ^ 32 + l.cfgid.toNat)

/-- Where a core's start block lies. -/
def startBlockAt (p : GCore) : Loc := { space := .local_, at_ := coreMemBase p.die.val p.core + 0xFFF00 }

/-- The start block of a core (R126): a fresh start writes all 256 bytes, a resume the first 64. -/
def State.startBlock (s : State) (l : Launch) (p : GCore) : State :=
  let bs := startHeader l p ++ (if l.resumed then [] else (l.bytes.drop 64).take 192)
  s.write none schedKey none (startBlockAt p) bs

/-- Code loaded into a core's instruction store at its offset (R213). -/
def State.loadCode (s : State) (a : Agent) (off : Nat) (ws : List Word) : State :=
  { s.sramWrite 6 (agentIdx a) (off / 4) ws.length with
    mem := s.mem.store (istoreBase a + off) (ws.map fun w => leBytes 4 w.toNat).flatten }

/-- Both code images of a configuration in the stores of a core. -/
def State.loadCores (s : State) (c : Cfg) (p : GCore) : State :=
  (s.loadCode p.access c.aoff c.acode).loadCode p.drain c.doff c.dcode

/-- A helper core at a fresh start (R127, R415). -/
def freshCore (lid : Nat) (ctx : Byte) (entry : Nat) : Core :=
  { run := .running, lid := some lid, pc := BitVec.ofNat 16 entry, ctxid := ctx.setWidth 64 }

/-- The configuration is the most recently started in the caches of the dies it uses (R128). -/
def State.cacheConfig (s : State) (id : Word) (rs : List Region) : State :=
  rs.foldl (fun t g => t.setDie g.die { t.die g.die with ccache := (id :: (t.die g.die).ccache.erase id).take 64 }) s

/-- A fresh start (R127). -/
def State.freshStart (s : State) (l : Launch) (c : Cfg) : State :=
  let s1 := (stationsOf l.regions).foldl (fun t n => t.placeAt l.lid l.ctx c l.regions false n) { s with nextId := s.nextId + 1 }
  let s2 := (coresOf l.regions).foldl (fun t p =>
    ((t.loadCores c p).setCore p.access (freshCore l.lid l.ctx (l.bits 79 64))).setCore p.drain
      (freshCore l.lid l.ctx (l.bits 95 80))) s1
  let s3 := s2.modLaunch l.lid fun l => { l with st := .running, since := s.now, placed := l.regions, complete := false }
  s3.fireConfig l.lid l.ctx c l.regions

/-! ## Resuming from a save image (R140) -/

/-- The core of a new grant that has the region and index of a core of the saved grant; any other core is itself. -/
def movedCore (old new : List Region) (k : Nat) : Nat :=
  match ((coresOf old).zip (coresOf new)).find? fun (a, _) => a.key == k with
  | some (_, b) => b.key
  | none => k

/-- A station of the saved grant as it stands in the new one. -/
def movedStn (old new : List Region) (n : Nat) : Nat := movedCore old new (n / 64) * 64 + n % 64

/-- A helper core of the saved grant as it stands in the new one. -/
def movedAgent (old new : List Region) (a : Agent) : Agent :=
  let k := movedCore old new (a.die.val * 128 + a.core.val)
  match a.kind with
  | .collier => a
  | kind => ⟨kind, Fin.ofNat 8 (k / 128), Fin.ofNat 128 k⟩

/-- Every row and table of a context at a station spilled (R140 step 1). -/
def State.spillAll (s : State) (ctx : Byte) (lid : Nat) (n : Nat) : Except FI State := do
  let s1 ← (List.range 32).foldlM (fun (t : State) r => if (t.row n r).owner = some ctx then t.spillRow n r (some lid) else .ok t) s
  ((s1.stn n).tables.filter fun tb => tb.ctx == ctx).foldlM (fun (t : State) tb => t.spillTable n tb (some lid)) s1

/-- A row that the context spilled at station m restored at station n (R140 step 2). -/
def State.restoreRow (s : State) (ctx : Byte) (lid : Nat) (n m r : Nat) : Except FI State :=
  let j := rowNum m r
  if !s.spilledRows.contains (ctx, j) then .ok s
  else do
    let s1 ← if (s.row n r).owner = some ctx then .ok s else s.spillRow n r (some lid)
    (s1.sramWrite 1 n (32 * r) 32).fillRow n r ctx j (if m = n then some (stnDie n) else none)

/-- The rows and tables that the context spilled at station m restored at station n. -/
def State.restoreStn (s : State) (ctx : Byte) (lid : Nat) (n m : Nat) : Except FI State := do
  let s1 ← (List.range 32).foldlM (fun (t : State) r => t.restoreRow ctx lid n m r) s
  [(0 : BitVec 2), 1, 2, 3].foldlM (fun (t : State) k => t.restoreTableTo n m ctx k (some lid)) s1

/-- A table whose partner has moved names it where it stands now. -/
def Table.rebind (tb : Table) (ctx : Byte) (f : Nat → Nat) : Table :=
  if tb.ctx = ctx then { tb with bind := tb.bind.map fun b => { b with stn := f b.stn } } else tb

/-- A spilled table whose partner has moved names it where it stands now. -/
def State.rebindSpilled (s : State) (ctx : Byte) (lid : Nat) (f : Nat → Nat) (x : Byte × Nat × BitVec 2) : Except FI State :=
  if x.1 ≠ ctx then .ok s
  else do
    let (tb, ks) ← s.savedTable x.2.1 ctx x.2.2 none
    if tb.rebind ctx f = tb then return s else s.saveTableState x.2.1 (tb.rebind ctx f) ks (some lid)

/-- Rows and tables moved with a launch that resumes on other cores (R140). -/
def State.relocate (s : State) (ctx : Byte) (lid : Nat) (old new : List Region) : Except FI State :=
  if old = new then .ok s
  else do
    let s1 ← (stationsOf old).foldlM (fun (t : State) n => t.spillAll ctx lid n) s
    let s2 ← ((stationsOf old).zip (stationsOf new)).foldlM (fun (t : State) (m, n) => t.restoreStn ctx lid n m) s1
    let f := movedStn old new
    let s3 : State := { s2 with stations := s2.stations.map fun (n, st) => (n, { st with tables := st.tables.map fun tb => tb.rebind ctx f }) }
    s3.spilledTables.foldlM (fun (t : State) x => t.rebindSpilled ctx lid f x) s3

/-- Core memory's cells, by their address in it (R138). -/
def State.saveCm (s : State) (base : Nat) : List Host.Cell :=
  (s.mem.filter fun c => decide (base ≤ c.1 ∧ c.1 < base + 2 ^ 20)).map fun c => (c.1 - base, c.2)

/-- Core memory restored whole. -/
def State.loadCm (s : State) (base : Nat) (cells : List Host.Cell) : State :=
  let mem : Memory := s.mem.filter fun c => !decide (base ≤ c.1 ∧ c.1 < base + 2 ^ 20)
  ({ s with mem := mem.storeCells (cells.map fun (c : Host.Cell) => (base + c.1, c.2)) }).heal .local_ base (2 ^ 20)

/-- An entry as it enters another context or station. -/
def Entry.moved (e : Entry) (cx : Fin 4) (n : Nat) : Entry := { e with cx, tok := { e.tok with stn := BitVec.ofNat 16 n } }

/-- A pair likewise. -/
def Pair.moved (p : Pair) (cx : Fin 4) (n : Nat) : Pair :=
  { p with cx, l := p.l.map (·.moved cx n), r := p.r.map (·.moved cx n), p := p.p.map (·.moved cx n) }

/-- An entry that tells SCAN's next block. -/
def Entry.isCarry (e : Entry) : Bool := match e.kind with | .carry _ => true | _ => false

/-- A saved entry enters the store again, under the matching rules (R140). -/
def reenter (i : Option Instr) (st : Station) (e : Entry) : Station × Option (FI × List Entry) :=
  match e.kind, i with
  | .carry _, _ => (st.put e, none)
  | _, none => (st.put e, none)
  | .interval, some (.join _ n) => arriveJoin n.toNat st e.cx e.ord e.tok
  | _, some i => arriveSlot i st e.cx e.ord e.tok

/-- An entry of a launch re-enters a station under the matching rules (R140, R423); one that no longer fits is held with its fault (R445). -/
def State.reenterAt (s : State) (n : Nat) (e : Entry) : State :=
  let st := s.stn n
  let c := st.ctxs[e.cx.val]
  match reenter (c.instr e.tok.slot) st e with
  | (st1, none) => s.setStn n (st1.stamp st.issueq.length (s.stnFpctl n))
  | (st1, some (f, es)) =>
    (s.setStn n ((st1.stamp st.issueq.length (s.stnFpctl n)).hold c.lid es)).stopLaunch c.lid
      (stnRec n c.lid ((spFind c.words e.tok.slot.toNat).getD 0) e.tok.slot e.tok.level (tagCtx e.tok.tag) e.tok.tag 1 f)

/-- Entries re-enter one after another, those that tell SCAN's next block first. -/
def State.reenterList (s : State) (n : Nat) (es : List Entry) : State :=
  (es.filter (·.isCarry) ++ es.filter fun e => !e.isCarry).foldl (fun t e => t.reenterAt n e) s

/-- Entries without the operands of the pairs that have faulted. -/
def Station.lessFaulted (st : Station) (ps : List Pair) (es : List Entry) : List Entry :=
  let gone := (ps.map st.returned).flatten
  es.filter fun e => !gone.contains e

/-- What a save image has of one station, restored at station n; with skip the operands of faulting pairs are left out (R423). -/
def State.restoreImage (s : State) (ctx : Byte) (skip : Bool) (n : Nat) (x : StnImage) : State :=
  let st := s.stn n
  let k := st.ctxFor ctx
  let s1 := s.setStn n { st with
    ctxs := st.ctxs.set k.val { st.ctxs[k.val] with flags := x.flags, sinks := x.sinks }
    nodeOps := st.nodeOps ++ x.nodeOps.map fun o => { o with pair := o.pair.moved k n } }
  let es := x.entries.map (·.moved k n)
  let es := if skip then (s1.stn n).lessFaulted (x.faulted.map (·.moved k n)) es else es
  let s2 := s1.reenterList n es
  let st2 := s2.stn n
  s2.setStn n { st2 with issueq := (x.sources.map fun p => p.moved k n) ++ st2.issueq }

/-- The faulting instruction of a core is a LIMM pair. -/
def State.twoWords (s : State) (a : Agent) : Bool := fld (s.coreWord a (s.core a).pc.toNat) 31 25 == 0x24

/-- A core as it goes on after a stop: an escalated one at its instruction, or with skip after it (R423). -/
def Core.goOn (c : Core) (skip two : Bool) : Core :=
  let c := if skip && c.escalated then c.retire (if two then c.pc + 4 else c.pc) else c
  { c with escalated := false }

/-- The stopped cores of a launch run on. -/
def State.restartCores (s : State) (l : Launch) (skip : Bool) : State :=
  ((coresOf l.regions).map fun p => [p.access, p.drain]).flatten.foldl (fun t a =>
    let c := t.core a
    if c.run = .stopped then t.setCore a { (c.goOn skip (t.twoWords a)) with run := .running } else t) s

/-- A sender's key as it stands in a new grant. -/
def movedSrc (old new : List Region) (src : Nat) : Nat :=
  if src < 2 ^ 24 then movedStn old new (src / 16) * 16 + src % 16
  else if src < 2 ^ 26 then
    let base := if src < 2 ^ 25 then 2 ^ 24 else 2 ^ 25
    base + agentIdx (movedAgent old new (agentOf (src - base)))
  else src

/-- Residue on its way again: in the order taken, before anything that its senders send from now on (R140). -/
def Flight.again (f : Flight) (old new : List Region) (lid : Nat) : Flight :=
  { src := movedSrc old new f.src, lid := some lid, fifo := some lid
    tok := { f.tok with stn := BitVec.ofNat 16 (movedStn old new f.tok.stn.toNat) } }

/-- A launch restored from its image on its new grant (R140): rows and tables, configuration, core memories, cores, stations; then its
residue and the tokens that were held are on their way, and its cores wait for them. -/
def State.resumeStart (s : State) (l : Launch) (c : Cfg) (im : Image) : Except FI State := do
  let old := im.regions
  let new := l.regions
  let placed := (new.zip l.placed).map fun (g, p) => { g with w := p.w, h := p.h }
  let s0 ← s.relocate l.ctx l.lid old new
  let s1 := (stationsOf new).foldl (fun t n => t.placeAt l.lid l.ctx c placed false n) { s0 with nextId := s0.nextId + 1 }
  let s2 := ((coresOf new).zip (List.range im.mems.length)).foldl (fun t (p, i) =>
    let cells := ((im.mems.find? fun m => m.1 == i).map Prod.snd).getD []
    ((t.loadCores c p).loadCm (coreMemBase p.die.val p.core) cells).startBlock { l with resumed := true } p) s1
  let s3 := im.cores.foldl (fun t (a, k) => t.setCore (movedAgent old new a) { k with lid := some l.lid }) s2
  let s4 := s3.modLaunch l.lid fun l =>
    { l with restoring := true, since := s.now, placed, complete := false, resumed := true, saved := none, saveAt := none }
  let s5 := im.stations.foldl (fun t x => t.restoreImage l.ctx l.skip (movedStn old new x.stn) x) s4
  let s6 := { s5 with net := s5.net ++ im.residue.map fun f => f.again old new l.lid }
  if l.skip then return s6
  else return im.stations.foldl (fun t x => x.held.foldl (fun t h =>
    t.arrive (movedStn old new x.stn) (some l.lid) { h.tok with stn := BitVec.ofNat 16 (movedStn old new x.stn) }) t) s6

/-! ## LOAD_COMPLETE -/

/-- The source of an arming in a scheduler's record: a work queue, or the arming die (R442). -/
def Launch.tag (l : Launch) : DWord := BitVec.ofNat 64 l.source

/-- The record of a launch class at a launch (R442). -/
def Launch.record (l : Launch) (addr : Nat) (f : FI) : FRec :=
  let d : Fin 8 := match l.regions with | g :: _ => g.die | [] => if l.dev then Fin.ofNat 8 l.source else 0
  unitRec { f with addr } l.ctx (agentSrc (collierOf d)) l.tag

/-- What a launch has left behind names it no longer, as its index may be given again (R122, R446): tokens sent and held, remote writes,
continuation walks. -/
def State.forgetLid (s : State) (lid : Nat) : State :=
  let f (x : Option Nat) : Option Nat := if x = some lid then none else x
  { s with
    net := s.net.map fun (t : Flight) => { t with lid := f t.lid }
    conts := s.conts.map fun (c : Cont) => { c with lid := f c.lid }
    peers := s.peers.map fun (q : Peer) => { q with waiting := q.waiting.map fun (n, a, x) => (n, a, if a.isSome then f x else x) }
    stations := s.stations.map fun (n, st) =>
      (n, { st with held := st.held.map fun (h : Held) => if h.lid = lid then { h with lid := 0xFFFF } else h }) }

/-- A launch gone from the pending launches, with the batch it did not take (R122, R372). -/
def State.discard (s : State) (l : Launch) : State :=
  let s1 := ({ s with launches := s.launches.filter (·.lid ≠ l.lid) }).forgetLid l.lid
  match l.batch, l.batchDone with
  | some (q, b), false => s1.dropBatch q b
  | _, _ => s1

/-- Where a launch's save image lies: its first byte and its size (R139). -/
def State.imagePlace (s : State) (l : Launch) : Except FI (Nat × Nat) := do
  let (off, size) := l.saveAt.getD (0, 0)
  return ((← s.saveBase l.ctx) + 2 ^ 32 + off, size)

/-- A launch's save image as the scheduler reads it (R138, R463). -/
def State.readImage (s : State) (l : Launch) : Except FI (Image × State) := do
  let (at_, size) ← s.imagePlace l
  let bs ← s.readRange at_ size (size / 128 + 2)
  return ((getImage bs).1, (s.countEntry l.ctx).countRange at_ size (size / 128 + 2))

/-- The scheduler's access for a load, resume or save of a launch has failed: the launch is STOPPED with a record (R422, R463; log entry
78). -/
def State.schedStop (s : State) (l : Launch) (f : FI) : State :=
  let d : Fin 8 := (l.regions.head?.map (·.die)).getD 0
  let r := { (unitRec f l.ctx (agentSrc (collierOf d)) 0) with lid := lidBits (some l.lid) }
  s.modLaunch l.lid fun l => { l with st := .stopped, recs := l.recs ++ [(s.now, r)], logged := l.logged ++ [r] }

/-- The residue of a resumed launch, or an initial token, is still on its way in the order of its list. -/
def State.delivering (s : State) (lid : Nat) : Bool := s.net.any fun f => f.fifo == some lid

/-- The links between the IOD and the dies of regions are open (R391). -/
def State.iodOpen (s : State) (rs : List Region) : Bool := rs.all fun g => s.linkOpen none g.die.val

/-- The links between the IOD and the dies of a launch's grant are open. -/
def Launch.linksOpen (l : Launch) (s : State) : Bool := s.iodOpen l.regions

/-- The configuration of a LOADING launch is loaded or restored, and its cores start: of a resumed one when its residue has been delivered
(R123, R127, R140). A configuration that fails its checks discards the launch (R447); a save area that cannot be read stops it (R463). -/
def execLoadComplete (lid : Nat) (s : State) : Host.Outcome State Fault Refusal :=
  .next (match s.launch lid with
    | none => s
    | some l =>
      if l.st ≠ .loading then s
      else if l.restoring then
        if s.delivering lid then s
        else (s.restartCores l l.skip).modLaunch lid fun l => { l with st := .running, since := s.now, restoring := false, skip := false }
      else if !l.linksOpen s then s
      else match s.configs.find? (·.cfgid == l.cfgid) with
        | none => s
        | some c =>
          let rs := match l.saved with
            | some _ => (l.regions.zip l.placed).map fun (g, p) => ({ g with w := p.w, h := p.h } : Region)
            | none => l.regions
          match c.check rs l.dev with
          | some f => (s.discard l).logFault l.ctx (l.record (s.recAddr l.recno) f)
          | none =>
            let s0 := s.cacheConfig l.cfgid l.regions
            match l.saved with
            | none => s0.freshStart l c
            | some _ => match s0.readImage l with
              | .error f => s0.schedStop l f
              | .ok (im, t) => match t.resumeStart l c im with
                | .ok u => u
                | .error f => s0.schedStop l f)

end Sys2Proof.Machine
end

