-- ==== Sys2Proof/Machine/Sched.lean ====
section
/-! DEFINITION. The launch scheduler and the dampers (R112, R118 to R140, R351, R358, R443): host queues, arming, selection,
pre-emption and save images, quiescence, closing; GCFG, YIELD, HALT. -/

namespace Sys2Proof.Machine

/-! ## What a launch has outstanding (R112, R137) -/

/-- The head pair of a station is an XMIT whose queue has no room (R113). -/
def State.headStuck (s : State) (n : Nat) : Bool :=
  let st := s.stn n
  match st.issueq with
  | [] => false
  | p :: _ => match st.ctxs[p.cx.val].instr p.slot with
    | some (.xmit h _) => h.d0.any fun d => !s.queueRoom (queueOf d)
    | _ => false

/-- A memory node's pair whose accesses all wait on arcs, with nothing to send. -/
def State.opHeld (s : State) (n : Nat) (lid : Nat) (op : NodeOp) : Bool :=
  match ((s.stn n).ctxs[op.pair.cx.val].instr op.pair.slot).bind nodeOf with
  | some (h, _, _, f) => op.main == [] && op.vals == [] && op.todo.all fun o => s.arcHeld lid f op.pair (lvlOf h) o
  | none => true

/-- A station of a launch has nothing more to do: accesses, builds and folds, tokens that can be delivered, and, when a fault at
its input stops the launch, pairs already formed (R297, R422, R445). -/
def State.stnSettled (s : State) (l : Launch) (n : Nat) : Bool :=
  let st := s.stn n
  st.nodeOps.all (s.opHeld n l.lid) && st.bg.all (fun b => b.ctx != l.ctx) &&
    !(decide (4 ≤ st.free) && s.net.any fun f => f.tok.stn.toNat == n) &&
    !(l.st == .stopped && l.recs != [] && st.held != [] && st.issueq != [] && !s.headStuck n)

/-- Steps 3 and 4 of R137 have nothing left to do for a launch. -/
def State.settled (s : State) (l : Launch) : Bool :=
  let cs := coresOf l.regions
  let stns := stationsOf l.regions
  let mine (a : Agent) : Bool := cs.any fun p => a == p.access || a == p.drain
  s.flying.all (fun f => f.lid != some l.lid) && s.engine.all (fun o => o.lid != some l.lid) && s.conts.all (fun k => k.lid != some l.lid) &&
    s.tmsgs.all (fun m => m.ctx != l.ctx || !(stns.contains m.to_ || stns.contains m.from_)) &&
    s.xnet.all (fun f => !mine f.agent) && s.peers.toList.all (fun q => q.waiting.all fun w => w.2.2 != some l.lid) &&
    stns.all (s.stnSettled l)

/-- An agent of the cores and stations of a grant. -/
def grantAgent (rs : List Region) (ak : Nat) : Bool :=
  (coresOf rs).any fun p =>
    ak == agentIdx p.access || ak == agentIdx p.drain || ak == engKey p.access || ak == engKey p.drain ||
      decide (16384 + p.key * 1024 ≤ ak ∧ ak < 16384 + (p.key + 1) * 1024)

/-- Every write of a launch has been applied by every die, and its counter writes have reached the IOD (R123, R131). -/
def State.writesDone (s : State) (l : Launch) : Bool :=
  s.flying.all (fun f => !grantAgent l.regions (agentIdx f.agent)) && s.pend.all (fun w => w.todo == 0 || !grantAgent l.regions w.agent) &&
    s.cmsgs.all fun m => !grantAgent l.regions m.src

/-- So has every write that its agents have observed, and that its arcs carry on (R176, R177). -/
def State.readsDone (s : State) (l : Launch) : Bool :=
  let done (k : Know) : Bool := k.obs.all (fun id => !s.pending id) && k.ord.all fun e => !s.pending e.1
  s.know.all (fun (ak, k) => !grantAgent l.regions ak || done k) && s.arcs.all fun a => a.lid != l.lid || done a.know

/-! ## The dampers (R112, R443) -/

/-- The TRCV that a core is at, when it is blocked on an empty queue. -/
def State.inTrcv (s : State) (a : Agent) : Bool :=
  let c := s.core a
  c.run == .running && c.rq == [] &&
    match decode (s.coreWord a c.pc.toNat) (s.coreWord a (c.pc.toNat + 4)) with
    | .ok (.trcvTake x _ _, _) => c.guard x
    | .ok (.trcvPeek x _ _, _) => c.guard x
    | .ok (.trcvV x _ _ _ _, _) => c.guard x
    | _ => false

/-- A core that the damper counts as quiet (R112, R329). -/
def State.coreQuiet (s : State) (a : Agent) : Bool :=
  let c := s.core a
  c.run == .halted || s.inTrcv a || (c.run == .running && (match c.wait with
    | .bar _ false => true
    | .gcfg none => true
    | _ => false))

/-- Every region of a launch is quiescent (R112). -/
def State.quiet (s : State) (l : Launch) : Bool :=
  l.st == .running && s.settled l && l.linksOpen s &&
    (stationsOf l.regions).all (fun n => !(s.stn n).own && ((s.stn n).issueq == [] || s.headStuck n)) &&
    (coresOf l.regions).all fun p => s.coreQuiet p.access && s.coreQuiet p.drain

/-- The context of a station that a launch occupies. -/
def Station.ctxOf (st : Station) (lid : Nat) : Option (Fin 4) := (List.finRange 4).find? fun k => st.ctxs[k.val].lid == some lid

/-- Every SINK of a context has reached its count (R234). -/
def Ctx.sinksDone (c : Ctx) : Bool :=
  c.words.all fun (slot, w) => match decodeStation w.toNat with
    | .ok (.sink _ _ count) => decide (count.toNat ≤ (spGet 0 c.sinks slot).toNat)
    | _ => true

/-- A station of a launch holds only sticky tokens, and its SINKs have their counts (R112). -/
def State.stnComplete (s : State) (lid n : Nat) : Bool :=
  let st := s.stn n
  match st.ctxOf lid with
  | none => true
  | some k =>
    st.ctxs[k.val].sinksDone && st.issueq == [] && st.nodeOps == [] && st.store.all (fun e => e.cx != k || e.kind == .sticky) &&
      s.net.all fun f => f.tok.stn.toNat != n

/-- The part of a launch's configuration on some regions is complete (R112). -/
def State.regionsDone (s : State) (l : Launch) (rs : List Region) : Bool := (stationsOf rs).all (s.stnComplete l.lid)

/-- The configuration of a launch is complete (R112). -/
def State.configDone (s : State) (l : Launch) : Bool := s.regionsDone l l.regions

/-- The sticky tokens of a launch discarded. -/
def State.dropStickies (s : State) (l : Launch) : State :=
  (stationsOf l.regions).foldl (fun t n =>
    match (t.stn n).ctxOf l.lid with
    | none => t
    | some k =>
      let st := t.stn n
      t.setStn n { st with store := st.store.filter fun e => !(e.cx == k && e.kind == .sticky) }) s

/-- Every helper core of a launch has halted. -/
def State.allHalted (s : State) (l : Launch) : Bool :=
  (coresOf l.regions).all fun p => (s.core p.access).run == .halted && (s.core p.drain).run == .halted

/-- A launch whose completion has been reported closes once its cores have halted (R123). A report that no longer holds is
void. -/
def State.closeIfDone (s : State) (lid : Nat) : State :=
  match s.launch lid with
  | none => s
  | some l =>
    if l.st = .running ∧ l.complete ∧ s.allHalted l then
      if s.configDone l then s.modLaunch lid fun l => { l with st := .closing, since := s.now }
      else s.modLaunch lid fun l => { l with complete := false }
    else s

/-- The DEADLOCK record of a station with a normal waiting entry (R442, R443). -/
def State.deadlockStn (s : State) (l : Launch) (n : Nat) : Option FRec :=
  let st := s.stn n
  match st.ctxOf l.lid with
  | none => none
  | some k =>
    let es := st.store.filter fun e => e.cx == k && e.kind != .sticky && !e.isCarry
    match es with
    | [] => none
    | e0 :: _ =>
      let slot := es.foldl (fun m e => min m e.tok.slot.toNat) e0.tok.slot.toNat
      let here := es.filter fun e => e.tok.slot.toNat == slot
      let first := here.headD e0
      let port (q : BitVec 2) : Nat := b2n (here.any fun e => e.tok.port == q)
      let f : FI := { cls := cDeadlock, detail := ({ st with store := es } : Station).used + port 0 * 128 + port 1 * 256 + port 2 * 512 }
      some (stnRec n (some l.lid) ((spFind st.ctxs[k.val].words slot).getD 0) (BitVec.ofNat 4 slot) first.tok.level l.ctx first.tok.tag 1 f)

/-- The records of one region found deadlocked: at most 16 stations, else a core blocked in TRCV, else station 00 of its lowest
core with the word of its slot 0 (R421, R443). A region that is complete has none. -/
def State.deadlockRegion (s : State) (l : Launch) (g : Region) : List FRec :=
  let cs := sortBy (fun (a b : GCore) => decide (a.core ≤ b.core)) (coresOf [g])
  let rs := ((cs.map fun p => range (p.key * 64) 64).flatten).filterMap (s.deadlockStn l)
  if s.regionsDone l [g] then []
  else match rs with
    | [] =>
      match ((cs.map fun p => [p.access, p.drain]).flatten).find? s.inTrcv with
      | some a => [s.coreRec a (s.core a).pc false { cls := cDeadlock }]
      | none =>
        let n := g.die.val * 8192 + g.core * 64
        let st := s.stn n
        let word := ((st.ctxOf l.lid).bind fun k => spFind st.ctxs[k.val].words 0).getD 0
        [stnRec n (some l.lid) word 0 0 l.ctx 0 1 { cls := cDeadlock }]
    | rs =>
      let out := rs.take 16
      if rs.length ≤ 16 then out
      else out.dropLast ++ (out.getLast?.toList.map fun r => { r with detail := r.detail ||| 0x400 })

/-- DEADLOCK: the launch stops with the records of its regions, and of a core that waits in GCFG (R351, R443). -/
def State.deadlock (s : State) (l : Launch) : State :=
  let cs := ((coresOf l.regions).map fun p => [p.access, p.drain]).flatten
  let g := (cs.find? fun a => (s.core a).wait == .gcfg none).toList.map fun a =>
    s.coreRec a (s.core a).pc false { cls := cDeadlock, detail := 0x800 }
  let recs := (l.regions.map (s.deadlockRegion l)).flatten ++ g
  let s1 := s.modLaunch l.lid fun l =>
    { l with st := .stopped, recs := l.recs ++ recs.map (s.now, ·), logged := l.logged ++ recs }
  s1.haltCores l.lid

/-! ## GCFG (R351) -/

/-- The regions on which a configuration is placed by a core: the shapes it has asked for. -/
def Core.shaped (c : Core) (rs : List Region) (n : Nat) : List Region :=
  ((List.range rs.length).zip rs).take n |>.map fun (j, g) => let (w, h) := c.shape g j; { g with w, h }

/-- The configuration that a core's GCFG names, checked, with the regions it is placed on. -/
def State.gcfgCheck (s : State) (l : Launch) (c : Core) (v : DWord) : Except FI (Cfg × List Region) :=
  match (if v.toNat < 2 ^ 32 then s.configs.find? (·.cfgid == v.setWidth 32) else none) with
  | none => .error (launchFault cLaunchRecord 3 l.dev)
  | some g =>
    if l.regions.length < g.nreg + 1 then .error (configRange l.dev)
    else
      let rs := c.shaped l.regions (g.nreg + 1)
      match g.check rs l.dev with
      | some f => .error f
      | none => .ok (g, rs)

/-- GCFG: it waits until the damper finds the configuration complete. -/
def execGcfg (x : Guard) (a : GReg) (s : State) : Host.Outcome State Fault Refusal :=
  let c := s.me
  issue x s (onlyBy s [.access, .drain] (
    match c.wait with
    | .gcfg (some none) => .done s
    | .gcfg (some (some r)) => .fault { cls := r.cls.toNat, addr := r.addr.toNat, detail := r.detail.toNat }
    | .gcfg none => .wait s
    | _ => match s.myLaunch with
      | none => .fault (launchFault cLaunchRecord 3 s.myDev)
      | some l => orFault (s.gcfgCheck l c (c.rg a)) fun _ => .wait (s.setMe { c with wait := .gcfg none })))

/-- The configuration of a launch replaced for one core that waits in GCFG: new words, SINK counts from zero, initial tokens;
code, flags, rows and tables stay. -/
def State.gcfgLoad (s : State) (l : Launch) (a : Agent) : State :=
  let c := s.core a
  let v : DWord := match decode (s.coreWord a c.pc.toNat) 0 with
    | .ok (.gcfg _ r, _) => c.rg r
    | _ => 0
  match s.gcfgCheck l c v with
  | .error f =>
    s.setCore a { c with wait := .gcfg (some (some (unitRec f c.ctx 0 0))) }
  | .ok (g, rs) =>
    let s1 := (stationsOf l.regions).foldl (fun t n => t.placeAt l.lid l.ctx g rs true n) { s with nextId := s.nextId + 1 }
    let s2 := ({ s1 with arcs := s1.arcs.filter (·.lid ≠ l.lid) }).modLaunch l.lid fun l =>
      { l with cfgid := g.cfgid, placed := rs, complete := false }
    let s3 := (s2.cacheConfig g.cfgid rs).fireConfig l.lid l.ctx g rs
    s3.setCore a { c with wait := .gcfg (some none) }

/-! ## Quiescence judged -/

/-- DAMPER_QUIESCENCE: a quiescent launch is complete or deadlocked (R112). Complete, one core that waits in GCFG goes on with
its new configuration; with none, completion is reported. -/
def execDamperQuiescence (lid : Nat) (s : State) : Host.Outcome State Fault Refusal :=
  .next (match s.launch lid with
    | none => s
    | some l =>
      if !s.quiet l then s
      else if s.configDone l then
        let s1 := s.dropStickies l
        let waiting := (((coresOf l.regions).map fun p => [p.access, p.drain]).flatten).filter fun a => (s1.core a).wait == .gcfg none
        match pick s.steps waiting with
        | some a => s1.gcfgLoad l a
        | none => (s1.modLaunch lid fun l => { l with complete := true }).closeIfDone lid
      else s.deadlock l)

/-- HALT (R358). -/
def execHalt (x : Guard) (s : State) : Host.Outcome State Fault Refusal :=
  issue x s (onlyBy s [.access, .drain] (
    let t := s.setMe { s.me with run := .halted }
    .done (match s.me.lid with | some n => t.closeIfDone n | none => t)))

/-! ## Host work queues (R119 to R121) -/

/-- A work queue. -/
def State.queue (s : State) (q : Nat) : WorkQueue := spGet {} s.wq q

/-- A work queue replaced. -/
def State.setQueue (s : State) (q : Nat) (w : WorkQueue) : State := { s with wq := spInsert s.wq q w }

/-- Context, ring size and base of a queue's descriptor (Table 05-2). -/
def WorkQueue.ctx (w : WorkQueue) : Byte := BitVec.ofNat 8 (fld w.desc.toNat 71 64)
/-- Entries of the ring. -/
def WorkQueue.size (w : WorkQueue) : Nat := 16 * 2 ^ fld w.desc.toNat 63 60
/-- Device virtual address of the ring. -/
def WorkQueue.base (w : WorkQueue) : Nat := fld w.desc.toNat 55 6 * 64

/-- The queue is enabled with a size that is not reserved, and has a request. -/
def WorkQueue.wants (w : WorkQueue) : Bool :=
  bitOf w.desc.toNat 0 && decide (fld w.desc.toNat 63 60 ≤ 12) && w.tail != w.head

/-- A tail word written by the host (R119). -/
def State.tailWrite (s : State) (q : Nat) (v : Word) : State :=
  if q < 16384 then s.setQueue q { s.queue q with tail := v } else s

/-- HOST_TAIL_WRITE. -/
def execHostTailWrite (q : Nat) (tail : BitVec 32) (s : State) : Host.Outcome State Fault Refusal := .next (s.tailWrite q tail)

/-- The queue that the scan serves next: the first from the one after the last served, in ascending order (R121). -/
def State.scanNext (s : State) : Option Nat :=
  let qs := (s.wq.filter fun (_, w) => w.wants).map Prod.fst
  match qs.find? fun q => decide (s.wqNext ≤ q) with
  | some q => some q
  | none => qs.head?

/-- A ring entry: 64 bytes at a device virtual address of the queue's context. -/
def State.ringRead (s : State) (ctx : Byte) (va : Nat) : Except FI (List Byte × State) := do
  if va < 2 ^ 32 then throw { cls := cTranslation, addr := va, detail := trDetail 7 8 }
  let l ← s.leafLoc (← s.walk ctx va) va 64 false
  match s.accessFault l 64 false va with
  | some f => throw f
  | none => return (s.home l 64, s.correct 0 l 64)

/-! ## Arming (R118, R122, R447) -/

/-- A record's copy with bytes replaced from a place. -/
def patchBytes (bs : List Byte) (at_ : Nat) (new : List Byte) : List Byte := bs.take at_ ++ new ++ bs.drop (at_ + new.length)

/-- A dependence field's reserved bit is 1 (R117). -/
def depBad (r : Nat) : Bool := (List.range 4).any fun j => bitOf r (128 + 16 * j + 14)

/-- The accepted copy of a record checked (R118, R148): class and why of the fault. -/
def State.recordFault (s : State) (r : Nat) (ctx : Byte) : Option (Nat × Nat) :=
  let cfg := s.configs.find? fun c => c.cfgid.toNat == fld r 31 0
  if fld r 127 111 ≠ 0 ∨ bitOf r 55 ∨ fld r 51 43 ≠ 0 ∨ depBad r then some (cLaunchRecord, 0)
  else if fld r 79 64 % 4 ≠ 0 ∨ fld r 95 80 % 4 ≠ 0 then some (cLaunchRecord, 1)
  else if fld r 63 56 = 0 then some (cLaunchRecord, 2)
  else match cfg with
    | none => some (cLaunchRecord, 3)
    | some c =>
      if fld r 54 52 ≠ c.nreg then some (cLaunchRecord, 4)
      else if fld r 39 32 ≠ ctx.toNat then some (cLaunchRecord, 5)
      else match s.ctxEntry ctx with
        | .ok e => if bitOf e 128 then none else some (cLaunchRecord, 7)
        | .error _ => some (cLaunchRecord, 7)

/-- The lowest launch index that no pending launch holds (R122). -/
def State.freeLid (s : State) : Option Nat := (List.range (s.launches.length + 1)).find? fun n => decide (n < 65535) && s.launches.all (·.lid != n)

/-- A request as the scheduler takes it: record, patch, the context it must have, who armed it, its source in records, and the
batch it dispatches. -/
structure Arming where
  recno : Nat
  patch : List (Nat × List Byte)
  patchOk : Bool
  ctx : Byte
  dev : Bool
  source : Nat
  batch : Option (Nat × Nat)
  deriving DecidableEq, Repr

/-- The pending launch that a request makes, or the class and why of its fault (R118, R122). -/
def State.armLaunch (s : State) (q : Arming) (lid : Nat) : Except (Nat × Nat) Launch :=
  if s.recBusy q.recno then .error (cLaunchBusy, 8)
  else if !q.patchOk then .error (cLaunchRecord, 6)
  else match s.readRange (s.recAddr q.recno) 256 3 with
    | .error _ => .error (cLaunchRecord, 0)
    | .ok bs0 =>
      let bs := q.patch.foldl (fun bs (a, new) => patchBytes bs a new) bs0
      let r := leValue bs
      match s.recordFault r q.ctx with
      | some e => .error e
      | none =>
        let l : Launch := {
          lid, recno := q.recno, bytes := bs, cls := fld r 42 40, ctx := q.ctx, cfgid := BitVec.ofNat 32 r, since := s.now
          ageAt := s.now, dev := q.dev, source := q.source, deps := [false, false, false, false], batch := q.batch }
        .ok (l.evalDeps s.now fun k => some (spGet 0 s.counters k))

/-- The record of a rejected arming (R442, R447). -/
def State.rejectRec (s : State) (q : Arming) (e : Nat × Nat) : FRec :=
  unitRec { cls := e.1, addr := s.recAddr q.recno, detail := launchDetail e.2 q.dev } q.ctx
    (agentSrc (collierOf (if q.dev then Fin.ofNat 8 q.source else 0))) (BitVec.ofNat 64 q.source)

/-- Single-bit errors that the scheduler's reads for an arming meet, counted: the record, and its context's entry (R436). -/
def State.countArming (s : State) (q : Arming) : State := (s.countRange (s.recAddr q.recno) 256 3).countEntry q.ctx

/-- A host request taken from its ring, accepted or rejected; the head advances past it (R121, R447). Where the ring lies in host memory
and the host link is down, LINK is raised instead (R454; log entry 82). -/
def State.armHost (s : State) (q lid : Nat) : State :=
  let w := s.queue q
  let take (t : State) : State := { t.setQueue q { w with head := w.head + 1 } with wqNext := q + 1 }
  match s.ringRead w.ctx (w.base + 64 * (w.head.toNat % w.size)) with
  | .error f =>
    if f.cls = cLink then (take s).queueFault 0 (unitRec f w.ctx (agentSrc (collierOf 0)) (BitVec.ofNat 64 q))
    else (take s).logFault w.ctx
      (unitRec { cls := cLaunchRecord, detail := launchDetail 0 false } w.ctx (agentSrc (collierOf 0)) (BitVec.ofNat 64 q))
  | .ok (bs, t) =>
    let v := leValue bs
    let plen := fld v 23 16
    let poff := fld v 31 24
    let a : Arming := {
      recno := fld v 15 0, patch := [(64 + 8 * poff, (bs.drop 8).take (8 * plen))], patchOk := decide (plen ≤ 7 ∧ poff + plen ≤ 24)
      ctx := w.ctx, dev := false, source := q, batch := none }
    let s1 := (take t).countArming a
    match s.armLaunch a lid with
    | .ok l => { s1 with launches := s1.launches ++ [l] }
    | .error e => s1.logFault w.ctx (s.rejectRec a e)

/-- A core that waits in LARM gets the scheduler's answer. -/
def State.answerArm (s : State) (a : Agent) (r : Option FRec) : State :=
  let c := s.core a
  match c.wait with
  | .arm none => s.setCore a { c with wait := .arm (some r) }
  | _ => s

/-- The first request of a die's arm queue taken: accepted or rejected (R122, R370, R447). -/
def State.armDie (s : State) (d : Fin 8) (r : ArmReq) (rest : List ArmReq) (lid : Nat) : State :=
  let a : Arming := {
    recno := r.recno, patch := r.arg.toList.map fun v => (64, leBytes 8 v.toNat), patchOk := true, ctx := r.ctx, dev := true
    source := d.val, batch := r.batch }
  let s1 := (s.setDie d { s.die d with armq := rest }).countArming a
  match s.armLaunch a lid with
  | .ok l =>
    let s2 := { s1 with launches := s1.launches ++ [l] }
    match r.agent with
    | some g => s2.answerArm g none
    | none => s2
  | .error e =>
    let f := s.rejectRec a (if r.batch.isSome && e.2 == 5 then (e.1, 12) else e)
    match r.agent with
    | some g => s1.answerArm g (some f)
    | none =>
      let s2 := s1.logFault r.ctx f
      match r.batch with
      | some (q, b) => s2.dropBatch q b
      | none => s2

/-- ARMING: the scan's next host queue, or a die's arm queue. Nothing is accepted while every index is held (R122); host requests
only while the module serves (R394), and after the host's earlier writes (R131); a LARM after what it releases (R130), over its die's link
to the IOD (R391). -/
def execArming (queue : Option Nat) (die : Nat) (s : State) : Host.Outcome State Fault Refusal :=
  .next (match s.freeLid with
    | none => s
    | some lid =>
      match queue with
      | some q => if s.scanNext = some q ∧ s.evict = .serving ∧ !s.ownPending hostKey then s.armHost q lid else s
      | none =>
        let d : Fin 8 := Fin.ofNat 8 die
        match (s.die d).armq with
        | [] => s
        | r :: rest => if r.after.any s.pending || !s.linkOpen none d.val then s else s.armDie d r rest lid)

/-! ## Ages and selection (R123 to R126) -/

/-- AGE_COUNT_EXPIRY: 2^20 scheduler cycles of 1 ns, counted on the model's 1.4 GHz clock. -/
def execAgeCountExpiry (lid : Nat) (s : State) : Host.Outcome State Fault Refusal :=
  .next (match s.launch lid with
    | none => s
    | some l =>
      let waits := match l.st with | .ready => true | .preempted _ => true | _ => false
      if waits && decide (2 ^ 20 * 14 ≤ (s.now - l.ageAt) * 10) then
        s.modLaunch lid fun l => { l with cls := min (l.cls + 1) 7, ageAt := s.now }
      else s)

/-- A launch holds the cores of its regions. -/
def Launch.holds (l : Launch) : Bool :=
  match l.st with
  | .loading | .running | .saving | .closing | .stopped => true
  | _ => false

/-- The cores that launches hold. -/
def usedCores (ls : List Launch) : List Nat := ((ls.filter (·.holds)).map fun l => (coresOf l.regions).map (·.key)).flatten

/-- A rectangle of free cores of a die: 16 columns and 8 rows (R16). -/
def rectFree (used : List Nat) (g : Region) : Bool :=
  decide (g.core % 16 + g.w ≤ 16 ∧ g.core / 16 + g.h ≤ 8) && (coresOf [g]).all fun p => !used.contains p.key

/-- The lowest place of a width and height: lowest die allowed, then lowest core (R125). -/
def findRect (used : List Nat) (mask w h : Nat) : Option Region :=
  (List.finRange 8).findSome? fun d =>
    if bitOf mask d.val then
      (List.range 128).findSome? fun c => let g : Region := ⟨d, c, w, h⟩; if rectFree used g then some g else none
    else none

/-- The widths that a request may be granted, widest first (R125). -/
def widthsOf (exact : Bool) (w : Nat) : List Nat := if exact then [w] else (List.range (w - ceilDiv w 2 + 1)).map (w - ·)

/-- The regions that a launch asks for: exact, width, height, and the saved region that a resume prefers (R117, R140). -/
def Launch.wants (l : Launch) : List (Bool × Nat × Nat × Option Region) :=
  match l.saved with
  | some rs => rs.map fun g => (true, g.w, g.h, some g)
  | none => (List.range (l.bits 54 52 + 1)).map fun j =>
    let (e, w, h) := requestOf (l.bits (192 + 8 * j + 7) (192 + 8 * j))
    (e, w, h, none)

/-- Regions granted one after another, each at the best place beside those before it, or none (R125; log entry 81). -/
def fitGo (mask : Nat) : List (Bool × Nat × Nat × Option Region) → List Nat → Option (List Region)
  | [], _ => some []
  | (e, w, h, pref) :: rest, used =>
    let g : Option Region := match pref.filter (rectFree used) with
      | some g => some g
      | none => (widthsOf e w).findSome? fun w => findRect used mask w h
    match g with
    | none => none
    | some g => (fitGo mask rest (used ++ (coresOf [g]).map (·.key))).map (g :: ·)

/-- The grant of a launch beside the cores in use. -/
def Launch.fit (l : Launch) (used : List Nat) : Option (List Region) := fitGo (l.bits 63 56) l.wants used

/-- A launch waits for selection: READY, or PREEMPTED without a pending fault (R422). -/
def Launch.waits (l : Launch) : Bool := l.st == .ready || l.st == .preempted false

/-- Scheduler cycle of a time on the 1.4 GHz clock. -/
def schedCycle (t : Nat) : Nat := t * 10 / 14

/-- A launch goes before another (R124). -/
def Launch.before (a b : Launch) : Bool :=
  if a.cls ≠ b.cls then decide (b.cls < a.cls)
  else if schedCycle a.since ≠ schedCycle b.since then decide (schedCycle a.since < schedCycle b.since)
  else !a.dev && b.dev

/-- The first of several launches; between equals the choice is free (log entry 3). -/
def firstOf (n : Nat) (ls : List Launch) : Option Launch := pick n (ls.filter fun a => ls.all fun b => !b.before a)

/-- A launch granted its regions: it loads; a fresh start's start blocks are written (R123, R126). -/
def State.grant (s : State) (l : Launch) (rs : List Region) : State :=
  let fresh := l.saved.isNone
  let lseq := if fresh then s.lseq + 1 else l.lseq
  let l1 : Launch := { l with st := .loading, regions := rs, lseq, resumed := !fresh, since := s.now }
  let s1 := { s with lseq := if fresh then lseq else s.lseq }.modLaunch l.lid fun _ => l1
  if fresh then (coresOf rs).foldl (fun t p => t.startBlock l1 p) s1 else s1

/-! ## Pre-emption (R136, R139) -/

/-- Bytes that a launch's image takes: 2 MiB for each core (log entry 33). -/
def Launch.imageSize (l : Launch) : Nat := (coresOf l.regions).length * 2 ^ 21

/-- The first range of a context's image part that is free for a size, beside the images it holds (R139). -/
def freeRange (ls : List Launch) (ctx : Byte) (size : Nat) : Option Nat :=
  let taken := (ls.filter (·.ctx == ctx)).filterMap (·.saveAt)
  let starts := sortBy (fun a b => decide (a ≤ b)) (0 :: taken.map fun (o, n) => o + n)
  starts.find? fun a => decide (a + size ≤ 2 ^ 31) && taken.all fun (o, n) => decide (a + size ≤ o ∨ o + n ≤ a)

/-- A RUNNING launch stops to be saved, with its place in the save area; one whose image has no place is passed over (R123, R137, R139). -/
def State.preempt (s : State) (lid : Nat) : State :=
  match s.launch lid with
  | none => s
  | some l =>
    match freeRange s.launches l.ctx l.imageSize with
    | none => s
    | some o => (s.modLaunch lid fun l => { l with st := .saving, since := s.now, saveAt := some (o, l.imageSize) }).haltCores lid

/-- Victims for a placement: of the launches given in order, those whose image fits, until the freed cores allow it (R136). -/
def victimsGo (t : Launch) (all : List Launch) : List Launch → List Nat → List Nat → Option (List Nat)
  | [], _, _ => none
  | v :: vs, used, got =>
    match freeRange all v.ctx v.imageSize with
    | none => victimsGo t all vs used got
    | some o =>
      let mine := (coresOf v.regions).map (·.key)
      let used := used.filter fun k => !mine.contains k
      let got := got ++ [v.lid]
      if (t.fit used).isSome then some got
      else victimsGo t (all.map fun l => if l.lid == v.lid then { l with saveAt := some (o, v.imageSize) } else l) vs used got

/-- Victims in order: the lowest class first, then the most recently started; of those equal in both, the earlier in the list of pending
launches (R136; log entry 80). -/
def victimOrder (ls : List Launch) : List Launch :=
  sortBy (fun a b => if a.cls = b.cls then decide (b.since ≤ a.since) else decide (a.cls < b.cls)) ls

/-- The victims for a waiting launch among the RUNNING launches that p admits (R136). -/
def State.victims (s : State) (t : Launch) (p : Launch → Bool) : Option (List Nat) :=
  victimsGo t s.launches (victimOrder (s.launches.filter fun l => l.st == .running && p l)) (usedCores s.launches) []

/-- Cores that launches already leaving will free suffice for a launch. -/
def State.soonFits (s : State) (t : Launch) : Bool :=
  (t.fit (usedCores (s.launches.filter fun l => l.st != .saving && l.st != .closing))).isSome

/-- SCHEDULER_SELECT: the first launch that can be placed loads, when the links to its dies are open (R391); when none can be placed, the
first for which victims suffice has them pre-empted (R124, R125, R136; log entry 79). -/
def execSchedulerSelect (s : State) : Host.Outcome State Fault Refusal :=
  .next (
    let cands := s.launches.filter (·.waits)
    let used := usedCores s.launches
    if s.evict ≠ .serving then s
    else match firstOf s.steps (cands.filter fun l => (l.fit used).isSome) with
      | some l => match l.fit used with
        | some rs => if s.iodOpen rs then s.grant l rs else s
        | none => s
      | none =>
        let plans := cands.filter fun t => !s.soonFits t && (s.victims t fun v => decide (v.cls < t.cls)).isSome
        match firstOf s.steps plans with
        | none => s
        | some t => ((s.victims t fun v => decide (v.cls < t.cls)).getD []).foldl State.preempt s)

/-- YIELD: the scheduler may take the issuer's launch for a waiting launch of class equal or above, as if that class were one
higher (R358). -/
def execYield (x : Guard) (s : State) : Host.Outcome State Fault Refusal :=
  issue x s (onlyBy s [.access, .drain] (.done (
    match s.myLaunch with
    | none => s
    | some l =>
      let plan (t : Launch) : Option (List Nat) :=
        if t.waits && decide (l.cls ≤ t.cls) && (t.fit (usedCores s.launches)).isNone then
          (s.victims t fun v => decide (v.cls < t.cls) || v.lid == l.lid).filter (·.contains l.lid)
        else none
      match firstOf s.steps (s.launches.filter fun t => (plan t).isSome) with
      | some t => if s.evict = .serving ∧ Config.choose s.steps % 2 = 0 then ((plan t).getD []).foldl State.preempt s else s
      | none => s)))

/-! ## Saving (R137, R138) -/

/-- A carry entry told to go on at the first block that has not fired. -/
def Station.rewind (st : Station) (e : Entry) : Entry :=
  match e.kind with
  | .carry k =>
    let L := e.tok.L
    let mine := st.issueq.filter fun p => p.cx == e.cx && p.slot == e.tok.slot && outerOf p.tag L == outerOf e.tok.tag L
    { e with kind := .carry (mine.foldl (fun m p => min m (p.base / 32)) k) }
  | _ => e

/-- A pair of a source slot: it has no operand entries, and waits in the issue queue. -/
def Station.isSource (st : Station) (p : Pair) : Bool :=
  ((st.ctxs[p.cx.val].instr p.slot).bind stnHead).any fun h => h.arity == 0

/-- Pairs of a context that wait in the issue queue back in the store as their operand entries, in their arrival order (R137 step 6). -/
def Station.unissue (st : Station) (k : Fin 4) : Station :=
  let back (p : Pair) : Bool := p.cx == k && !st.isSource p
  let st1 := { st with store := st.store.map fun e => if e.cx = k then st.rewind e else e, issueq := st.issueq.filter fun p => !back p }
  (st.issueq.filter back).foldl (fun st p => st.giveBack p) st1

/-- What a station of a launch has for its image (R138). -/
def Station.image (st : Station) (n lid : Nat) (k : Fin 4) : StnImage :=
  let st1 := st.unissue k
  { stn := n
    entries := st1.store.filter fun e => e.cx == k
    flags := st.ctxs[k.val].flags, sinks := st.ctxs[k.val].sinks, sources := st1.issueq.filter fun p => p.cx == k
    nodeOps := st.nodeOps.filter fun o => o.pair.cx == k
    faulted := st.faulted.filter fun p => p.cx == k
    held := st.held.filter fun h => h.lid == lid }

/-- A station from which a launch's context has gone: its words and tag stay (R87). -/
def Station.leave (st : Station) (lid : Nat) (k : Fin 4) : Station :=
  let want := st.want.filter fun w => some w.for_.1 != st.ctxs[k.val].tag
  { st with
    ctxs := st.ctxs.set k.val { st.ctxs[k.val] with lid := none, flags := 0, sinks := [] }
    store := st.store.filter fun e => e.cx ≠ k
    issueq := st.issueq.filter fun p => p.cx ≠ k
    nodeOps := st.nodeOps.filter fun o => o.pair.cx ≠ k
    faulted := st.faulted.filter fun p => p.cx ≠ k
    held := st.held.filter fun h => h.lid ≠ lid
    resbuf := [], reshdr := [], want, own := want != [] }

/-- Every station of a launch left by it. -/
def State.leaveAll (s : State) (l : Launch) : State :=
  (stationsOf l.regions).foldl (fun t n => match (t.stn n).ctxOf l.lid with
    | none => t
    | some k => t.setStn n ((t.stn n).leave l.lid k)) s

/-- A core that no launch holds any more; its registers keep what they hold until its next start. -/
def Core.free (c : Core) : Core := { c with run := .idle, lid := none, wait := .none, rq := [], escalated := false }

/-- The cores of a launch freed; what they and their engines had seen is performed everywhere. -/
def State.freeCores (s : State) (l : Launch) : State :=
  (coresOf l.regions).foldl (fun t p => [p.access, p.drain].foldl (fun (t : State) a =>
    ((t.setCore a (t.core a).free).setKnow (agentIdx a) {}).setKnow (engKey a) {}) t) s

/-- A flight that belongs to a launch's stations. -/
def Launch.owns (l : Launch) (stns : List Nat) (f : Flight) : Bool := tagCtx f.tok.tag == l.ctx && stns.contains f.tok.stn.toNat

/-- The save image of a launch (R138). -/
def State.imageOf (s : State) (l : Launch) : Image :=
  let cs := coresOf l.regions
  let stns := stationsOf l.regions
  let agents := (cs.map fun p => [p.access, p.drain]).flatten
  { cfgid := l.cfgid, regions := l.regions
    stations := stns.filterMap fun n => ((s.stn n).ctxOf l.lid).map ((s.stn n).image n l.lid)
    residue := s.net.filter (l.owns stns)
    cores := agents.map fun a => (a, s.core a)
    mems := ((List.range cs.length).zip cs).map fun (i, p) => (i, s.saveCm (coreMemBase p.die.val p.core)) }

/-- Records appended to the fault queues of the colliers of the dies that raised them: those raised in one cycle in ascending src (R422). -/
def State.appendRecs (s : State) (rs : List (Nat × FRec)) : State :=
  let key (x : Nat × FRec) : Nat := x.1 * 2 ^ 16 + x.2.src.toNat
  (sortBy (fun a b => decide (key a ≤ key b)) rs).foldl (fun t r => t.queueFault r.2.die r.2) s

/-- SAVE_COMPLETE: the victim has stopped and its image is written to its place in the context's save area (R137 to R139); a fault met
meanwhile is pending and its records are appended (R422). A save area that cannot be found stops the launch (R463). -/
def execSaveComplete (lid : Nat) (s : State) : Host.Outcome State Fault Refusal :=
  .next (match s.launch lid with
    | none => s
    | some l =>
      if l.st ≠ .saving ∨ !s.settled l ∨ !s.writesDone l ∨ !s.readsDone l ∨ !l.linksOpen s then s
      else match s.imagePlace l with
        | .error f => s.schedStop l f
        | .ok (at_, size) =>
          let stns := stationsOf l.regions
          let bs := (putImage (s.imageOf l) l.ctx l.cls).take size
          let bs := padTo (128 * ceilDiv bs.length 128) bs
          let s1 := ((s.leaveAll l).freeCores l).countEntry l.ctx
          let s2 := { s1 with net := s1.net.filter fun f => !l.owns stns f }
          let s3 := s2.writeRange at_ bs (bs.length / 128 + 2) { lid := some lid }
          let s4 := s3.modLaunch lid fun l =>
            { l with st := .preempted (l.recs != []), saved := some l.regions, since := s.now, ageAt := s.now, recs := [] }
          s4.appendRecs l.recs)

/-! ## Stops and closing (R422, R424) -/

/-- Pairs of a launch that wait in issue queues back in the matching stores (R137 step 6). -/
def State.unissueAll (s : State) (l : Launch) : State :=
  (stationsOf l.regions).foldl (fun t n => match (t.stn n).ctxOf l.lid with
    | none => t
    | some k => t.setStn n ((t.stn n).unissue k)) s

/-- FAULT_STOP_COMPLETE: a stopped launch has settled; its waiting pairs return to the matching stores, and its records go to the colliers
(R422). -/
def execFaultStopComplete (lid : Nat) (s : State) : Host.Outcome State Fault Refusal :=
  .next (match s.launch lid with
    | none => s
    | some l =>
      if l.st ≠ .stopped ∨ l.recs = [] ∨ !s.settled l then s
      else ((s.unissueAll l).modLaunch lid fun l => { l with recs := [] }).appendRecs l.recs)

/-- LAUNCH_CLOSE: every write of a CLOSING launch, and every write that it has observed, is performed at device scope; the completion counter is incremented unless the
launch was ended, its cores are free, its batch is discarded and its record idle (R123, R131, R372, R424). -/
def execLaunchClose (lid : Nat) (s : State) : Host.Outcome State Fault Refusal :=
  .next (match s.launch lid with
    | none => s
    | some l =>
      if l.st ≠ .closing ∨ s.engine.any (fun o => o.lid == some lid) ∨ !s.writesDone l ∨ !s.readsDone l then s
      else
        let stns := stationsOf l.regions
        let s1 := (s.leaveAll l).freeCores l
        let s2 := { s1 with
          net := s1.net.filter fun f => !l.owns stns f
          xnet := s1.xnet.filter fun f => !((coresOf l.regions).any fun p => f.agent == p.access || f.agent == p.drain)
          arcs := s1.arcs.filter (·.lid ≠ lid) }
        let k := l.bits 109 96
        let s3 := if bitOf (leValue l.bytes) 110 && !l.ended then s2.counterWrite k (spGet 0 s2.counters k + 1) else s2
        s3.discard l)

end Sys2Proof.Machine
end

