-- ==== Sys2Proof/Machine/Service.lean ====
section
/-! DEFINITION. What colliers do for stopped launches (R423, R424, R432, R435, R448), the CSRs (R70, R220, R357, R415), TRAP and RTE
(R356), WFE (R359), and the scrubber (R437). -/

namespace Sys2Proof.Machine

/-! ## LCTL (R423, R424, R437, R445, R446) -/

/-- Records of a launch since it was last resumed. -/
def Launch.current (l : Launch) : List FRec := l.logged.drop l.handled

/-- A double-bit error in a matching store or a configuration context is among a launch's faults: resume acts as end (R437). -/
def Launch.mustEnd (l : Launch) : Bool :=
  l.current.any fun r => r.cls.toNat == cSramEcc && (r.detail.toNat % 16 == 2 || r.detail.toNat % 16 == 3)

/-- A free word (log entry 10). -/
def State.freeWord (s : State) : Word × State :=
  let (bs, t) := s.freeBytes 4
  (BitVec.ofNat 32 (leValue bs), t)

/-- The lanes of a destination's result buffer; a lane that nothing has written is free. -/
def State.resLanes (s : State) (st : Station) (dest : Nat) : List Nat → List Word × State
  | [] => ([], s)
  | j :: js =>
    let (w, t) := match spFind st.resbuf (dest * 32 + j) with
      | some w => (w, s)
      | none => s.freeWord
    let (ws, u) := t.resLanes st dest js
    (w :: ws, u)

/-- The header of a destination's result buffer, when firmware has written one of its halves. -/
def Station.resHeader (st : Station) (dest : Nat) : Option Nat :=
  match spFind st.reshdr (dest * 2), spFind st.reshdr (dest * 2 + 1) with
  | none, none => none
  | lo, hi => some ((lo.getD 0).toNat + (hi.getD 0).toNat * 2 ^ 64)

/-- The token that firmware has left in the result buffer for a destination, sent from the faulting pair's slot (R434, R435). -/
def State.sendResult (s : State) (n : Nat) (lid : Option Nat) (p : Pair) (d : Option Dest) (dest : Nat) : State :=
  let st := s.stn n
  match st.resHeader dest with
  | none => s
  | some h =>
    let (lanes, t) := s.resLanes st dest (List.range 32)
    match tokenOf h lanes with
    | some tok => t.sendTo (slotKey n p.slot) lid d [tok]
    | none => t

/-- A station of a stopped launch goes on (R423, R445): its entries re-enter under the matching rules, and its held tokens are presented
again; with skip the operands of its faulting pairs and its held tokens are discarded, and the result buffer is sent. -/
def State.resumeStn (s : State) (lid : Nat) (skip : Bool) (n : Nat) : State :=
  let st := s.stn n
  let held := st.held.filter (·.lid == lid)
  let s1 := s.setStn n { st with held := st.held.filter (·.lid ≠ lid) }
  let s2 := match st.ctxOf lid with
    | none => s1
    | some k =>
      let ps := st.faulted.filter fun p => p.cx == k
      let es := st.store.filter fun e => e.cx == k
      let s2 := match skip, ps with
        | true, p :: _ => match (st.ctxs[p.cx.val].instr p.slot).bind stnHead with
          | none => s1
          | some h => (s1.sendResult n (some lid) p h.d0 0).sendResult n (some lid) p h.d1 1
        | _, _ => s1
      (s2.setStn n { s2.stn n with
        store := st.store.filter fun e => e.cx ≠ k, faulted := st.faulted.filter fun p => p.cx ≠ k, resbuf := [], reshdr := [] }).reenterList n
          (if skip then st.lessFaulted ps es else es)
  if skip then s2 else held.foldl (fun t h => t.arrive n (some h.lid) h.tok) s2

/-- The stations where a launch stands or has a token held. -/
def State.stnsOf (s : State) (l : Launch) : List Nat :=
  union (stationsOf l.regions) ((s.stations.filter fun (_, st) => st.held.any (·.lid == l.lid)).map Prod.fst)

/-- A stopped launch goes on (R423): one whose load was abandoned is loaded again (log entry 78), one whose residue is still being delivered
starts its cores after it (R140), any other runs on. -/
def State.resumeLaunch (s : State) (l : Launch) (skip : Bool) : State :=
  let s1 := s.appendRecs l.recs
  let l1 : Launch := { l with recs := [], handled := l.logged.length, complete := false, skip := l.skip || skip }
  if l.saved.isSome then s1.modLaunch l.lid fun _ => { l1 with st := .loading }
  else
    let s2 := if l.restoring then s1.modLaunch l.lid fun _ => { l1 with st := .loading }
      else (s1.modLaunch l.lid fun _ => { l1 with st := .running, skip := false, saveAt := none }).restartCores l skip
    (s.stnsOf l).foldl (fun t n => t.resumeStn l.lid skip n) s2

/-- A PREEMPTED launch with a fault pending becomes eligible again; skip is kept for its resume. -/
def State.resumePending (s : State) (l : Launch) (skip : Bool) : State :=
  s.modLaunch l.lid fun l => { l with st := .preempted false, handled := l.logged.length, skip }

/-- Every record of an ended launch in its context's fault log (R424). -/
def State.logAll (s : State) (l : Launch) : State := l.logged.foldl (fun t r => t.logFault l.ctx r) s

/-- A launch ended (R423, R424): a stopped one closes, a preempted one is gone. -/
def State.endLaunch (s : State) (l : Launch) : State :=
  let s1 := (s.appendRecs l.recs).logAll l
  match l.st with
  | .preempted _ => ({ s1 with arcs := s1.arcs.filter (·.lid ≠ l.lid) }).discard l
  | _ => s1.modLaunch l.lid fun l => { l with st := .closing, since := s.now, recs := [], ended := true }

/-- Tokens held for no open launch at stations of a die discarded (R446). -/
def State.dropHeld (s : State) (d : Fin 8) : State :=
  { s with stations := s.stations.map fun (n, st) =>
      if stnDie n = d then (n, { st with held := st.held.filter (·.lid ≠ 0xFFFF) }) else (n, st) }

/-- LCTL by the collier of a die: resume 0, resume with skip 1, end 2; none where it raises ILLEGAL. -/
def State.lctl (s : State) (d : Fin 8) (act lid : Nat) : Option State :=
  if 3 ≤ act then none
  else if lid = 0xFFFF then (if act = 1 then some (s.dropHeld d) else none)
  else match s.launch lid with
    | none => none
    | some l =>
      match l.st with
      | .stopped => some (if act = 2 ∨ l.mustEnd then s.endLaunch l else s.resumeLaunch l (act = 1))
      | .preempted true => some (if act = 2 ∨ l.mustEnd then s.endLaunch l else s.resumePending l (act = 1))
      | _ => none

/-- LCTL resume. -/
def execLctlResume (die : Fin 8) (lid : Nat) (s : State) : Host.Outcome State Fault Refusal := .next ((s.lctl die 0 lid).getD s)

/-- LCTL resume with skip. -/
def execLctlResumeSkip (die : Fin 8) (lid : Nat) (s : State) : Host.Outcome State Fault Refusal := .next ((s.lctl die 1 lid).getD s)

/-- LCTL end. -/
def execLctlEnd (die : Fin 8) (lid : Nat) (s : State) : Host.Outcome State Fault Refusal := .next ((s.lctl die 2 lid).getD s)

/-! ## FQHEAD, LCANCEL (R423, R448) -/

/-- FQHEAD written: records that waited enter the queue. -/
def State.fqhead (s : State) (d : Fin 8) (v : DWord) : State :=
  let a := collierOf d
  let s1 := s.setCore a { s.core a with fqhead := v &&& 0x7F }
  s1.drainFaults d (s1.die d).fwait.length

/-- FQHEAD_WRITE. -/
def execFqheadWrite (die : Fin 8) (v : DWord) (s : State) : Host.Outcome State Fault Refusal := .next (s.fqhead die v)

/-- LCANCEL written: a WAITING or READY launch of the record is withdrawn. -/
def State.lcancelOp (s : State) (d : Fin 8) (v : DWord) : State :=
  let a := collierOf d
  let r := v.toNat % 65536
  let ans (t : State) (done : Bool) : State := t.setCore a { t.core a with lcancel := BitVec.ofNat 64 (r + b2n done * 2 ^ 16) }
  match s.launches.find? fun l => l.recno == r && (l.st == .waiting || l.st == .ready) with
  | none => ans s false
  | some l => ans ((s.discard l).logFault l.ctx (l.record (s.recAddr r) { cls := cLaunchRecord, detail := launchDetail 11 l.dev })) true

/-- LCANCEL_WRITE. -/
def execLcancelWrite (die : Fin 8) (v : DWord) (s : State) : Host.Outcome State Fault Refusal := .next (s.lcancelOp die v)

/-! ## PAIRSVC (R432) -/

/-- The context and launch of the table that a PAIRSVC names: its context's launch holds the station and is STOPPED, or is PREEMPTED
with a fault pending, and the table stands there or was spilled there. -/
def State.svcOwner (s : State) (n : Nat) (t : BitVec 2) : Option (Byte × Nat) :=
  let ok (l : Launch) : Bool := (match l.st with | .stopped => true | .preempted f => f | _ => false)
    && (stationsOf (l.saved.getD l.regions)).contains n && (((s.stn n).table l.ctx t).isSome || s.isSpilled n l.ctx t)
  (s.launches.find? ok).map fun l => (l.ctx, l.lid)

/-- A table that a PAIRSVC reaches: brought back when it was spilled, and read without damage (R437; log entry 83). -/
def State.svcTable (s : State) (n : Nat) (ctx : Byte) (t : BitVec 2) (lid : Nat) : Except FI (Option Table × State) := do
  let s1 ← if ((s.stn n).table ctx t).isSome then .ok s else s.restoreTable n ctx t (some lid)
  match (s1.stn n).table ctx t with
  | none => return (none, s1)
  | some tb => return (some tb, ← checked (s1.tableCheck n tb))

/-- How far gen a is ahead of gen b, modulo 2^16. -/
def genAhead (a b : BitVec 16) : Nat := (a - b).toNat

/-- The journal entries that a table lags by, oldest first; none when one is no longer there. -/
def lagging (journal : List JEntry) (gen : BitVec 16) : Nat → Option (List JEntry)
  | 0 => some []
  | k + 1 => match journal.find? fun e => e.gen == gen + 1 with
    | none => none
    | some e => (lagging journal (gen + 1) k).map (e :: ·)

/-- An update of a journal entry applied folded, with its delta times m; the table's gen becomes g. -/
def Station.svcApply (st : Station) (tb : Table) (tr : Bool) (e : JEntry) (m : Int) (g : BitVec 16) : Option Station :=
  let (c, k) := tb.pupdPlace tr e.pos
  match st.update tb c k (m * e.delta) true with
  | .error _ => none
  | .ok st1 => (st1.table tb.ctx tb.t).map fun t1 => st1.putTable { t1 with gen := g }

/-- Entries applied one after another. -/
def Station.svcAll (st : Station) (ctx : Byte) (t : BitVec 2) (tr : Bool) : List JEntry → Option Station
  | [] => some st
  | e :: es => match (st.table ctx t).bind fun tb => st.svcApply tb tr e 1 e.gen with
    | none => none
    | some st1 => st1.svcAll ctx t tr es

/-- A table of a station changed. -/
def State.modTable (s : State) (n : Nat) (ctx : Byte) (t : BitVec 2) (f : Table → Table) : State :=
  match (s.stn n).table ctx t with
  | none => s
  | some tb => s.setStn n ((s.stn n).putTable (f tb))

/-- After a replay or retract each table's pgen is its partner's gen. -/
def State.svcPgens (s : State) (n : Nat) (ctx : Byte) (t : BitVec 2) (m : Nat) (u : BitVec 2) : State :=
  match (s.stn n).table ctx t, (s.stn m).table ctx u with
  | some a, some b => (s.modTable n ctx t fun x => { x with pgen := b.gen }).modTable m ctx u fun x => { x with pgen := a.gen }
  | _, _ => s

/-- PAIRSVC's status codes. -/
def svcDone : Nat := 0
/-- The journal is short. -/
def svcShort : Nat := 1
/-- The table is not bound. -/
def svcUnbound : Nat := 2
/-- Refused. -/
def svcRefused : Nat := 3

/-- A PAIRSVC on a table tb of station n that is bound to pt: replay 0, retract 1, unbind 2. -/
def State.svcBound (s : State) (op n : Nat) (tb : Table) (b : Binding) (pt : Table) : Nat × State :=
  match op with
  | 0 =>
    let k := genAhead pt.gen tb.gen
    if k = 0 ∨ 2 ^ 15 ≤ k then (svcRefused, s)
    else match lagging pt.journal tb.gen (min k 5) with
      | none => (svcShort, s)
      | some es =>
        if es.length ≠ k then (svcShort, s)
        else match (s.stn n).svcAll tb.ctx tb.t b.tr es with
          | none => (svcRefused, s)
          | some st => (svcDone, ((s.setStn n st).dropOld n tb.ctx tb.t).svcPgens n tb.ctx tb.t b.stn b.t)
  | 1 =>
    let k := genAhead tb.gen pt.gen
    if k = 0 ∨ 2 ^ 15 ≤ k then (svcRefused, s)
    else match tb.journal.getLast? with
      | none => (svcShort, s)
      | some e => match (s.stn n).svcApply tb b.tr e (-1) (tb.gen - 1) with
        | none => (svcRefused, s)
        | some st =>
          let s1 := (s.setStn n st).modTable n tb.ctx tb.t fun x => { x with journal := x.journal.dropLast }
          (svcDone, (s1.dropOld n tb.ctx tb.t).svcPgens n tb.ctx tb.t b.stn b.t)
  | _ =>
    let clear (x : Table) : Table := { x with bind := none, journal := [] }
    (svcDone, (s.modTable n tb.ctx tb.t clear).modTable b.stn tb.ctx b.t clear)

/-- A PAIRSVC's status and the partner's gen after it. -/
def State.svcRun (s : State) (op n : Nat) (t : BitVec 2) : Except FI (Nat × Nat × State) :=
  match s.svcOwner n t with
  | none => .ok (svcRefused, 0, s)
  | some (ctx, lid) => do
    match ← s.svcTable n ctx t lid with
    | (none, s1) => return (svcRefused, 0, s1)
    | (some tb, s1) => match tb.bind with
      | none => return (svcUnbound, 0, s1)
      | some b => match ← s1.svcTable b.stn ctx b.t lid with
        | (none, s2) => return (svcUnbound, 0, s2)
        | (some pt, s2) =>
          let (st, s3) := s2.svcBound op n tb b pt
          return (st, (((s3.stn b.stn).table ctx b.t).map fun (x : Table) => x.gen.toNat).getD 0, s3)

/-- PAIRSVC by the collier of a die: the operation, then the status and the partner's gen. -/
def State.pairSvc (s : State) (d : Fin 8) (op n : Nat) (t : BitVec 2) : Except FI State := do
  let a := collierOf d
  let (status, pg, s1) ← s.svcRun op n t
  return s1.setCore a { s1.core a with pairsvc := BitVec.ofNat 64 (status * 2 ^ 48 + pg * 2 ^ 32 + n % 65536 * 4 + t.toNat) }

/-- An event's PAIRSVC; a fault that it meets goes to the collier's queue. -/
def State.svcEvent (s : State) (d : Fin 8) (op n : Nat) (t : BitVec 2) : State :=
  match s.pairSvc d op n t with
  | .ok u => u
  | .error f => s.queueFault d (unitRec f 0 (agentSrc (collierOf d)) 0)

/-- PAIRSVC replay. -/
def execPairsvcReplay (die : Fin 8) (n : Nat) (t : BitVec 2) (s : State) : Host.Outcome State Fault Refusal := .next (s.svcEvent die 0 n t)

/-- PAIRSVC retract. -/
def execPairsvcRetract (die : Fin 8) (n : Nat) (t : BitVec 2) (s : State) : Host.Outcome State Fault Refusal := .next (s.svcEvent die 1 n t)

/-- PAIRSVC unbind. -/
def execPairsvcUnbind (die : Fin 8) (n : Nat) (t : BitVec 2) (s : State) : Host.Outcome State Fault Refusal := .next (s.svcEvent die 2 n t)

/-! ## FPCTL (R70, R71) -/

/-- FPCTL written, or none for a reserved rounding mode. -/
def Core.setFpctl (c : Core) (v : DWord) : Option Core :=
  if 5 ≤ v.toNat % 8 then none else some { c with fpctl := v &&& 0x1F01FF }

/-- FPCTL_WRITE. -/
def execFpctlWrite (a : Agent) (v : DWord) (s : State) : Host.Outcome State Fault Refusal :=
  .next (match (s.core a).setFpctl v with
    | some c => s.setCore a c
    | none => s)

/-! ## The stopped-agent window (R435) -/

/-- A launch stopped by a fault. -/
def State.lidStopped (s : State) (lid : Option Nat) : Bool :=
  match lid.bind s.launch with
  | some l => l.st == .stopped
  | none => false

/-- An item of a station or core that WSEL selects. -/
inductive Item where
  | g (a : Agent) (n : GReg)
  | p (a : Agent) (n : PReg)
  | v (a : Agent) (n : VReg) (lane : Fin 32)
  | fpctl (a : Agent)
  | operand (n : Nat) (port : BitVec 2) (item : Nat)
  | result (n : Nat) (dest item : Nat)
  | flags (n : Nat) (k : Fin 4)
  deriving DecidableEq, Repr

/-- The item that a selection names, at a die's collier; none where the access raises ILLEGAL. -/
def State.selected (s : State) (d : Fin 8) (w : DWord) : Option Item :=
  let src := fld w.toNat 47 32
  let kind := fld w.toNat 31 30
  let i := fld w.toNat 11 0
  if src / 8192 ≠ d.val ∨ kind = 3 then none
  else if kind = 0 then
    match s.activeLaunch src with
    | none => none
    | some lid =>
      if !s.lidStopped (some lid) then none
      else if i / 1024 = 0 then (if fld i 7 6 = 0 ∧ fld i 5 0 < 34 then some (.operand src (BitVec.ofNat 2 (fld i 9 8)) (fld i 5 0)) else none)
      else if i / 1024 = 1 then
        (if fld i 9 9 = 0 ∧ fld i 7 6 = 0 ∧ fld i 5 0 < 34 then some (.result src (fld i 8 8) (fld i 5 0)) else none)
      else if i = 0x800 then ((s.stn src).ctxOf lid).map (.flags src ·)
      else none
  else
    let a : Agent := ⟨if kind = 1 then .access else .drain, d, Fin.ofNat 128 (src / 64)⟩
    if src % 64 ≠ 0 ∨ !s.lidStopped (s.core a).lid ∨ (s.core a).run ≠ .stopped then none
    else if i < 32 then some (.g a (Fin.ofNat 32 i))
    else if i < 40 then some (.p a (Fin.ofNat 8 (i - 32)))
    else if 64 ≤ i ∧ i < 576 then some (.v a (Fin.ofNat 16 ((i - 64) / 32)) (Fin.ofNat 32 (i - 64)))
    else if i = 576 then some (.fpctl a)
    else none

/-- The operand of the faulting pair at a port. -/
def Station.faultOperand (st : Station) (port : BitVec 2) : Option Token :=
  (st.faulted.head?.bind fun p => (if port = 0 then p.l else if port = 1 then p.r else if port = 2 then p.p else []).head?).map (·.tok)

/-- The faulting pair with its operand at a port replaced, and with it the entry that returned to the store (R419). -/
def Station.setFaultOperand (st : Station) (port : BitVec 2) (t : Token) : Station :=
  let put (es : List Entry) : List Entry := listModify (fun e => { e with tok := t }) 0 es
  let old := st.faulted.head?.bind fun p => (if port = 0 then p.l else if port = 1 then p.r else p.p).head?
  { st with
    store := st.store.map fun e => if some e = old then { e with tok := t } else e
    faulted := listModify (fun p =>
      if port = 0 then { p with l := put p.l } else if port = 1 then { p with r := put p.r } else { p with p := put p.p }) 0 st.faulted }

/-- A 64-bit free value. -/
def State.freeDW (s : State) : DWord × State :=
  let (bs, t) := s.freeBytes 8
  (BitVec.ofNat 64 (leValue bs), t)

/-- An item read. One that the stopped agent does not have is free. -/
def State.itemRead (s : State) : Item → DWord × State
  | .g a n => ((s.core a).rg n, s)
  | .p a n => (((s.core a).rp n).setWidth 64, s)
  | .v a n j => ((((s.core a).rv n)[j.val]).setWidth 64, s)
  | .fpctl a => ((s.core a).fpctl, s)
  | .operand n port i =>
    match (s.stn n).faultOperand port with
    | none => s.freeDW
    | some t =>
      if i = 32 then (BitVec.ofNat 64 t.header, s)
      else if i = 33 then (BitVec.ofNat 64 (t.header / 2 ^ 64), s)
      else match t.lanes[i]? with
        | some w => (w.setWidth 64, s)
        | none => s.freeDW
  | .result n dest i =>
    let st := s.stn n
    if i < 32 then match spFind st.resbuf (dest * 32 + i) with
      | some w => (w.setWidth 64, s)
      | none => s.freeDW
    else match spFind st.reshdr (dest * 2 + (i - 32)) with
      | some w => (w, s)
      | none => s.freeDW
  | .flags n k => (((s.stn n).ctxs[k.val].flags).setWidth 64, s)

/-- An item written; a header's reserved bits [71:70] stay 0 (R7). One that the stopped agent does not have stays so; a header that names no token leaves the operand. -/
def State.itemWrite (s : State) (v : DWord) : Item → State
  | .g a n => s.setCore a ((s.core a).wg n v)
  | .p a n => s.setCore a ((s.core a).wp n (v.setWidth 32))
  | .v a n j => s.setCore a ((s.core a).wv n (((s.core a).rv n).set j.val (v.setWidth 32)))
  | .fpctl a => match (s.core a).setFpctl v with
    | some c => s.setCore a c
    | none => s
  | .operand n port i =>
    match (s.stn n).faultOperand port with
    | none => s
    | some t =>
      let h := t.header
      let t1 := if i = 32 then (tokenOf (h / 2 ^ 64 * 2 ^ 64 + v.toNat) t.lanes).getD t
        else if i = 33 then (tokenOf (v.toNat * 2 ^ 64 + h % 2 ^ 64) t.lanes).getD t
        else { t with lanes := listModify (fun _ => v.setWidth 32) i t.lanes }
      s.setStn n ((s.stn n).setFaultOperand port t1)
  | .result n dest i =>
    let st := s.stn n
    if i < 32 then s.setStn n { st with resbuf := spInsert st.resbuf (dest * 32 + i) (v.setWidth 32) }
    else s.setStn n { st with reshdr := spInsert st.reshdr (dest * 2 + (i - 32)) (if i = 33 then v &&& ~~~0xC0 else v) }
  | .flags n k =>
    let st := s.stn n
    s.setStn n { st with ctxs := st.ctxs.set k.val { st.ctxs[k.val] with flags := v.setWidth 5 } }

/-- WDATA_ACCESS: a read, or a write of a value, through the window of a die's collier. -/
def execWdataAccess (die : Fin 8) (value : Option DWord) (s : State) : Host.Outcome State Fault Refusal :=
  .next (match s.selected die (s.core (collierOf die)).wsel, value with
    | some i, some v => s.itemWrite v i
    | some i, none => (s.itemRead i).2
    | none, _ => s)

/-! ## CSRR, CSRW (R220, R357) -/

/-- A CSR number (R220). -/
def State.csrNum (s : State) (a : GReg) (imm : BitVec 11) : Nat := (s.me.rg a + s.immI imm).toNat % 4096

/-- WHOAMI (Table 14-7). -/
def whoami (a : Agent) : DWord :=
  BitVec.ofNat 64 (a.die.val * 512 + (match a.kind with
    | .access => a.core.val * 4
    | .drain => a.core.val * 4 + 1
    | .collier => 2))

/-- A CSR read by the issuing core, or none where it raises ILLEGAL. -/
def State.csrRead (s : State) (n : Nat) : Option (DWord × State) :=
  let c := s.me
  let col := s.cur.kind == .collier
  match n with
  | 0x001 => some (c.fpctl, s)
  | 0x002 => some (c.ctxid, s)
  | 0x010 => some (c.trapbase, s)
  | 0x011 => some (c.faultrec, s)
  | 0x012 => some (c.epc, s)
  | 0x013 => some (c.faddr, s)
  | 0x020 => some (BitVec.ofNat 64 (s.now - s.resetAt + Config.cycleSkew (agentIdx s.cur)), s)
  | 0x021 => some (whoami s.cur, s)
  | 0x800 => if col then some (c.fqbase, s) else none
  | 0x801 => if col then some (c.fqhead, s) else none
  | 0x802 => if col then some (c.fqtail, s) else none
  | 0x803 => if col then some (0, s) else none
  | 0x804 => if col then some (c.pairsvc, s) else none
  | 0x805 => if col then some (c.wsel, s) else none
  | 0x806 => if col then (s.selected s.cur.die c.wsel).map s.itemRead else none
  | 0x807 => if col then some (c.ecccnt, s) else none
  | 0x808 => if col then some (c.lcancel, s) else none
  | _ => none

/-- A CSR of every core written: class of the fault, or the state. -/
def State.csrWriteLow (s : State) (n : Nat) (v : DWord) : Except Nat State :=
  let c := s.me
  match n with
  | 0x001 => match c.setFpctl v with
    | some c => .ok (s.setMe c)
    | none => .error cFpMode
  | 0x002 => if s.cur.kind = .collier then .ok (s.setMe { c with ctxid := v &&& 0xFF }) else .error cIllegal
  | 0x010 => .ok (s.setMe { c with trapbase := (v &&& 0xFFFD) ||| (c.trapbase &&& 2) })
  | 0x012 => if v.getLsbD 1 then .error cIllegal else .ok (s.setMe { c with epc := v &&& 0xFFFD })
  | _ => .error cIllegal

/-- A collier CSR written; a write of ECCCNT clears it (R436). -/
def State.csrWriteHigh (s : State) (n : Nat) (v : DWord) : Except FI State :=
  let c := s.me
  let d := s.cur.die
  match n with
  | 0x800 => .ok (s.setMe { c with fqbase := v &&& 0x3F000 })
  | 0x801 => .ok (s.fqhead d v)
  | 0x803 => match s.lctl d (fld v.toNat 17 16) (fld v.toNat 15 0) with
    | some t => .ok t
    | none => .error { cls := cIllegal }
  | 0x804 =>
    if fld v.toNat 63 62 = 3 then .error { cls := cIllegal }
    else s.pairSvc d (fld v.toNat 63 62) (fld v.toNat 17 2) (BitVec.ofNat 2 v.toNat)
  | 0x805 => .ok (s.setMe { c with wsel := v &&& 0xFFFFC0000FFF })
  | 0x806 => match s.selected d c.wsel with
    | some i => .ok (s.itemWrite v i)
    | none => .error { cls := cIllegal }
  | 0x807 => .ok (s.setMe { c with ecccnt := 0 })
  | 0x808 => .ok (s.lcancelOp d v)
  | _ => .error { cls := cIllegal }

/-- CSRR. -/
def execCsrr (x : Guard) (d a : GReg) (imm : BitVec 11) (s : State) : Host.Outcome State Fault Refusal :=
  issue x s (match s.csrRead (s.csrNum a imm) with
    | some (v, t) => .done (t.putG d v)
    | none => .fault { cls := cIllegal })

/-- CSRW: gd names the source. -/
def execCsrw (x : Guard) (d a : GReg) (imm : BitVec 11) (s : State) : Host.Outcome State Fault Refusal :=
  let n := s.csrNum a imm
  let v := s.me.rg d
  issue x s (match (if n < 0x800 then (s.csrWriteLow n v).mapError fun cls => { cls }
      else if s.cur.kind = .collier then s.csrWriteHigh n v else .error { cls := cIllegal }) with
    | .ok t => .done t
    | .error f => .fault f)

/-! ## TRAP, RTE (R356, R416, R417) -/

/-- TRAP: the fault class TRAP with its code. -/
def execTrap (x : Guard) (imm : BitVec 11) (s : State) : Host.Outcome State Fault Refusal :=
  let code := (s.immI imm).toNat
  if 1024 ≤ code then illegal s else issue x s (.fault { cls := cTrap, code })

/-- RTE: the return from the handler; outside one it raises ILLEGAL. -/
def execRte (x : Guard) (s : State) : Host.Outcome State Fault Refusal :=
  let c := s.me
  let two := fld (s.coreWord s.cur (c.epc.toNat % 65536 / 4 * 4)) 31 25 == 0x24
  issue x s (
    if c.inh then
      let c1 := c.rte two
      .jump (s.setMe c1) c1.pc
    else .fault { cls := cIllegal })

/-! ## WFE (R359) -/

/-- An ownership event or fault record is pending at a die's collier. -/
def State.collierEvent (s : State) (d : Fin 8) : Bool :=
  (s.core (collierOf d)).fqCount != 0 || s.stations.any fun (n, st) => decide (stnDie n = d) && st.own

/-- WFE: it waits for an event of the mask. -/
def execWfe (x : Guard) (d a b : GReg) (s : State) : Host.Outcome State Fault Refusal :=
  let c := s.me
  let m := (c.rg a).toNat
  let k := (s.src2 b).toNat
  let col := s.cur.kind == .collier
  let seen := match c.wait with | .event _ b => b | _ => false
  let ev := (if c.rq = [] then 0 else 1) + (if seen then 2 else 0) + (if col && s.collierEvent s.cur.die then 4 else 0)
  issue x s (
    if 8 ≤ m ∨ (bitOf m 2 ∧ !col) ∨ (bitOf m 0 ∧ col) then .fault { cls := cIllegal }
    else if bitOf m 1 ∧ counterCount ≤ k then .fault { cls := cCounterRange }
    else if m = 0 then .done (s.putG d 0)
    else if m &&& ev ≠ 0 then .done (s.putG d (BitVec.ofNat 64 (m &&& ev)))
    else match c.wait with
      | .event _ _ => .wait s
      | _ => .wait (s.setMe { c with wait := .event (if bitOf m 1 then k else counterCount) false }))

/-! ## The scrubber (R436, R437) -/

/-- SCRUB: the table and accumulator stores of a die are read; single-bit errors are written back and counted, double-bit errors
are reported. -/
def execScrub (die : Fin 8) (s : State) : Host.Outcome State Fault Refusal :=
  let mine (e : EccErr) : Bool := e.sram && (e.store == 0 || e.store == 1) && decide (stnDie e.unit = die)
  let fixed := s.ecc.filter fun e => mine e && !e.double
  let bad := s.ecc.filter fun e => mine e && e.double
  let s1 := ({ s with ecc := s.ecc.filter fun e => !(mine e && !e.double) }).countEcc die 0 fixed.length
  .next (bad.foldl (fun t e =>
    t.queueFault die { (unitRec { cls := cSramEcc, detail := e.store.toNat + e.word % 2048 * 16 } 0 (BitVec.ofNat 16 e.unit) 0) with
      kind := 0 }) s1)

end Sys2Proof.Machine
end

