-- ==== Sys2Proof/Machine/Move.lean ====
section
/-! DEFINITION. What a module moves to its neighbour at eviction (R389, R394 to R396): the items of Table 17-5 as bytes, how token flits
carry them, and what the neighbour does with each. The layout of an item is the model's (log entry 84). -/

namespace Sys2Proof.Machine

/-! ## Items -/

/-- Something that moves (Table 17-5): the opening, part of a context's save area, the rows and tables that a context has spilled, the
progress counters, an expert queue with its ages, a unit's dispatch list, a launch with its arcs and its save image, the end. -/
inductive MoveItem where
  | opening
  | area (ctx : Byte) (off : Nat) (bytes : List Byte)
  | spilled (ctx : Byte) (rows : List Nat) (tables : List (Nat × BitVec 2))
  | counters (values : List DWord)
  | queue (q : Nat) (e : EQueue)
  | dispatch (d : Fin 8) (fs : List Firing)
  | launch (l : Launch) (arcs : List (BitVec 7 × DWord)) (image : List Byte)
  | ending
  deriving DecidableEq, Repr

/-- Bytes with their length. -/
def putBytes (bs : List Byte) : List Byte := leBytes 4 bs.length ++ bs

/-- Bytes with their length, read. -/
def getBytes : Get (List Byte) := do
  let n ← getN 4
  fun bs => (bs.take n, bs.drop n)

/-- An entry of an expert queue. -/
def putQEntry (x : EqEntry) : List Byte :=
  putB 32 x.data ++ putI 8 x.at_
    ++ (match x.place with | .chip k => leBytes 1 0 ++ leBytes 4 k | .spill k => leBytes 1 1 ++ leBytes 4 k) ++ putO (leBytes 4) x.batch

/-- An entry of an expert queue read. -/
def getQEntry : Get EqEntry := do
  let data ← getB 256 32
  let at_ ← getI 8
  let spill ← getF
  let k ← getN 4
  return ⟨data, at_, if spill then .spill k else .chip k, ← getO (getN 4)⟩

/-- An expert queue: configuration, entries, batches, batch sequence number. -/
def putQueue (e : EQueue) : List Byte :=
  putF e.en ++ putB 1 e.ctx ++ leBytes 8 e.sbase ++ leBytes 4 e.scap ++ leBytes 2 e.recno ++ leBytes 1 e.cls ++ leBytes 4 e.age ++ leBytes 2 e.maxb
    ++ leBytes 2 e.fill ++ putL putQEntry e.entries ++ putL (fun (b : EqBatch) => leBytes 4 b.bseq ++ leBytes 2 b.count) e.batches
    ++ leBytes 4 e.bseq ++ leBytes 4 e.spillNext

/-- An expert queue read. -/
def getQueue : Get EQueue := do
  let en ← getF
  let ctx ← getB 8 1
  let sbase ← getN 8
  let scap ← getN 4
  let recno ← getN 2
  let cls ← getN 1
  let age ← getN 4
  let maxb ← getN 2
  let fill ← getN 2
  let entries ← getL getQEntry
  let batches ← getL (do return ⟨← getN 4, ← getN 2, false⟩)
  let bseq ← getN 4
  return { en, ctx, sbase, scap, recno, cls, age, maxb, fill, entries, batches, bseq, spillNext := ← getN 4 }

/-- A firing in a dispatch list; the list keeps their order. -/
def putFiring (f : Firing) : List Byte := leBytes 1 f.q.val ++ leBytes 4 f.bseq ++ leBytes 2 f.count ++ leBytes 8 f.passed

/-- A firing read. -/
def getFiring : Get Firing := do return ⟨Fin.ofNat 256 (← getN 1), ← getN 4, ← getN 2, 0, ← getN 8⟩

/-- A pending launch that moves: WAITING, READY, or PREEMPTED without a pending fault. -/
def putLaunch (l : Launch) : List Byte :=
  leBytes 2 l.recno ++ padTo 256 l.bytes ++ leBytes 1 (match l.st with | .waiting => 0 | .ready => 1 | _ => 2) ++ leBytes 1 l.cls ++ putB 1 l.ctx
    ++ putB 4 l.cfgid ++ putF l.dev ++ leBytes 8 l.source ++ putL putRegion l.placed ++ leBytes 8 l.lseq ++ putL putRec l.logged
    ++ leBytes 4 l.handled ++ putO (putL putRegion) l.saved ++ putF l.skip
    ++ putO (fun (b : Nat × Nat) => leBytes 2 b.1 ++ leBytes 4 b.2) l.batch ++ putF l.batchDone

/-- A pending launch read. -/
def getLaunch : Get Launch := do
  let recno ← getN 2
  let bytes : List Byte ← (fun bs => (bs.take 256, bs.drop 256))
  let st ← getN 1
  let cls ← getN 1
  let ctx ← getB 8 1
  let cfgid ← getB 32 4
  let dev ← getF
  let source ← getN 8
  let placed ← getL getRegion
  let lseq ← getN 8
  let logged ← getL getRec
  let handled ← getN 4
  let saved ← getO (getL getRegion)
  let skip ← getF
  let batch ← getO (do return (← getN 2, ← getN 4))
  return {
    lid := 0, recno, bytes, st := if st = 0 then .waiting else if st = 1 then .ready else .preempted false, cls, ctx, cfgid, since := 0
    ageAt := 0, dev, source, deps := [false, false, false, false], regions := saved.getD [], placed, lseq, resumed := saved.isSome, logged
    handled, saved, skip, batch, batchDone := ← getF }

/-- An item as bytes. -/
def putItem : MoveItem → List Byte
  | .opening => leBytes 1 0
  | .area ctx off bs => leBytes 1 1 ++ putB 1 ctx ++ leBytes 8 off ++ putBytes bs
  | .spilled ctx rows tables =>
    leBytes 1 2 ++ putB 1 ctx ++ putL (leBytes 4) rows ++ putL (fun (t : Nat × BitVec 2) => leBytes 4 t.1 ++ putB 1 t.2) tables
  | .counters vs => leBytes 1 3 ++ putL (putB 8) vs
  | .queue q e => leBytes 1 4 ++ leBytes 2 q ++ putQueue e
  | .dispatch d fs => leBytes 1 5 ++ leBytes 1 d.val ++ putL putFiring fs
  | .launch l arcs im => leBytes 1 6 ++ putLaunch l ++ putL (fun (a : BitVec 7 × DWord) => putB 1 a.1 ++ putB 8 a.2) arcs ++ putBytes im
  | .ending => leBytes 1 7

/-- An item read. -/
def getItem : Get MoveItem := do
  match ← getN 1 with
  | 0 => return .opening
  | 1 => return .area (← getB 8 1) (← getN 8) (← getBytes)
  | 2 => return .spilled (← getB 8 1) (← getL (getN 4)) (← getL (do return (← getN 4, ← getB 2 1)))
  | 3 => return .counters (← getL (getB 64 8))
  | 4 => return .queue (← getN 2) (← getQueue)
  | 5 => return .dispatch (Fin.ofNat 8 (← getN 1)) (← getL getFiring)
  | 6 => return .launch (← getLaunch) (← getL (do return (← getB 7 1, ← getB 64 8))) (← getBytes)
  | _ => return .ending

/-! ## Sending (R389, R394 to R396) -/

/-- An item sent in token flits. A flit's address tells its place in the item and how many follow; the last of a launch's carries its
index, for the acknowledgement (R456). -/
def Peer.sendItem (q : Peer) (it : MoveItem) : Peer :=
  let bs := putItem it
  let n := ceilDiv bs.length 224
  let lid (i : Nat) : Option Nat := match it with | .launch l .. => if i + 1 = n then some l.lid else none | _ => none
  ((List.range n).zip (groups 224 n bs)).foldl (fun q (i, g) => q.sendAsked 4 (i * 2 ^ 32 + (n - 1 - i)) g none (lid i)) q

/-- Bytes of a listed range sent in write flits. -/
def Peer.sendRange (q : Peer) (to_ : Nat) (bs : List Byte) : Peer :=
  let n := ceilDiv bs.length 224
  ((List.range n).zip (groups 224 n bs)).foldl (fun q (i, g) => q.sendAsked 1 (to_ + 224 * i) g none none) q

/-- The part of a save area that a spilled row has. -/
def rowAreas (j : Nat) : List (Nat × Nat) := [(rowCellsOff j, 256), (rowExpOff j, 8)]

/-- The parts of a save area that a table spilled at a station has. -/
def State.tableAreas (s : State) (ctx : Byte) (n : Nat) (t : BitVec 2) : Except FI (List (Nat × Nat)) := do
  let (tb, _) ← s.savedTable n ctx t none
  return [(tableStateOff n, 4096), (tableSaveOff n + 4 * tb.ebase, 4 * tb.size)]

/-- The contexts that may run (R148). -/
def State.liveCtxs (s : State) : List Byte :=
  ((List.range 256).map (BitVec.ofNat 8)).filter fun c => match s.ctxEntry c with | .ok e => bitOf e 128 | .error _ => false

/-- What is held of a context's save area, beside save images: its fault log, its spilled rows and tables. -/
def State.areasOf (s : State) (ctx : Byte) : Except FI (List (Nat × Nat)) := do
  let rows := (s.spilledRows.filter (·.1 == ctx)).map fun x => rowAreas x.2
  let tables ← (s.spilledTables.filter (·.1 == ctx)).mapM fun x => s.tableAreas ctx x.2.1 x.2.2
  return (faultLogOff, 16384) :: rows.flatten ++ tables.flatten

/-- Those parts as items. -/
def State.areaItems (s : State) (ctx : Byte) : Except FI (List MoveItem) := do
  let b ← s.saveBase ctx
  let as ← (← s.areasOf ctx).mapM fun (off, n) => do return MoveItem.area ctx off (← s.readRange (b + off) n (n / 128 + 2))
  let rows := (s.spilledRows.filter (·.1 == ctx)).map (·.2)
  let tables := (s.spilledTables.filter (·.1 == ctx)).map (·.2)
  return as ++ [.spilled ctx rows tables]

/-- A queue on another clock, counted from its own: ages for times of acceptance, and times of acceptance for ages (R396). -/
def EQueue.onClock (e : EQueue) (now : Nat) : EQueue := { e with entries := e.entries.map fun x => { x with at_ := now - x.at_ } }

/-- A queue with its entries as the unit reads them from where they are stored. -/
def State.queueOut (s : State) (q : Nat) : EQueue × State :=
  let e := s.eq q
  let (es, t) := e.entries.foldl (fun (r : List EqEntry × State) x =>
    let (data, t) := r.2.entryRead q x
    (r.1 ++ [{ x with data }], t)) ([], s)
  ({ e with entries := es }.onClock s.now, t)

/-- A launch with its image's bytes and what its arcs have passed on. -/
def State.launchItem (s : State) (l : Launch) : Except FI MoveItem := do
  let arcs := (s.arcs.filter (·.lid == l.lid)).map fun a => (a.node, a.tag)
  match l.saved with
  | none => return .launch l arcs []
  | some _ =>
    let (at_, n) ← s.imagePlace l
    return .launch l arcs (← s.readRange at_ n (n / 128 + 2))

/-- The listed device memory ranges with their bytes. -/
def State.rangesOut (s : State) : Except FI (List (Nat × List Byte)) :=
  s.evictRanges.mapM fun (pa, n, to_) => do return (to_, ← s.readRange pa n (n / 128 + 2))

/-- Everything of Table 17-5 sent to the neighbour: the opening, listed ranges, save areas, counters, queues, launches, the end. What cannot
be read makes nothing be sent. -/
def State.sendAll (s : State) : Except FI State := do
  let p := s.evictPort.val
  let ranges ← s.rangesOut
  let areas ← s.liveCtxs.mapM s.areaItems
  let launches ← s.launches.mapM s.launchItem
  let (queues, s1) := (s.eqs.filter fun x => x.2.en).foldl (fun (r : List MoveItem × State) x =>
    let (e, t) := r.2.queueOut x.1
    (r.1 ++ [.queue x.1 e], t)) ([], s)
  let lists := (List.finRange 8).map fun d => MoveItem.dispatch d (s.die d).dispatch
  let values := (List.range counterCount).map fun k => spGet 0 s.counters k
  let items := areas.flatten ++ [.counters values] ++ queues ++ lists ++ launches ++ [.ending]
  return { s1.modPeer p fun q => items.foldl Peer.sendItem (ranges.foldl (fun q (to_, bs) => q.sendRange to_ bs) (q.sendItem .opening)) with
    evictSent := true }

/-! ## Taking over (R394 to R396) -/

/-- The module is in its receiving state: it holds no launch, no expert queue with en = 1, no context entry with en = 1. -/
def State.receiving (s : State) : Bool := s.launches == [] && s.eqs.all (fun x => !x.2.en) && s.liveCtxs == []

/-- A queue taken over: its entries' ages go on; what stands in its spill ring is written there. -/
def State.takeQueue (s : State) (q : Nat) (e : EQueue) : State :=
  let e := e.onClock s.now
  let s1 := s.setEq q e
  e.entries.foldl (fun t x => match x.place with
    | .chip _ => t
    | .spill k => match t.spillWrite q k x.data with
      | .ok u => u
      | .error f => t.unitFault q e.ctx (handleOf x.data) f) s1

/-- A launch taken over, with an index of this module: its age restarts, its dependences are evaluated against the counters, and its image
is put in a free range of its context's save area (R139). None where there is no index or no place. -/
def State.takeLaunch (s : State) (l : Launch) (arcs : List (BitVec 7 × DWord)) (im : List Byte) : Option State :=
  match s.freeLid with
  | none => none
  | some lid =>
    let l1 : Launch := { l with lid, since := s.now, ageAt := s.now }
    let s1 := { s with arcs := s.arcs ++ arcs.map fun (node, tag) => (⟨lid, node, tag, {}⟩ : ArcDone) }
    match l.saved with
    | none => some { s1 with launches := s1.launches ++ [l1.evalDeps s.now fun k => some (spGet 0 s.counters k)] }
    | some _ => match freeRange s.launches l.ctx im.length, s.saveBase l.ctx with
      | some o, .ok b =>
        let s2 := s1.writeRange (b + 2 ^ 32 + o) im (im.length / 128 + 2) { lid := some lid }
        some { s2 with launches := s2.launches ++ [{ l1 with saveAt := some (o, im.length) }] }
      | _, _ => none

/-- An item taken over; none where it cannot be. -/
def State.takeItem (s : State) (p : Nat) : MoveItem → Option State
  | .opening => some s
  | .area ctx off bs => match s.saveBase ctx with
    | .ok b => some (s.writeRange (b + off) bs (bs.length / 128 + 2))
    | .error _ => none
  | .spilled ctx rows tables => some { s with
      spilledRows := s.spilledRows ++ rows.map (ctx, ·), spilledTables := s.spilledTables ++ tables.map fun (n, t) => (ctx, n, t) }
  | .counters vs => some ((vs.zip (List.range counterCount)).foldl (fun (t : State) (v, k) =>
      if spGet 0 t.counters k = v then t else t.counterWrite k v) s)
  | .queue q e => some (s.takeQueue q e)
  | .dispatch d fs => some (s.setDie d { s.die d with dispatch := (s.die d).dispatch ++ fs.map fun f => { f with ord := s.now } })
  | .launch l arcs im => s.takeLaunch l arcs im
  | .ending => some (s.modPeer p fun q => { q with taking := false })

/-- A token flit's item, complete, taken over from a port: its opening only by a module in its receiving state. The flit is acknowledged when
the item has been taken; one that is refused raises LINK. -/
def State.takeFrom (s : State) (p addr : Nat) (it : MoveItem) : State :=
  let s1 := s.modPeer p fun q => { q with rx := [] }
  let refuse := s1.queueFault 0 (unitRec { cls := cLink, detail := linkDetail 1 p 2 } 0 (agentSrc (collierOf 0)) 0)
  let ack (t : State) : State := t.modPeer p fun q => q.send 5 0 addr []
  if it = .opening then
    if s.receiving then ack (s1.modPeer p fun q => { q with taking := true }) else refuse
  else if !(s.peers.toList.getD p {}).taking then refuse
  else match s1.takeItem p it with
    | some t => ack t
    | none => s1

/-- A token flit taken: part of an item, which is acknowledged, or the last of one. -/
def State.peerToken (s : State) (p : Nat) (f : Flit) : State :=
  let q := s.peers.toList.getD p {}
  let rx := (if f.addr / 2 ^ 32 = 0 then [] else q.rx) ++ f.payload
  if f.addr % 2 ^ 32 ≠ 0 then s.modPeer p fun q => { q.send 5 0 f.addr [] with rx }
  else s.takeFrom p f.addr (getItem rx).1

end Sys2Proof.Machine
end

