-- ==== Sys2Proof/Machine/System.lean ====
section
/-! DEFINITION. The module's other interfaces: TLBI, FREEZE and the die-to-die links (R152, R360, R391, R455), host and peer
ports (R185, R387 to R390, R454, R463), home controllers (R159), eviction (R394 to R396, R456), freeze, boot and management (R392,
R397 to R399, R457). -/

namespace Sys2Proof.Machine

/-! ## Collier instructions (R360) -/

/-- Translations that p selects dropped by every die. -/
def State.tlbDrop (s : State) (p : Leaf → Bool) : State := { s with tlb := s.tlb.filter fun l => !p l }

/-- TLBI page: the leaves that translate a VA of a context. -/
def execTlbiPage (x : Guard) (a b : GReg) (s : State) : Host.Outcome State Fault Refusal :=
  let va := (s.me.rg a).toNat
  let ctx : Byte := (s.src2 b).setWidth 8
  issue x s (onlyBy s [.collier] (.done (s.tlbDrop fun l => l.ctx == ctx && decide (l.va ≤ va ∧ va < l.va + l.size))))

/-- TLBI context. -/
def execTlbiCtx (x : Guard) (b : GReg) (s : State) : Host.Outcome State Fault Refusal :=
  let ctx : Byte := (s.src2 b).setWidth 8
  issue x s (onlyBy s [.collier] (.done (s.tlbDrop fun l => l.ctx == ctx)))

/-- TLBI all. -/
def execTlbiAll (x : Guard) (s : State) : Host.Outcome State Fault Refusal :=
  issue x s (onlyBy s [.collier] (.done (s.tlbDrop fun _ => true)))

/-- FREEZE: every clock stops in the cycle of issue, so it does not complete (R397). -/
def execFreeze (x : Guard) (s : State) : Host.Outcome State Fault Refusal :=
  issue x s (onlyBy s [.collier] (.wait { s with frozen := true }))

/-! ## Die-to-die links (R14, R360, R391, R455) -/

/-- A UCIe module, as 4 * die + number. -/
def State.link (s : State) (k : Nat) : Ucie := s.ucie.toList.getD k {}

/-- A UCIe module replaced. -/
def State.setLink (s : State) (k : Nat) (u : Ucie) : State := { s with ucie := s.ucie.setIfInBounds k u }

/-- A module that joins its die to nothing (R14). -/
def linkIdle (k : Nat) : Bool := (k % 4 == 0 && k / 4 % 4 == 0) || (k % 4 == 1 && k / 4 % 4 == 3)

/-- The status word of LNKCTL. -/
def Ucie.status (u : Ucie) : Nat := u.retries % 2 ^ 16 + b2n u.paused * 2 ^ 16 + b2n u.training.isSome * 2 ^ 17 + u.lanes * 2 ^ 18

/-- LNKCTL on module g[gs1] [1:0] of the issuer's die: the function's effect, and the status after it in g[gd]; an idle module has
neither effect nor any status but bit 25. A function that refuses its operand raises ILLEGAL. -/
def lnkctl (x : Guard) (d a : GReg) (s : State) (f : Ucie → Option Ucie) : Host.Outcome State Fault Refusal :=
  let k := 4 * s.cur.die.val + (s.me.rg a).toNat % 4
  issue x s (onlyBy s [.collier] (
    if linkIdle k then .done (s.putG d (BitVec.ofNat 64 (2 ^ 25)))
    else match f (s.link k) with
      | none => .fault { cls := cIllegal }
      | some u => .done ((s.setLink k u).putG d (BitVec.ofNat 64 u.status))))

/-- LNKCTL status. -/
def execLnkctlStatus (x : Guard) (d a _b : GReg) (s : State) : Host.Outcome State Fault Refusal := lnkctl x d a s some

/-- LNKCTL pause. -/
def execLnkctlPause (x : Guard) (d a _b : GReg) (s : State) : Host.Outcome State Fault Refusal :=
  lnkctl x d a s fun u => some { u with paused := true }

/-- LNKCTL resume. -/
def execLnkctlResume (x : Guard) (d a _b : GReg) (s : State) : Host.Outcome State Fault Refusal :=
  lnkctl x d a s fun u => some { u with paused := false }

/-- LNKCTL remap: lanes of the mask retired onto spares; more lanes than free spares raise ILLEGAL (R455). -/
def Ucie.remap (u : Ucie) (mask : DWord) : Option Ucie :=
  let n := popcount 64 mask.toNat
  if u.spares < n then none else some { u with retired := u.retired ||| mask, spares := u.spares - n }

/-- LNKCTL remap. -/
def execLnkctlRemap (x : Guard) (d a b : GReg) (s : State) : Host.Outcome State Fault Refusal :=
  lnkctl x d a s fun u => u.remap (s.src2 b)

/-- LNKCTL retrain at 64 or 32 lanes. -/
def execLnkctlRetrain (x : Guard) (d a b : GReg) (s : State) : Host.Outcome State Fault Refusal :=
  let n := (s.src2 b).toNat
  lnkctl x d a s fun u => if n = 64 ∨ n = 32 then some { u with training := some n } else none

/-- LNKCTL clear: the retry count, and the lanes' error counts since the last clear (R442, R455). -/
def execLnkctlClear (x : Guard) (d a _b : GReg) (s : State) : Host.Outcome State Fault Refusal :=
  lnkctl x d a s fun u => some { u with retries := 0, errs := [], reported := false }

/-- FLIT_RETRY: a corrupted flit is retried; its lane's error is counted (R391). -/
def execFlitRetry (die : Fin 8) (m : Fin 4) (lane : Fin 64) (s : State) : Host.Outcome State Fault Refusal :=
  let k := 4 * die.val + m.val
  let u := s.link k
  .next (if linkIdle k then s
    else s.setLink k { u with retries := min (u.retries + 1) 65535, errs := spSet 0 u.errs lane.val (spGet 0 u.errs lane.val + 1) })

/-- The n lanes with the fewest errors since the last clear, of equal ones the lower (R455; log entry 87). -/
def Ucie.fewest (u : Ucie) (n : Nat) : DWord :=
  let key (l : Nat) : Nat := spGet 0 u.errs l * 64 + l
  BitVec.ofNat 64 (((sortBy (fun a b => decide (key a ≤ key b)) (List.range 64)).take n).foldl (fun m l => m + 2 ^ l) 0)

/-- LINK_TRAINING_COMPLETE: the module runs at the lanes it was trained for. -/
def execLinkTrainingComplete (die : Fin 8) (m : Fin 4) (s : State) : Host.Outcome State Fault Refusal :=
  let k := 4 * die.val + m.val
  let u := s.link k
  .next (match u.training with
    | none => s
    | some n => s.setLink k { u with lanes := n, inUse := u.fewest n, training := none })

/-- The lanes whose error count has passed 64 since the last clear (R442). -/
def Ucie.badLanes (u : Ucie) : DWord :=
  BitVec.ofNat 64 (u.errs.foldl (fun acc (l, n) => if 64 < n then acc + 2 ^ l else acc) 0)

/-- LINK_RETRY_THRESHOLD: 1,024 retries since the last clear raise LINK to the die's collier, once (R455). -/
def execLinkRetryThreshold (die : Fin 8) (m : Fin 4) (s : State) : Host.Outcome State Fault Refusal :=
  let k := 4 * die.val + m.val
  let u := s.link k
  .next (if u.reported ∨ u.retries < 1024 then s
    else
      let f : FI := { cls := cLink, detail := linkDetail 2 m.val 0 + b2n (u.lanes == 32) * 1024 }
      (s.setLink k { u with reported := true }).queueFault die (unitRec f 0 (agentSrc (collierOf die)) u.badLanes))

/-! ## The host port (R185, R388, R463) -/

/-- Bits of a work-queue descriptor that are not reserved (Table 05-2). -/
def descMask : Nat := (2 ^ 72 - 2 ^ 60) + (2 ^ 56 - 2 ^ 6) + 1

/-- Part of a number: size bytes from byte k. -/
def bytePart (x k size : Nat) : Nat := x / 2 ^ (8 * k) % 2 ^ (8 * size)

/-- A number with size bytes from byte k replaced. -/
def putPart (x k size v : Nat) : Nat := setFld x (8 * (k + size) - 1) (8 * k) (v % 2 ^ (8 * size))

/-- A BAR0 access is 4 or 8 bytes, naturally aligned, and within BAR0. -/
def BarAccess.ok (b : Sys2Proof.BarAccess) : Bool := (b.size == 4 || b.size == 8) && b.off % b.size == 0 && decide (b.off + b.size ≤ 2 ^ 20)

/-- What a window of BAR0 reads (Table 17-2). -/
def State.barRead (s : State) (off size : Nat) : Nat :=
  if off < 0x20000 then
    let w := s.queue (off / 8)
    bytePart (w.head.toNat * 2 ^ 32 + w.tail.toNat) (off % 8) size
  else if off < 0x60000 then bytePart (s.queue ((off - 0x20000) / 16)).desc.toNat (off % 16) size
  else if off < 0x60100 then bytePart (s.cxlKeys[(off - 0x60000) / 16]?.getD 0).toNat (off % 16) size
  else 0

/-- A write to a window of BAR0; the head word is only read (R119). -/
def State.barWrite (s : State) (off size v : Nat) : State :=
  if off < 0x20000 then if off % 8 = 0 then s.tailWrite (off / 8) (BitVec.ofNat 32 v) else s
  else if off < 0x60000 then
    let q := (off - 0x20000) / 16
    let w := s.queue q
    s.setQueue q { w with desc := BitVec.ofNat 128 (putPart w.desc.toNat (off % 16) size v) &&& BitVec.ofNat 128 descMask }
  else if off < 0x60100 then
    let n := (off - 0x60000) / 16
    { s with cxlKeys := s.cxlKeys.setIfInBounds n (BitVec.ofNat 14 (putPart (s.cxlKeys[n]?.getD 0).toNat (off % 16) size v)) }
  else s

/-- HOST_BAR0_WRITE: the oldest host access to BAR0. Another size or alignment reads 0 and writes nothing. -/
def execHostBar0Write (s : State) : Host.Outcome State Fault Refusal :=
  .next (match s.barIn with
    | [] => s
    | b :: rest =>
      let t := { s with barIn := rest }
      match b.value with
      | none => { t with barAnswer := if BarAccess.ok b then t.barRead b.off b.size else 0 }
      | some v => if BarAccess.ok b then t.barWrite b.off b.size v else t)

/-- An access of an agent without a fault route (R463): at its line's home, its fault goes to the home die's collier. -/
def State.homeRecord (s : State) (pa : Nat) (f : FI) : State :=
  let d : Fin 8 := Fin.ofNat 8 (homeDie pa)
  s.queueFault d (unitRec { f with addr := pa / 128 * 128 } 0 (agentSrc (collierOf d)) 0)

/-- The fault of an access within a line under a key slot. -/
def State.slotFault (s : State) (slot pa n : Nat) (write : Bool) : Option FI :=
  if (spFind s.keys slot).isNone then some { cls := cKey, addr := pa, detail := slot } else s.lineFault pa n write pa

/-- A read at home of n bytes from a PA under a key slot, line by line: the bytes, or none when one of its lines faults, with a
record. -/
def State.slotRead (s : State) (slot pa n : Nat) : Nat → Option (List Byte) × State
  | 0 => (some [], s)
  | fuel + 1 =>
    let k := min n (128 - pa % 128)
    if k = 0 then (some [], s)
    else match s.slotFault slot pa k false with
      | some f => (none, s.homeRecord pa f)
      | none =>
        let l : Loc := { space := .dev, at_ := pa, key := (spFind s.keys slot).getD 0 }
        let bs := s.home l k
        match (s.correct 0 l k).slotRead slot (pa + k) (n - k) fuel with
        | (some cs, t) => (some (bs ++ cs), t)
        | (none, t) => (none, t)

/-- A write at home of bytes from a PA under a key slot, with the scope of its release, line by line: a part whose line faults is not
performed, with a record. -/
def State.slotWrite (s : State) (ak : Nat) (rel : Scope) (slot pa : Nat) (bs : List Byte) : Nat → State
  | 0 => s
  | fuel + 1 =>
    let k := min bs.length (128 - pa % 128)
    if k = 0 then s
    else
      let t := match s.slotFault slot pa k true with
        | some f => s.homeRecord pa f
        | none => s.write none ak (some rel) { space := .dev, at_ := pa, key := (spFind s.keys slot).getD 0 } (bs.take k)
      t.slotWrite ak rel slot (pa + k) (bs.drop k) fuel

/-- The links between the IOD and the homes of n bytes from a PA are open (R15, R21, R391). -/
def State.homesOpen (s : State) (pa n : Nat) : Bool :=
  (range (pa / 4096) (ceilDiv (pa % 4096 + n) 4096)).all fun g => s.linkOpen none (g % 8)

/-- CXL_MEM_REQUEST: the oldest host access to device memory, under the key of its window, in the order in which the IOD receives
them (R161, R185). A read that meets a line without its data is answered poisoned, and a write completes towards the host whatever
happens to it (R463). -/
def execCxlMemRequest (s : State) : Host.Outcome State Fault Refusal :=
  .next (match s.cxlIn with
    | [] => s
    | c :: rest =>
      let n := max c.readLen c.write.length
      if !s.hostUp ∨ devSize < c.pa + n ∨ !s.homesOpen c.pa n then s
      else
        let t := { s with cxlIn := rest }
        let slot := (s.cxlKeys[c.window.val]).toNat
        if c.write = [] then
          match t.slotRead slot c.pa c.readLen (c.readLen / 128 + 2) with
          | (some bs, u) => { u with cxlAnswer := .data bs }
          | (none, u) => { u with cxlAnswer := .poisoned }
        else { (t.slotWrite hostKey .sys slot c.pa c.write (c.write.length / 128 + 2)) with cxlAnswer := .done })

/-- A key slot's contents replaced by firmware (R161). -/
def State.loadSlot (s : State) (n : Nat) (key : BitVec 512) : State :=
  if n < 2 ^ 14 then { s with keys := spInsert s.keys n key } else s

/-- HOME_CONTROLLER_ACCESS: the oldest of what firmware asks. An untranslated access is performed at its home controller under key slot 0
(R159, R161). -/
def execHomeControllerAccess (s : State) : Host.Outcome State Fault Refusal :=
  .next (match s.homeIn with
    | [] => s
    | h :: rest =>
      let t := { s with homeIn := rest }
      match h with
      | .read pa n =>
        if devSize < pa + n then t
        else if !s.homesOpen pa n then s
        else match t.slotRead 0 pa n (n / 128 + 2) with
          | (bs, u) => { u with homeAnswer := bs.getD [] }
      | .write pa bs =>
        if devSize < pa + bs.length then t
        else if !s.homesOpen pa bs.length then s
        else t.slotWrite schedKey .dev 0 pa bs (bs.length / 128 + 2)
      | .slot n key => t.loadSlot n key
      | .route p en serial ctxin => t.modPeer p.val fun q => { q with en, serial, ctxin })

/-! ## Links that go down (R454, R456) -/

/-- A record of a port of the IOD, for the collier of CD0. -/
def State.portRecord (s : State) (f : FI) (ctx : Byte) : State := s.queueFault 0 (unitRec f ctx (agentSrc (collierOf 0)) 0)

/-- Every RUNNING launch pre-empted. -/
def State.saveRunning (s : State) : State := ((s.launches.filter (·.st == .running)).map (·.lid)).foldl State.preempt s

/-- The handshake fails (R456): EVICT to the collier of CD0, and a report over MCTP; launches that run are pre-empted. An image not yet
acknowledged stays here whole, whatever the neighbour answers later. -/
def State.evictFail (s : State) (state why : Nat) : State :=
  let forget (w : Nat × Option Agent × Option Nat) : Nat × Option Agent × Option Nat :=
    match w with
    | (n, none, _) => (n, none, none)
    | w => w
  let s1 : State := { s with peers := s.peers.map fun q => { q with waiting := q.waiting.map forget } }
  let t := s1.queueFault 0 (unitRec { cls := cEvict, detail := state + why * 8 } 0 (agentSrc (collierOf 0)) 0)
  ({ t with evict := .failed, evictSent := false, mctp := t.mctp ++ [.evictFailed why] } : State).saveRunning

/-- A state of the handshake as the record numbers it (Table 24-1). -/
def Evict.num : Evict → Nat
  | .fencing => 1
  | .moving => 2
  | .draining => 3
  | _ => 0

/-- The SCLONE operations that wait for a peer port end with COPY. -/
def State.cloneFaults (s : State) (p : Nat) : State :=
  s.engine.foldl (fun t o => match o.kind with
    | .sclone q _ _ _ (some A) => if q = p then t.copyFault o { cls := cCopy, addr := A } else t
    | _ => t) s

/-- An access goes to host memory. -/
def Fly.toHost (f : Fly) : Bool := f.loc.space == .host

/-- The host link goes down: CXL.cache accesses on their way return no data, and LINK is raised at each agent that made one (R454). -/
def State.hostLost (s : State) : State :=
  let t : State := { s with hostUp := false, flying := s.flying.filter fun f => !f.toHost }
  (s.flying.filter Fly.toHost).foldl (fun u f => u.linkFault f.agent f.lid 0 0) t

/-- LINK_DOWN. The host link: its accesses fault from now on, and an integrity failure also raises LINK to the collier of CD0. A
peer link: each remote write outstanding is not performed and its issuer's launch stops, each SCLONE outstanding ends with COPY, what has
arrived of an eviction is discarded, and an eviction through the port fails (R454, R456). -/
def execLinkDown (l : LinkId) (s : State) : Host.Outcome State Fault Refusal :=
  .next (match l with
    | .host => s.hostLost
    | .ide => s.hostLost.portRecord { cls := cLink, detail := linkDetail 0 0 4 } 0
    | .peer p =>
      let q := s.peers[p.val]
      let s1 := s.modPeer p.val fun q => { q with up := false, out := [], waiting := [], acks := [], taking := false, rx := [] }
      let s2 := q.waiting.foldl (fun t w => match w.2.1 with
        | some a => t.linkFault a w.2.2 1 p.val
        | none => t) s1
      let s3 := s2.cloneFaults p.val
      if (s.evict = .fencing ∨ s.evict = .moving ∨ s.evict = .draining) ∧ s.evictPort = p then s3.evictFail s.evict.num 2 else s3)

/-! ## Peer requests (R389, R390, R454) -/

/-- Key of the agent that performs a peer port's requests. -/
def peerKey (p : Nat) : Nat := 2 ^ 43 + p

/-- The parts within a line of a peer request of n bytes at a VA of a context: each part's place and length; fuel bounds
them. -/
def State.peerPlaces (s : State) (ctx : Byte) (write : Bool) (va n : Nat) : Nat → Except FI (List (Loc × Nat))
  | 0 => .ok []
  | fuel + 1 => do
    let k := min n (128 - va % 128)
    if k = 0 then return []
    if va < 2 ^ 32 ∨ 2 ^ 56 ≤ va then throw { cls := cTranslation, addr := va % 2 ^ 56, detail := trDetail 7 (if va < 2 ^ 32 then 8 else 7) }
    let l ← s.leafLoc (← s.walk ctx va) va k write
    match s.accessFault l k write va with
    | some f => throw f
    | none => return (l, k) :: (← s.peerPlaces ctx write (va + k) (n - k) fuel)

/-- Bytes written at places, one place after another. -/
def State.putPlaces (s : State) (ak : Nat) : List (Loc × Nat) → List Byte → State
  | [], _ => s
  | (l, k) :: rest, bs => (s.write none ak none l (bs.take k)).putPlaces ak rest (bs.drop k)

/-- The links between the IOD and what places lie in are open. -/
def State.placesOpen (s : State) (ps : List (Loc × Nat)) : Bool := ps.all fun (l, _) => l.space != .dev || s.linkOpen none (homeDie l.at_)

/-- A peer's write under ctxin; it is acknowledged when it has been performed at .sys (R184, R390). A write of no byte is acknowledged at
once. -/
def State.peerWrite (s : State) (p : Nat) (ctx : Byte) (f : Flit) : State :=
  match s.peerPlaces ctx true f.addr f.payload.length 4 with
  | .error e => s.portRecord e ctx
  | .ok ps =>
    let t := s.putPlaces (peerKey p) ps f.payload
    (t.modPeer p fun q => { q with acks := q.acks ++ [(f.addr, range s.nextW (t.nextW - s.nextW))] }).sendAcks

/-- A peer's read request: answered with the values of a .sys read. -/
def State.peerRead (s : State) (p : Nat) (ctx : Byte) (f : Flit) : State :=
  match s.peerPlaces ctx false f.addr f.used 4 with
  | .error e => s.portRecord e ctx
  | .ok ps =>
    let t := ps.foldl (fun t (l, k) => t.correct 0 l k) s
    t.modPeer p fun q => q.send 3 f.used f.addr (ps.map fun (l, k) => s.home l k).flatten

/-- A request of a peer must wait for a link that it crosses (R391). -/
def State.peerWaits (s : State) (ctx : Byte) (f : Flit) : Bool :=
  match f.kind with
  | 1 | 2 => match s.peerPlaces ctx (f.kind == 1) f.addr f.used 4 with
    | .ok ps => !s.placesOpen ps
    | .error _ => false
  | 3 => s.engine.any fun o => match o.kind with
    | .sclone _ list entry off (some A) => A == f.addr && match s.listRead o (list + 16 + 32 * entry) 32 with
      | .ok (e, _) => !s.engOpen o (fld (leValue e) 119 64 + off) f.used true
      | .error _ => false
    | _ => false
  | _ => false

/-- The first flit of a kind taken from those sent. -/
def dropKind (kinds : List Nat) (fs : List Flit) : List Flit :=
  match findIdx (fun f : Flit => kinds.contains f.kind) fs with
  | some (k, _) => listRemove k fs
  | none => fs

/-- The oldest write or token flit of a port acknowledged: a launch whose image it carried has been taken over by the neighbour
(R456). -/
def State.peerAck (s : State) (p : Nat) : State :=
  match (s.peers.toList.getD p {}).waiting with
  | [] => s
  | (_, who, lid) :: rest =>
    let t := s.modPeer p fun q => { q with waiting := rest, out := dropKind [1, 4] q.out }
    match who, lid with
    | none, some n => { t with launches := t.launches.filter fun l => l.lid ≠ n }
    | _, _ => t

/-- PEER_FLIT_RECEIVE: the next flit of a port in sequence (R390), read by the layout of R389. A request on a route with en = 0 is
refused; a flit of a reserved kind is dropped and counted (R389, R454). -/
def execPeerFlitReceive (p : Fin 18) (f : Flit) (s : State) : Host.Outcome State Fault Refusal :=
  .next (
    let f := flitOf (Flit.bytes f)
    let q := s.peers[p.val]
    if !q.up ∨ f.seq ≠ q.rxseq ∨ s.peerWaits q.ctxin f then s
    else
      let t := s.modPeer p.val fun q => { q with rxseq := (q.rxseq + 1) % 2 ^ 32 }
      let refuse (why : Nat) (u : State) : State := u.portRecord { cls := cLink, detail := linkDetail 1 p.val why } 0
      match f.kind with
      | 1 => if q.en then t.peerWrite p.val q.ctxin f else refuse 2 t
      | 2 => if q.en then t.peerRead p.val q.ctxin f else refuse 2 t
      | 3 => (t.modPeer p.val fun q => { q with out := dropKind [2] q.out }).cloneData p.val f
      | 4 => if q.en then t.peerToken p.val f else refuse 2 t
      | 5 => t.peerAck p.val
      | _ => refuse 3 (t.modPeer p.val fun q => { q with errors := q.errors + 1 }))

/-! ## Eviction (R394 to R396, R456) -/

/-- Every launch has been disposed of under R396 and every arm queue is empty: what is left waits, or is saved without a pending
fault. -/
def State.fenced (s : State) : Bool :=
  s.launches.all (fun l => match l.st with
    | .waiting | .ready | .preempted false => true
    | _ => false) && s.dies.toList.all fun d => d.armq == []

/-- Every row and table held lazily spilled to its owner's save area (R395). -/
def State.spillEverything (s : State) : Except FI State :=
  s.stations.foldlM (fun (t : State) (n, st) => do
    let t1 ← st.rows.foldlM (fun (u : State) (r, _) => u.spillRow n r none) t
    st.tables.foldlM (fun (u : State) tb => u.spillTable n tb none) t1) s

/-- MOVING begins: the 30 s limit starts. -/
def State.startMoving (s : State) : State := { s with evict := .moving, evictAt := s.now, evictSent := false }

/-- The module is frozen, or a firmware image failed its check: it answers only on its management port (R397, R398). -/
def State.quietModule (s : State) : Bool := s.frozen || s.started.any (!·)

/-- EVICT_REQUEST: the oldest EVICT that waits. From SERVING it raises the fence; from FAILED, naming another port, it goes on with
MOVING; a neighbour not in its receiving state refuses. A module that only answers on its management port takes none. -/
def execEvictRequest (s : State) : Host.Outcome State Fault Refusal :=
  .next (match s.mgmtIn with
    | .evict port ready ranges :: rest =>
      let t := { s with mgmtIn := rest }
      if s.quietModule ∨ (s.evict ≠ .serving ∧ ¬(s.evict = .failed ∧ port ≠ s.evictPort)) then t
      else
        let u := { t with evict := if s.evict = Evict.serving then Evict.fencing else Evict.moving, evictPort := port, evictRanges := ranges }
        if !s.peers[port.val].up then u.evictFail u.evict.num 2
        else if !ready then u.evictFail u.evict.num 1
        else if s.evict = .serving then u.saveRunning
        else u.startMoving
    | _ => s)

/-- FENCING_COMPLETE: a launch that a collier has resumed is saved too; once every launch is disposed of, MOVING begins. -/
def execFencingComplete (s : State) : Host.Outcome State Fault Refusal :=
  .next (if s.evict ≠ .fencing then s
    else if s.launches.any (·.st == .running) then s.saveRunning
    else if s.fenced then s.startMoving
    else s)

/-- Nothing of the module's own is still on its way. -/
def State.atRest (s : State) : Bool :=
  s.flying == [] && s.engine == [] && s.conts == [] && s.cmsgs == [] && s.pend.all (·.todo == 0)

/-- MOVING_COMPLETE. First, with every launch disposed of and nothing on its way, rows and tables are spilled and everything of Table 17-5
is sent; when the neighbour has acknowledged it all, it has taken over launches and queues. What cannot be read is not sent, and MOVING
goes on. -/
def execMovingComplete (s : State) : Host.Outcome State Fault Refusal :=
  .next (if s.evict ≠ .moving then s
    else if s.evictSent then
      if s.peers[s.evictPort.val].waiting ≠ [] then s
      else
        { s with
          evict := .draining, launches := [], eqs := [], arcs := [], spilledRows := [], spilledTables := []
          dies := s.dies.map fun d => { d with dispatch := [], eqIn := [] } }
    else if s.launches.any (·.st == .running) then s.saveRunning
    else if !s.fenced || !s.atRest then s
    else match s.spillEverything with
      | .error _ => s
      | .ok t => (t.sendAll).toOption.getD s)

/-- No flit of a port is outstanding. -/
def Peer.idle (q : Peer) : Bool := q.waiting == [] && q.out.all fun f => f.kind == 3 || f.kind == 5

/-- DRAINING_COMPLETE: the report "routes drained", with the head of each enabled queue (R396). -/
def execDrainingComplete (s : State) : Host.Outcome State Fault Refusal :=
  .next (if s.evict ≠ .draining ∨ !(s.peers.toList.all fun q => q.idle && !q.en) ∨ !s.atRest then s
    else
      let heads := (s.wq.filter fun (_, w) => bitOf w.desc.toNat 0).map fun (q, w) => (q, w.head)
      { s with evict := .drained, mctp := s.mctp ++ [.routesDrained heads] })

/-- EVICT_TIMEOUT: MOVING outlasts 30 s of the 1.4 GHz clock. -/
def execEvictTimeout (s : State) : Host.Outcome State Fault Refusal :=
  .next (if s.evict = .moving ∧ s.evictAt + 42000000000 ≤ s.now then s.evictFail 2 0 else s)

/-- An abort returns a failed module to SERVING. -/
def execEvictAbort (s : State) : Host.Outcome State Fault Refusal :=
  .next (if s.evict = .failed then { s with evict := .serving } else s)

/-- The module is unlatched, after its report (R394). -/
def execUnlatch (s : State) : Host.Outcome State Fault Refusal :=
  .next (if s.evict = .drained then { s with unlatched := true } else s)

/-! ## Freeze, read-out, boot and management (R392, R397 to R399) -/

/-- A vendor-defined message raises the freeze signal. -/
def execFreezeMessage (s : State) : Host.Outcome State Fault Refusal := .next { s with frozen := true }

/-- The part of a list of bytes that a place of the scan path lies in. -/
def scanIn (bs : List Byte) (i : Nat) : Byte := bs.getD i 0

/-- The byte at a place of the scan path (R397; log entry 85): of station n from 2^20 * n on its matching store, slots, table store and
accumulator store; of helper core k from 2^37 + 2^16 * k on its registers; from 2^38 on the core memories. -/
def State.scanByte (s : State) (i : Nat) : Byte :=
  let st := s.stn (i / 2 ^ 20)
  let o := i % 2 ^ 20
  if i < 2 ^ 36 then
    if o < 2 ^ 16 then scanIn (((st.store[o / 1024]?).map putEntry).getD []) (o % 1024)
    else if o < 2 ^ 17 then scanIn (putB 16 (spGet 0 (st.ctxs[o / 256 % 4]).words (o / 16 % 16))) (o % 16)
    else if o < 2 ^ 18 then scanIn (putB 4 (spGet 0 st.tstore (o % 2 ^ 17 / 4))) (o % 4)
    else
      let x := s.row (i / 2 ^ 20) (o % 2 ^ 14 / 512)
      scanIn (putMany (putB 8) x.cells.toList ++ putI 8 x.eacc ++ putO (putB 1) x.owner) (o % 512)
  else if i < 2 ^ 38 then scanIn (putCore (s.core (agentOf (i % 2 ^ 37 / 2 ^ 16 % 2056)))) (i % 2 ^ 16)
  else s.mem.byte (coreMemBase 0 0 + i % 2 ^ 38 % 2 ^ 30)

/-- SCAN_READ_OUT: bytes of a frozen module's stores and registers; reading writes none of them (R397). -/
def execScanReadOut (s : State) : Host.Outcome State Fault Refusal :=
  .next (match s.mgmtIn with
    | .scan off len :: rest =>
      { s with mgmtIn := rest, mctp := if s.frozen then s.mctp ++ [.scan ((range off len).map s.scanByte)] else s.mctp }
    | _ => s)

/-- A record of the service log as its 32 bytes. -/
def serviceBytes (s : State) : List Byte := padTo 3072 (putMany (putB 32) s.service)

/-- PLDM_MONITORING: sensors and the state of the eviction handshake (R392). A read of the identity record is answered, and a record is
appended to the service log while it has room (R393; log entry 86). -/
def execPldmMonitoring (s : State) : Host.Outcome State Fault Refusal :=
  .next (match s.mgmtIn with
    | .eeprom off len :: rest =>
      { s with mgmtIn := rest, mctp := s.mctp ++ [.eeprom (((s.identity ++ serviceBytes s).drop off).take len)] }
    | .service r :: rest => { s with mgmtIn := rest, service := if s.service.length < 96 then s.service ++ [r] else s.service }
    | _ => { s with mctp := s.mctp ++ [.monitoring s.inlet s.outlet s.power s.evict] })

/-- PLDM_FIRMWARE_UPDATE: an image with its signature, in force from the next reset. -/
def execPldmFirmwareUpdate (s : State) : Host.Outcome State Fault Refusal :=
  .next (match s.mgmtIn with
    | .firmware image bytes sig :: rest =>
      { s with mgmtIn := rest, images := s.images.set image.val (bytes, sig), mctp := s.mctp ++ [.firmware image true] }
    | _ => s)

/-- SPDM_MESSAGE: measurements 1 to 4, and a signature of the identity key over the transcript's digest; over MCTP, or over CXL.io DOE
while the host link is up (R399). -/
def execSpdmMessage (s : State) : Host.Outcome State Fault Refusal :=
  .next (match s.mgmtIn with
    | .spdm transcript doe :: rest =>
      let a : SpdmAnswer := ⟨s.measured.toList, Config.ed448Sign (Config.shake256 transcript)⟩
      if doe then { s with mgmtIn := rest, doe := if s.hostUp then s.doe ++ [a] else s.doe }
      else { s with mgmtIn := rest, mctp := s.mctp ++ [.spdm a] }
    | _ => s)

/-- Bytes of an image in every collier's private store, from its first byte (log entry 34). -/
def bootColliers (bs : List Byte) : Memory :=
  (List.range 8).foldl (fun (m : Memory) d => m.store (collierBase d) (bs.take (2 ^ 18))) []

/-- MODULE_RESET: all live state is discarded; the boot ROM measures each image and starts those whose signature verifies: the
colliers then run the fourth (R143, R398). What is not live state stays: firmware images, identity record, service log, sensors, what waits at the ports and what has been sent. -/
def execModuleReset (s : State) : Host.Outcome State Fault Refusal :=
  .next { State.reset with
    mem := bootColliers s.images[3].1
    images := s.images, identity := s.identity, service := s.service
    measured := s.images.map fun i => Config.shake256 i.1
    started := s.images.map fun i => Config.ed448Verify (Config.shake256 i.1) i.2
    inlet := s.inlet, outlet := s.outlet, power := s.power
    cxlIn := s.cxlIn, barIn := s.barIn, cfgIn := s.cfgIn, mgmtIn := s.mgmtIn, homeIn := s.homeIn
    mctp := s.mctp, doe := s.doe, msix := s.msix
    unlatched := s.unlatched, steps := s.steps, now := s.now, resetAt := s.now, fresh := s.fresh, nextId := s.nextId }

/-! ## The power governor (R457) -/

/-- A limit of Table 24-2 is exceeded. -/
def State.hot (s : State) : Bool := decide (65 < s.outlet ∨ 45 < s.inlet)

/-- Both temperatures are below the limits for leaving a level. -/
def State.cool (s : State) : Bool := decide (s.outlet < 60 ∧ s.inlet < 42)

/-- A millisecond of the 1.4 GHz clock. -/
def msCycles : Nat := 1400000

/-- A change of level: THERMAL to every collier. -/
def State.setLevel (s : State) (n : Nat) (up : Bool) : State :=
  let (bs, t) := s.freeBytes 1
  let inlet :=
    if up then if 65 < s.outlet ∧ 45 < s.inlet then bs.all (·.getLsbD 0) else decide (45 < s.inlet)
    else bs.all (·.getLsbD 0)
  let f : FI := { cls := cThermal, detail := n + b2n up * 4 + b2n inlet * 8 }
  let t1 := (List.finRange 8).foldl (fun u d => u.queueFault d (unitRec f 0 (agentSrc (collierOf d)) 0)) t
  { t1 with level := n, levelAt := s.now, coolAt := if up then none else some s.now }

/-- GOVERNOR_CHECK: the temperatures are compared with the limits; 1 ms above a limit enters level 1, 100 ms more at a level the
next one, and 1 ms below the lower limits leaves a level. Above 80 degrees the module is frozen. -/
def execGovernorCheck (s : State) : Host.Outcome State Fault Refusal :=
  let hotAt := if s.hot then some (s.hotAt.getD s.now) else none
  let coolAt := if s.cool then some (s.coolAt.getD s.now) else none
  let t := { s with hotAt, coolAt }
  let up := match hotAt with
    | none => false
    | some h =>
      if s.level = 0 then decide (h + msCycles ≤ s.now)
      else decide (s.level < 3 ∧ max h s.levelAt + 100 * msCycles ≤ s.now)
  let down := match coolAt with
    | none => false
    | some c => decide (0 < s.level ∧ c + msCycles ≤ s.now)
  let u := if up then t.setLevel (s.level + 1) true else if down then t.setLevel (s.level - 1) false else t
  .next (if 80 < s.outlet then { u with frozen := true } else u)

end Sys2Proof.Machine
end

