-- ==== Sys2Proof/Machine/Second.lean ====
section
/-! DEFINITION. LIMM pairs (R215) and encodings that a core refuses (R216, R223). -/

namespace Sys2Proof.Machine

/-- The second word of a pair, with the prefix in State.limm. Any other word after a prefix raises ILLEGAL (R215). -/
def execSecond (i : Instr) (s : State) : Host.Outcome State Fault Refusal :=
  match i with
  | .addR x d a b => execAddR x d a b s
  | .subR x d a b => execSubR x d a b s
  | .mulR x d a b => execMulR x d a b s
  | .andR x d a b => execAndR x d a b s
  | .orR x d a b => execOrR x d a b s
  | .xorR x d a b => execXorR x d a b s
  | .andnR x d a b => execAndnR x d a b s
  | .shlR x d a b => execShlR x d a b s
  | .shrR x d a b => execShrR x d a b s
  | .sraR x d a b => execSraR x d a b s
  | .mulhR x u d a b => execMulhR x u d a b s
  | .divR x u d a b => execDivR x u d a b s
  | .remR x u d a b => execRemR x u d a b s
  | .minR x u d a b => execMinR x u d a b s
  | .maxR x u d a b => execMaxR x u d a b s
  | .sltR x u d a b => execSltR x u d a b s
  | .cmpR x rel pd a b => execCmpR x rel pd a b s
  | .loopSet x n c e => execLoopSet x n c e s
  | .loopWls x n b => execLoopWls x n b s
  | .loopWle x n b => execLoopWle x n b s
  | .cpyMem x d a b => execCpyMem x d a b s
  | .cpyAout x d a b => execCpyAout x d a b s
  | .cpyAin x d a b => execCpyAin x d a b s
  | .cpyTbl x d a b => execCpyTbl x d a b s
  | .fbopen x sr a b => execFbopen x sr a b s
  | .pcincR x a b => execPcincR x a b s
  | .pcsetR x a b => execPcsetR x a b s
  | .pcwaitR x a b => execPcwaitR x a b s
  | .qpush x d a b => execQpush x d a b s
  | .qpop x d a b => execQpop x d a b s
  | .eqcfg x a b => execEqcfg x a b s
  | .eqpush x a b => execEqpush x a b s
  | .eqpop x d a b => execEqpop x d a b s
  | .fread x d a b => execFread x d a b s
  | .fwrite x a b => execFwrite x a b s
  | .shapeRequest x d a b => execShapeRequest x d a b s
  | .shapeQuery x d a b => execShapeQuery x d a b s
  | .tinjR x run ty t a b => execTinjR x run ty t a b s
  | .rngR x fn d a b => execRngR x fn d a b s
  | .sclone x a b => execSclone x a b s
  | .wfe x d a b => execWfe x d a b s
  | .tlbiPage x a b => execTlbiPage x a b s
  | .tlbiCtx x b => execTlbiCtx x b s
  | .lnkctlStatus x d a b => execLnkctlStatus x d a b s
  | .lnkctlPause x d a b => execLnkctlPause x d a b s
  | .lnkctlResume x d a b => execLnkctlResume x d a b s
  | .lnkctlRemap x d a b => execLnkctlRemap x d a b s
  | .lnkctlRetrain x d a b => execLnkctlRetrain x d a b s
  | .lnkctlClear x d a b => execLnkctlClear x d a b s
  | .amoCas x dw ord sc d a b => execAmoCas x dw ord sc d a b s
  | .lpatch x a b u => execLpatch x a b u s
  | .addI x d a imm => execAddI x d a imm s
  | .subI x d a imm => execSubI x d a imm s
  | .mulI x d a imm => execMulI x d a imm s
  | .mulhI x d a imm => execMulhI x d a imm s
  | .divI x d a imm => execDivI x d a imm s
  | .remI x d a imm => execRemI x d a imm s
  | .andI x d a imm => execAndI x d a imm s
  | .orI x d a imm => execOrI x d a imm s
  | .xorI x d a imm => execXorI x d a imm s
  | .andnI x d a imm => execAndnI x d a imm s
  | .shlI x d a imm => execShlI x d a imm s
  | .shrI x d a imm => execShrI x d a imm s
  | .sraI x d a imm => execSraI x d a imm s
  | .minI x d a imm => execMinI x d a imm s
  | .maxI x d a imm => execMaxI x d a imm s
  | .sltI x d a imm => execSltI x d a imm s
  | .pcincI x a imm => execPcincI x a imm s
  | .pcsetI x a imm => execPcsetI x a imm s
  | .pcwaitI x a imm => execPcwaitI x a imm s
  | .csrr x d a imm => execCsrr x d a imm s
  | .csrw x d a imm => execCsrw x d a imm s
  | .cmpI x rel pd a imm => execCmpI x rel pd a imm s
  | .loopI x n c imm => execLoopI x n c imm s
  | .trap x imm => execTrap x imm s
  | .ld x v w acq sc d a => execLd x v w acq sc d a s
  | .st x w rel sc d a => execSt x w rel sc d a s
  | .pfetch x sc a => execPfetch x sc a s
  | .vld x acq sc d a => execVld x acq sc d a s
  | .vst x rel sc d a => execVst x rel sc d a s
  | .amo x fn dw ord sc d a => execAmo x fn dw ord sc d a s
  | .famo x rel sc d a => execFamo x rel sc d a s
  | .acell x bf clr acq sc d a => execAcell x bf clr acq sc d a s
  | _ => illegal s

/-- LIMM: the two words as one instruction. -/
def execLimm (imm : BitVec 25) (i : Instr) (s : State) : Host.Outcome State Fault Refusal :=
  let t := { s with limm := some imm }
  if limmWf imm i then execSecond i t else illegal t

/-- A word, or a LIMM word with the word after it, that is no instruction raises ILLEGAL, precisely, whatever its guard (R216,
R223, R299). -/
def execIllegalEncoding (w0 _w1 : Word) (s : State) : Host.Outcome State Fault Refusal :=
  illegal (if fld w0.toNat 31 25 = 0x24 then { s with limm := some (w0.setWidth 25) } else s)

end Sys2Proof.Machine
end

