-- ==== Sys2Proof/Machine/Dispatch.lean ====
section
/-! DEFINITION. The one table from instructions to their meanings: one arm per constructor of Instr, each a direct call. -/

namespace Sys2Proof.Machine

/-- What an instruction does. -/
def exec (i : Instr) (s : State) : Host.Outcome State Fault Refusal :=
  match i with
  | .pass h ty => Sys2Proof.Machine.execPass h ty s
  | .steer h ty => Sys2Proof.Machine.execSteer h ty s
  | .merge h ty => Sys2Proof.Machine.execMerge h ty s
  | .gate h ty => Sys2Proof.Machine.execGate h ty s
  | .join h n => Sys2Proof.Machine.execJoin h n s
  | .const h ty exp value => Sys2Proof.Machine.execConst h ty exp value s
  | .sink h ty count => Sys2Proof.Machine.execSink h ty count s
  | .count h ty value => Sys2Proof.Machine.execCount h ty value s
  | .purge h ty => Sys2Proof.Machine.execPurge h ty s
  | .wadv h ty => Sys2Proof.Machine.execWadv h ty s
  | .nest h ty => Sys2Proof.Machine.execNest h ty s
  | .unnest h ty => Sys2Proof.Machine.execUnnest h ty s
  | .tset h ty k => Sys2Proof.Machine.execTset h ty k s
  | .tget h field => Sys2Proof.Machine.execTget h field s
  | .rsplit h ty p => Sys2Proof.Machine.execRsplit h ty p s
  | .rlen h => Sys2Proof.Machine.execRlen h s
  | .expand h ty => Sys2Proof.Machine.execExpand h ty s
  | .pack h ty => Sys2Proof.Machine.execPack h ty s
  | .xmit h ty => Sys2Proof.Machine.execXmit h ty s
  | .xmitQueueRoom stn => Sys2Proof.Machine.execXmitQueueRoom stn s
  | .ldn h ty f => Sys2Proof.Machine.execLdn h ty f s
  | .stn h ty f => Sys2Proof.Machine.execStn h ty f s
  | .amon h ty f => Sys2Proof.Machine.execAmon h ty f s
  | .famn h f => Sys2Proof.Machine.execFamn h f s
  | .memoryNodeAccessPerformed stn n => Sys2Proof.Machine.execMemoryNodeAccessPerformed stn n s
  | .iadd h ty mode imm => Sys2Proof.Machine.execIadd h ty mode imm s
  | .isub h ty mode imm => Sys2Proof.Machine.execIsub h ty mode imm s
  | .imul h ty mode imm => Sys2Proof.Machine.execImul h ty mode imm s
  | .imac h ty mode form c => Sys2Proof.Machine.execImac h ty mode form c s
  | .imin h ty imm => Sys2Proof.Machine.execImin h ty imm s
  | .imax h ty imm => Sys2Proof.Machine.execImax h ty imm s
  | .iabs h ty mode => Sys2Proof.Machine.execIabs h ty mode s
  | .logic h ty fn imm => Sys2Proof.Machine.execLogic h ty fn imm s
  | .shift h ty fn imm => Sys2Proof.Machine.execShift h ty fn imm s
  | .icmp h ty fn imm => Sys2Proof.Machine.execIcmp h ty fn imm s
  | .sel h ty => Sys2Proof.Machine.execSel h ty s
  | .slotBitc h ty fn => Sys2Proof.Machine.execSlotBitc h ty fn s
  | .fadd h ty rnd neg imm => Sys2Proof.Machine.execFadd h ty rnd neg imm s
  | .fmul h ty rnd imm => Sys2Proof.Machine.execFmul h ty rnd imm s
  | .ffma h ty rnd form negp c => Sys2Proof.Machine.execFfma h ty rnd form negp c s
  | .fmin h ty fn imm => Sys2Proof.Machine.execFmin h ty fn imm s
  | .fmax h ty fn imm => Sys2Proof.Machine.execFmax h ty fn imm s
  | .fcmp h ty fn imm => Sys2Proof.Machine.execFcmp h ty fn imm s
  | .fspec h ty fn => Sys2Proof.Machine.execFspec h ty fn s
  | .cvt h ty rnd sat => Sys2Proof.Machine.execCvt h ty rnd sat s
  | .bqnt h ty rnd c => Sys2Proof.Machine.execBqnt h ty rnd c s
  | .dqnt h ty rnd adj => Sys2Proof.Machine.execDqnt h ty rnd adj s
  | .redu h ty fn c => Sys2Proof.Machine.execRedu h ty fn c s
  | .scan h ty fn c => Sys2Proof.Machine.execScan h ty fn c s
  | .slotRng h ty fn posv seqf d => Sys2Proof.Machine.execSlotRng h ty fn posv seqf d s
  | .segt h ty mu tau kr lmax => Sys2Proof.Machine.execSegt h ty mu tau kr lmax s
  | .sgpN32 h ty r => Sys2Proof.Machine.execSgpN32 h ty r s
  | .sgpN64 h ty r => Sys2Proof.Machine.execSgpN64 h ty r s
  | .dmacN32 h ty r => Sys2Proof.Machine.execDmacN32 h ty r s
  | .dmacN64 h ty r => Sys2Proof.Machine.execDmacN64 h ty r s
  | .spmc h ty wide r => Sys2Proof.Machine.execSpmc h ty wide r s
  | .isect h fn => Sys2Proof.Machine.execIsect h fn s
  | .tbld h t => Sys2Proof.Machine.execTbld h t s
  | .tableBuildComplete stn n => Sys2Proof.Machine.execTableBuildComplete stn n s
  | .tupd h ty fold t => Sys2Proof.Machine.execTupd h ty fold t s
  | .pupd h ty fold t => Sys2Proof.Machine.execPupd h ty fold t s
  | .pupdUpdateMessage n => Sys2Proof.Machine.execPupdUpdateMessage n s
  | .pupdAcknowledge n => Sys2Proof.Machine.execPupdAcknowledge n s
  | .pbind h ty tr pt t partner gen => Sys2Proof.Machine.execPbind h ty tr pt t partner gen s
  | .pbindMessage n => Sys2Proof.Machine.execPbindMessage n s
  | .pbindConfirm n => Sys2Proof.Machine.execPbindConfirm n s
  | .tfold h ty all t => Sys2Proof.Machine.execTfold h ty all t s
  | .foldComplete stn n => Sys2Proof.Machine.execFoldComplete stn n s
  | .tsum h ty t => Sys2Proof.Machine.execTsum h ty t s
  | .trd h ty fn col t => Sys2Proof.Machine.execTrd h ty fn col t s
  | .aclr h ty fn rsel row eacc => Sys2Proof.Machine.execAclr h ty fn rsel row eacc s
  | .aemit h ty rnd seg clear slot rsel row adj ncols kbase => Sys2Proof.Machine.execAemit h ty rnd seg clear slot rsel row adj ncols kbase s
  | .ownershipService stn => Sys2Proof.Machine.execOwnershipService stn s
  | .tokenArrival n => Sys2Proof.Machine.execTokenArrival n s
  | .damperQuiescence lid => Sys2Proof.Machine.execDamperQuiescence lid s
  | .hostTailWrite q tail => Sys2Proof.Machine.execHostTailWrite q tail s
  | .arming queue die => Sys2Proof.Machine.execArming queue die s
  | .ageCountExpiry lid => Sys2Proof.Machine.execAgeCountExpiry lid s
  | .loadComplete lid => Sys2Proof.Machine.execLoadComplete lid s
  | .saveComplete lid => Sys2Proof.Machine.execSaveComplete lid s
  | .launchClose lid => Sys2Proof.Machine.execLaunchClose lid s
  | .replicaApply die => Sys2Proof.Machine.execReplicaApply die s
  | .eqEntryAccept die n => Sys2Proof.Machine.execEqEntryAccept die n s
  | .queueFireOnFill die q => Sys2Proof.Machine.execQueueFireOnFill die q s
  | .queueFireOnAge die q => Sys2Proof.Machine.execQueueFireOnAge die q s
  | .queueDispatch die => Sys2Proof.Machine.execQueueDispatch die s
  | .patternRequestArrival die => Sys2Proof.Machine.execPatternRequestArrival die s
  | .patternCompileComplete die => Sys2Proof.Machine.execPatternCompileComplete die s
  | .copyComplete n => Sys2Proof.Machine.execCopyComplete n s
  | .dieApplyWrite die n => Sys2Proof.Machine.execDieApplyWrite die n s
  | .memoryAccessComplete n => Sys2Proof.Machine.execMemoryAccessComplete n s
  | .translationWalkComplete die ctx va => Sys2Proof.Machine.execTranslationWalkComplete die ctx va s
  | .streamWordRead a sr => Sys2Proof.Machine.execStreamWordRead a sr s
  | .barrierComplete lid set => Sys2Proof.Machine.execBarrierComplete lid set s
  | .continuationDispatch n => Sys2Proof.Machine.execContinuationDispatch n s
  | .faultStopComplete lid => Sys2Proof.Machine.execFaultStopComplete lid s
  | .fqheadWrite die v => Sys2Proof.Machine.execFqheadWrite die v s
  | .lctlResume die lid => Sys2Proof.Machine.execLctlResume die lid s
  | .lctlResumeSkip die lid => Sys2Proof.Machine.execLctlResumeSkip die lid s
  | .lctlEnd die lid => Sys2Proof.Machine.execLctlEnd die lid s
  | .pairsvcReplay die stn t => Sys2Proof.Machine.execPairsvcReplay die stn t s
  | .pairsvcRetract die stn t => Sys2Proof.Machine.execPairsvcRetract die stn t s
  | .pairsvcUnbind die stn t => Sys2Proof.Machine.execPairsvcUnbind die stn t s
  | .wdataAccess die value => Sys2Proof.Machine.execWdataAccess die value s
  | .lcancelWrite die v => Sys2Proof.Machine.execLcancelWrite die v s
  | .fpctlWrite a v => Sys2Proof.Machine.execFpctlWrite a v s
  | .scrub die => Sys2Proof.Machine.execScrub die s
  | .linkRetryThreshold die m => Sys2Proof.Machine.execLinkRetryThreshold die m s
  | .linkDown l => Sys2Proof.Machine.execLinkDown l s
  | .peerFlitReceive p f => Sys2Proof.Machine.execPeerFlitReceive p f s
  | .addR x d a b => Sys2Proof.Machine.execAddR x d a b s
  | .subR x d a b => Sys2Proof.Machine.execSubR x d a b s
  | .mulR x d a b => Sys2Proof.Machine.execMulR x d a b s
  | .mulhR x u d a b => Sys2Proof.Machine.execMulhR x u d a b s
  | .divR x u d a b => Sys2Proof.Machine.execDivR x u d a b s
  | .remR x u d a b => Sys2Proof.Machine.execRemR x u d a b s
  | .andR x d a b => Sys2Proof.Machine.execAndR x d a b s
  | .orR x d a b => Sys2Proof.Machine.execOrR x d a b s
  | .xorR x d a b => Sys2Proof.Machine.execXorR x d a b s
  | .andnR x d a b => Sys2Proof.Machine.execAndnR x d a b s
  | .shlR x d a b => Sys2Proof.Machine.execShlR x d a b s
  | .shrR x d a b => Sys2Proof.Machine.execShrR x d a b s
  | .sraR x d a b => Sys2Proof.Machine.execSraR x d a b s
  | .minR x u d a b => Sys2Proof.Machine.execMinR x u d a b s
  | .maxR x u d a b => Sys2Proof.Machine.execMaxR x u d a b s
  | .sltR x u d a b => Sys2Proof.Machine.execSltR x u d a b s
  | .addI x d a imm => Sys2Proof.Machine.execAddI x d a imm s
  | .subI x d a imm => Sys2Proof.Machine.execSubI x d a imm s
  | .mulI x d a imm => Sys2Proof.Machine.execMulI x d a imm s
  | .mulhI x d a imm => Sys2Proof.Machine.execMulhI x d a imm s
  | .divI x d a imm => Sys2Proof.Machine.execDivI x d a imm s
  | .remI x d a imm => Sys2Proof.Machine.execRemI x d a imm s
  | .andI x d a imm => Sys2Proof.Machine.execAndI x d a imm s
  | .orI x d a imm => Sys2Proof.Machine.execOrI x d a imm s
  | .xorI x d a imm => Sys2Proof.Machine.execXorI x d a imm s
  | .andnI x d a imm => Sys2Proof.Machine.execAndnI x d a imm s
  | .shlI x d a imm => Sys2Proof.Machine.execShlI x d a imm s
  | .shrI x d a imm => Sys2Proof.Machine.execShrI x d a imm s
  | .sraI x d a imm => Sys2Proof.Machine.execSraI x d a imm s
  | .minI x d a imm => Sys2Proof.Machine.execMinI x d a imm s
  | .maxI x d a imm => Sys2Proof.Machine.execMaxI x d a imm s
  | .sltI x d a imm => Sys2Proof.Machine.execSltI x d a imm s
  | .bitc x fn d a => Sys2Proof.Machine.execBitc x fn d a s
  | .cmpR x rel pd a b => Sys2Proof.Machine.execCmpR x rel pd a b s
  | .cmpI x rel pd a imm => Sys2Proof.Machine.execCmpI x rel pd a imm s
  | .plog x op => Sys2Proof.Machine.execPlog x op s
  | .limm imm j => Sys2Proof.Machine.execLimm imm j s
  | .br x off => Sys2Proof.Machine.execBr x off s
  | .jmp x a => Sys2Proof.Machine.execJmp x a s
  | .callB x off => Sys2Proof.Machine.execCallB x off s
  | .callR x d a => Sys2Proof.Machine.execCallR x d a s
  | .ret x a => Sys2Proof.Machine.execRet x a s
  | .loopI x n c imm => Sys2Proof.Machine.execLoopI x n c imm s
  | .loopSet x n c e => Sys2Proof.Machine.execLoopSet x n c e s
  | .loopWlc x n a => Sys2Proof.Machine.execLoopWlc x n a s
  | .loopWls x n b => Sys2Proof.Machine.execLoopWls x n b s
  | .loopWle x n b => Sys2Proof.Machine.execLoopWle x n b s
  | .ld x v w acq sc d a => Sys2Proof.Machine.execLd x v w acq sc d a s
  | .st x w rel sc d a => Sys2Proof.Machine.execSt x w rel sc d a s
  | .pfetch x sc a => Sys2Proof.Machine.execPfetch x sc a s
  | .cpyMem x d a b => Sys2Proof.Machine.execCpyMem x d a b s
  | .cpyAout x d a b => Sys2Proof.Machine.execCpyAout x d a b s
  | .cpyAin x d a b => Sys2Proof.Machine.execCpyAin x d a b s
  | .cpyTbl x d a b => Sys2Proof.Machine.execCpyTbl x d a b s
  | .drainCm x => Sys2Proof.Machine.execDrainCm x s
  | .drainTbl x => Sys2Proof.Machine.execDrainTbl x s
  | .drainAcc x => Sys2Proof.Machine.execDrainAcc x s
  | .fbopen x sr a b => Sys2Proof.Machine.execFbopen x sr a b s
  | .fbadv x fn d sr => Sys2Proof.Machine.execFbadv x fn d sr s
  | .fbend x pd sr => Sys2Proof.Machine.execFbend x pd sr s
  | .fbclose x sr => Sys2Proof.Machine.execFbclose x sr s
  | .vld x acq sc d a => Sys2Proof.Machine.execVld x acq sc d a s
  | .vst x rel sc d a => Sys2Proof.Machine.execVst x rel sc d a s
  | .vgath x fg d a m g => Sys2Proof.Machine.execVgath x fg d a m g s
  | .vscat x d a m g => Sys2Proof.Machine.execVscat x d a m g s
  | .vadd x ty sub d a b m => Sys2Proof.Machine.execVadd x ty sub d a b m s
  | .vsub x ty sub d a b m => Sys2Proof.Machine.execVsub x ty sub d a b m s
  | .vmul x ty sub d a b m => Sys2Proof.Machine.execVmul x ty sub d a b m s
  | .vfma x ty sub d a b m => Sys2Proof.Machine.execVfma x ty sub d a b m s
  | .vmin x ty sub d a b m => Sys2Proof.Machine.execVmin x ty sub d a b m s
  | .vmax x ty sub d a b m => Sys2Proof.Machine.execVmax x ty sub d a b m s
  | .vlogic x ty sub d a b m => Sys2Proof.Machine.execVlogic x ty sub d a b m s
  | .vcmp x ty rel pd a b m => Sys2Proof.Machine.execVcmp x ty rel pd a b m s
  | .vsel x d a b m => Sys2Proof.Machine.execVsel x d a b m s
  | .vcmprs x d a m g => Sys2Proof.Machine.execVcmprs x d a m g s
  | .vbcastG x d m g => Sys2Proof.Machine.execVbcastG x d m g s
  | .vbcastLane x d a m k => Sys2Proof.Machine.execVbcastLane x d a m k s
  | .vred x ty sub d a m => Sys2Proof.Machine.execVred x ty sub d a m s
  | .vcvt x dty sty rnd sat d a m => Sys2Proof.Machine.execVcvt x dty sty rnd sat d a m s
  | .amo x fn dw ord sc d a => Sys2Proof.Machine.execAmo x fn dw ord sc d a s
  | .famo x rel sc d a => Sys2Proof.Machine.execFamo x rel sc d a s
  | .acell x bf clr acq sc d a => Sys2Proof.Machine.execAcell x bf clr acq sc d a s
  | .stmc x w rel sc n d a => Sys2Proof.Machine.execStmc x w rel sc n d a s
  | .fence x seqc sc => Sys2Proof.Machine.execFence x seqc sc s
  | .xfence x sc => Sys2Proof.Machine.execXfence x sc s
  | .bar x set => Sys2Proof.Machine.execBar x set s
  | .pcincR x a b => Sys2Proof.Machine.execPcincR x a b s
  | .pcincI x a imm => Sys2Proof.Machine.execPcincI x a imm s
  | .pcsetR x a b => Sys2Proof.Machine.execPcsetR x a b s
  | .pcsetI x a imm => Sys2Proof.Machine.execPcsetI x a imm s
  | .pcwaitR x a b => Sys2Proof.Machine.execPcwaitR x a b s
  | .pcwaitI x a imm => Sys2Proof.Machine.execPcwaitI x a imm s
  | .qpush x d a b => Sys2Proof.Machine.execQpush x d a b s
  | .qpop x d a b => Sys2Proof.Machine.execQpop x d a b s
  | .eqcfg x a b => Sys2Proof.Machine.execEqcfg x a b s
  | .eqpush x a b => Sys2Proof.Machine.execEqpush x a b s
  | .eqpop x d a b => Sys2Proof.Machine.execEqpop x d a b s
  | .fread x d a b => Sys2Proof.Machine.execFread x d a b s
  | .fwrite x a b => Sys2Proof.Machine.execFwrite x a b s
  | .lpatch x a b u => Sys2Proof.Machine.execLpatch x a b u s
  | .larm x a => Sys2Proof.Machine.execLarm x a s
  | .shapeRequest x d a b => Sys2Proof.Machine.execShapeRequest x d a b s
  | .shapeQuery x d a b => Sys2Proof.Machine.execShapeQuery x d a b s
  | .gcfg x a => Sys2Proof.Machine.execGcfg x a s
  | .tinjR x run ty t a b => Sys2Proof.Machine.execTinjR x run ty t a b s
  | .tinjV x ty desc a t m => Sys2Proof.Machine.execTinjV x ty desc a t m s
  | .trcvTake x d t => Sys2Proof.Machine.execTrcvTake x d t s
  | .trcvPeek x d t => Sys2Proof.Machine.execTrcvPeek x d t s
  | .trcvV x d t b h => Sys2Proof.Machine.execTrcvV x d t b h s
  | .rngR x fn d a b => Sys2Proof.Machine.execRngR x fn d a b s
  | .rngV x fn d k dr m => Sys2Proof.Machine.execRngV x fn d k dr m s
  | .sclone x a b => Sys2Proof.Machine.execSclone x a b s
  | .trap x imm => Sys2Proof.Machine.execTrap x imm s
  | .rte x => Sys2Proof.Machine.execRte x s
  | .csrr x d a imm => Sys2Proof.Machine.execCsrr x d a imm s
  | .csrw x d a imm => Sys2Proof.Machine.execCsrw x d a imm s
  | .yield x => Sys2Proof.Machine.execYield x s
  | .wfe x d a b => Sys2Proof.Machine.execWfe x d a b s
  | .tlbiPage x a b => Sys2Proof.Machine.execTlbiPage x a b s
  | .tlbiCtx x b => Sys2Proof.Machine.execTlbiCtx x b s
  | .tlbiAll x => Sys2Proof.Machine.execTlbiAll x s
  | .freeze x => Sys2Proof.Machine.execFreeze x s
  | .lnkctlStatus x d a b => Sys2Proof.Machine.execLnkctlStatus x d a b s
  | .lnkctlPause x d a b => Sys2Proof.Machine.execLnkctlPause x d a b s
  | .lnkctlResume x d a b => Sys2Proof.Machine.execLnkctlResume x d a b s
  | .lnkctlRemap x d a b => Sys2Proof.Machine.execLnkctlRemap x d a b s
  | .lnkctlRetrain x d a b => Sys2Proof.Machine.execLnkctlRetrain x d a b s
  | .lnkctlClear x d a b => Sys2Proof.Machine.execLnkctlClear x d a b s
  | .halt x => Sys2Proof.Machine.execHalt x s
  | .amoCas x dw ord sc d a b => Sys2Proof.Machine.execAmoCas x dw ord sc d a b s
  | .illegalEncoding w0 w1 => Sys2Proof.Machine.execIllegalEncoding w0 w1 s
  | .receiveQueueArrival n => Sys2Proof.Machine.execReceiveQueueArrival n s
  | .flitRetry die m lane => Sys2Proof.Machine.execFlitRetry die m lane s
  | .linkTrainingComplete die m => Sys2Proof.Machine.execLinkTrainingComplete die m s
  | .schedulerSelect => Sys2Proof.Machine.execSchedulerSelect s
  | .counterWriteAtIod => Sys2Proof.Machine.execCounterWriteAtIod s
  | .fencingComplete => Sys2Proof.Machine.execFencingComplete s
  | .movingComplete => Sys2Proof.Machine.execMovingComplete s
  | .drainingComplete => Sys2Proof.Machine.execDrainingComplete s
  | .evictTimeout => Sys2Proof.Machine.execEvictTimeout s
  | .evictAbort => Sys2Proof.Machine.execEvictAbort s
  | .unlatch => Sys2Proof.Machine.execUnlatch s
  | .freezeMessage => Sys2Proof.Machine.execFreezeMessage s
  | .pldmMonitoring => Sys2Proof.Machine.execPldmMonitoring s
  | .moduleReset => Sys2Proof.Machine.execModuleReset s
  | .governorCheck => Sys2Proof.Machine.execGovernorCheck s
  | .evictRequest => Sys2Proof.Machine.execEvictRequest s
  | .scanReadOut => Sys2Proof.Machine.execScanReadOut s
  | .pldmFirmwareUpdate => Sys2Proof.Machine.execPldmFirmwareUpdate s
  | .spdmMessage => Sys2Proof.Machine.execSpdmMessage s
  | .cxlMemRequest => Sys2Proof.Machine.execCxlMemRequest s
  | .hostBar0Write => Sys2Proof.Machine.execHostBar0Write s
  | .configRegistration => Sys2Proof.Machine.execConfigRegistration s
  | .homeControllerAccess => Sys2Proof.Machine.execHomeControllerAccess s

end Sys2Proof.Machine
end

