-- ==== Sys2Proof/Machine/Fetch.lean ====
section
/-! DEFINITION. What a step runs: the instruction at a core's pc (R208, R215, R217), the slot of the pair at the head of a station's
issue queue (R104), the events that can happen, and the instruction placed where the next step fetches it. -/

namespace Sys2Proof.Machine

/-! ## Cores -/

/-- The instruction at a core's pc. Words that decode to none, and a LIMM in the last word of the store, are illegal encodings
(R215, R216, R223). -/
def State.fetchCore (s : State) (a : Agent) : Instr :=
  let pc := (s.core a).pc.toNat
  let w0 := s.coreWord a pc
  let w1 := s.coreWord a (pc + 4)
  match decode w0 w1 with
  | .ok (i, n) => if n = 2 ∧ pc = 65532 then .illegalEncoding (BitVec.ofNat 32 w0) (BitVec.ofNat 32 w1) else i
  | .error _ => .illegalEncoding (BitVec.ofNat 32 w0) (BitVec.ofNat 32 w1)

/-- Bytes of the instruction at a core's pc. -/
def State.fetchLen (s : State) (a : Agent) : Nat := if fld (s.coreWord a (s.core a).pc.toNat) 31 25 = 0x24 then 8 else 4

/-- The place of the instruction at a core's pc. -/
def State.fetchAt (s : State) (a : Agent) : Nat := istoreBase a + (s.core a).pc.toNat

/-- The registers that an instruction names, as an operand or a result. -/
def regsOf : Instr → List (GReg ⊕ VReg)
  | .limm _ i => regsOf i
  | .addR _ d a b | .subR _ d a b | .mulR _ d a b | .mulhR _ _ d a b | .divR _ _ d a b | .remR _ _ d a b | .andR _ d a b
  | .orR _ d a b | .xorR _ d a b | .andnR _ d a b | .shlR _ d a b | .shrR _ d a b | .sraR _ d a b | .minR _ _ d a b
  | .maxR _ _ d a b | .sltR _ _ d a b | .cpyMem _ d a b | .cpyAout _ d a b | .cpyAin _ d a b | .cpyTbl _ d a b
  | .qpush _ d a b | .qpop _ d a b | .eqpop _ d a b | .fread _ d a b | .shapeRequest _ d a b | .shapeQuery _ d a b
  | .rngR _ _ d a b | .wfe _ d a b | .lnkctlStatus _ d a b | .lnkctlPause _ d a b | .lnkctlResume _ d a b
  | .lnkctlRemap _ d a b | .lnkctlRetrain _ d a b | .lnkctlClear _ d a b | .amoCas _ _ _ _ d a b => [.inl d, .inl a, .inl b]
  | .addI _ d a _ | .subI _ d a _ | .mulI _ d a _ | .mulhI _ d a _ | .divI _ d a _ | .remI _ d a _ | .andI _ d a _
  | .orI _ d a _ | .xorI _ d a _ | .andnI _ d a _ | .shlI _ d a _ | .shrI _ d a _ | .sraI _ d a _ | .minI _ d a _
  | .maxI _ d a _ | .sltI _ d a _ | .bitc _ _ d a | .callR _ d a | .ld _ _ _ _ _ d a | .st _ _ _ _ d a | .amo _ _ _ _ _ d a
  | .famo _ _ _ d a | .acell _ _ _ _ _ d a | .csrr _ d a _ | .csrw _ d a _ => [.inl d, .inl a]
  | .cmpR _ _ _ a b | .fbopen _ _ a b | .pcincR _ a b | .pcsetR _ a b | .pcwaitR _ a b | .eqcfg _ a b | .eqpush _ a b
  | .fwrite _ a b | .lpatch _ a b _ | .sclone _ a b | .tlbiPage _ a b => [.inl a, .inl b]
  | .cmpI _ _ _ a _ | .jmp _ a | .ret _ a | .loopWlc _ _ a | .pfetch _ _ a | .pcincI _ a _ | .pcsetI _ a _ | .pcwaitI _ a _
  | .larm _ a | .gcfg _ a => [.inl a]
  | .loopI _ _ c _ => [.inl c]
  | .loopSet _ _ c e => [.inl c, .inl e]
  | .loopWls _ _ b | .loopWle _ _ b | .tlbiCtx _ b => [.inl b]
  | .fbadv _ _ d _ => [.inl d]
  | .vld _ _ _ d a | .vst _ _ _ d a => [.inr d, .inl a]
  | .vgath _ _ d a _ g | .vscat _ d a _ g | .vcmprs _ d a _ g => [.inr d, .inr a, .inl g]
  | .vadd _ _ _ d a b _ | .vsub _ _ _ d a b _ | .vmul _ _ _ d a b _ | .vfma _ _ _ d a b _ | .vmin _ _ _ d a b _
  | .vmax _ _ _ d a b _ | .vlogic _ _ _ d a b _ | .vsel _ d a b _ => [.inr d, .inr a, .inr b]
  | .vcmp _ _ _ _ a b _ => [.inr a, .inr b]
  | .vbcastG _ d _ g => [.inr d, .inl g]
  | .vbcastLane _ d a _ _ | .vred _ _ _ d a _ | .vcvt _ _ _ _ _ d a _ => [.inr d, .inr a]
  | .stmc _ _ _ _ n d a => .inl d :: (List.range (n.toNat + 1)).map fun i => .inl (Fin.ofNat 32 (a.val + i))
  | .tinjR _ _ _ t a b => [.inl t, .inl a, .inl b]
  | .tinjV _ _ desc a t _ => [.inl (gOf desc), .inr a, .inl (gOf t)]
  | .trcvTake _ d t | .trcvPeek _ d t => [.inl d, .inl t]
  | .trcvV _ d t _ h => [.inr d, .inl (gOf t), .inl h]
  | .rngV _ _ d k dr _ => [.inr d, .inl (gOf k), .inl (gOf dr)]
  | _ => []

/-- The register that an access on its way will write. -/
def Fly.dest (f : Fly) : Option (GReg ⊕ VReg) :=
  match f.kind with
  | .load d _ => some (.inl d)
  | .amo d .. => some (.inl d)
  | .vload d => some (.inr d)
  | .lane d _ => some (.inr d)
  | .store _ => none
  | .famo _ => none

/-- An instruction names a register that an earlier access of its core has still to write (R175). -/
def State.hazard (s : State) (a : Agent) (i : Instr) : Bool :=
  s.flying.any fun f => f.agent == a && f.dest.any (regsOf i).contains

/-- The machine when an agent issues: a step counted, the agent current, and whether a memory access of the instruction is left to be
performed later (R175; log entry 3). -/
def State.issuing (s : State) (a : Agent) (late : Bool) : State :=
  { s with steps := s.steps + 1, now := s.now + Config.stepCycles s.steps, cur := a, limm := none, late, cut := none }

/-- A running core issues its next instruction; a word of it with a double-bit error raises SRAM-ECC, and single-bit errors are
corrected (R437). An instruction that needs what an earlier access has still to bring waits. -/
def stepCore (s : State) (a : Agent) (late : Bool) : Host.Outcome State Fault Refusal :=
  let t := s.issuing a late
  if (s.core a).run ≠ .running ∨ s.hazard a (s.fetchCore a) then .next t
  else match s.localFault (s.fetchAt a) (s.fetchLen a) 0 with
    | some f => .next (t.coreFault a (s.core a).pc false f)
    | none => exec (s.fetchCore a) (t.correct a.die { space := .local_, at_ := s.fetchAt a } (s.fetchLen a))

/-! ## Stations -/

/-- The slot of the pair at the head of a station's issue queue. -/
def State.fetchStation (s : State) (n : Nat) : Option Instr :=
  match (s.stn n).issueq with
  | [] => none
  | p :: _ => (s.stn n).ctxs[p.cx.val].instr p.slot

/-- A station issues the pair at the head of its queue; with a cut, the firing stops after that many pieces or tokens (Table 05-9). -/
def stepStation (s : State) (n : Nat) (cut : Option Nat) : Host.Outcome State Fault Refusal :=
  let t := { s with steps := s.steps + 1, now := s.now + Config.stepCycles s.steps, curStn := n, late := false, cut }
  match s.fetchStation n with
  | none => .next t
  | some i => exec i t

/-! ## The events that can happen -/

/-- Indices below n. -/
def upTo {α : Type} (l : List α) : List Nat := List.range l.length

/-- Events of the stations and of the network. -/
def State.stationActs (s : State) : List Act :=
  (s.stations.map fun (n, st) =>
    (if st.issueq == [] then [] else [Act.station n, .stationPart n, .event (.xmitQueueRoom n)]) ++
    (upTo st.nodeOps).map (fun i => .event (.memoryNodeAccessPerformed n i)) ++
    ((upTo st.bg).map fun i => [Act.event (.tableBuildComplete n i), .event (.foldComplete n i)]).flatten ++
    (if st.own then [.event (.ownershipService n)] else [])).flatten ++
  (upTo s.net).map (fun i => .event (.tokenArrival i)) ++ (upTo s.xnet).map (fun i => .event (.receiveQueueArrival i)) ++
  ((upTo s.tmsgs).map fun i => [Act.event (.pupdUpdateMessage i), .event (.pupdAcknowledge i), .event (.pbindMessage i),
    .event (.pbindConfirm i)]).flatten

/-- Events of the cores, their engines and the memory system. -/
def State.coreActs (s : State) : List Act :=
  (s.cores.map fun (k, c) =>
    let a := agentOf k
    if c.run = .running then
      Act.core a :: .late a :: ((List.finRange 8).filter fun n => (c.st[n.val]).isOpen).map fun n => .event (.streamWordRead a n)
    else []).flatten ++
  (upTo s.engine).map (fun i => .event (.copyComplete i)) ++ (upTo s.conts).map (fun i => .event (.continuationDispatch i)) ++
  (s.flying.map fun f => Act.event (.memoryAccessComplete f.id)) ++
  (s.pend.map fun w => Act.event (.memoryAccessComplete w.id) :: (List.finRange 8).map fun d => .event (.dieApplyWrite d w.id)).flatten

/-- Events of the launch scheduler and the dampers. -/
def State.launchActs (s : State) : List Act :=
  (s.launches.map fun l => [Act.event (.damperQuiescence l.lid), .event (.ageCountExpiry l.lid), .event (.loadComplete l.lid),
    .event (.saveComplete l.lid), .event (.launchClose l.lid), .event (.faultStopComplete l.lid),
    .event (.barrierComplete l.lid .access), .event (.barrierComplete l.lid .drain), .event (.barrierComplete l.lid .all)]).flatten ++
  (s.scanNext.toList.map fun q => .event (.arming (some q) 0)) ++
  (if s.launches.any (·.waits) then [.event .schedulerSelect] else []) ++
  (if s.cmsgs = [] then [] else [.event .counterWriteAtIod])

/-- Events of the dies' shared units. -/
def State.dieActs (s : State) : List Act :=
  ((List.finRange 8).map fun d =>
    let x := s.die d
    (if x.armq = [] then [] else [Act.event (.arming none d.val)]) ++ (if x.rmsgs = [] then [] else [.event (.replicaApply d)]) ++
    (upTo x.eqIn).map (fun i => .event (.eqEntryAccept d i)) ++ (if x.dispatch = [] then [] else [.event (.queueDispatch d)]) ++
    (if x.preq = [] then [] else [.event (.patternRequestArrival d)]) ++ (if x.pq = [] then [] else [.event (.patternCompileComplete d)]) ++
    [.event (.scrub d)]).flatten ++
  (s.eqs.map fun (q, _) => [Act.event (.queueFireOnFill (Fin.ofNat 8 (q / 256)) (Fin.ofNat 256 q)),
    .event (.queueFireOnAge (Fin.ofNat 8 (q / 256)) (Fin.ofNat 256 q))]).flatten

/-- Events of the links and ports whose causes are in the state. -/
def State.portActs (s : State) : List Act :=
  ((List.finRange 8).map fun d => (List.finRange 4).map fun m => [Act.event (.linkRetryThreshold d m), .event (.linkTrainingComplete d m)]).flatten.flatten ++
  (if s.cxlIn = [] then [] else [.event .cxlMemRequest]) ++ (if s.barIn = [] then [] else [.event .hostBar0Write]) ++
  (if s.homeIn = [] then [] else [.event .homeControllerAccess]) ++ (if s.cfgIn = [] then [] else [.event .configRegistration]) ++
  [.event .fencingComplete, .event .movingComplete, .event .drainingComplete, .event .evictTimeout, .event .governorCheck,
    let (d, c, va) := Config.walks s.steps
    .event (.translationWalkComplete d c va)]

/-- Events of the management port. -/
def State.mgmtActs (s : State) : List Act :=
  match s.mgmtIn with
  | [] => []
  | .evict .. :: _ => [.event .evictRequest]
  | .scan .. :: _ => [.event .scanReadOut]
  | .firmware .. :: _ => [.event .pldmFirmwareUpdate]
  | .spdm .. :: _ => [.event .spdmMessage]
  | .eeprom .. :: _ => [.event .pldmMonitoring]
  | .service .. :: _ => [.event .pldmMonitoring]

/-- What the management port does while the module is frozen or an image has not been started (R397, R398). -/
def mgmtOnly : Act → Bool
  | .event .scanReadOut | .event .moduleReset | .event .pldmMonitoring | .event .pldmFirmwareUpdate | .event .spdmMessage
  | .event .freezeMessage | .event .unlatch | .event .evictRequest => true
  | _ => false

/-- What can happen next when the agenda names nothing. -/
def State.cands (s : State) : List Act :=
  (s.stationActs ++ s.coreActs ++ s.launchActs ++ s.dieActs ++ s.portActs ++ s.mgmtActs).filter fun a => !s.quietModule || mgmtOnly a

/-- The next action, and the agenda after it: the first of the agenda, else one of those that can happen, in no fixed order (R105,
R178; log entry 3). -/
def State.nextAct (s : State) : Option Act × List Act :=
  match s.agenda with
  | a :: rest => (if s.quietModule && !mgmtOnly a then none else some a, rest)
  | [] =>
    let cs := s.cands
    (cs[Config.order s.steps % cs.length]?, [])

/-- The machine after an idle moment. -/
def State.idle (s : State) : State :=
  { s with steps := s.steps + 1, now := s.now + Config.stepCycles s.steps, late := false, cut := none }

/-- An action performed. -/
def perform (s : State) : Act → Host.Outcome State Fault Refusal
  | .core a => stepCore s a false
  | .late a => stepCore s a true
  | .station n => stepStation s n none
  | .stationPart n => stepStation s n (some (1 + Config.choose s.steps))
  | .event i => exec i s.idle

/-! ## An instruction placed for the next step -/

/-- The words of an instruction, little-endian, in a core's store from its pc. -/
def State.placeWord (s : State) (a : Agent) (w : Nat) : State :=
  { s with mem := s.mem.store (istoreBase a + (s.core a).pc.toNat) (leBytes 8 w) }

/-- A station word in slot 0 of context 0 of station 0, with its pair at the head of the issue queue, for launch 0 of context 1,
which runs on core 0. Each operand is the token of one UINT8 element 0 with the tag that the slot's level asks for. -/
def State.placeStation (s : State) (w : Nat) : State :=
  let L := fld w 106 105 + 1
  let tag : DWord := setTagCtx 0 1
  let op (port : BitVec 2) : Entry := ⟨0, .normal, { (scalarTok .uint8 L tag 0) with port }, 0⟩
  let ar := fld w 111 110
  let pair : Pair := ⟨0, 0, tag, 0, 1, if 1 ≤ ar then [op 0] else [], if 2 ≤ ar then [op 1] else [], if 3 ≤ ar then [op 2] else [], 0⟩
  let c : Ctx := { tag := some 1, lid := some 0, words := [(0, BitVec.ofNat 128 w)] }
  let st : Station := { ctxs := (Vector.replicate 4 {}).set 0 c, issueq := [pair] }
  let l : Launch := { lid := 0, recno := 0, bytes := [], st := .running, cls := 0, ctx := 1, cfgid := 0, since := 0, ageAt := 0
                      dev := false, source := 0, deps := [], regions := [⟨0, 0, 1, 1⟩], placed := [⟨0, 0, 1, 1⟩] }
  { (s.setStn 0 st) with launches := [l], agenda := [.station 0] }

/-- The instruction with words w placed where a core fetches next, which then issues. -/
def State.placeCore (s : State) (a : Agent) (w : Nat) : State :=
  let t := s.setCore a { s.core a with run := .running }
  { t.placeWord a w with agenda := [.core a] }

/-- The agent that runs a placed core word: the collier for an instruction that only it may issue, else an access core. -/
def placeAgent (w : Nat) : Agent :=
  let op := fld w 31 25
  if op = 0x75 ∨ op = 0x76 ∨ op = 0x77 then ⟨.collier, 0, 0⟩ else ⟨.access, 0, 0⟩

end Sys2Proof.Machine
end

