-- ==== Sys2Proof/Machine/Step.lean ====
section
/-! DEFINITION. The step of the machine. -/

namespace Sys2Proof.Machine

/-- One step: the next action is performed. A module that has been unlatched takes no further step. -/
def step (s : State) : Host.Outcome State Fault Refusal :=
  if s.unlatched then .fault .unlatched
  else
    match s.nextAct with
    | (none, rest) => .next { s with agenda := rest }.idle
    | (some a, rest) => perform { s with agenda := rest } a

/-- An instruction of nbits bits placed where the next step fetches (log entry 9). -/
def State.withFetchWord (s : State) (nbits w : Nat) : State :=
  if 64 < nbits then s.placeStation w else s.placeCore (placeAgent w) w

end Sys2Proof.Machine
end

