-- ==== Sys2Proof/Certificates/Slice0/Obligations.lean ====
section
/-! DEFINITION. The statements about the model, from the spec's numbered rules, and the words they are written in. -/

/-! ## Vocabulary of the statements -/

namespace Sys2Proof.Claims

open Sys2Proof.Machine

/-- exec answers a next state that satisfies P. -/
def Answers (i : Instr) (s : State) (P : State → Prop) : Prop := ∃ t, exec i s = .next t ∧ P t

/-- s after its issuing core has become c and retired the instruction, with the prefix consumed and nothing else changed. -/
def afterCore (s : State) (c : Core) : State := { s.setMe (c.retire s.wordPc) with limm := none }

/-- The same core but for the count of corrected errors, which any read may move (R436). -/
def SameCore (c d : Core) : Prop := { c with ecccnt := 0 } = { d with ecccnt := 0 }

/-- Every core other than the issuing one is as it was, but for counts of corrected errors. -/
def OthersSame (s t : State) : Prop := ∀ a, agentIdx a ≠ agentIdx s.cur → SameCore (t.core a) (s.core a)

/-- Nothing has changed but cores, what agents know (R177), errors corrected (R436) and the prefix. -/
def ReadFrame (s t : State) : Prop := t = { s with cores := t.cores, know := t.know, ecc := t.ecc, limm := none }

/-- Every byte of memory outside n bytes from key k is as it was. -/
def MemFrame (s t : State) (k n : Nat) : Prop := ∀ a, a < k ∨ k + n ≤ a → t.mem.byte a = s.mem.byte a

/-- The line of a device address reads under the access's key as what was written there: it was written under that key (R162). -/
def OwnKey (s : State) (l : Loc) : Prop :=
  l.space = .dev → s.line l.key (l.at_ / 128 * 128) = s.mem.bytes (l.at_ / 128 * 128) 128

/-- An access of n bytes lies in its line at a multiple of its size. -/
def InLine (l : Loc) (n : Nat) : Prop := 1 ≤ n ∧ l.at_ % n = 0 ∧ 128 % n = 0

/-- The accesses of cores on their way are the same, but for marks that a release or fence leaves on them (R352). -/
def SameFlying (s t : State) : Prop :=
  t.flying.map (fun f => { f with ordered := false }) = s.flying.map fun f => { f with ordered := false }

/-- The engine operations are the same, but for marks that a write to a place they hold leaves on them (R340, R355). -/
def SameEngine (s t : State) : Prop := t.engine.map (fun o => { o with bad := false }) = s.engine.map fun o => { o with bad := false }

/-- Only what a write of an agent touches has changed: memory with its tags, keys and errors, the dies' views, the pending writes
and what agents know; and cores and the prefix. -/
def WriteFrame (s t : State) : Prop :=
  SameFlying s t ∧ SameEngine s t ∧
  t = { s with
    cores := t.cores, mem := t.mem, tags := t.tags, skeys := t.skeys, ecc := t.ecc, stale := t.stale, staleTags := t.staleTags
    pend := t.pend, nextW := t.nextW, nextCo := t.nextCo, know := t.know, flying := t.flying, engine := t.engine
    spoiled := t.spoiled, limm := none }

/-! ## Results of scalar instructions, computed exactly and reduced at the end (R300 to R305) -/

/-- A register value as Table 13-1 reads it: signed, or with .u unsigned. -/
def asInt (u : Bool) (x : DWord) : Int := if u then x.toNat else x.toInt

/-- trunc(t, 64). -/
def low64 (t : Int) : DWord := BitVec.ofInt 64 t

/-- DIV's result (R302). -/
def divSpec (u : Bool) (x y : DWord) : DWord :=
  if y = 0 then BitVec.allOnes 64
  else if u = false ∧ x = BitVec.intMin 64 ∧ y = BitVec.allOnes 64 then BitVec.intMin 64
  else low64 ((asInt u x).tdiv (asInt u y))

/-- REM's result (R302). -/
def remSpec (u : Bool) (x y : DWord) : DWord :=
  if y = 0 then x
  else if u = false ∧ x = BitVec.intMin 64 ∧ y = BitVec.allOnes 64 then 0
  else low64 ((asInt u x).tmod (asInt u y))

/-- Guard, destination and result of a scalar integer instruction, DIV and REM apart (Table 13-1, R303). -/
def scalarSpec (s : State) : Instr → Option (Guard × GReg × DWord)
  | .addR x d a b => some (x, d, low64 ((s.me.rg a).toInt + (s.src2 b).toInt))
  | .addI x d a i => some (x, d, low64 ((s.me.rg a).toInt + (s.immI i).toInt))
  | .subR x d a b => some (x, d, low64 ((s.me.rg a).toInt - (s.src2 b).toInt))
  | .subI x d a i => some (x, d, low64 ((s.me.rg a).toInt - (s.immI i).toInt))
  | .mulR x d a b => some (x, d, low64 ((s.me.rg a).toInt * (s.src2 b).toInt))
  | .mulI x d a i => some (x, d, low64 ((s.me.rg a).toInt * (s.immI i).toInt))
  | .mulhR x u d a b => some (x, d, low64 (asInt u (s.me.rg a) * asInt u (s.src2 b) / 2 ^ 64))
  | .mulhI x d a i => some (x, d, low64 ((s.me.rg a).toInt * (s.immI i).toInt / 2 ^ 64))
  | .andR x d a b => some (x, d, s.me.rg a &&& s.src2 b)
  | .andI x d a i => some (x, d, s.me.rg a &&& s.immI i)
  | .orR x d a b => some (x, d, s.me.rg a ||| s.src2 b)
  | .orI x d a i => some (x, d, s.me.rg a ||| s.immI i)
  | .xorR x d a b => some (x, d, s.me.rg a ^^^ s.src2 b)
  | .xorI x d a i => some (x, d, s.me.rg a ^^^ s.immI i)
  | .andnR x d a b => some (x, d, s.me.rg a &&& ~~~s.src2 b)
  | .andnI x d a i => some (x, d, s.me.rg a &&& ~~~s.immI i)
  | .shlR x d a b => some (x, d, low64 ((s.me.rg a).toNat * 2 ^ (s.src2 b).toNat))
  | .shlI x d a i => some (x, d, low64 ((s.me.rg a).toNat * 2 ^ (s.immI i).toNat))
  | .shrR x d a b => some (x, d, low64 ((s.me.rg a).toNat / 2 ^ (s.src2 b).toNat))
  | .shrI x d a i => some (x, d, low64 ((s.me.rg a).toNat / 2 ^ (s.immI i).toNat))
  | .sraR x d a b => some (x, d, low64 ((s.me.rg a).toInt / 2 ^ (s.src2 b).toNat))
  | .sraI x d a i => some (x, d, low64 ((s.me.rg a).toInt / 2 ^ (s.immI i).toNat))
  | .minR x u d a b => some (x, d, low64 (min (asInt u (s.me.rg a)) (asInt u (s.src2 b))))
  | .minI x d a i => some (x, d, low64 (min (s.me.rg a).toInt (s.immI i).toInt))
  | .maxR x u d a b => some (x, d, low64 (max (asInt u (s.me.rg a)) (asInt u (s.src2 b))))
  | .maxI x d a i => some (x, d, low64 (max (s.me.rg a).toInt (s.immI i).toInt))
  | .sltR x u d a b => some (x, d, if asInt u (s.me.rg a) < asInt u (s.src2 b) then 1 else 0)
  | .sltI x d a i => some (x, d, if (s.me.rg a).toInt < (s.immI i).toInt then 1 else 0)
  | _ => none

/-- A relation of CMP over exact readings (R304). -/
def relSpec (r : CRel) (x y : DWord) : Prop :=
  match r with
  | .eq => x.toNat = y.toNat
  | .ne => x.toNat ≠ y.toNat
  | .lt => x.toInt < y.toInt
  | .le => x.toInt ≤ y.toInt
  | .gt => y.toInt < x.toInt
  | .ge => y.toInt ≤ x.toInt
  | .ltu => x.toNat < y.toNat
  | .leu => x.toNat ≤ y.toNat
  | .gtu => y.toNat < x.toNat
  | .geu => y.toNat ≤ x.toNat

/-- Bit j of a bitwise function of Table 11-3. -/
def logicBit (f : LogicFn) (p q : Bool) : Bool :=
  match f with
  | .and => p && q
  | .or => p || q
  | .xor => p != q
  | .andn => p && !q
  | .orn => p || !q
  | .xnor => p == q

end Sys2Proof.Claims

open Sys2Proof Sys2Proof.Machine Sys2Proof.Claims

/-! ## Registers, operands and scalar instructions of cores -/

/-- R218, its register files g and p: g0 reads 0 and p0 all ones, writes to them are discarded, and a write changes its own
register alone. -/
def Obligations.RegisterFiles : Prop :=
  ∀ (c : Core) (x : DWord) (y : Word) (n k : GReg) (p q : PReg),
    c.rg 0 = 0 ∧ c.wg 0 x = c ∧ (n ≠ 0 → (c.wg n x).rg n = x) ∧ (k ≠ n → (c.wg n x).rg k = c.rg k) ∧
    c.rp 0 = BitVec.allOnes 32 ∧ c.wp 0 y = c ∧ (p ≠ 0 → (c.wp p y).rp p = y) ∧ (q ≠ p → (c.wp p y).rp q = c.rp q)

/-- R300 and R303: the scalar integer functions of Table 13-1 in R and I form, each computed exactly over the integers and reduced to 64
bits, for every operand, and BITC: the number of ones, of leading or of trailing zeros (64 for 0), or the bits in reverse, said bit by
bit. A result for g0 is discarded. Nothing but the destination, the back-edge test and the pc changes. -/
def Obligations.ScalarResults : Prop :=
  (∀ (i : Instr) (s : State) (x : Guard) (d : GReg) (r : DWord),
    scalarSpec s i = some (x, d, r) → s.me.guard x = true → exec i s = .next (afterCore s (s.me.wg d r))) ∧
  (∀ (s : State) (x : Guard) (f : BitFn) (d a : GReg), s.me.guard x = true →
    ∃ r : DWord, exec (.bitc x f d a) s = .next (afterCore s (s.me.wg d r)) ∧
      let v := s.me.rg a
      match f with
      | .popc => r.toNat = ((List.range 64).filter fun j => v.getLsbD j).length
      | .clz => r.toNat ≤ 64 ∧ (∀ j, 64 - r.toNat ≤ j → v.getLsbD j = false) ∧ (r.toNat < 64 → v.getLsbD (63 - r.toNat) = true)
      | .ctz => r.toNat ≤ 64 ∧ (∀ j, j < r.toNat → v.getLsbD j = false) ∧ (r.toNat < 64 → v.getLsbD r.toNat = true)
      | .brev => ∀ j, j < 64 → r.getLsbD j = v.getLsbD (63 - j))

/-- R302: DIV and REM in R and I form, with their edge cases. Neither raises a fault. -/
def Obligations.DivRemEdges : Prop :=
  ∀ (s : State) (x : Guard) (u : Bool) (d a b : GReg) (i : BitVec 11), s.me.guard x = true →
    exec (.divR x u d a b) s = .next (afterCore s (s.me.wg d (divSpec u (s.me.rg a) (s.src2 b)))) ∧
    exec (.remR x u d a b) s = .next (afterCore s (s.me.wg d (remSpec u (s.me.rg a) (s.src2 b)))) ∧
    exec (.divI x d a i) s = .next (afterCore s (s.me.wg d (divSpec false (s.me.rg a) (s.immI i)))) ∧
    exec (.remI x d a i) s = .next (afterCore s (s.me.wg d (remSpec false (s.me.rg a) (s.immI i))))

/-- R304, R305 and R219: CMP in R and I form writes all 32 bits of its predicate with the relation of its operands; PLOG combines whole
predicates bit by bit and moves them from and to g registers. A result for p0 or g0 is discarded. -/
def Obligations.PredicateResults : Prop :=
  ∀ (s : State) (x : Guard), s.me.guard x = true →
    (∀ r pd a b, ∃ v : Word, exec (.cmpR x r pd a b) s = .next (afterCore s (s.me.wp pd v)) ∧
      ∀ j, j < 32 → (v.getLsbD j = true ↔ relSpec r (s.me.rg a) (s.src2 b))) ∧
    (∀ r pd a i, ∃ v : Word, exec (.cmpI x r pd a i) s = .next (afterCore s (s.me.wp pd v)) ∧
      ∀ j, j < 32 → (v.getLsbD j = true ↔ relSpec r (s.me.rg a) (s.immI i))) ∧
    (∀ f pd pa pb, ∃ v : Word, exec (.plog x (.bool f pd pa pb)) s = .next (afterCore s (s.me.wp pd v)) ∧
      ∀ j, j < 32 → v.getLsbD j = logicBit f ((s.me.rp pa).getLsbD j) ((s.me.rp pb).getLsbD j)) ∧
    (∀ pd a, exec (.plog x (.fromg pd a)) s = .next (afterCore s (s.me.wp pd ((s.me.rg a).setWidth 32)))) ∧
    (∀ d pa, exec (.plog x (.tog d pa)) s = .next (afterCore s (s.me.wg d ((s.me.rp pa).setWidth 64))))

/-! ## Guards, control transfer and loops -/

namespace Sys2Proof.Claims

open Sys2Proof.Machine

/-- s after its issuing core has become c and control has gone to pc, with the prefix consumed and nothing else changed. -/
def afterJump (s : State) (c : Core) (pc : BitVec 16) : State := { s.setMe { c with pc, wait := .none } with limm := none }

/-- s after the issuing core has taken a fault at its instruction, with none of the instruction's effects. -/
def afterFault (s : State) (f : FI) : State := { s.coreFault s.cur s.me.pc s.limm.isSome f with limm := none }

/-- A register target as R306 takes it: ALIGN when its bits [1:0] are not 0, with none of the effects, else control to it. -/
def toTarget (s : State) (c : Core) (v : DWord) : State :=
  if v.toNat % 4 = 0 then afterJump s c (v.setWidth 16) else afterFault s { cls := 0x02, addr := v.toNat % 2 ^ 16 }

/-- The guard of a core instruction; of a LIMM pair, the second word's. -/
def guardOf : Instr → Option Guard
  | .addR x _ _ _ | .subR x _ _ _ | .mulR x _ _ _ | .mulhR x _ _ _ _ | .divR x _ _ _ _ | .remR x _ _ _ _ | .andR x _ _ _
  | .orR x _ _ _ | .xorR x _ _ _ | .andnR x _ _ _ | .shlR x _ _ _ | .shrR x _ _ _ | .sraR x _ _ _ | .minR x _ _ _ _
  | .maxR x _ _ _ _ | .sltR x _ _ _ _ | .addI x _ _ _ | .subI x _ _ _ | .mulI x _ _ _ | .mulhI x _ _ _ | .divI x _ _ _
  | .remI x _ _ _ | .andI x _ _ _ | .orI x _ _ _ | .xorI x _ _ _ | .andnI x _ _ _ | .shlI x _ _ _ | .shrI x _ _ _
  | .sraI x _ _ _ | .minI x _ _ _ | .maxI x _ _ _ | .sltI x _ _ _ | .bitc x _ _ _ | .cmpR x _ _ _ _ | .cmpI x _ _ _ _
  | .plog x _ | .br x _ | .jmp x _ | .callB x _ | .callR x _ _ | .ret x _ | .loopI x _ _ _ | .loopSet x _ _ _
  | .loopWlc x _ _ | .loopWls x _ _ | .loopWle x _ _ | .ld x _ _ _ _ _ _ | .st x _ _ _ _ _ | .pfetch x _ _ | .cpyMem x _ _ _
  | .cpyAout x _ _ _ | .cpyAin x _ _ _ | .cpyTbl x _ _ _ | .drainCm x | .drainTbl x | .drainAcc x | .fbopen x _ _ _
  | .fbadv x _ _ _ | .fbend x _ _ | .fbclose x _ | .vld x _ _ _ _ | .vst x _ _ _ _ | .vgath x _ _ _ _ _ | .vscat x _ _ _ _
  | .vadd x _ _ _ _ _ _ | .vsub x _ _ _ _ _ _ | .vmul x _ _ _ _ _ _ | .vfma x _ _ _ _ _ _ | .vmin x _ _ _ _ _ _
  | .vmax x _ _ _ _ _ _ | .vlogic x _ _ _ _ _ _ | .vcmp x _ _ _ _ _ _ | .vsel x _ _ _ _ | .vcmprs x _ _ _ _
  | .vbcastG x _ _ _ | .vbcastLane x _ _ _ _ | .vred x _ _ _ _ _ | .vcvt x _ _ _ _ _ _ _ | .amo x _ _ _ _ _ _
  | .famo x _ _ _ _ | .acell x _ _ _ _ _ _ | .stmc x _ _ _ _ _ _ | .fence x _ _ | .xfence x _ | .bar x _ | .pcincR x _ _
  | .pcincI x _ _ | .pcsetR x _ _ | .pcsetI x _ _ | .pcwaitR x _ _ | .pcwaitI x _ _ | .qpush x _ _ _ | .qpop x _ _ _
  | .eqcfg x _ _ | .eqpush x _ _ | .eqpop x _ _ _ | .fread x _ _ _ | .fwrite x _ _ | .lpatch x _ _ _ | .larm x _
  | .shapeRequest x _ _ _ | .shapeQuery x _ _ _ | .gcfg x _ | .tinjR x _ _ _ _ _ | .tinjV x _ _ _ _ _ | .trcvTake x _ _
  | .trcvPeek x _ _ | .trcvV x _ _ _ _ | .rngR x _ _ _ _ | .rngV x _ _ _ _ _ | .sclone x _ _ | .trap x _ | .rte x
  | .csrr x _ _ _ | .csrw x _ _ _ | .yield x | .wfe x _ _ _ | .tlbiPage x _ _ | .tlbiCtx x _ | .tlbiAll x | .freeze x
  | .lnkctlStatus x _ _ _ | .lnkctlPause x _ _ _ | .lnkctlResume x _ _ _ | .lnkctlRemap x _ _ _ | .lnkctlRetrain x _ _ _
  | .lnkctlClear x _ _ _ | .halt x | .amoCas x _ _ _ _ _ _ => some x
  | .limm _ i => guardOf i
  | _ => none

/-- The state in which the last word of an instruction acts: with its prefix, when it has one. -/
def prefixed (s : State) : Instr → State
  | .limm imm _ => { s with limm := some imm }
  | _ => s

/-- Level n of the loop registers ends at the word at pc, with iterations left (R134). -/
def loopHit (c : Core) (n : Fin 2) (pc : BitVec 16) : Prop := c.lc[n] ≠ 0 ∧ c.le[n] = pc.setWidth 64

end Sys2Proof.Claims

/-- R299: an instruction whose guard is false has no effect, whatever its operands: nothing changes but what the back-edge test of R134
writes and the pc. The second word's guard governs a LIMM pair. A core issues with no prefix left over. -/
def Obligations.FalseGuardNoEffect : Prop :=
  ∀ (i : Instr) (s : State) (x : Guard), i.wf = true → guardOf i = some x → s.limm = none → s.me.guard x = false →
    exec i s = .next (afterCore (prefixed s i) s.me)

/-- R215: the words of a LIMM pair act as one instruction: the second word's, with the prefix's immediate and the back-edge test and the
pc's advance at the second word; the pair's operands are the 36-bit and 25-bit values of R215. The scalar functions of Table 13-1 complete
so with their results, and a pair whose guard is false without effect (R299). A word that takes no prefix raises ILLEGAL at the LIMM's
address, whatever its guard: that this holds of a gs2 field that is not 0 under a false guard is the model's choice (log entry 62). -/
def Obligations.LimmPairs : Prop :=
  ∀ (s : State) (imm : BitVec 25) (i : Instr) (b : GReg) (j : BitVec 11),
    (limmWf imm i = true → exec (.limm imm i) s = exec i { s with limm := some imm }) ∧
    (∀ (x : Guard) (d : GReg) (r : DWord), limmWf imm i = true → scalarSpec { s with limm := some imm } i = some (x, d, r) →
      s.me.guard x = true → exec (.limm imm i) s = .next (afterCore { s with limm := some imm } (s.me.wg d r))) ∧
    (∀ x : Guard, limmWf imm i = true → guardOf i = some x → s.me.guard x = false →
      exec (.limm imm i) s = .next (afterCore { s with limm := some imm } s.me)) ∧
    (limmWf imm i = false → exec (.limm imm i) s = .next (afterFault { s with limm := some imm } { cls := 0x01 })) ∧
    State.src2 { s with limm := some imm } b = imm.signExtend 64 ∧
    State.immI { s with limm := some imm } j = low64 (imm.toInt * 2048 + j.toNat) ∧
    State.wordPc { s with limm := some imm } = s.me.pc + 4 ∧
    State.src2 { s with limm := none } b = s.me.rg b ∧ State.immI { s with limm := none } j = j.signExtend 64 ∧
    State.wordPc { s with limm := none } = s.me.pc

/-- R306: BR, JMP, CALL and RET when the guard is true: targets modulo 2^16, the link, a target not a multiple of 4 raising ALIGN before
anything is written, the target of CALL R read before its link is written, and no back-edge test. -/
def Obligations.ControlTransfer : Prop :=
  ∀ (s : State) (x : Guard) (off : BitVec 21) (d a : GReg), s.me.guard x = true →
    let near : BitVec 16 := BitVec.ofInt 16 (s.wordPc.toNat + 4 * off.toInt)
    let link : DWord := (s.wordPc + 4).setWidth 64
    exec (.br x off) s = .next (afterJump s s.me near) ∧
    exec (.callB x off) s = .next (afterJump s (s.me.wg 31 link) near) ∧
    exec (.jmp x a) s = .next (toTarget s s.me (s.me.rg a)) ∧
    exec (.ret x a) s = .next (toTarget s s.me (s.me.rg a)) ∧
    exec (.callR x d a) s = .next (toTarget s (s.me.wg d link) (s.me.rg a))

/-- R135, R307 and R308: the set forms of LOOP write the three registers of their level after their own back-edge test (R135); with a count of 0
they write them and go past the body instead. A misaligned end raises ALIGN before anything is written. The
wlc, wls and wle forms write one loop register after their own back-edge test, the addresses reduced to 16 bits, with ALIGN likewise. -/
def Obligations.LoopForms : Prop :=
  ∀ (s : State) (x : Guard) (n : Fin 2) (c e : GReg) (imm : BitVec 11), s.me.guard x = true →
    let put (r : Core) (le : BitVec 16) : Core :=
      { r with
        lc := r.lc.set n.val (s.me.rg c), ls := r.ls.set n.val ((s.wordPc + 4).setWidth 64)
        le := r.le.set n.val (le.setWidth 64) }
    let after (le : BitVec 16) : State :=
      if s.me.rg c = 0 then afterJump s (put s.me le) (le + 4)
      else { s.setMe (put (s.me.retire s.wordPc) le) with limm := none }
    let r := s.me.retire s.wordPc
    let v := s.src2 e
    let bad := afterFault s { cls := 0x02, addr := v.toNat % 2 ^ 16 }
    exec (.loopI x n c imm) s = .next (after (BitVec.ofInt 16 (s.wordPc.toNat + 4 + 4 * (s.immI imm).toInt))) ∧
    exec (.loopSet x n c e) s =
      .next (if (s.src2 e).toNat % 4 = 0 then after ((s.src2 e).setWidth 16)
        else afterFault s { cls := 0x02, addr := (s.src2 e).toNat % 2 ^ 16 }) ∧
    exec (.loopWlc x n e) s = .next { s.setMe { r with lc := r.lc.set n.val (s.me.rg e) } with limm := none } ∧
    exec (.loopWls x n e) s = .next (if v.toNat % 4 = 0 then
      { s.setMe { r with ls := r.ls.set n.val ((v.setWidth 16).setWidth 64) } with limm := none } else bad) ∧
    exec (.loopWle x n e) s = .next (if v.toNat % 4 = 0 then
      { s.setMe { r with le := r.le.set n.val ((v.setWidth 16).setWidth 64) } with limm := none } else bad)

/-- R134: the back-edge test at the word at pc: level 1 first; a level that ends there counts down, and control goes back while its count
is not 0; an inner loop that finishes leaves the test to the outer one; else control goes to the next word, from the last one to 0 (R217).
Nothing but one or two counts, the pc and the wait at issue changes. -/
def Obligations.BackEdgeTest : Prop :=
  ∀ (c : Core) (pc : BitVec 16),
    let inner := c.lc[1] - 1
    let outer := c.lc[0] - 1
    (loopHit c 1 pc → inner ≠ 0 →
      c.retire pc = { c with lc := c.lc.set 1 inner, pc := c.ls[1].setWidth 16, wait := .none }) ∧
    (loopHit c 1 pc → inner = 0 → loopHit c 0 pc → outer ≠ 0 →
      c.retire pc = { c with lc := (c.lc.set 1 0).set 0 outer, pc := c.ls[0].setWidth 16, wait := .none }) ∧
    (loopHit c 1 pc → inner = 0 → loopHit c 0 pc → outer = 0 →
      c.retire pc = { c with lc := (c.lc.set 1 0).set 0 0, pc := pc + 4, wait := .none }) ∧
    (loopHit c 1 pc → inner = 0 → ¬loopHit c 0 pc →
      c.retire pc = { c with lc := c.lc.set 1 0, pc := pc + 4, wait := .none }) ∧
    (¬loopHit c 1 pc → loopHit c 0 pc → outer ≠ 0 →
      c.retire pc = { c with lc := c.lc.set 0 outer, pc := c.ls[0].setWidth 16, wait := .none }) ∧
    (¬loopHit c 1 pc → loopHit c 0 pc → outer = 0 →
      c.retire pc = { c with lc := c.lc.set 0 0, pc := pc + 4, wait := .none }) ∧
    (¬loopHit c 1 pc → ¬loopHit c 0 pc → c.retire pc = { c with pc := pc + 4, wait := .none })

/-! ## Memory of cores -/

namespace Sys2Proof.Claims

open Sys2Proof.Machine

/-- Every core other than the issuing one is exactly as it was. -/
def OthersExact (s t : State) : Prop := ∀ a, agentIdx a ≠ agentIdx s.cur → t.core a = s.core a

/-- A load ends so: the issuing core becomes c and retires; other cores, memory and everything else stay, but for what reads leave
(R177, R436). -/
def Loads (s : State) (c : Core) (t : State) : Prop :=
  SameCore t.me (c.retire s.wordPc) ∧ OthersSame s t ∧ ReadFrame s t

/-- The value of n bytes as LD writes it (R310). -/
def loaded (v : LdVar) (n : Nat) (bs : List Byte) : DWord :=
  match v with
  | .sext => low64 (sext (leValue bs) (8 * n))
  | _ => BitVec.ofNat 64 (leValue bs)

/-- A store of the bytes bs at a resolved address ends so: the issuing core retires and the other cores stay; nothing else changes but
what writes touch; and, where the access lies in its line and the line was written under the same key, every byte of memory outside the
bytes stored is as before, and the bytes stored are read. -/
def Stores (s : State) (l : Loc) (bs : List Byte) (t : State) : Prop :=
  SameCore t.me (s.me.retire s.wordPc) ∧ OthersSame s t ∧ WriteFrame s t ∧
    (s.Inv → InLine l bs.length → OwnKey s l → MemFrame s t l.at_ bs.length ∧ t.home l bs.length = bs)

/-- The instruction waits at issue: nothing changes but the prefix, and it is tried again. -/
def waiting (s : State) : State := { s with limm := none }

/-- A release waits at issue while an earlier access of its core is not performed towards every agent of its scope (R175, R181): at
.dev and .sys every die applies its writes, and .sys waits for its remote writes too (R184). Core memory is reached by one die's agents. -/
def MustWait (s : State) (rel : Bool) (sc : Scope) (l : Loc) : Bool :=
  let fly := s.ownFlying (agentIdx s.cur)
  let all := s.ownPending (agentIdx s.cur)
  rel && match sc with
    | .stn => false
    | .core => s.ownLoads (agentIdx s.cur)
    | .die => fly
    | .dev => if l.space = .local_ then fly else all
    | .sys => if l.space = .local_ then fly else all || s.peerPending s.cur

/-- An access of n bytes of the issuing core may be performed now: the links it crosses are open, no earlier access of the core to
those bytes is on its way, and what comes before the writes it reads is performed (R174, R178, R391). -/
def May (s : State) (l : Loc) (n : Nat) : Bool := s.mayAccess (agentIdx s.cur) s.cur.die l n

/-- The access on its way that the issuing core leaves (R175), but for the mark a fence puts on it. -/
def flight (s : State) (k : FlyKind) (l : Loc) (n : Nat) (rel : Option Scope) : Fly :=
  { id := s.nextW, agent := s.cur, lid := s.me.lid, loc := l, n, kind := k, deps := s.before (agentIdx s.cur) rel, rel }

/-- An access issues and is to be performed later (R175): the core retires, the access is the last of those on their way, and nothing
else changes but what the core knows of its own writes. -/
def Flies (s : State) (k : FlyKind) (l : Loc) (n : Nat) (rel : Option Scope) (t : State) : Prop :=
  t.me = s.me.retire s.wordPc ∧ OthersExact s t ∧
    t.flying.map (fun f => { f with ordered := false }) =
      (s.flying ++ [flight s k l n rel]).map (fun f => { f with ordered := false }) ∧
    t = { s with cores := t.cores, know := t.know, flying := t.flying, nextW := s.nextW + 1, limm := none }

/-- The scope of a release as the access has it. -/
def relOf (rel : Bool) (sc : Scope) (l : Loc) : Option Scope :=
  if rel then some (if l.space = .local_ ∧ (sc = .dev ∨ sc = .sys) then .die else sc) else none

/-- A store of bs at a resolved address: it waits, issues to be performed later, or is performed. -/
def storesOr (s : State) (i : Instr) (rel : Bool) (sc : Scope) (l : Loc) (bs : List Byte) : Prop :=
  if MustWait s rel sc l then exec i s = .next (waiting s)
  else if s.late then Answers i s (Flies s (.store bs) l bs.length (relOf rel sc l))
  else if May s l bs.length then Answers i s (Stores s l bs)
  else exec i s = .next (waiting s)

/-- The order in which the classes of one instruction's lanes are reported (R413). -/
def laneRank (cls : Nat) : Nat :=
  match cls with
  | 0x02 => 0
  | 0x07 => 1
  | 0x03 => 2
  | 0x04 => 3
  | 0x05 => 4
  | 0x06 => 5
  | _ => 6

/-- Lane j has the fault f, and it is the one reported: no active lane has a class that comes first, nor the same class lower. -/
def FirstLane (acc : Fin 32 → Except FI Loc) (on : Fin 32 → Bool) (j : Fin 32) (f : FI) : Prop :=
  on j = true ∧ acc j = .error f ∧
    ∀ i g, on i = true → acc i = .error g → laneRank f.cls < laneRank g.cls ∨ (laneRank f.cls = laneRank g.cls ∧ j ≤ i)

/-- The accesses that active lanes leave on their way, in ascending order, 4 bytes each. -/
def LanesFly (s : State) (on : Fin 32 → Bool) (k : Fin 32 → FlyKind) (place : Fin 32 → Loc) (t : State) : Prop :=
  t.me = s.me.retire s.wordPc ∧ OthersExact s t ∧ t.flying.take s.flying.length = s.flying ∧
    (t.flying.drop s.flying.length).map (fun f => (f.agent, f.kind, f.loc, f.n, f.rel)) =
      ((List.finRange 32).filter on).map (fun j => (s.cur, k j, place j, 4, none)) ∧
    t = { s with cores := t.cores, know := t.know, flying := t.flying, nextW := t.nextW, limm := none }

/-- The bytes of 32 lanes, lane 0 lowest. -/
def laneBytes (v : Vector Word 32) : List Byte := (v.toList.map fun x => leBytes 4 x.toNat).flatten

/-- Bitmap word j of an open stream, when no memory is to be read for it: 0 past the last, else the word read ahead (R315, R317). -/
def WordReady (st : Stream) (w : Word) : Prop :=
  (st.n ≤ st.j ∧ w = 0) ∨ (st.j < st.n ∧ spFind st.words st.j.toNat = some w)

/-- A stream moved past a word (R316). -/
def movedOn (st : Stream) (w : Word) : Stream :=
  if st.j < st.n then
    { st with
      off := st.off + BitVec.ofNat 32 ((List.range 32).filter fun i => w.getLsbD i).length
      j := st.j + 1, words := spErase st.words st.j.toNat }
  else st

/-- The engine operation that a CPY hands over (R312, R313). -/
def handed (s : State) (k : EngKind) : State :=
  { s with
    engine := s.engine ++ [⟨s.nextId, s.cur, s.me.ctx, s.me.lid, s.me.pc,
      BitVec.ofNat 64 (s.coreWord s.cur s.me.pc.toNat * 2 ^ 32 +
        if s.limm.isSome then s.coreWord s.cur (s.me.pc.toNat + 4) else 0), k, [], false⟩]
    nextId := s.nextId + 1 }

/-- A locator of accumulator rows that the issuer may name, for n rows (R312): station and first row. -/
def AccRows (s : State) (v : DWord) (n : Nat) (stn row : Nat) : Prop :=
  1 ≤ n ∧ n ≤ 32 ∧ row + n ≤ 32 ∧
    (if s.cur.kind = .collier then
      ∃ core q, core < 128 ∧ q < 64 ∧ v.toNat = core * 2 ^ 11 + row * 64 + q ∧ stn = s.cur.die.val * 8192 + core * 64 + q
    else ∃ q, q < 64 ∧ v.toNat = row * 64 + q ∧ stn = s.cur.die.val * 8192 + s.cur.core.val * 64 + q)

end Sys2Proof.Claims

/-- R309, R310 and R175: LD of a place that resolves answers its bytes, little-endian, zero-extended or, with .s, sign-extended, the .fg
form the same bytes (R154); VLD a whole line, lane j from the 4 bytes at A + 4j, lowest byte first. A load that is no acquire may issue
and be performed later, and one that may not be performed yet waits at issue. On a fault of the place no register and no memory changes.
LD.meta answers the tag of the line (R160), 0 for core memory and host memory, and no data; of a place that does not resolve it raises the
fault, but for an empty key slot of the leaf, which it does not look at; then the faults are those of the walk itself (log entry 64). -/
def Obligations.LoadResults : Prop :=
  ∀ (s : State) (x : Guard) (w : BitVec 2) (acq : Bool) (sc : Scope) (d a : GReg), s.me.guard x = true →
    (∀ v : LdVar, v ≠ .metaTag →
      let n := 2 ^ w.toNat
      match s.access s.whoMe (s.addrM a) n n false (v == .fg) with
      | .ok l =>
        if s.late && !acq then Answers (.ld x v w acq sc d a) s (Flies s (.load d (v == .sext)) l n none)
        else if May s l n then
          Answers (.ld x v w acq sc d a) s (Loads s (s.me.wg d (loaded v n (s.view s.cur.die.val l n))))
        else exec (.ld x v w acq sc d a) s = .next (waiting s)
      | .error f => exec (.ld x v w acq sc d a) s = .next (afterFault s f)) ∧
    (∀ l, (s.resolve s.whoMe (s.addrM a) 1 false = .ok l ∨
        ∃ f p, s.resolve s.whoMe (s.addrM a) 1 false = .error f ∧ f.cls = 0x04 ∧
          s.page s.cur.die s.me.ctx (s.addrM a).toNat = .ok p ∧
          l = { space := .dev, at_ := p.pa + ((s.addrM a).toNat - p.va), via := p.via }) →
      if May s { l with at_ := l.at_ / 128 * 128 } 128 then
        Answers (.ld x .metaTag w acq sc d a) s
          (Loads s (s.me.wg d (if l.space = .dev then (s.viewTag s.cur.die.val l.at_).setWidth 64 else 0)))
      else exec (.ld x .metaTag w acq sc d a) s = .next (waiting s)) ∧
    (∀ f, s.resolve s.whoMe (s.addrM a) 1 false = .error f →
      (f.cls ≠ 0x04 → exec (.ld x .metaTag w acq sc d a) s = .next (afterFault s f)) ∧
      (∀ g, f.cls = 0x04 → s.page s.cur.die s.me.ctx (s.addrM a).toNat = .error g →
        exec (.ld x .metaTag w acq sc d a) s = .next (afterFault s g))) ∧
    (∀ e : VReg,
      match s.access s.whoMe (s.addrM a) 128 128 false with
      | .ok l =>
        if s.late && !acq then Answers (.vld x acq sc e a) s (Flies s (.vload e) l 128 none)
        else if May s l 128 then
          ∃ v : Vector Word 32, Answers (.vld x acq sc e a) s (Loads s (s.me.wv e v)) ∧
            ∀ j : Fin 32, v[j] = BitVec.ofNat 32 (leValue (((s.view s.cur.die.val l 128).drop (4 * j.val)).take 4))
        else exec (.vld x acq sc e a) s = .next (waiting s)
      | .error f => exec (.vld x acq sc e a) s = .next (afterFault s f))

/-- R310 and R175: ST writes the W low bytes of g[gd], little-endian, and VST the 32 lanes, where the address resolves; nothing is written
on a fault. A release waits for the core's earlier accesses; a store may issue and be performed later, and one that may not be performed
yet waits at issue. -/
def Obligations.StoreResults : Prop :=
  ∀ (s : State) (x : Guard) (rel : Bool) (sc : Scope) (a : GReg), s.me.guard x = true →
    (∀ (w : BitVec 2) (d : GReg),
      match s.access s.whoMe (s.addrM a) (2 ^ w.toNat) (2 ^ w.toNat) true with
      | .ok l => storesOr s (.st x w rel sc d a) rel sc l (leBytes (2 ^ w.toNat) (s.me.rg d).toNat)
      | .error f => exec (.st x w rel sc d a) s = .next (afterFault s f)) ∧
    (∀ d : VReg,
      match s.access s.whoMe (s.addrM a) 128 128 true with
      | .ok l => storesOr s (.vst x rel sc d a) rel sc l (laneBytes (s.me.rv d))
      | .error f => exec (.vst x rel sc d a) s = .next (afterFault s f))

/-- R311: PFETCH changes no architectural state and never faults, whatever its address. -/
def Obligations.PrefetchHasNoEffect : Prop :=
  ∀ (s : State) (x : Guard) (sc : Scope) (a : GReg), exec (.pfetch x sc a) s = .next (afterCore s s.me)

/-- R326, R175 and R413: VGATH reads each active lane at g + its offset and keeps the other lanes; VSCAT writes the active lanes in
ascending order, so that of lanes that name one place the last stays. The lanes may issue and be performed later, one by one, and wait at
issue while one of them may not be performed. When active lanes' places have faults, no lane is performed and the fault is that of the
class that comes first in R413, in the lowest lane of that class. -/
def Obligations.GatherScatter : Prop :=
  ∀ (s : State) (x : Guard) (fg : Bool) (d a : VReg) (m : PReg) (g : GReg) (place : Fin 32 → Loc), s.me.guard x = true →
    let at_ (j : Fin 32) : Int := (s.me.rg g).toNat + ((s.me.rv a)[j]).toNat
    let on (j : Fin 32) : Bool := (s.me.rp m).getLsbD j.val
    let rd (j : Fin 32) : Except FI Loc := s.access s.whoMe (at_ j) 4 4 false fg
    let wr (j : Fin 32) : Except FI Loc := s.access s.whoMe (at_ j) 4 4 true
    let may : Prop := ∀ j, on j = true → May s (place j) 4 = true
    ((∀ j, on j = true → rd j = .ok (place j)) →
      (s.late = true → Answers (.vgath x fg d a m g) s (LanesFly s on (fun j => .lane d j.val) place)) ∧
      (s.late = false → may → ∃ v : Vector Word 32, Answers (.vgath x fg d a m g) s (Loads s (s.me.wv d v)) ∧
        ∀ j : Fin 32, v[j] = if on j then BitVec.ofNat 32 (leValue (s.view s.cur.die.val (place j) 4)) else (s.me.rv d)[j]) ∧
      (s.late = false → ¬may → exec (.vgath x fg d a m g) s = .next (waiting s))) ∧
    ((∀ j, on j = true → wr j = .ok (place j)) →
      (s.late = true →
        Answers (.vscat x d a m g) s (LanesFly s on (fun j => .store (leBytes 4 ((s.me.rv d)[j]).toNat)) place)) ∧
      (s.late = false → may → Answers (.vscat x d a m g) s fun t =>
        SameCore t.me (s.me.retire s.wordPc) ∧ OthersSame s t ∧ WriteFrame s t ∧
        (s.Inv →
          (∀ j, on j = true → (place j).at_ % 4 = 0 ∧ OwnKey s (place j) ∧
            ∀ i, on i = true → (place i).space = .dev → (place j).space = .dev → (place i).key = (place j).key) → ∀ k,
          ((∀ j, on j = true → k < (place j).at_ ∨ (place j).at_ + 4 ≤ k) → t.mem.byte k = s.mem.byte k) ∧
          (∀ j, on j = true → (place j).at_ ≤ k → k < (place j).at_ + 4 →
            (∀ i, on i = true → j < i → (place i).at_ ≠ (place j).at_) →
            t.mem.byte k = BitVec.ofNat 8 (((s.me.rv d)[j]).toNat / 256 ^ (k - (place j).at_))))) ∧
      (s.late = false → ¬may → exec (.vscat x d a m g) s = .next (waiting s))) ∧
    (∀ j f, FirstLane rd on j f → exec (.vgath x fg d a m g) s = .next (afterFault s f)) ∧
    (∀ j f, FirstLane wr on j f → exec (.vscat x d a m g) s = .next (afterFault s f))

/-- R153, R312 and R314: CPY hands its copy to the core's engine and the core goes on at once; a value outside the limits raises
COPY-RANGE and nothing is copied; only colliers issue the table form. DRAIN completes when no copy that its core issued into the named
memory is outstanding, and waits at issue while one is; that of table stores also waits for a build that runs at a station its copies went
to since the last one (log entry 49). A collier's private store counts as core memory. -/
def Obligations.CopiesAndDrains : Prop :=
  ∀ (s : State) (x : Guard) (d a b : GReg), s.me.guard x = true →
    let n := (s.src2 b).toNat
    let D := s.me.rg d
    let S := s.me.rg a
    let range := afterFault s { cls := 0x08 }
    let out (p : EngKind → Prop) : Prop := ∃ e ∈ s.engine, e.agent = s.cur ∧ p e.kind
    let cm : EngKind → Prop := fun k => match k with
      | .mem dst _ _ | .aout dst _ _ _ => dst < 2 ^ 32
      | _ => False
    let tbl : EngKind → Prop := fun k => match k with | .tbl .. => True | _ => False
    let acc : EngKind → Prop := fun k => match k with | .ain .. => True | _ => False
    let waits : State := waiting s
    let stnOf (q core : Nat) : Nat := s.cur.die.val * 8192 + core * 64 + q
    let TblOk (q core e : Nat) : Prop := q < 64 ∧ core < 128 ∧ 1 ≤ n ∧ e + n ≤ 8192 ∧ D.toNat = e * 2 ^ 13 + core * 64 + q ∧ S.toNat % 4 = 0
    let builds : Prop := ∃ q ∈ s.me.fed, ∃ b ∈ (spGet {} s.stations q).bg, b.kind = .build
    (n ≤ 2 ^ 32 → exec (.cpyMem x d a b) s = .next (afterCore (handed s (.mem D.toNat S.toNat n)) s.me)) ∧
    (2 ^ 32 < n → exec (.cpyMem x d a b) s = .next range) ∧
    (∀ stn row, AccRows s S n stn row → D.toNat % 8 = 0 →
      exec (.cpyAout x d a b) s = .next (afterCore (handed s (.aout D.toNat stn row n)) s.me)) ∧
    ((¬∃ stn row, AccRows s S n stn row) ∨ D.toNat % 8 ≠ 0 → exec (.cpyAout x d a b) s = .next range) ∧
    (∀ stn row, AccRows s D n stn row → S.toNat % 8 = 0 →
      exec (.cpyAin x d a b) s = .next (afterCore (handed s (.ain stn row n S.toNat)) s.me)) ∧
    ((¬∃ stn row, AccRows s D n stn row) ∨ S.toNat % 8 ≠ 0 → exec (.cpyAin x d a b) s = .next range) ∧
    (∀ q core e, TblOk q core e → s.cur.kind = .collier →
      exec (.cpyTbl x d a b) s =
        .next (afterCore (handed s (.tbl (stnOf q core) e n S.toNat)) { s.me with fed := stnOf q core :: s.me.fed })) ∧
    ((¬∃ q core e, TblOk q core e) → s.cur.kind = .collier → exec (.cpyTbl x d a b) s = .next range) ∧
    (s.cur.kind ≠ .collier → exec (.cpyTbl x d a b) s = .next (afterFault s { cls := 0x01 })) ∧
    (¬out cm → exec (.drainCm x) s = .next (afterCore s s.me)) ∧ (out cm → exec (.drainCm x) s = .next waits) ∧
    (¬out tbl → ¬builds → exec (.drainTbl x) s = .next (afterCore s { s.me with fed := [] })) ∧
    (out tbl ∨ builds → exec (.drainTbl x) s = .next waits) ∧
    (¬out acc → exec (.drainAcc x) s = .next (afterCore s s.me)) ∧ (out acc → exec (.drainAcc x) s = .next waits)

/-- R315 to R317: FBOPEN, FBADV, FBEND and FBCLOSE over a stream register, with the value check of FBOPEN before its alignment, STREAM
on a closed stream, and an empty word past the last one. FBADV of a word that must be read raises the fault of its place, with the stream as
it was, and waits at issue while the read may not be performed. -/
def Obligations.FibreStreams : Prop :=
  ∀ (s : State) (x : Guard) (n : SReg) (d a b : GReg) (pd : PReg), s.me.guard x = true →
    let st := s.me.st[n]
    let put (c : Core) (u : Stream) : Core := { c with st := c.st.set n.val u }
    let closed := afterFault s { cls := 0x0A }
    (2 ^ 32 ≤ (s.src2 b).toNat → exec (.fbopen x n a b) s = .next (afterFault s { cls := 0x0A })) ∧
    ((s.src2 b).toNat < 2 ^ 32 → (s.me.rg a).toNat % 4 ≠ 0 →
      exec (.fbopen x n a b) s = .next (afterFault s { cls := 0x02, addr := (s.me.rg a).toNat % 2 ^ 56 })) ∧
    ((s.src2 b).toNat < 2 ^ 32 → (s.me.rg a).toNat % 4 = 0 →
      exec (.fbopen x n a b) s = .next (afterCore s (put s.me
        { base := (s.me.rg a).setWidth 56, isOpen := true, n := (s.src2 b).setWidth 32, j := 0, off := 0, words := [] }))) ∧
    (st.isOpen = false → (∀ f, exec (.fbadv x f d n) s = .next closed) ∧ exec (.fbend x pd n) s = .next closed) ∧
    (st.isOpen = true →
      exec (.fbadv x .pos d n) s = .next (afterCore s (s.me.wg d (st.j.setWidth 64))) ∧
      exec (.fbend x pd n) s = .next (afterCore s (s.me.wp pd (if st.n ≤ st.j then BitVec.allOnes 32 else 0))) ∧
      (∀ w, WordReady st w →
        exec (.fbadv x .next d n) s =
          .next (afterCore s (put (s.me.wg d (low64 (st.off.toNat * 2 ^ 32 + w.toNat))) (movedOn st w))) ∧
        exec (.fbadv x .peek d n) s =
          .next (afterCore s (put (s.me.wg d (low64 (st.off.toNat * 2 ^ 32 + w.toNat)))
            (if st.j < st.n then { st with words := spInsert st.words st.j.toNat w } else st)))) ∧
      (∀ l, st.j < st.n → spFind st.words st.j.toNat = none →
        s.access s.whoMe (st.base.toNat + 4 * st.j.toNat) 4 4 false = .ok l →
        let w : Word := BitVec.ofNat 32 (leValue (s.view s.cur.die.val l 4))
        let c := s.me.wg d (low64 (st.off.toNat * 2 ^ 32 + w.toNat))
        (May s l 4 = true → Answers (.fbadv x .next d n) s (Loads s (put c (movedOn st w))) ∧
          Answers (.fbadv x .peek d n) s (Loads s (put c { st with words := spInsert st.words st.j.toNat w }))) ∧
        (May s l 4 = false → exec (.fbadv x .next d n) s = .next (waiting s) ∧ exec (.fbadv x .peek d n) s = .next (waiting s))) ∧
      (∀ f, st.j < st.n → spFind st.words st.j.toNat = none →
        s.access s.whoMe (st.base.toNat + 4 * st.j.toNat) 4 4 false = .error f →
        exec (.fbadv x .next d n) s = .next (afterFault s f) ∧ exec (.fbadv x .peek d n) s = .next (afterFault s f))) ∧
    exec (.fbclose x n) s = .next (afterCore s (put s.me {}))

/-! ## Vectors -/

namespace Sys2Proof.Claims

open Sys2Proof.Machine

/-- Lowest and highest value of an integer lane of VADD and its like (R320). -/
def laneLo (ty : VTy) : Int := if ty = .uint32 then 0 else -2 ^ 31
/-- The highest. -/
def laneHi (ty : VTy) : Int := if ty = .uint32 then 2 ^ 32 - 1 else 2 ^ 31 - 1

/-- A lane as an integer of INT32 or UINT32 (Table 13-8). -/
def laneZ (ty : VTy) (x : Word) : Int := if ty = .uint32 then x.toNat else x.toInt

/-- The integer lane v and its flags that Table 13-9 gives for the exact result t: 0 wraps, 1 saturates and sets OF where it clamps, 2 is
the high half. -/
def IntLane (ty : VTy) (sub : Nat) (t : Int) (v : Word) (fl : Flags) : Prop :=
  match sub with
  | 1 => laneZ ty v = max (laneLo ty) (min (laneHi ty) t) ∧ fl = if t < laneLo ty ∨ laneHi ty < t then fOF else 0
  | 2 => (2 ^ 32 : Int) * laneZ ty v ≤ t ∧ t < 2 ^ 32 * (laneZ ty v + 1) ∧ fl = 0
  | _ => (laneZ ty v - t) % 2 ^ 32 = 0 ∧ fl = 0

/-- A rounding code of R319. -/
def vRm (m : FpMode) (k : Nat) : Rm :=
  if k = 1 then .rtz else if k = 2 then .rup else if k = 3 then .rdn else if k = 7 then m.dyn else .rne

/-- The value of an active lane of an elementwise vector instruction and the flags it raises (R320 to R322, R325), from the lanes of vs1,
vs2 and vd. Floats are read after the flush of R72. -/
def LaneIs (s : State) (i : Instr) (j : Fin 32) (v : Word) (fl : Flags) : Prop :=
  let m := fpMode s.me.fpctl
  let lane (r : VReg) : Word := (s.me.rv r)[j]
  let rd (f : FF) (r : VReg) : FVal := decodeF f (lane r).toNat (m.fzi f)
  let flt (r : Nat × Flags) : Prop := v = BitVec.ofNat 32 r.1 ∧ fl = r.2
  match i with
  | .vadd _ ty sub _ a b _ => match vtyFF ty with
    | none => IntLane ty sub.toNat (laneZ ty (lane a) + laneZ ty (lane b)) v fl
    | some f => flt (addF f (vRm m sub.toNat) (m.fzo f) (rd f a) (rd f b))
  | .vsub _ ty sub _ a b _ => match vtyFF ty with
    | none => IntLane ty sub.toNat (laneZ ty (lane a) - laneZ ty (lane b)) v fl
    | some f => flt (addF f (vRm m sub.toNat) (m.fzo f) (rd f a) (negF (rd f b)))
  | .vmul _ ty sub _ a b _ => match vtyFF ty with
    | none => IntLane ty sub.toNat (laneZ ty (lane a) * laneZ ty (lane b)) v fl
    | some f => flt (mulF f (vRm m sub.toNat) (m.fzo f) (rd f a) (rd f b))
  | .vfma _ ty sub d a b _ => match vtyFF ty with
    | none => IntLane ty sub.toNat (laneZ ty (lane a) * laneZ ty (lane b) + laneZ ty (lane d)) v fl
    | some f => flt (fmaF f (vRm m sub.toNat) (m.fzo f) false (rd f a) (rd f b) (rd f d))
  | .vmin _ ty sub _ a b _ => match vtyFF ty with
    | none => laneZ ty v = min (laneZ ty (lane a)) (laneZ ty (lane b)) ∧ fl = 0
    | some f => flt (encodeF f (minMaxF false (sub = 1) (rd f a) (rd f b)), 0)
  | .vmax _ ty sub _ a b _ => match vtyFF ty with
    | none => laneZ ty v = max (laneZ ty (lane a)) (laneZ ty (lane b)) ∧ fl = 0
    | some f => flt (encodeF f (minMaxF true (sub = 1) (rd f a) (rd f b)), 0)
  | .vlogic _ _ sub _ a b _ => fl = 0 ∧ ∃ f, [LogicFn.and, .or, .xor, .andn, .orn, .xnor][sub.toNat]? = some f ∧
      ∀ k, k < 32 → v.getLsbD k = logicBit f ((lane a).getLsbD k) ((lane b).getLsbD k)
  | .vbcastG _ _ _ g => v = (s.me.rg g).setWidth 32 ∧ fl = 0
  | .vbcastLane _ _ a _ k => v = (s.me.rv a)[k] ∧ fl = 0
  | .vcvt _ dty sty rnd sat _ a _ =>
    if dty = sty then v = lane a ∧ fl = 0
    else
      let x : Val := match sty, vtyFF sty with
        | _, some f => .flt (rd f a)
        | .uint32, none => .int (lane a).toNat
        | .int16, none => .int ((lane a).setWidth 16).toInt
        | .int8, none => .int ((lane a).setWidth 8).toInt
        | _, none => .int (lane a).toInt
      let r := convertTo (vtyFmt dty) (vRm m rnd.toNat) sat m x
      fl = r.2 ∧ v = match dty with
        | .int16 => (BitVec.ofNat 16 r.1).signExtend 32
        | .int8 => (BitVec.ofNat 8 r.1).signExtend 32
        | _ => BitVec.ofNat 32 r.1
  | _ => False

/-- Guard, destination and mask of an elementwise vector instruction. -/
def laneForm : Instr → Option (Guard × VReg × PReg)
  | .vadd x _ _ d _ _ m | .vsub x _ _ d _ _ m | .vmul x _ _ d _ _ m | .vfma x _ _ d _ _ m | .vmin x _ _ d _ _ m
  | .vmax x _ _ d _ _ m | .vlogic x _ _ d _ _ m | .vbcastG x d m _ | .vbcastLane x d _ m _ | .vcvt x _ _ _ _ d _ m => some (x, d, m)
  | _ => none

/-- The flags fl are those that some lane raises. -/
def Raised (fl : Flags) (fs : Fin 32 → Flags) : Prop := ∀ k, fl.getLsbD k = true ↔ ∃ j, (fs j).getLsbD k = true

/-- The active lanes of a vector under a mask, in ascending order (R323, R324). -/
def packed (mask : Word) (v : Vector Word 32) : List Word :=
  ((List.finRange 32).filter fun j => mask.getLsbD j.val).map fun j => v[j]

/-- One level of the tree of R197: neighbours combined, an odd one carried up. -/
def pairUp {α : Type} (f : α → α → α) : List α → List α
  | a :: b :: l => f a b :: pairUp f l
  | l => l

/-- The value of the tree of R197 over at most 2^n elements; none for no element. -/
def treeOf {α : Type} (f : α → α → α) : Nat → List α → Option α
  | 0, l => l.head?
  | n + 1, l => treeOf f n (pairUp f l)

end Sys2Proof.Claims

/-- R318 to R322 and R325: VADD, VSUB, VMUL, VFMA, VMIN, VMAX, VLOGIC, VBCAST and VCVT. Each active lane of vd gets its result, each
inactive lane keeps its value, sources are read before vd is written, and the flags of the active lanes are ORed into FPCTL. -/
def Obligations.VectorLanes : Prop :=
  ∀ (i : Instr) (s : State) (x : Guard) (d : VReg) (m : PReg),
    laneForm i = some (x, d, m) → i.wf = true → s.me.guard x = true →
      ∃ (v : Vector Word 32) (fl : Flags) (fs : Fin 32 → Flags),
        exec i s = .next (afterCore s ((s.me.wv d v).orFlags fl)) ∧ Raised fl fs ∧
        ∀ j : Fin 32, if (s.me.rp m).getLsbD j.val then LaneIs s i j v[j] (fs j) else v[j] = (s.me.rv d)[j] ∧ fs j = 0

/-- R321 to R324: VCMP writes one bit per lane, 0 for an inactive lane, and sets NV as FCMP does; VSEL writes every lane; VCMPRS packs
the active lanes towards lane 0, with zeros above them, and counts them; VRED combines the active lanes by the tree of R197,
int adds wrapping and float adds rounding each step by RNE, and writes the general register of vd's number: INT32 sign-extended, the
others zero-extended, 0 when no lane is active. -/
def Obligations.VectorComparesAndReductions : Prop :=
  ∀ (s : State) (x : Guard) (d a b : VReg) (pd m : PReg) (g : GReg) (ty : VTy) (sub : BitVec 3), s.me.guard x = true →
    let on (j : Fin 32) : Bool := (s.me.rp m).getLsbD j.val
    let p (j : Fin 32) : Word := (s.me.rv a)[j]
    let q (j : Fin 32) : Word := (s.me.rv b)[j]
    let l := packed (s.me.rp m) (s.me.rv a)
    ((Instr.vcmp x ty sub pd a b m).wf = true →
      ∃ (v : Word) (fl : Flags) (fs : Fin 32 → Flags), Raised fl fs ∧
        exec (.vcmp x ty sub pd a b m) s = .next (afterCore s ((s.me.wp pd v).orFlags fl)) ∧
        ∀ j : Fin 32, if on j = false then v.getLsbD j.val = false ∧ fs j = 0 else
          match vtyFF ty with
          | none => fs j = 0 ∧ (v.getLsbD j.val = true ↔ match sub.toNat with
              | 0 => laneZ ty (p j) = laneZ ty (q j)
              | 1 => laneZ ty (p j) ≠ laneZ ty (q j)
              | 2 => laneZ ty (p j) < laneZ ty (q j)
              | 3 => laneZ ty (p j) ≤ laneZ ty (q j)
              | 4 => laneZ ty (q j) < laneZ ty (p j)
              | _ => laneZ ty (q j) ≤ laneZ ty (p j))
          | some f =>
            let c := fpMode s.me.fpctl
            ∃ r, [Rel.eq, .ne, .lt, .le, .gt, .ge, .un][sub.toNat]? = some r ∧
              (v.getLsbD j.val, fs j) = cmpF r (decodeF f (p j).toNat (c.fzi f)) (decodeF f (q j).toNat (c.fzi f))) ∧
    (∃ v, exec (.vsel x d a b m) s = .next (afterCore s (s.me.wv d v)) ∧ ∀ j : Fin 32, v[j] = if on j then p j else q j) ∧
    (∃ v, exec (.vcmprs x d a m g) s = .next (afterCore s ((s.me.wv d v).wg g (BitVec.ofNat 64 l.length))) ∧
      ∀ j : Fin 32, v[j] = l.getD j.val 0) ∧
    (∀ e : VReg, (Instr.vred x ty sub e a m).wf = true →
        let g : GReg := ⟨e.val, by omega⟩
        match vtyFF ty with
        | none =>
          let op (p q : Word) : Word := match sub.toNat with
            | 0 => p + q
            | 1 => if laneZ ty p ≤ laneZ ty q then p else q
            | 2 => if laneZ ty p ≤ laneZ ty q then q else p
            | 3 => p &&& q
            | 4 => p ||| q
            | _ => p ^^^ q
          let r := (treeOf op 5 l).getD 0
          exec (.vred x ty sub e a m) s =
            .next (afterCore s (s.me.wg g (if ty = .int32 then r.signExtend 64 else r.setWidth 64)))
        | some f =>
          let c := fpMode s.me.fpctl
          let op (p q : Nat × Flags) : Nat × Flags :=
            let u := decodeF f p.1 false
            let w := decodeF f q.1 false
            let r : Nat × Flags := match sub.toNat with
              | 0 => addF f .rne (c.fzo f) u w
              | 1 => (encodeF f (minMaxF false false u w), 0)
              | _ => (encodeF f (minMaxF true false u w), 0)
            (r.1, r.2 ||| p.2 ||| q.2)
          let r := (treeOf op 5 (l.map fun v => (encodeF f (decodeF f v.toNat (c.fzi f)), 0))).getD (0, 0)
          exec (.vred x ty sub e a m) s = .next (afterCore s ((s.me.wg g (BitVec.ofNat 64 r.1)).orFlags r.2)))


/-! ## Number formats -/

namespace Sys2Proof.Claims

open Sys2Proof.Machine

/-- y = q * 2^ge in magnitude is what the mode makes of x (R73): X and G are |x| and g in units of the smaller of the two steps. -/
def RoundsTo (x : Exact) (ge : Int) (rm : Rm) (q : Nat) : Prop :=
  let e := min ge x.exp
  let X := x.mag * 2 ^ (x.exp - e).toNat
  let G := 2 ^ (ge - e).toNat
  let down := q * G ≤ X ∧ X < (q + 1) * G
  let up := X ≤ q * G ∧ q * G < X + G
  match rm with
  | .rne => 2 * X ≤ (2 * q + 1) * G ∧ 2 * q * G ≤ 2 * X + G ∧ (2 * X = (2 * q + 1) * G ∨ 2 * q * G = 2 * X + G → q % 2 = 0)
  | .rtz => down
  | .rup => if x.neg then down else up
  | .rdn => if x.neg then up else down
  | .sr z => q = X / G + if 2 ^ 16 ≤ X % G * 2 ^ 16 / G + z then 1 else 0

/-- The rounded value differs from x. -/
def Inexact (x : Exact) (ge : Int) (q : Nat) : Prop :=
  let e := min ge x.exp
  q * 2 ^ (ge - e).toNat ≠ x.mag * 2 ^ (x.exp - e).toNat

end Sys2Proof.Claims

/-- R73, R74, R260 and R261: round_fmt, for every exact x, format, mode and FZO bit: zero keeps its sign where the format has one, FZO
flushes a magnitude below 2^Emin, and otherwise the code is that of x rounded to a multiple of g in the mode, with NX, UF and OF as there,
and the overflow result of Table 03-9 at 2^(Emax + 1); and sums, products and fused products of finite operands are those of the exact
values, rounded once, with the signs of zero that R260 gives; NaNs, infinities and the invalid cases; and the order of FMIN, FMAX and the
compares, -0 below +0 for FMIN and FMAX and equal to it for compares. -/
def Obligations.FloatArithmetic : Prop :=
  (∀ (x : Exact) (f : FF) (rm : Rm) (fzo : Bool), x.sticky = false → (∀ z, rm = .sr z → z < 2 ^ 16) →
    let r := roundFmt x f rm fzo
    let zeroCode : Nat := if f = .fp32 ∧ x.neg then 2 ^ 31 else if f = .bf16 ∧ x.neg then 2 ^ 15 else 0
    let top : Int := (Nat.log2 x.mag : Int) + x.exp
    let tiny : Prop := top < f.Emin
    (x.mag = 0 → r = (zeroCode, 0)) ∧
    (x.mag ≠ 0 → fzo = true → tiny → r = (zeroCode, fUF ||| fNX)) ∧
    (x.mag ≠ 0 → ¬(fzo = true ∧ tiny) →
      let ge : Int := max top f.Emin - f.P + 1
      ∃ q, RoundsTo x ge rm q ∧
        (r.2.getLsbD 4 = true ↔ Inexact x ge q ∨ 2 ^ (f.Emax + 1 - ge).toNat ≤ q) ∧
        (r.2.getLsbD 3 = true ↔ Inexact x ge q ∧ tiny) ∧
        (r.2.getLsbD 2 = true ↔ 2 ^ (f.Emax + 1 - ge).toNat ≤ q) ∧ r.2.getLsbD 1 = false ∧ r.2.getLsbD 0 = false ∧
        (2 ^ (f.Emax + 1 - ge).toNat ≤ q →
          let inf := match rm with | .rne | .sr _ => true | .rtz => false | .rup => !x.neg | .rdn => x.neg
          decodeF f r.1 false = if f.ieee && inf then .inf x.neg else decodeF f (f.largest + if x.neg then 2 ^ (f.width - 1) else 0) false) ∧
        (q < 2 ^ (f.Emax + 1 - ge).toNat → q = 0 → r.1 = zeroCode) ∧
        (q < 2 ^ (f.Emax + 1 - ge).toNat → q ≠ 0 →
          ∃ y : Exact, decodeF f r.1 false = .num y ∧ y.neg = x.neg ∧ ge ≤ y.exp ∧ y.mag * 2 ^ (y.exp - ge).toNat = q))) ∧
  (∀ (f : FF) (rm : Rm) (fzo : Bool) (a b : Exact) (u v : Bool) (x y : FVal), a.sticky = false → b.sticky = false →
    let e := min a.exp b.exp
    let val (x : Exact) : Int := (if x.neg then -1 else 1) * (x.mag * 2 ^ (x.exp - e).toNat : Nat)
    let nan : Nat × Flags := (f.nanCode, 0)
    let bad : Nat × Flags := (f.nanCode, fNV)
    let inf (s : Bool) : Nat × Flags := (f.signed s f.infCode, 0)
    (val a + val b ≠ 0 → ∃ t : Exact, addF f rm fzo (.num a) (.num b) = roundFmt t f rm fzo ∧ t.sticky = false ∧ t.exp = e ∧
      val t = val a + val b) ∧
    (val a + val b = 0 → addF f rm fzo (.num a) (.num b) =
      (f.zero (if a.mag = 0 ∧ b.mag = 0 ∧ a.neg = b.neg then a.neg else decide (rm = .rdn)), 0)) ∧
    (∃ t : Exact, mulF f rm fzo (.num a) (.num b) = roundFmt t f rm fzo ∧ t.sticky = false ∧ t.neg = (a.neg != b.neg) ∧
      t.mag = a.mag * b.mag ∧ t.exp = a.exp + b.exp) ∧
    addF f rm fzo .nan x = nan ∧ addF f rm fzo x .nan = nan ∧ mulF f rm fzo .nan x = (f.nanCode, flagIf (f == .e2m1) fNV) ∧
    addF f rm fzo (.inf u) (.inf v) = (if u = v then inf u else bad) ∧ addF f rm fzo (.inf u) (.num a) = inf u ∧
    addF f rm fzo (.num a) (.inf u) = inf u ∧ (a.mag = 0 → mulF f rm fzo (.num a) (.inf u) = bad ∧ mulF f rm fzo (.inf u) (.num a) = bad) ∧
    fmaF f rm fzo u .nan x y = nan ∧ fmaF f rm fzo u x .nan y = nan ∧ fmaF f rm fzo u x y .nan = nan ∧
    (∃ t : Exact, t.sticky = false ∧ t.neg = ((a.neg != b.neg) != u) ∧ t.mag = a.mag * b.mag ∧ t.exp = a.exp + b.exp ∧
      ∀ c : Exact, fmaF f rm fzo u (.num a) (.num b) (.num c) = addF f rm fzo (.num t) (.num c)) ∧
    (cmpF .lt (.num a) (.num b) = (decide (val a < val b), 0)) ∧ (cmpF .eq (.num a) (.num b) = (decide (val a = val b), 0)) ∧
    (cmpF .un x y = (decide (x = .nan ∨ y = .nan), 0)) ∧ (cmpF .lt .nan x = (false, fNV)) ∧ (cmpF .eq .nan x = (false, 0)) ∧
    (minMaxF false false .nan x = x) ∧ (minMaxF false true .nan x = .nan) ∧
    (val a < val b → minMaxF false u (.num a) (.num b) = .num a ∧ minMaxF true u (.num a) (.num b) = .num b) ∧
    (a.mag = 0 → b.mag = 0 → a.neg = true → b.neg = false →
      minMaxF false u (.num a) (.num b) = .num a ∧ minMaxF false u (.num b) (.num a) = .num a ∧
      minMaxF true u (.num a) (.num b) = .num b ∧ minMaxF true u (.num b) (.num a) = .num b))


/-! ## Synchronisation of cores -/

namespace Sys2Proof.Claims

open Sys2Proof.Machine

/-- A read-modify-write at a resolved place ends so: the issuing core becomes c and retires, bs is written there, and nothing else
changes but what reads and writes touch. -/
def Updates (s : State) (l : Loc) (bs : List Byte) (c : Core) (t : State) : Prop :=
  SameCore t.me (c.retire s.wordPc) ∧ OthersSame s t ∧ WriteFrame s t ∧
    (s.Inv → InLine l bs.length → OwnKey s l → MemFrame s t l.at_ bs.length ∧ t.home l bs.length = bs)

/-- The function of AMO's code, on w-bit values (Table 10-5). -/
def amoSpec (w fn : Nat) (old x : BitVec w) : BitVec w :=
  match fn with
  | 0 => old + x
  | 1 => old &&& x
  | 2 => old ||| x
  | 3 => old ^^^ x
  | 4 => if old.toInt ≤ x.toInt then old else x
  | 5 => if old.toInt ≤ x.toInt then x else old
  | 6 => if old.toNat ≤ x.toNat then old else x
  | _ => if old.toNat ≤ x.toNat then x else old

/-- The die of a core is up to date with a place: it has applied every write of it. Core memory has one view. -/
def UpToDate (s : State) (d : Fin 8) (l : Loc) (n : Nat) : Prop :=
  l.space ≠ .local_ → ∀ w ∈ s.pend, w.todo.getLsbD d.val = true → ∀ c ∈ w.cells, c.1 < l.at_ ∨ l.at_ + n ≤ c.1

/-- Write id is not yet performed, or some die has not applied it. -/
def NotYet (s : State) (id : Nat) : Prop := (∃ f ∈ s.flying, f.id = id) ∨ ∃ w ∈ s.pend, w.id = id ∧ w.todo ≠ 0

/-- The writes that an agent has made or seen and some die has not applied (R173). -/
def Unapplied (s : State) (ak : Nat) (ids : List Nat) : Prop :=
  ∀ id, id ∈ ids ↔ (id ∈ (s.knows ak).obs ∨ ∃ e ∈ (s.knows ak).ord, e.1 = id) ∧ NotYet s id

/-- No access of the issuing core is on its way. -/
def NoneFlies (s : State) : Prop := ∀ f ∈ s.flying, agentIdx f.agent ≠ agentIdx s.cur

/-- No load of the issuing core, nor an atomic that gives it a value, is on its way. -/
def NoLoadFlies (s : State) : Prop :=
  ∀ f ∈ s.flying, agentIdx f.agent = agentIdx s.cur → match f.kind with | .store _ | .famo _ => True | _ => False

/-- No access of an agent is on its way, and no write of it waits to be applied. -/
def AllApplied (s : State) (ak : Nat) : Prop :=
  (∀ f ∈ s.flying, agentIdx f.agent ≠ ak) ∧ ∀ w ∈ s.pend, w.agent = ak → w.todo = 0

/-- No remote write of the issuing core is outstanding at a peer. -/
def PeersDone (s : State) : Prop := ∀ q ∈ s.peers.toList, ∀ w ∈ q.waiting, w.2.1 ≠ some s.cur

/-- What a release or fence of a scope waits for: the issuing core's earlier accesses are performed towards every agent of the scope
(R175, R181). -/
def Reached (s : State) (sc : Scope) : Prop :=
  match sc with
  | .stn => True
  | .core => NoLoadFlies s
  | .die => NoneFlies s
  | .dev => AllApplied s (agentIdx s.cur)
  | .sys => AllApplied s (agentIdx s.cur) ∧ PeersDone s

/-- The issuing core's accesses on their way, with the mark that a fence leaves on them (R352). -/
def marked (s : State) : List Fly :=
  s.flying.map fun f => if agentIdx f.agent = agentIdx s.cur then { f with ordered := true } else f

/-- The scope that an atomic's access has: at least its die in device memory (R183). -/
def atomScope (sc : Scope) (l : Loc) : Scope := if l.space = .dev ∧ (sc = .stn ∨ sc = .core) then .die else sc

/-- An atomic that reads n bytes may be performed now: its die is up to date with them, and the access may be performed. -/
def AtomMay (s : State) (l : Loc) (n : Nat) : Prop := UpToDate s s.cur.die l n ∧ May s l n = true

/-- The faults of a wide cell's address A (R249, R332), with wr for a write: ALIGN; WIDE-TARGET of the local window and of any place but
device memory; those of the translation and of the line. -/
def WideFault (s : State) (A : Int) (wr : Bool) (f : FI) : Prop :=
  let at_ := (A % 2 ^ 56).toNat
  if A % 32 ≠ 0 then f = { cls := 0x02, addr := at_ }
  else if 0 ≤ A ∧ A < 2 ^ 32 then f = { cls := 0x07, addr := at_ }
  else match s.resolve s.whoMe A 32 wr with
    | .error g => f = g
    | .ok l => if l.space ≠ .dev then f = { cls := 0x07, addr := at_ } else s.accessFault l 32 wr at_ = some f

/-- The place of a wide cell whose address has no fault. -/
def WideAt (s : State) (A : Int) (wr : Bool) (l : Loc) : Prop :=
  A % 32 = 0 ∧ ¬(0 ≤ A ∧ A < 2 ^ 32) ∧ s.resolve s.whoMe A 32 wr = .ok l ∧ l.space = .dev ∧
    s.accessFault l 32 wr (A % 2 ^ 56).toNat = none

/-- A replica that is local. -/
def hereOf : Replica → Option Loc
  | .here l => some l
  | _ => none

/-- The address at peer port q of a replica there. -/
def portOf (q : Nat) : Replica → Option Nat
  | .peer p A => if p = q then some A else none
  | _ => none

/-- What an STMC of bs to its replicas leaves at peer port q: for each of them there a write flit, in order, with the next
sequence numbers, which the peer is to acknowledge (R334, R389, R390). -/
def PortAfter (s : State) (rs : List Replica) (bs : List Byte) (q : Nat) (u v : Peer) : Prop :=
  let As := (rs.filterMap (portOf q)).zipIdx
  v = { u with
    out := u.out ++ As.map fun e => ⟨1, bs.length, (u.txseq + e.2) % 2 ^ 32, e.1, bs⟩
    waiting := u.waiting ++ As.map fun e => ((u.txseq + e.2) % 2 ^ 32, some s.cur, s.me.lid)
    txseq := (u.txseq + As.length) % 2 ^ 32 }

end Sys2Proof.Claims

/-- R330, R331, R175 and R183: AMO replaces the W bytes at a place, in one access, by its function of them and g[gd], and gives the old
value in g[gd], sign-extended for smin and smax; AMO.cas writes g[gd] only where the old value equals its comparand. A release waits for the
core's earlier accesses, and the access for the issuer's die to be up to date (the model's choice: log entry 18); an atomic that is no
acquire may issue and be performed later. A fault of the place changes no register and no memory. -/
def Obligations.AtomicResults : Prop :=
  ∀ (s : State) (x : Guard) (fn : BitVec 3) (dw : Bool) (ord : BitVec 2) (sc : Scope) (d a b : GReg), s.me.guard x = true →
    let n := if dw then 8 else 4
    let w := if dw then 64 else 32
    let rel := ord.getLsbD 1
    let held (l : Loc) : Bool := MustWait s rel (atomScope sc l) l
    let later (l : Loc) : Bool := s.late && !ord.getLsbD 0 && !held l
    (∀ l, s.accessRmw s.whoMe (s.addrM a) n = .ok l →
      let i : Instr := .amo x fn dw ord sc d a
      let arg := (s.me.rg d).setWidth w
      let old : BitVec w := BitVec.ofNat w (leValue (s.home l n))
      let new := amoSpec w fn.toNat old arg
      let res : DWord := if fn = 4 ∨ fn = 5 then old.signExtend 64 else old.setWidth 64
      (later l = true → Answers i s (Flies s (.amo d fn.toNat arg.toNat 0) l n (relOf rel (atomScope sc l) l))) ∧
      (later l = false → held l = true ∨ ¬AtomMay s l n → exec i s = .next (waiting s)) ∧
      (later l = false → held l = false → AtomMay s l n → Answers i s (Updates s l (leBytes n new.toNat) (s.me.wg d res)))) ∧
    (∀ f, s.accessRmw s.whoMe (s.addrM a) n = .error f → exec (.amo x fn dw ord sc d a) s = .next (afterFault s f)) ∧
    (∀ l, s.accessRmw s.whoMe (s.me.rg a).toNat n = .ok l →
      let i : Instr := .amoCas x dw ord sc d a b
      let arg := (s.me.rg d).setWidth w
      let old : BitVec w := BitVec.ofNat w (leValue (s.home l n))
      let cmp := (s.src2 b).setWidth w
      let c := s.me.wg d (old.setWidth 64)
      (later l = true → Answers i s (Flies s (.amo d 8 arg.toNat cmp.toNat) l n (relOf rel (atomScope sc l) l))) ∧
      (later l = false → ¬AtomMay s l n ∨ (old = cmp ∧ held l = true) → exec i s = .next (waiting s)) ∧
      (later l = false → AtomMay s l n → old = cmp → held l = false → Answers i s (Updates s l (leBytes n arg.toNat) c)) ∧
      (later l = false → AtomMay s l n → old ≠ cmp → Answers i s (Loads s c))) ∧
    (∀ f, s.accessRmw s.whoMe (s.me.rg a).toNat n = .error f → exec (.amoCas x dw ord sc d a b) s = .next (afterFault s f))

/-- R249, R332 and R333: FAMO and ACELL on a wide cell of device memory, aligned to 32 bytes. FAMO adds to the cell's X and sets its
status, keeping the other bytes; its release waits for the core's earlier accesses, and it may issue and be performed later. ACELL converts
the cell, with clr writes 32 zero bytes in the same access, and ORs its flags into FPCTL; it waits for its die to be up to date (the model's
choice: log entry 18). Of an address that is no wide cell both raise ALIGN, WIDE-TARGET or the fault of the access. -/
def Obligations.WideCells : Prop :=
  ∀ (s : State) (x : Guard) (rel bf clr acq : Bool) (sc : Scope) (d a : GReg), s.me.guard x = true →
    let A := s.addrM a
    let famo : Instr := .famo x rel sc d a
    let acell : Instr := .acell x bf clr acq sc d a
    (∀ l, WideAt s A true l →
      let held := MustWait s rel (atomScope sc l) l
      let word := (s.me.rg d).toNat % 2 ^ 32
      let old := s.home l 32
      let r := wideAdd (leValue (old.take 16)) (leValue ((old.drop 16).take 1)) word
      (held = true → exec famo s = .next (waiting s)) ∧
      (held = false → s.late = true → Answers famo s (Flies s (.famo word) l 32 (relOf rel (atomScope sc l) l))) ∧
      (held = false → s.late = false → May s l 32 = false → exec famo s = .next (waiting s)) ∧
      (held = false → s.late = false → May s l 32 = true → Answers famo s fun t =>
        SameCore t.me (s.me.retire s.wordPc) ∧ OthersSame s t ∧ WriteFrame s t ∧
        (s.Inv → InLine l 32 → OwnKey s l → MemFrame s t l.at_ 32 ∧
          (t.home l 32).take 17 = leBytes 16 r.1 ++ leBytes 1 r.2 ∧ (t.home l 32).drop 17 = old.drop 17))) ∧
    (∀ l, WideAt s A clr l →
      let old := s.home l 32
      let f : FF := if bf then .bf16 else .fp32
      let r := wideRead (leValue (old.take 16)) (leValue ((old.drop 16).take 1)) f ((fpMode s.me.fpctl).fzo f)
      let c := (s.me.wg d (BitVec.ofNat 64 r.1)).orFlags r.2
      (AtomMay s l 32 → clr = true → Answers acell s (Updates s l (List.replicate 32 0) c)) ∧
      (AtomMay s l 32 → clr = false → Answers acell s (Loads s c)) ∧
      (¬AtomMay s l 32 → exec acell s = .next (waiting s))) ∧
    (∀ f, WideFault s A true f → exec famo s = .next (afterFault s f)) ∧
    (∀ f, WideFault s A clr f → exec acell s = .next (afterFault s f))

/-- R184 and R334: STMC of 1 to 4 replicas, named by g[gs1] and the registers after it: of each, bits 60 to 56 tell a local address or one
of 18 peer ports, and other values raise TRANSLATION. Every address register is checked before anything is written, and the fault is that of
the class that comes first in R413, at the lowest register. A release waits for the core's earlier accesses, at .sys when a replica is
remote; the writes of one STMC are ordered before none of each other. Each local replica stores as ST does, at once or to be performed
later; each remote one sends a write flit with the next sequence number of its port, which is up, and stays outstanding. -/
def Obligations.MulticastStores : Prop :=
  ∀ (s : State) (x : Guard) (w : BitVec 2) (rel : Bool) (sc : Scope) (k : BitVec 2) (d a : GReg), s.me.guard x = true →
    let n := 2 ^ w.toNat
    let bs := leBytes n (s.me.rg d).toNat
    let i : Instr := .stmc x w rel sc k d a
    let r (j : Nat) : Except FI Replica := s.replica (s.me.rg (Fin.ofNat 32 (a.val + j))) n
    (∀ v : DWord,
      (v.toNat / 2 ^ 56 = 0 → s.replica v n = (s.access s.whoMe (v.toNat : Int) n n true).map .here) ∧
      (1 ≤ v.toNat / 2 ^ 56 → v.toNat / 2 ^ 56 ≤ 18 → s.replica v n = .ok (.peer (v.toNat / 2 ^ 56 - 1) (v.toNat % 2 ^ 56))) ∧
      (19 ≤ v.toNat / 2 ^ 56 → s.replica v n = .error { cls := 0x03, addr := v.toNat % 2 ^ 56, detail := 63 })) ∧
    (∀ j f, j ≤ k.toNat → r j = .error f →
      (∀ j' g, j' ≤ k.toNat → r j' = .error g → laneRank f.cls < laneRank g.cls ∨ (laneRank f.cls = laneRank g.cls ∧ j ≤ j')) →
      exec i s = .next (afterFault s f)) ∧
    (∀ rs, (List.range (k.toNat + 1)).map r = rs.map .ok →
      let heres := rs.filterMap hereOf
      let scope := if (∀ q ∈ rs, (hereOf q).isSome) then sc else .sys
      let held := MustWait s rel scope { space := .dev, at_ := 0 }
      let may : Prop := s.late = true ∨ ∀ l ∈ heres, May s l n = true
      (held = true ∨ ¬may → exec i s = .next (waiting s)) ∧
      (held = false → may → (∀ q : Fin 18, (∃ A, .peer q.val A ∈ rs) → s.peers[q].up = true) →
        (∀ q : Fin 18, s.peers[q].txseq < 2 ^ 32) →
        Answers i s fun t =>
          SameCore t.me (s.me.retire s.wordPc) ∧ OthersSame s t ∧ WriteFrame { s with peers := t.peers } t ∧
          (∀ q : Fin 18, PortAfter s rs bs q.val s.peers[q] t.peers[q]) ∧
          (s.late = true → t.mem = s.mem ∧ (t.flying.drop s.flying.length).map (fun f => (f.agent, f.kind, f.loc, f.n, f.rel)) =
            heres.map fun l => (s.cur, .store bs, l, n, if rel then some scope else none)) ∧
          (s.late = false → s.Inv →
            (∀ l ∈ heres, InLine l n ∧ OwnKey s l ∧ ∀ l' ∈ heres, l.space = .dev → l'.space = .dev → l'.key = l.key) →
            (∀ l ∈ heres, t.mem.bytes l.at_ n = bs) ∧
            ∀ b, (∀ l ∈ heres, b < l.at_ ∨ l.at_ + n ≤ b) → t.mem.byte b = s.mem.byte b)))

/-- R172 and R335 to R337: FENCE and XFENCE complete when the issuer's earlier accesses are performed towards every agent of the scope:
its loads at .core, all its accesses at .die, and at .dev and .sys every die has applied its writes, with .sc at these scopes those it has
seen, at .sys those outstanding at peers; XFENCE also when its engines are done and their writes applied; until then they wait at issue. They
change nothing but what the issuer's later accesses, and tokens it sends, are ordered after. A helper core that has released what it did
registers in its BAR and waits; BARRIER_COMPLETE lets every participant go on once all of them that have not halted wait in a BAR of the set,
and no earlier; the BAR then completes. A collier's raises ILLEGAL. -/
def Obligations.FencesAndBarriers : Prop :=
  (∀ (s : State) (x : Guard) (seqc : Bool) (sc : Scope), s.me.guard x = true →
    let far := sc = .dev ∨ sc = .sys
    let ak := agentIdx s.cur
    let fence : Prop := Reached s sc ∧ (far → seqc = true → Unapplied s ak [])
    let cross : Prop := (∀ e ∈ s.engine, e.agent ≠ s.cur) ∧ Reached s sc ∧ (far → AllApplied s (engKey s.cur))
    (fence → ∃ k, exec (.fence x seqc sc) s = .next (afterCore { s with know := k, flying := marked s } s.me) ∧
      (∀ id ∈ (s.knows ak).obs, (id, sc) ∈ (spGet {} k ak).ord) ∧ (∀ e ∈ (s.knows ak).ord, e ∈ (spGet {} k ak).ord)) ∧
    (¬fence → exec (.fence x seqc sc) s = .next (waiting s)) ∧
    (cross → ∃ k, exec (.xfence x sc) s = .next (afterCore { s with know := k, flying := marked s } s.me) ∧
      ∀ id ∈ (s.knows ak).obs ++ (s.knows (engKey s.cur)).obs,
        (id, sc) ∈ (spGet {} k ak).ord ∧ (id, sc) ∈ (spGet {} k (engKey s.cur)).ord) ∧
    (¬cross → exec (.xfence x sc) s = .next (waiting s))) ∧
  (∀ (s : State) (x : Guard) (set : BarSet) (lid : Nat),
    let c := s.me
    let n : Fin 3 := match set with | .access => 0 | .drain => 1 | .all => 2
    let isIn (a : Agent) (c : Core) : Prop := c.lid = some lid ∧ match set with
      | .access => a.kind = .access
      | .drain => a.kind = .drain
      | .all => a.kind ≠ .collier
    let all : Prop := (∃ k c, (k, c) ∈ s.cores ∧ isIn (agentOf k) c ∧ c.wait = .bar set false) ∧
      ∀ k c, (k, c) ∈ s.cores → isIn (agentOf k) c → c.run = .halted ∨ (c.run = .running ∧ c.wait = .bar set false)
    let free : Prop := NoneFlies s ∧ Unapplied s (agentIdx s.cur) []
    (c.guard x = true → s.cur.kind ≠ .collier → c.wait = .bar set true →
      exec (.bar x set) s = .next (afterCore s { c with bars := c.bars.set n.val (c.bars[n] + 1) })) ∧
    (c.guard x = true → s.cur.kind ≠ .collier → c.wait = .none → free →
      exec (.bar x set) s = .next { s.setMe { c with wait := .bar set false } with limm := none }) ∧
    (c.guard x = true → s.cur.kind ≠ .collier → c.wait = .none → ¬free → exec (.bar x set) s = .next (waiting s)) ∧
    (c.guard x = true → s.cur.kind = .collier → exec (.bar x set) s = .next (afterFault s { cls := 0x01 })) ∧
    (all → exec (.barrierComplete lid set) s = .next { s with cores := s.cores.map fun (k, c) =>
      (k, if c.lid = some lid ∧ c.wait = .bar set false then { c with wait := .bar set true } else c) }) ∧
    (¬all → exec (.barrierComplete lid set) s = .next s))

/-- R132, R133, R338 and R339: PCINC and PCSET send a counter write, a release of what the core did, to the IOD, once the core's earlier loads are performed; it
is performed there in the order of its core once what it releases has been applied and its die's link is open, and sent to every replica;
replicas apply values in order, across an open link, and wake waits; PCWAIT goes on when (value - threshold) mod 2^64 is below 2^63 at its die's replica and waits until then. Numbers from 16,384 on raise
COUNTER-RANGE. -/
def Obligations.ProgressCounters : Prop :=
  ∀ (s : State) (x : Guard) (a b : GReg) (i : BitVec 11),
    let c := s.me
    let k := (c.rg a).toNat
    let ak := agentIdx s.cur
    let sends (j : Instr) (add : Bool) (v : DWord) : Prop :=
      (NoLoadFlies s → ∃ ids, Unapplied s ak ids ∧ exec j s = .next (afterCore { s with cmsgs := s.cmsgs ++ [⟨ak, k, add, v, ids⟩] } c)) ∧
      (¬NoLoadFlies s → exec j s = .next (waiting s))
    let waits (j : Instr) (h : DWord) : Prop :=
      let v := spGet 0 (s.die s.cur.die).replica k
      (c.wait = .none → (v - h).toNat < 2 ^ 63 → exec j s = .next (afterCore s c)) ∧
      (c.wait = .none → 2 ^ 63 ≤ (v - h).toNat → exec j s = .next { s.setMe { c with wait := .counter k h false } with limm := none }) ∧
      (∀ k' h', c.wait = .counter k' h' true → exec j s = .next (afterCore s c)) ∧
      (∀ k' h', c.wait = .counter k' h' false → exec j s = .next (waiting s))
    (c.guard x = true → k < 16384 →
      sends (.pcincR x a b) true (s.src2 b) ∧ sends (.pcincI x a i) true (s.immI i) ∧
      sends (.pcsetR x a b) false (s.src2 b) ∧ sends (.pcsetI x a i) false (s.immI i) ∧
      waits (.pcwaitR x a b) (s.src2 b) ∧ waits (.pcwaitI x a i) (s.immI i)) ∧
    (c.guard x = true → 16384 ≤ k → ∀ j ∈ [Instr.pcincR x a b, .pcincI x a i, .pcsetR x a b, .pcsetI x a i, .pcwaitR x a b, .pcwaitI x a i],
      exec j s = .next (afterFault s { cls := 0x0B })) ∧
    (let may (i : Nat) (m : CtrMsg) : Prop :=
        s.cmsgs[i]? = some m ∧ (∀ (j : Nat) (m' : CtrMsg), j < i → s.cmsgs[j]? = some m' → m'.src ≠ m.src) ∧ (∀ id ∈ m.after, ¬NotYet s id) ∧
          (∀ d, dieOfKey m.src = some d → s.linkOpen none d = true);
      (∃ i m, may i m) → ∃ (i : Nat) (m : CtrMsg) (t : State), may i m ∧ exec .counterWriteAtIod s = .next t ∧
        let new := if m.add then spGet 0 s.counters m.k + m.value else m.value
        t = { s with
          cmsgs := s.cmsgs.eraseIdx i, counters := t.counters, launches := t.launches
          dies := s.dies.map fun d => { d with rmsgs := d.rmsgs ++ [(m.k, new)] } } ∧
        spGet 0 t.counters m.k = new ∧ ∀ k', k' ≠ m.k → spGet 0 t.counters k' = spGet 0 s.counters k') ∧
    (∀ (d : Fin 8), s.linkOpen none d.val = false → exec (.replicaApply d) s = .next s) ∧
    (∀ (d : Fin 8) k v ms, (s.die d).rmsgs = (k, v) :: ms → s.linkOpen none d.val = true →
      ∃ t, exec (.replicaApply d) s = .next t ∧ t = { s with cores := t.cores, dies := t.dies } ∧
        (∀ e, e ≠ d → t.die e = s.die e) ∧ (t.die d) = { s.die d with rmsgs := ms, replica := (t.die d).replica } ∧
        spGet 0 (t.die d).replica k = v ∧ (∀ k', k' ≠ k → spGet 0 (t.die d).replica k' = spGet 0 (s.die d).replica k') ∧
        ∀ g, t.core g = { s.core g with wait := if g.die = d then
            match (s.core g).wait with
            | .counter j h false => .counter j h (decide (j = k ∧ (v - h).toNat < 2 ^ 63))
            | .event j false => .event j (decide (j = k))
            | w => w
          else (s.core g).wait })

/-! ## Queues, futures, launches, tokens and system instructions of cores -/

namespace Sys2Proof.Claims

open Sys2Proof.Machine

/-- A device queue's descriptor at A and an entry at E, both aligned, with the descriptor's place in device memory, readable and writable,
and its 256 bits at home, which no write while an operation was outstanding has made undefined (R340, R341). -/
def DescAt (s : State) (A E : Nat) (l : Loc) (D : Nat) : Prop :=
  A % 32 = 0 ∧ E % 64 = 0 ∧ s.access s.whoMe A 32 32 true = .ok l ∧ l.space = .dev ∧
    s.accessFault l 32 false (A % 2 ^ 56) = none ∧ D = leValue (s.home l 32) ∧ ∀ k ∈ s.spoiled, k < l.at_ ∨ l.at_ + 32 ≤ k

/-- The values of a descriptor that Table 14-2 allows. -/
def DescGood (D : Nat) : Prop := fld D 255 188 = 0 ∧ fld D 131 128 ≤ 12 ∧ fld D 31 0 = 0

/-- A descriptor's home may be read and written now: the issuer's die has applied its earlier writes, and the links to it are open. -/
def HomeMay (s : State) (l : Loc) (n : Nat) : Prop := UpToDate s s.cur.die l n ∧ s.linkTo s.cur.die l = true

/-- The operation that the issuing core hands to its engine, and the places that software must leave alone meanwhile. -/
def IsOp (s : State) (k : EngKind) (holds : List (Nat × Nat)) (e : EngOp) : Prop :=
  e.id = s.nextId ∧ e.agent = s.cur ∧ e.ctx = s.me.ctx ∧ e.lid = s.me.lid ∧ e.pc = s.me.pc ∧ e.kind = k ∧ e.holds = holds ∧ e.bad = false

/-- A place some bytes further on. -/
def further (l : Loc) (n : Nat) : Loc := { l with at_ := l.at_ + n }

/-- A queue operation ends so: the issuing core becomes c, bs is written k bytes into the descriptor at l and nothing else in memory, and
the rest is handed over, with the descriptor held. -/
def Reserves (s : State) (l : Loc) (k : Nat) (bs : List Byte) (op : EngKind) (c : Core) (t : State) : Prop :=
  SameCore t.me c ∧ OthersSame s t ∧
    (∃ e : EngOp, IsOp s op [(l.at_, 32)] e ∧
      t = { s with
        cores := t.cores, mem := t.mem, tags := t.tags, skeys := t.skeys, ecc := t.ecc, stale := t.stale, staleTags := t.staleTags
        pend := t.pend, nextW := t.nextW, nextCo := t.nextCo, know := t.know, limm := none, engine := s.engine ++ [e]
        nextId := s.nextId + 1 }) ∧
    (s.Inv → InLine (further l k) bs.length → OwnKey s (further l k) →
      MemFrame s t (l.at_ + k) bs.length ∧ t.home (further l k) bs.length = bs)

/-- A configuration block whose values are those of Table 14-3. -/
def EqBlock (B : Nat) : Prop :=
  fld B 255 248 = 0 ∧ fld B 143 130 = 0 ∧ fld B 63 1 = 0 ∧ fld B 247 192 % 4096 = 0 ∧ fld B 191 160 % 128 = 0 ∧ 1 ≤ fld B 127 96 ∧
    1 ≤ fld B 95 80 ∧ fld B 95 80 ≤ 512 ∧ 1 ≤ fld B 79 64 ∧ fld B 79 64 ≤ fld B 95 80

/-- A change that a queue's state forbids (R342). -/
def EqBusy (e : EQueue) (B : Nat) : Prop :=
  ((e.entries ≠ [] ∨ e.batches ≠ [] ∨ e.held ≠ none) ∧
    (fld B 247 192 ≠ e.sbase ∨ fld B 159 144 ≠ e.recno ∨ (e.en = true ∧ bitOf B 0 = false))) ∨
  fld B 191 160 < e.spilled.length

/-- The launch of the issuing core. -/
def Mine (s : State) (l : Launch) : Prop := ∃ n, s.me.lid = some n ∧ s.launch n = some l

/-- The batch that a descriptor names is the one that the core's launch was given (R344). -/
def OwnBatch (s : State) (desc : DWord) : Prop :=
  ∃ l, Mine s l ∧ l.batch = some (fld desc.toNat 10 0, fld desc.toNat 63 32) ∧ leValue ((l.bytes.drop 64).take 8) = desc.toNat

/-- The port that a TINJ descriptor's value names is one of a slot of level L that the core's launch has placed at station p (R352). -/
def Reaches (s : State) (v : DWord) (p : BitVec 16) (L : Nat) : Prop :=
  ∃ (l : Launch) (i : Instr) (h : Head), Mine s l ∧ physOf l.placed (BitVec.ofNat 16 (fld v.toNat 21 6)) = some p ∧
    s.slotAt l.lid p.toNat (BitVec.ofNat 4 (fld v.toNat 5 2)) = some i ∧ BitVec.ofNat 2 (fld v.toNat 1 0) ∈ slotPorts i ∧
    stnHead i = some h ∧ L = h.level.toNat + 1

/-- The launch of the issuing core takes one more batch (R372): it has not taken the one it was given. -/
def TookBatch (s : State) : Bool := match s.me.lid.bind s.launch with | some l => l.batchDone | none => false

/-- Bit 4 of a launch class's detail (Table 24-1) as a number: the issuing core's launch was not armed by the host (log entry 26). -/
def devBit (s : State) : Nat := match s.me.lid.bind s.launch with | some l => if l.dev then 16 else 0 | none => 0

/-- A token of the issuing core may be sent now: what its earlier fences and releases order before it is performed (R352). -/
def TokenMay (s : State) : Prop :=
  (∀ f ∈ s.flying, agentIdx f.agent = agentIdx s.cur → f.ordered = false) ∧
    ∀ m ∈ s.cmsgs, m.src = agentIdx s.cur → ∀ id ∈ m.after, ¬NotYet s id

/-- A descriptor without reserved bits or reserved action, for a format it may carry (R352). -/
def DescOk (v : DWord) (ty : BitVec 4) (f : Fmt) : Prop :=
  fld v.toNat 63 56 = 0 ∧ fld v.toNat 31 30 = 0 ∧ fld v.toNat 23 22 ≠ 3 ∧ (ty ≠ 0xF → fld v.toNat 29 24 = 0) ∧
    fmtOfShort ty.toNat (fld v.toNat 29 24) = some f ∧ f ≠ .wide ∧ (fld v.toNat 55 48 = 0 ∨ (fmtBsi f).isSome ∨ f = .e2m1b)

/-- A core sends a token to a descriptor's destination at station p. -/
def sends (s : State) (v : DWord) (p : BitVec 16) (ts : List Token) : State :=
  { s with net := s.net ++ ts.map fun t =>
      ⟨2 ^ 24 + agentIdx s.cur, s.me.lid, { t with
        stn := p, slot := BitVec.ofNat 4 (fld v.toNat 5 2), port := BitVec.ofNat 2 (fld v.toNat 1 0)
        act := BitVec.ofNat 2 (fld v.toNat 23 22) }, none⟩ }

/-- A token of n indices at a tag with the core's context and fields deeper than its level 0. -/
def injected (c : Core) (v : DWord) (f : Fmt) (shape : Shape) (L n : Nat) (tag : DWord) (lanes : List Word) : Token :=
  { stn := 0, slot := 0, port := 0, act := 0, shape, ty := f, level := BitVec.ofNat 2 (L - 1), n
    exp := BitVec.ofNat 8 (fld v.toNat 55 48), tag := setTagCtx (cutTag tag L) c.ctx, lanes }

/-- A token on its interval, in two parts where it would cross the end of its field (R93). -/
def InParts (L : Nat) (t : Token) (ts : List Token) : Prop :=
  (tagFld t.tag L + t.n ≤ fieldSize L → ts = [t]) ∧
  (fieldSize L < tagFld t.tag L + t.n → t.shape = .run →
    let k := fieldSize L - tagFld t.tag L
    ts = [{ t with n := k }, { t with n := t.n - k, tag := setTagFld t.tag L 0 }])

/-- Lane 0 of an entry as a register value (R95, R353). -/
def received (e : Token) : DWord :=
  let x : Word := e.lanes.getD 0 0
  if e.ty = .int64 ∨ e.ty = .fp64 then (e.lanes.getD 1 0) ++ x
  else if e.ty ∈ [Fmt.int4, .int8, .int16, .int32, .bsi2, .bsi3, .bsi4, .bsi6, .bsi8, .bsi12, .bsi16] then x.signExtend 64
  else x.setWidth 64

/-- The summary of an entry (R353). -/
def summaryOf (e : Token) : DWord :=
  BitVec.ofNat 64 (e.ty.fcode * 2 ^ 24 + e.level.toNat * 2 ^ 22 + (match e.shape with | .scalar => 0 | .dense => 1 | .run => 2) * 2 ^ 20
    + e.ty.short * 2 ^ 16 + (e.n - 1) % 2 ^ 16)

/-- The core after handler entry for a fault at its pc (R415, R416). -/
def entered (s : State) (f : FI) : Core :=
  let c := s.me
  let kind := match s.cur.kind with | .access => 1 | .drain => 2 | .collier => 3
  { c with
    faultrec := BitVec.ofNat 64 ((s.cur.die.val * 2 ^ 13 + (if s.cur.kind = .collier then 0 else s.cur.core.val * 2 ^ 6)) * 2 ^ 48
      + kind * 2 ^ 46 + f.cls * 2 ^ 32 + c.ctx.toNat * 2 ^ 24 + f.code * 2 ^ 14)
    faddr := BitVec.ofNat 64 f.addr
    epc := BitVec.ofNat 64 (c.pc.toNat / 4 * 4 + if f.cls = 0x10 then 1 else 0)
    trapbase := c.trapbase ||| 2
    pc := c.trapbase.setWidth 16 &&& 0xFFFC
    wait := .none }

/-- The classes of route H of a core's faults (Table 22-1). -/
def classesH : List Nat :=
  [0x01, 0x02, 0x03, 0x04, 0x05, 0x07, 0x08, 0x0A, 0x0B, 0x0C, 0x0D, 0x0E, 0x10, 0x11, 0x12, 0x13, 0x14, 0x15, 0x16, 0x17, 0x18, 0x19, 0x1B]

/-- The fault enters the core's handler (R414, R416, R418). -/
def Handles (s : State) (f : FI) : Prop :=
  s.me.trapbase.getLsbD 0 = true ∧ s.me.trapbase.getLsbD 1 = false ∧
    (s.cur.kind = .collier → ¬(f.cls = 0x29 ∧ f.detail % 16 = 7)) ∧ (s.cur.kind ≠ .collier → f.cls ∈ classesH)

/-- The values of a record of a core's fault (R421). -/
def RecordOf (s : State) (f : FI) (r : FRec) : Prop :=
  r.cls.toNat = f.cls ∧ r.addr.toNat = f.addr ∧ r.pc = s.me.pc ∧ r.nidx = 1 ∧ r.ctx = s.me.ctx ∧ r.code.toNat = f.code ∧
    r.detail.toNat = f.detail + (if s.me.trapbase.getLsbD 1 then 2 ^ 15 else 0) ∧
    r.lid = (match s.me.lid with | some n => BitVec.ofNat 16 n | none => 0xFFFF)

/-- A CSR that reads the same bits as the field that holds it, or WHOAMI (Table 14-7). -/
def csrSpec (s : State) (n : Nat) : Option DWord :=
  let c := s.me
  let col := s.cur.kind = .collier
  match n with
  | 0x001 => some c.fpctl
  | 0x002 => some c.ctxid
  | 0x010 => some c.trapbase
  | 0x011 => some c.faultrec
  | 0x012 => some c.epc
  | 0x013 => some c.faddr
  | 0x021 => some (BitVec.ofNat 64 (s.cur.die.val * 512 + match s.cur.kind with
    | .access => s.cur.core.val * 4
    | .drain => s.cur.core.val * 4 + 1
    | .collier => 2))
  | 0x800 => if col then some c.fqbase else none
  | 0x801 => if col then some c.fqhead else none
  | 0x802 => if col then some c.fqtail else none
  | 0x803 => if col then some 0 else none
  | 0x804 => if col then some c.pairsvc else none
  | 0x805 => if col then some c.wsel else none
  | 0x807 => if col then some c.ecccnt else none
  | 0x808 => if col then some c.lcancel else none
  | _ => none

/-- The status word of LNKCTL (R360). -/
def statusOf (u : Ucie) : DWord :=
  BitVec.ofNat 64 (u.retries % 2 ^ 16 + (if u.paused then 2 ^ 16 else 0) + (if u.training = none then 0 else 2 ^ 17) + u.lanes * 2 ^ 18)

/-- The events that WFE's mask selects and that are there (R359). -/
def eventsOf (s : State) : Nat :=
  (if s.me.rq = [] then 0 else 1) + (match s.me.wait with | .event _ true => 2 | _ => 0) +
    (if s.cur.kind = .collier ∧ (s.me.fqCount ≠ 0 ∨ (s.stations.any fun (n, st) => st.own && decide (n / 8192 % 8 = s.cur.die.val)) = true) then 4 else 0)

end Sys2Proof.Claims

/-- R340 and R341: QPUSH and QPOP at their descriptor's home. A full queue answers 1 and an empty one 0, with no other effect; else the index
moves on in memory and the entry's copy is handed over, QPUSH going on with 0 and QPOP waiting until its copy is complete; QPOP waits while
its slot is unpublished. Both wait for their die to be up to date (the model's choice: log entry 18). Operands that are not aligned raise
ALIGN, the descriptor's first; then the faults of its place; then a place outside device memory, or values outside Table 14-2,
QUEUE-DESC. -/
def Obligations.DeviceQueues : Prop :=
  ∀ (s : State) (x : Guard) (d a b : GReg) (l : Loc) (D : Nat), s.me.guard x = true →
    let A := (s.me.rg a).toNat
    let E := (s.src2 b).toNat
    let size := 16 * 2 ^ fld D 131 128
    let pub := fld D 127 96
    let tail := fld D 95 64
    let head := fld D 63 32
    let slot (i : Nat) : Nat := fld D 187 132 + 64 * (i % size)
    let push : Instr := .qpush x d a b
    let pop : Instr := .qpop x d a b
    let both (f : FI) : Prop := exec push s = .next (afterFault s f) ∧ (s.me.wait = .none → exec pop s = .next (afterFault s f))
    (DescAt s A E l D → DescGood D → HomeMay s l 32 →
      (size ≤ (tail + 2 ^ 32 - head) % 2 ^ 32 → exec push s = .next (afterCore s (s.me.wg d 1))) ∧
      ((tail + 2 ^ 32 - head) % 2 ^ 32 < size →
        Answers push s (Reserves s l 8 (leBytes 4 ((tail + 1) % 2 ^ 32)) (.qpush A (slot tail) E tail false)
          ((s.me.wg d 0).retire s.wordPc))) ∧
      (s.me.wait = .none → head = tail → exec pop s = .next (afterCore s (s.me.wg d 0))) ∧
      (s.me.wait = .none → head ≠ tail → head = pub → exec pop s = .next (waiting s)) ∧
      (s.me.wait = .none → head ≠ tail → head ≠ pub →
        Answers pop s (Reserves s l 4 (leBytes 4 ((head + 1) % 2 ^ 32)) (.qpop A (slot head) E)
          { s.me with wait := .engine s.nextId none }))) ∧
    (DescAt s A E l D → DescGood D → ¬HomeMay s l 32 →
      exec push s = .next (waiting s) ∧ (s.me.wait = .none → exec pop s = .next (waiting s))) ∧
    (∀ i v, s.me.wait = .engine i (some v) → exec pop s = .next (afterCore s (s.me.wg d v))) ∧
    (∀ i, s.me.wait = .engine i none → exec pop s = .next (waiting s)) ∧
    (A % 32 ≠ 0 → both { cls := 0x02, addr := A % 2 ^ 56 }) ∧
    (A % 32 = 0 → E % 64 ≠ 0 → both { cls := 0x02, addr := E % 2 ^ 56 }) ∧
    (∀ f, A % 32 = 0 → E % 64 = 0 → s.access s.whoMe A 32 32 true = .error f → both f) ∧
    (A % 32 = 0 → E % 64 = 0 → s.access s.whoMe A 32 32 true = .ok l → l.space ≠ .dev → both { cls := 0x0C }) ∧
    (DescAt s A E l D → ¬DescGood D → both { cls := 0x0C })

/-- R342 to R344: EQCFG, once the core's earlier accesses are performed at .dev, reads its block, refuses values outside Table 14-3 and
changes that the queue's state forbids, and else applies it;
EQPUSH hands its entry over; EQPOP takes the batch that its launch was given once and waits for its copy, and answers 0 afterwards. -/
def Obligations.ExpertQueueInstructions : Prop :=
  ∀ (s : State) (x : Guard) (d a b : GReg), s.me.guard x = true →
    let q := (s.me.rg a).toNat
    let A := (s.src2 b).toNat
    let misaligned : FI := { cls := 0x02, addr := A % 2 ^ 56 }
    (2048 ≤ q → exec (.eqcfg x a b) s = .next (afterFault s { cls := 0x16 }) ∧
      exec (.eqpush x a b) s = .next (afterFault s { cls := 0x16 })) ∧
    (q < 2048 → A % 32 ≠ 0 → exec (.eqpush x a b) s = .next (afterFault s misaligned)) ∧
    (q < 2048 → A % 32 = 0 → exec (.eqpush x a b) s = .next (afterCore (handed s (.eqpush q A)) s.me)) ∧
    (∀ f, q < 2048 → s.access s.whoMe A 32 32 false = .error f → exec (.eqcfg x a b) s = .next (afterFault s f)) ∧
    (∀ l, q < 2048 → s.access s.whoMe A 32 32 false = .ok l →
      let B := leValue (s.view s.cur.die.val l 32)
      let e := s.eq q
      let may : Prop := Reached s .dev ∧ May s l 32 = true
      (¬may → exec (.eqcfg x a b) s = .next (waiting s)) ∧
      (may → ¬EqBlock B → exec (.eqcfg x a b) s = .next (afterFault s { cls := 0x17 })) ∧
      (may → EqBlock B → EqBusy e B → exec (.eqcfg x a b) s = .next (afterFault s { cls := 0x18 })) ∧
      (may → EqBlock B → ¬EqBusy e B → e.held = none → (fld B 191 160 = e.scap ∨ e.spilled = []) → Answers (.eqcfg x a b) s fun t =>
        SameCore t.me (s.me.retire s.wordPc) ∧ OthersSame s t ∧
        t = { s with cores := t.cores, know := t.know, ecc := t.ecc, eqs := t.eqs, limm := none } ∧ (∀ k, k ≠ q → t.eq k = s.eq k) ∧
        t.eq q = { e with
          en := bitOf B 0, sbase := fld B 247 192, scap := fld B 191 160, recno := fld B 159 144, cls := fld B 129 128
          age := fld B 127 96, maxb := fld B 95 80, fill := fld B 79 64, stuck := false, spillNext := (t.eq q).spillNext
          ctx := if bitOf B 0 = false then 0 else if e.en then e.ctx else s.me.ctx
          bseq := if bitOf B 0 = true ∧ e.en = false then 0 else e.bseq })) ∧
    (let desc := s.me.rg a
     let q := fld desc.toNat 10 0
     let bseq := fld desc.toNat 63 32
     let e := s.eq q
     let free (y : EqBatch) : Bool := decide (y.bseq = bseq) && !y.taking && !TookBatch s
     (s.cur.kind = .collier → exec (.eqpop x d a b) s = .next (afterFault s { cls := 0x01 })) ∧
     (s.cur.kind ≠ .collier → s.me.wait = .none →
      (¬OwnBatch s desc → exec (.eqpop x d a b) s = .next (afterFault s { cls := 0x19 })) ∧
      (OwnBatch s desc → A % 32 ≠ 0 → exec (.eqpop x d a b) s = .next (afterFault s misaligned)) ∧
      (OwnBatch s desc → A % 32 = 0 → e.batches.find? free = none → exec (.eqpop x d a b) s = .next (afterCore s (s.me.wg d 0))) ∧
      (∀ y, OwnBatch s desc → A % 32 = 0 → e.batches.find? free = some y →
        let taken : EQueue := { e with batches := e.batches.map fun z => if z.bseq = bseq then { z with taking := true } else z }
        exec (.eqpop x d a b) s = .next { (handed (s.setEq q taken) (.eqpop q bseq y.count A)).setMe
          { s.me with wait := .engine s.nextId none } with limm := none })) ∧
     (∀ i v, s.cur.kind ≠ .collier → s.me.wait = .engine i (some v) → exec (.eqpop x d a b) s = .next (afterCore s (s.me.wg d v))) ∧
     (∀ i, s.cur.kind ≠ .collier → s.me.wait = .engine i none → exec (.eqpop x d a b) s = .next (waiting s)))

/-- R345 to R347: FREAD of a full future gives its value and sets the guard's predicate; of an empty one it clears the predicate and, given
a record, checks it, writes it and links it at the head. FWRITE fills an empty future, once the core's earlier accesses have been performed,
and starts the walk over its list; CONTINUATION_DISPATCH carries one record out, an arming or an INT64 scalar. A full future raises
FUTURE-FULL at FWRITE, and nothing is linked on a fault. That an access waits for the issuer's die to be up to date is the model's choice (log
entry 18), as is the head link that a filled future keeps (log entry 25), and the place where the context of a record's reader is kept (log
entry 16). -/
def Obligations.Futures : Prop :=
  ∀ (s : State) (x : Guard) (d a b : GReg) (l : Loc),
    let A := (s.me.rg a).toNat
    let R := (s.src2 b).toNat
    let F := leValue (s.home l 16)
    let fread : Instr := .fread x d a b
    let fwrite : Instr := .fwrite x a b
    (s.me.guard x = true → s.access s.whoMe A 16 16 false = .ok l →
      (¬AtomMay s l 16 → exec fread s = .next (waiting s)) ∧
      (AtomMay s l 16 → bitOf F 127 = true →
        Answers fread s (Loads s ((s.me.wg d (BitVec.ofNat 64 F)).wp x.p (BitVec.allOnes 32)))) ∧
      (AtomMay s l 16 → bitOf F 127 = false → R = 0 → Answers fread s (Loads s (s.me.wp x.p 0))) ∧
      (AtomMay s l 16 → bitOf F 127 = false → R ≠ 0 →
        (∀ f, s.access s.whoMe R 32 32 true = .error f → exec fread s = .next (afterFault s f)) ∧
        (∀ r, s.access s.whoMe R 32 32 true = .ok r → s.accessFault r 32 false R = none →
          (∀ f, s.checkRecord (s.home r 32) = .error f → exec fread s = .next (afterFault s f)) ∧
          (∀ bs, s.checkRecord (s.home r 32) = .ok bs → s.access s.whoMe A 16 16 true = .ok l → Answers fread s fun t =>
            SameCore t.me ((s.me.wp x.p 0).retire s.wordPc) ∧ OthersSame s t ∧ WriteFrame { s with readers := t.readers } t ∧
            t.readers = spInsert s.readers r.at_ s.me.ctx ∧
            (s.Inv → InLine r 32 → InLine l 16 → OwnKey s r → OwnKey s l → (r.at_ + 32 ≤ l.at_ ∨ l.at_ + 16 ≤ r.at_) →
              (r.space = .dev → l.space = .dev → r.key = l.key) →
              t.mem.bytes r.at_ 32 = leBytes 7 (fld F 119 64) ++ bs.drop 7 ∧ t.mem.bytes (l.at_ + 8) 7 = leBytes 7 R ∧
              ∀ k, (k < r.at_ ∨ r.at_ + 32 ≤ k) → (k < l.at_ + 8 ∨ l.at_ + 15 ≤ k) → t.mem.byte k = s.mem.byte k))))) ∧
    (∀ f, s.me.guard x = true → s.access s.whoMe A 16 16 false = .error f → exec fread s = .next (afterFault s f)) ∧
    (s.me.guard x = true → s.access s.whoMe A 16 16 true = .ok l → s.accessFault l 16 false A = none →
      (¬AtomMay s l 16 → exec fwrite s = .next (waiting s)) ∧
      (AtomMay s l 16 → bitOf F 127 = true → exec fwrite s = .next (afterFault s { cls := 0x11 })) ∧
      (AtomMay s l 16 → bitOf F 127 = false → ¬Reached s .dev → exec fwrite s = .next (waiting s)) ∧
      (AtomMay s l 16 → bitOf F 127 = false → Reached s .dev → Answers fwrite s fun t =>
        SameCore t.me (s.me.retire s.wordPc) ∧ OthersSame s t ∧ WriteFrame { s with conts := t.conts } t ∧
        (fld F 119 64 = 0 → t.conts = s.conts) ∧
        (fld F 119 64 ≠ 0 → ∃ k : Cont, t.conts = s.conts ++ [k] ∧ k.agent = s.cur ∧ k.ctx = s.me.ctx ∧ k.lid = s.me.lid ∧ k.pc = s.me.pc ∧
          k.addr = fld F 119 64 ∧ k.value = s.src2 b) ∧
        (s.Inv → InLine l 16 → OwnKey s l → MemFrame s t l.at_ 16 ∧
          t.home l 16 = leBytes 8 R ++ leBytes 8 (F / 2 ^ 64 % 2 ^ 56 + 2 ^ 63)))) ∧
    (∀ f, s.me.guard x = true → s.access s.whoMe A 16 16 true = .error f → exec fwrite s = .next (afterFault s f)) ∧
    (∀ (n : Nat) (k : Cont), s.conts[n]? = some k →
      let ready : Prop := (∀ id ∈ k.after, ¬NotYet s id) ∧ s.engOpen k.op k.addr 32 false = true
      (¬ready → exec (.continuationDispatch n) s = .next s) ∧
      (ready → s.access k.op.who k.addr 32 32 false = .ok l →
      let r := leValue (s.view k.agent.die.val l 32)
      let goes (t : State) : Prop := if fld r 55 0 = 0 then t.conts = listRemove n s.conts
        else t.conts = listModify (fun k => { k with addr := fld r 55 0 }) n s.conts
      (fld r 159 158 = 0 → Answers (.continuationDispatch n) s fun t => goes t ∧
        (t.die k.agent.die).armq = (s.die k.agent.die).armq ++ [⟨fld r 143 128, some k.value, k.ctx, none, none, []⟩] ∧
        t.net = s.net ∧ t.mem = s.mem) ∧
      (fld r 159 158 = 1 → Answers (.continuationDispatch n) s fun t => goes t ∧ t.dies = s.dies ∧ t.mem = s.mem ∧
        let ctx := (spFind s.readers l.at_).getD k.ctx
        let L := s.slotLevel (fld r 149 134) ctx (BitVec.ofNat 4 (fld r 133 130))
        ∃ g : Flight, t.net = s.net ++ [g] ∧ g.tok.stn = BitVec.ofNat 16 (fld r 149 134) ∧ g.tok.slot = BitVec.ofNat 4 (fld r 133 130) ∧
          g.tok.port = BitVec.ofNat 2 (fld r 129 128) ∧ g.tok.act = 0 ∧ g.tok.shape = .scalar ∧ g.tok.ty = .int64 ∧ g.tok.n = 1 ∧
          g.tok.lanes = [k.value.setWidth 32, (k.value >>> 32).setWidth 32] ∧ g.tok.level.toNat + 1 = L ∧
          g.tok.tag = cutTag (setTagCtx (BitVec.ofNat 64 (fld r 127 64)) ctx) L)))

/-- R348 to R351: LPATCH writes an argument of an idle record of its context; LARM puts a request in its die's arm queue and completes with
the scheduler's answer; SHAPE answers a region's shape and asks for another; GCFG waits until its core's new configuration is loaded.
A request of SHAPE above 8 bits has a free answer (the model's choice: log entry 35), a query leaves the shape as it is (log entry 15), and
the details of LAUNCH-RECORD for a number outside the pool and for an operand of GCFG above 32 bits are the model's reading (log entry 26). -/
def Obligations.LaunchControl : Prop :=
  ∀ (s : State) (x : Guard) (d a b : GReg) (u : BitVec 5), s.me.guard x = true →
    let rec_ := (s.me.rg a).toNat
    let die := s.cur.die
    let raises (i : Instr) (cls detail : Nat) : Prop := exec i s = .next (afterFault s { cls, detail })
    let lpatch : Instr := .lpatch x a b u
    (24 ≤ u.toNat → raises lpatch 0x01 0) ∧
    (u.toNat < 24 → 65536 ≤ rec_ → raises lpatch 0x12 (devBit s)) ∧
    (∀ f, u.toNat < 24 → rec_ < 65536 → s.recCtx rec_ = .error f → exec lpatch s = .next (afterFault s f)) ∧
    (u.toNat < 24 → rec_ < 65536 → ∀ c, s.recCtx rec_ = .ok c →
      (c ≠ s.me.ctx → raises lpatch 0x12 (5 + devBit s)) ∧
      (c = s.me.ctx → (∃ l ∈ s.launches, l.recno = rec_) → raises lpatch 0x13 (8 + devBit s)) ∧
      (c = s.me.ctx → (∀ l ∈ s.launches, l.recno ≠ rec_) → ∀ k,
        let pa := s.recPool + 256 * rec_ + 64 + 8 * u.toNat
        pa < devSize → spFind s.keys 0 = some k → s.lineFault pa 8 true pa = none →
          storesOr s lpatch false .dev { space := .dev, at_ := pa, key := k } (leBytes 8 (s.src2 b).toNat))) ∧
    (s.me.wait = .none → 65536 ≤ rec_ → raises (.larm x a) 0x12 16) ∧
    (s.me.wait = .none → rec_ < 65536 → ∃ ids, Unapplied s (agentIdx s.cur) ids ∧ exec (.larm x a) s = .next
      { (s.setDie die { s.die die with armq := (s.die die).armq ++ [⟨rec_, none, s.me.ctx, some s.cur, none, ids⟩] }).setMe
          { s.me with wait := .arm none } with limm := none }) ∧
    (s.me.wait = .arm none → exec (.larm x a) s = .next (waiting s)) ∧
    (s.me.wait = .arm (some none) → exec (.larm x a) s = .next (afterCore s s.me)) ∧
    (∀ r, s.me.wait = .arm (some (some r)) →
      exec (.larm x a) s = .next (afterFault s { cls := r.cls.toNat, addr := r.addr.toNat, detail := r.detail.toNat })) ∧
    (∀ l g, s.cur.kind ≠ .collier → Mine s l → l.regions[rec_]? = some g →
      let now := spGet (g.w, g.h) s.me.shapes rec_
      let v := (s.src2 b).toNat
      let w := v % 16 + 1
      let h := v / 16 % 8 + 1
      let byte (w h : Nat) : Nat := (h - 1) * 16 + (w - 1)
      let gets (exact : Nat) (w : Nat) : Prop := exec (.shapeRequest x d a b) s = .next (afterCore s
        ({ s.me with shapes := spInsert s.me.shapes rec_ (w, h) }.wg d (BitVec.ofNat 64 (256 + exact + byte w h))))
      let refused : Prop := exec (.shapeRequest x d a b) s = .next (afterCore s (s.me.wg d 0))
      exec (.shapeQuery x d a b) s = .next (afterCore s (s.me.wg d (BitVec.ofNat 64 (256 + byte now.1 now.2)))) ∧
      (v < 128 → h ≤ g.h → (w + 1) / 2 ≤ min w g.w → gets 0 (min w g.w)) ∧
      (v < 128 → ¬(h ≤ g.h ∧ (w + 1) / 2 ≤ min w g.w) → refused) ∧
      (128 ≤ v → v < 256 → w ≤ g.w → h ≤ g.h → gets 128 w) ∧
      (128 ≤ v → v < 256 → ¬(w ≤ g.w ∧ h ≤ g.h) → refused) ∧
      (256 ≤ v → ∃ r, exec (.shapeRequest x d a b) s = .next (afterCore { s with fresh := s.fresh + 8 } (s.me.wg d r)))) ∧
    (s.cur.kind ≠ .collier → (∀ l, Mine s l → l.regions[rec_]? = none) →
      raises (.shapeQuery x d a b) 0x14 (9 + devBit s) ∧ raises (.shapeRequest x d a b) 0x14 (9 + devBit s)) ∧
    (s.cur.kind = .collier → ∀ i ∈ [Instr.shapeQuery x d a b, .shapeRequest x d a b, .gcfg x a], raises i 0x01 0) ∧
    (s.cur.kind ≠ .collier →
      (∀ l, Mine s l → s.me.wait = .none → (∃ r, s.gcfgCheck l s.me (s.me.rg a) = .ok r) →
        exec (.gcfg x a) s = .next { s.setMe { s.me with wait := .gcfg none } with limm := none }) ∧
      (∀ l, Mine s l → s.me.wait = .none → (∀ c ∈ s.configs, c.cfgid.toNat ≠ rec_) → raises (.gcfg x a) 0x12 (3 + devBit s)) ∧
      (s.me.wait = .gcfg none → exec (.gcfg x a) s = .next (waiting s)) ∧
      (s.me.wait = .gcfg (some none) → exec (.gcfg x a) s = .next (afterCore s s.me)) ∧
      (∀ r, s.me.wait = .gcfg (some (some r)) →
        exec (.gcfg x a) s = .next (afterFault s { cls := r.cls.toNat, addr := r.addr.toNat, detail := r.detail.toNat })))

/-- R352 to R355: TINJ sends a scalar, a run or the mask's lanes to a slot that the launch has placed, with its core's context in the tag,
once its station takes tokens and what an earlier fence or release orders before the token is performed; a format without hardware raises
FORMAT-EMULATE (R60); TRCV takes or shows the oldest entry of its core's queue and waits while there is none; RNG draws; SCLONE hands its list over. -/
def Obligations.CoreTokens : Prop :=
  ∀ (s : State) (x : Guard) (d t a b : GReg), s.me.guard x = true →
    (∀ (ty : BitVec 4) (f : Fmt) (p : BitVec 16) (L : Nat), s.cur.kind = .access → DescOk (s.src2 b) ty f → Reaches s (s.src2 b) p L →
      let may : Prop := 4 ≤ (s.stn p.toNat).free ∧ TokenMay s
      let v := (s.me.rg a).toNat
      let lanes : List Word := lanesOf f (if f = .int64 then v else v % 2 ^ 32)
      let len := fld (s.src2 b).toNat 47 32 + 1
      let emulates : FI := { cls := 0x0F, detail := f.code }
      (fmtEmulated f = true → exec (.tinjR x false ty t a b) s = .next (afterFault s emulates) ∧
        (len ≤ fieldSize L → exec (.tinjR x true ty t a b) s = .next (afterFault s emulates))) ∧
      (fmtEmulated f = false → ¬may → exec (.tinjR x false ty t a b) s = .next (waiting s) ∧
        (len ≤ fieldSize L → exec (.tinjR x true ty t a b) s = .next (waiting s))) ∧
      (fmtEmulated f = false → may → ∃ ts, exec (.tinjR x false ty t a b) s = .next (afterCore (sends s (s.src2 b) p ts) s.me) ∧
        InParts L (injected s.me (s.src2 b) f .scalar L 1 (s.me.rg t) lanes) ts) ∧
      (fmtEmulated f = false → may → len ≤ fieldSize L → ∃ ts, exec (.tinjR x true ty t a b) s = .next (afterCore (sends s (s.src2 b) p ts) s.me) ∧
        InParts L (injected s.me (s.src2 b) f .run L len (s.me.rg t) lanes) ts) ∧
      (fieldSize L < len → exec (.tinjR x true ty t a b) s = .next (afterFault s { cls := 0x1B }))) ∧
    (∀ (ty : BitVec 4) (f : Fmt) (p : BitVec 16) (L n : Nat) (ds tg : Fin 16) (va : VReg) (m : PReg), s.cur.kind = .access → ty ≠ 3 →
      let v := s.me.rg (Fin.ofNat 32 ds.val)
      DescOk v ty f → f ≠ .int64 → Reaches s v p L →
      let may : Prop := 4 ≤ (s.stn p.toNat).free ∧ TokenMay s
      (n ≤ 32 → (s.me.rp m).toNat = 2 ^ n - 1 → fmtEmulated f = true →
        exec (.tinjV x ty ds va tg m) s = .next (afterFault s { cls := 0x0F, detail := f.code })) ∧
      (n ≤ 32 → (s.me.rp m).toNat = 2 ^ n - 1 → fmtEmulated f = false → 0 < n → ¬may → exec (.tinjV x ty ds va tg m) s = .next (waiting s)) ∧
      (n ≤ 32 → (s.me.rp m).toNat = 2 ^ n - 1 → fmtEmulated f = false → n = 0 → exec (.tinjV x ty ds va tg m) s = .next (afterCore s s.me)) ∧
      (n ≤ 32 → (s.me.rp m).toNat = 2 ^ n - 1 → fmtEmulated f = false → 0 < n → may →
        let lanes := (((s.me.rv va).toList.take n).map fun w => lanesOf f w.toNat).flatten
        ∃ ts, exec (.tinjV x ty ds va tg m) s = .next (afterCore (sends s v p ts) s.me) ∧
          InParts L (injected s.me v f .dense L n (s.me.rg (Fin.ofNat 32 tg.val)) lanes) ts) ∧
      ((∀ n, n ≤ 32 → (s.me.rp m).toNat ≠ 2 ^ n - 1) → exec (.tinjV x ty ds va tg m) s = .next (afterFault s { cls := 0x1B }))) ∧
    (s.cur.kind ≠ .access → exec (.tinjR x false 2 t a b) s = .next (afterFault s { cls := 0x01 })) ∧
    (s.cur.kind ≠ .collier → s.me.rq = [] → ∀ i ∈ [Instr.trcvTake x d t, .trcvPeek x d t, .trcvV x 0 0 0 t],
      exec i s = .next (waiting s)) ∧
    (∀ e rest, s.cur.kind ≠ .collier → s.me.rq = e :: rest →
      (e.shape = .dense → exec (.trcvTake x d t) s = .next (afterFault s { cls := 0x1B })) ∧
      (e.shape ≠ .dense → exec (.trcvTake x d t) s =
        .next (afterCore s (({ s.me with rq := rest }.wg d (received e)).wg t e.tag))) ∧
      exec (.trcvPeek x d t) s = .next (afterCore s ((s.me.wg d (summaryOf e)).wg t e.tag)) ∧
      ∀ (vd : VReg) (tg : Fin 16), ∃ v : Vector Word 32, (∀ j : Fin 32, v[j] = e.lanes.getD j.val 0) ∧
        exec (.trcvV x vd tg 0 t) s = .next (afterCore s
          ((({ s.me with rq := rest }.wv vd v).wg (Fin.ofNat 32 tg.val) e.tag).wg t (summaryOf e)))) ∧
    (∀ (e : Token) (rest : List Token) (l : Loc) (k : Fin 16) (vd : VReg) (tg : Fin 16), s.cur.kind = .drain → k ≠ 0 →
      s.access s.whoMe (0xFFE00 + 16 * k.val : Nat) 16 16 false = .ok l → leValue (s.mem.bytes l.at_ 16) = Fmt.int32.code →
      s.me.rq = e :: rest → e.ty = .int32 →
      (May s l 16 = false → exec (.trcvV x vd tg k t) s = .next (waiting s)) ∧
      (May s l 16 = true → ∃ v : Vector Word 32,
        (∀ j : Fin 32, v[j] = if j.val < e.n then e.lanes.getD (if e.shape = .dense then j.val else 0) 0 else 0) ∧
        Answers (.trcvV x vd tg k t) s (Loads s
          ((({ s.me with rq := rest }.wv vd v).wg (Fin.ofNat 32 tg.val) e.tag).wg t (summaryOf e))))) ∧
    (s.cur.kind = .collier → ∀ i ∈ [Instr.trcvTake x d t, .trcvPeek x d t, .trcvV x 0 0 0 t],
      exec i s = .next (afterFault s { cls := 0x01 })) ∧
    (∀ fn, exec (.rngR x fn d a b) s = .next (afterCore s (s.me.wg d (BitVec.ofNat 64 (draw fn (s.me.rg a) (s.src2 b).toNat))))) ∧
    (∀ (fn : RngFn) (vd : VReg) (k dr : Fin 16) (m : PReg), fn ≠ .bits → ∃ v : Vector Word 32,
      exec (.rngV x fn vd k dr m) s = .next (afterCore s (s.me.wv vd v)) ∧ ∀ j : Fin 32,
        ((s.me.rp m).getLsbD j.val = true →
          v[j] = BitVec.ofNat 32 (draw fn (s.me.rg (Fin.ofNat 32 k.val)) ((s.me.rg (Fin.ofNat 32 dr.val)).toNat + j.val))) ∧
        ((s.me.rp m).getLsbD j.val = false → v[j] = (s.me.rv vd)[j])) ∧
    (let p := (s.me.rg a).toNat
     let A := (s.src2 b).toNat
     (18 ≤ p ∨ A % 16 ≠ 0 → exec (.sclone x a b) s = .next (afterFault s { cls := 0x08 })) ∧
     (∀ l, p < 18 → A % 16 = 0 → s.access s.whoMe A 16 16 false = .ok l →
       let n := fld (leValue (s.view s.cur.die.val l 16)) 15 0
       (May s l 16 = false → exec (.sclone x a b) s = .next (waiting s)) ∧
       (May s l 16 = true → n = 0 ∨ 4096 < n → exec (.sclone x a b) s = .next (afterFault s { cls := 0x08 })) ∧
       (May s l 16 = true → 1 ≤ n → n ≤ 4096 → Answers (.sclone x a b) s fun t => SameCore t.me (s.me.retire s.wordPc) ∧ OthersSame s t ∧
         ∃ e, IsOp s (.sclone p A 0 0 none) (s.placesOf s.whoMe A (16 + 32 * n)) e ∧
           t = { s with
             cores := t.cores, know := t.know, ecc := t.ecc, limm := none, engine := s.engine ++ [e], nextId := s.nextId + 1 })))

/-- R356 and R414 to R418: a handled fault writes the trap CSRs and the pc and nothing else; TRAP is such a fault, with its code; an
encoding that is none raises ILLEGAL whatever its guard; RTE returns, to the instruction or past it. A fault that is not handled stops the
core and its launch, with a record for the collier; a collier stops alone, its record sent over the management port. -/
def Obligations.TrapsAndReturn : Prop :=
  ∀ (s : State) (x : Guard) (f : FI), f.cls < 2 ^ 8 → f.code < 2 ^ 10 → f.addr < 2 ^ 56 → f.detail < 2 ^ 15 →
    (Handles s f → afterFault s f = { s.setMe (entered s f) with limm := none }) ∧
    (∀ imm, s.me.guard x = true → (s.immI imm).toNat < 1024 →
      exec (.trap x imm) s = .next (afterFault s { cls := 0x10, code := (s.immI imm).toNat })) ∧
    (∀ imm, 1024 ≤ (s.immI imm).toNat → exec (.trap x imm) s = .next (afterFault s { cls := 0x01 })) ∧
    (∀ w0 w1 : Word, w0.toNat / 2 ^ 25 ≠ 0x24 → exec (.illegalEncoding w0 w1) s = .next (afterFault s { cls := 0x01 })) ∧
    (∀ w0 w1 : Word, w0.toNat / 2 ^ 25 = 0x24 →
      exec (.illegalEncoding w0 w1) s = .next (afterFault { s with limm := some (w0.setWidth 25) } { cls := 0x01 })) ∧
    (s.me.guard x = true → s.me.trapbase.getLsbD 1 = false → exec (.rte x) s = .next (afterFault s { cls := 0x01 })) ∧
    (s.me.guard x = true → s.me.trapbase.getLsbD 1 = true →
      let c := { s.me with trapbase := s.me.trapbase &&& ~~~2 }
      let pc : BitVec 16 := c.epc.setWidth 16 &&& 0xFFFC
      let last : BitVec 16 := if s.coreWord s.cur pc.toNat / 2 ^ 25 = 0x24 then pc + 4 else pc
      exec (.rte x) s = .next { s.setMe (if c.epc.getLsbD 0 then c.retire last else { c with pc, wait := .none }) with limm := none }) ∧
    (¬Handles s f → s.cur.kind = .collier → ∃ r, RecordOf s f r ∧ afterFault s f =
      { s.setMe { s.me with run := .stopped, wait := .none } with limm := none, mctp := s.mctp ++ [.collierStopped r] }) ∧
    (∀ n l, ¬Handles s f → s.cur.kind ≠ .collier → s.me.lid = some n → s.launch n = some l → l.st = .running →
      let t := afterFault s f
      t.me = { s.me with run := .stopped, wait := .none, escalated := true } ∧
      (∃ r, RecordOf s f r ∧ t.launch n = some { l with st := .stopped, recs := l.recs ++ [(s.now, r)], logged := l.logged ++ [r] }) ∧
      (∀ k, k ≠ n → t.launch k = s.launch k) ∧ t.mem = s.mem ∧
      (∀ a, agentIdx a ≠ agentIdx s.cur → (s.core a).lid = some n → (s.core a).run = .running → (t.core a).run = .stopped) ∧
      (∀ a, agentIdx a ≠ agentIdx s.cur → (s.core a).lid ≠ some n → t.core a = s.core a))

/-- R70, R220, R357 and R415: CSRR reads each CSR that its issuer has and CSRW writes those that may be written, with their reserved bits
0, TRAPBASE.inh kept and a reserved rounding mode refused with FP-MODE; a write of ECCCNT clears it (R436); any other number raises ILLEGAL.
FPCTL_WRITE is the same write. That LCTL reads 0 is the model's choice (log entry 42). -/
def Obligations.SpecialRegisters : Prop :=
  ∀ (s : State) (x : Guard) (d a : GReg) (imm : BitVec 11), s.me.guard x = true →
    let n := (s.me.rg a + s.immI imm).toNat % 4096
    let v := s.me.rg d
    let puts (c : Core) : Prop := exec (.csrw x d a imm) s = .next (afterCore s c)
    let refuses (cls : Nat) : Prop := exec (.csrw x d a imm) s = .next (afterFault s { cls })
    (∀ r, csrSpec s n = some r → exec (.csrr x d a imm) s = .next (afterCore s (s.me.wg d r))) ∧
    (n = 0x020 → ∃ r, exec (.csrr x d a imm) s = .next (afterCore s (s.me.wg d r))) ∧
    (csrSpec s n = none → n ≠ 0x020 → n ≠ 0x806 → exec (.csrr x d a imm) s = .next (afterFault s { cls := 0x01 })) ∧
    (n = 0x001 → if 5 ≤ v.toNat % 8 then refuses 0x0D else puts { s.me with fpctl := v &&& 0x1F01FF }) ∧
    (n = 0x002 → if s.cur.kind = .collier then puts { s.me with ctxid := v &&& 0xFF } else refuses 0x01) ∧
    (n = 0x010 → puts { s.me with trapbase := (v &&& 0xFFFD) ||| (s.me.trapbase &&& 2) }) ∧
    (n = 0x012 → if v.getLsbD 1 then refuses 0x01 else puts { s.me with epc := v &&& 0xFFFD }) ∧
    (n < 0x800 → n ∉ [0x001, 0x002, 0x010, 0x012] → refuses 0x01) ∧
    (0x800 ≤ n → s.cur.kind ≠ .collier → refuses 0x01) ∧
    (s.cur.kind = .collier →
      (n = 0x800 → puts { s.me with fqbase := v &&& 0x3F000 }) ∧ (n = 0x802 → refuses 0x01) ∧
      (n = 0x805 → puts { s.me with wsel := v &&& 0xFFFFC0000FFF }) ∧ (n = 0x807 → puts { s.me with ecccnt := 0 }) ∧ (0x808 < n → refuses 0x01)) ∧
    (∀ g w, exec (.fpctlWrite g w) s = .next (if 5 ≤ w.toNat % 8 then s else s.setCore g { s.core g with fpctl := w &&& 0x1F01FF }))

/-- R152, R358 to R360, R397 and R455: YIELD lets the scheduler take the launch for a waiting one, and never anything else than to save running
launches; WFE answers the events of its mask that are there, and waits while there is none; HALT ends its core; TLBI drops translations in
every die; FREEZE stops the module at its own instruction; LNKCTL acts on a module of the issuer's die and answers its status. -/
def Obligations.CoreSystem : Prop :=
  ∀ (s : State) (x : Guard) (d a b : GReg), s.me.guard x = true →
    let k := 4 * s.cur.die.val + (s.me.rg a).toNat % 4
    let idle : Prop := (k % 4 = 0 ∧ s.cur.die.val % 4 = 0) ∨ (k % 4 = 1 ∧ s.cur.die.val % 4 = 3)
    let u := s.link k
    let v := s.src2 b
    let m := (s.me.rg a).toNat
    let mayWait : Prop := m < 8 ∧ (bitOf m 2 = true → s.cur.kind = .collier) ∧ (bitOf m 0 = true → s.cur.kind ≠ .collier)
    let linked (i : Instr) (w : Ucie) : Prop :=
      exec i s = .next (afterCore { s with ucie := s.ucie.setIfInBounds k w } (s.me.wg d (statusOf w)))
    let drops (i : Instr) (p : Leaf → Prop) : Prop := ∃ tlb, exec i s = .next (afterCore { s with tlb } s.me) ∧
      ∀ e, e ∈ tlb ↔ e ∈ s.tlb ∧ ¬p e
    (s.cur.kind ≠ .collier → (∀ l ∈ s.launches, l.waits = false) → exec (.yield x) s = .next (afterCore s s.me)) ∧
    (s.cur.kind ≠ .collier → Answers (.yield x) s fun t =>
      t.me.pc = (s.me.retire s.wordPc).pc ∧ t.me.g = s.me.g ∧ t.mem = s.mem ∧
      ∀ l ∈ t.launches, l ∈ s.launches ∨ (l.st = .saving ∧ ∃ y ∈ s.launches, y.lid = l.lid ∧ y.st = .running)) ∧
    (¬mayWait → exec (.wfe x d a b) s = .next (afterFault s { cls := 0x01 })) ∧
    (mayWait → bitOf m 1 = true → 16384 ≤ v.toNat → exec (.wfe x d a b) s = .next (afterFault s { cls := 0x0B })) ∧
    (mayWait → (bitOf m 1 = true → v.toNat < 16384) →
      (m = 0 ∨ m &&& eventsOf s ≠ 0 → exec (.wfe x d a b) s = .next (afterCore s (s.me.wg d (BitVec.ofNat 64 (m &&& eventsOf s))))) ∧
      (m ≠ 0 → m &&& eventsOf s = 0 → s.me.wait = .none → exec (.wfe x d a b) s = .next { s.setMe { s.me with
        wait := .event (if bitOf m 1 then v.toNat else 16384) false } with limm := none }) ∧
      (m ≠ 0 → m &&& eventsOf s = 0 → (∃ j, s.me.wait = .event j false) → exec (.wfe x d a b) s = .next (waiting s))) ∧
    (s.cur.kind ≠ .collier → (∀ l, Mine s l → l.complete = false) →
      exec (.halt x) s = .next (afterCore s { s.me with run := .halted })) ∧
    (s.cur.kind = .collier →
      drops (.tlbiPage x a b) (fun e => e.ctx = v.setWidth 8 ∧ e.va ≤ m ∧ m < e.va + e.size) ∧
      drops (.tlbiCtx x b) (fun e => e.ctx = v.setWidth 8) ∧ drops (.tlbiAll x) (fun _ => True) ∧
      exec (.freeze x) s = .next { s with frozen := true, limm := none } ∧
      (idle → ∀ i ∈ [Instr.lnkctlStatus x d a b, .lnkctlPause x d a b, .lnkctlResume x d a b, .lnkctlRemap x d a b, .lnkctlRetrain x d a b,
        .lnkctlClear x d a b], exec i s = .next (afterCore s (s.me.wg d (BitVec.ofNat 64 (2 ^ 25))))) ∧
      (¬idle →
        linked (.lnkctlStatus x d a b) u ∧ linked (.lnkctlPause x d a b) { u with paused := true } ∧
        linked (.lnkctlResume x d a b) { u with paused := false } ∧
        linked (.lnkctlClear x d a b) { u with retries := 0, errs := [], reported := false } ∧
        (v.toNat = 64 ∨ v.toNat = 32 → linked (.lnkctlRetrain x d a b) { u with training := some v.toNat }) ∧
        (v.toNat ≠ 64 → v.toNat ≠ 32 → exec (.lnkctlRetrain x d a b) s = .next (afterFault s { cls := 0x01 })) ∧
        (∀ n, n = ((List.range 64).filter fun j => v.getLsbD j).length →
          (n ≤ u.spares → linked (.lnkctlRemap x d a b) { u with retired := u.retired ||| v, spares := u.spares - n }) ∧
          (u.spares < n → exec (.lnkctlRemap x d a b) s = .next (afterFault s { cls := 0x01 }))))) ∧
    (s.cur.kind = .collier → exec (.yield x) s = .next (afterFault s { cls := 0x01 }) ∧
      exec (.halt x) s = .next (afterFault s { cls := 0x01 })) ∧
    (s.cur.kind ≠ .collier → ∀ i ∈ [Instr.tlbiPage x a b, .tlbiCtx x b, .tlbiAll x, .freeze x, .lnkctlStatus x d a b, .lnkctlPause x d a b,
      .lnkctlResume x d a b, .lnkctlRemap x d a b, .lnkctlRetrain x d a b, .lnkctlClear x d a b], exec i s = .next (afterFault s { cls := 0x01 }))

/-! ## Stations: firing and elementwise slots -/

namespace Sys2Proof.Claims

open Sys2Proof.Machine

/-- The head pair of the station whose turn it is may fire: its launch runs and no store holds an error; p is the pair that fires, c its
context and u the state without it (R87, R104). Where a stop falls between the tokens of a nest (Table 05-9), p is the part before it, and the
rest stays the head. -/
def Firing (s : State) (h : Head) (p : Pair) (c : Ctx) (u : State) : Prop :=
  ∃ p0 q lid l, (s.stn s.curStn).issueq = p0 :: q ∧ c = (s.stn s.curStn).ctxs[p0.cx.val] ∧ c.lid = some lid ∧ s.launch lid = some l ∧
    l.st = .running ∧ (∀ e ∈ s.ecc, e.sram = false) ∧
    match s.nestCut c h p0 with
    | some (now, later) => p = now ∧ u = s.setStn s.curStn { s.stn s.curStn with issueq := later :: q }
    | none => p = p0 ∧ u = s.setStn s.curStn { s.stn s.curStn with issueq := q }

/-- The flights of tokens from the firing slot to a destination, if it is present (R205). -/
def flights (s : State) (p : Pair) (c : Ctx) (d : Option Dest) (ts : List Token) : List Flight :=
  match d with
  | none => []
  | some d => ts.map fun t =>
      ⟨16 * s.curStn + p.slot.toNat, c.lid, { t with stn := d.stn, slot := d.slot, port := d.port, act := d.act }, none⟩

/-- u with tokens sent to dest0 and dest1 as they are. -/
def sentRaw (s : State) (p : Pair) (c : Ctx) (h : Head) (ts0 ts1 : List Token) (u : State) : State :=
  { u with net := u.net ++ flights s p c h.d0 ts0 ++ flights s p c h.d1 ts1 }

/-- The slot's tag operation on each of a list of result tokens (R92). -/
def tagged (h : Head) (ts : List Token) : List Token := (ts.map (tagOp h.tagop)).flatten

/-- u with result tokens sent to every present destination. -/
def sent (s : State) (p : Pair) (c : Ctx) (h : Head) (ts : List Token) (u : State) : State :=
  sentRaw s p c h (tagged h ts) (tagged h ts) u

/-- u with flags ORed into the sticky flags of the pair's context (R71). -/
def flagged (s : State) (p : Pair) (f : Flags) (u : State) : State :=
  let st := u.stn s.curStn
  u.setStn s.curStn { st with ctxs := st.ctxs.set p.cx.val { st.ctxs[p.cx.val] with flags := st.ctxs[p.cx.val].flags ||| f } }

/-- A result token without destination. -/
def resTok (ty : Fmt) (shape : Shape) (L : Nat) (tag : DWord) (b n : Nat) (exp : Byte) (lanes : List Word) : Token :=
  { stn := 0, slot := 0, port := 0, act := 0, shape, ty, level := BitVec.ofNat 2 (L - 1), n, exp, tag := setTagFld tag L b, lanes }

/-- Intervals of at most 32 indices, 16 for values of two lanes, that n indices are cut into: offset and length (R95). -/
def chunks (ty : Fmt) (n : Nat) : List (Nat × Nat) :=
  let k := if ty = .int64 ∨ ty = .fp64 then 16 else 32
  (List.range ((n + k - 1) / k)).map fun j => (k * j, min k (n - k * j))

/-- The result tokens of n indices from b: a scalar or a run of the value at offset 0, or dense tokens of the values at each offset
(R95, R96). -/
def resToks (ty : Fmt) (shape : Shape) (L : Nat) (tag : DWord) (b n : Nat) (exp : Byte) (f : Nat → List Word) : List Token :=
  if shape = .dense then
    (chunks ty n).map fun (o, m) => resTok ty .dense L tag (b + o) m exp ((List.range m).map fun i => f (o + i)).flatten
  else [resTok ty shape L tag b (if shape = .run then n else 1) exp (f 0)]

/-- The shape of an elementwise result of one or two value operands (R96). -/
def shapeOf (l r : Shape) : Shape := if l = .run ∧ r = .run then .run else if l = .dense ∨ r = .dense then .dense else .scalar

/-- u after an elementwise firing: the values sent, their flags ORed into the context's. -/
def elementwise (s : State) (p : Pair) (c : Ctx) (h : Head) (ty : Fmt) (shape : Shape) (f : Nat → List Word × Flags) (u : State) : State :=
  let fl := (List.range (if shape = .dense then p.n else 1)).foldl (fun a i => a ||| (f i).2) 0
  sent s p c h (resToks ty shape (h.level.toNat + 1) p.tag p.base p.n 0 fun i => (f i).1) (flagged s p fl u)

/-- Width and sign of an integer type (Table 03-2). -/
def intForm : Fmt → Option (Nat × Bool)
  | .int4 => some (4, true)
  | .int8 => some (8, true)
  | .int16 => some (16, true)
  | .int32 => some (32, true)
  | .int64 => some (64, true)
  | .uint8 => some (8, false)
  | .uint16 => some (16, false)
  | .uint32 => some (32, false)
  | _ => none

/-- Bits read as an integer of w bits. -/
def readZ (w : Nat) (sg : Bool) (bits : Nat) : Int := if sg then (BitVec.ofNat w bits).toInt else (BitVec.ofNat w bits).toNat

/-- An immediate as an integer of a type: for INT64 sext(imm32, 32) (R254). -/
def immZ (w : Nat) (sg : Bool) (imm : BitVec 32) : Int := if w = 64 then imm.toInt else readZ w sg imm.toNat

/-- The lanes of an integer of a type: one, or two with the low half first (R95). -/
def lanesZ (w : Nat) (r : Int) : List Word := if w = 64 then [BitVec.ofInt 32 r, BitVec.ofInt 32 (r / 2 ^ 32)] else [BitVec.ofInt 32 r]

/-- An integer result of R256: with sat clamped to the type's range, setting OF when that changes it; else cut to w bits. -/
def resultZ (w : Nat) (sg sat : Bool) (t : Int) : List Word × Flags :=
  let lo : Int := if sg then -2 ^ (w - 1) else 0
  let hi : Int := if sg then 2 ^ (w - 1) - 1 else 2 ^ w - 1
  let cut : Int := if sg then (BitVec.ofInt w t).toInt else (BitVec.ofInt w t).toNat
  if sat then (lanesZ w (max lo (min hi t)), if t < lo ∨ hi < t then fOF else 0) else (lanesZ w cut, 0)

/-- Bits of a type's width as lanes. -/
def lanesB (w : Nat) (sg : Bool) (v : BitVec w) : List Word := lanesZ w (if sg then v.toInt else v.toNat)

/-- A truth value's lane. -/
def truth (q : Bool) : List Word := [if q then 1 else 0]

/-- What an integer slot of chapter 11 does (R254 to R258): its head, type, result type, whether R, or for arity 1 the immediate, is its
second operand, that immediate, and the lanes and flags of a result from the bits x and y. -/
def integerSlot : Instr → Option (Head × Fmt × Fmt × Option (BitVec 32) × (Nat → Bool → Nat → Nat → List Word × Flags))
  | .iadd h ty m k => some (h, ty, ty, some k, fun w sg x y => resultZ w sg (m = 1) (readZ w sg x + readZ w sg y))
  | .isub h ty m k => some (h, ty, ty, some k, fun w sg x y => resultZ w sg (m = 1) (readZ w sg x - readZ w sg y))
  | .imul h ty m k => some (h, ty, ty, some k, fun w sg x y =>
      resultZ w sg (m = 1) (if m = 2 then readZ w sg x * readZ w sg y / 2 ^ w else readZ w sg x * readZ w sg y))
  | .imac h ty m form k => some (h, ty, ty, some 0, fun w sg x y => resultZ w sg (m = 1)
      (if form = false then readZ w sg x * readZ w sg y + immZ w sg k else readZ w sg x * immZ w sg k + readZ w sg y))
  | .imin h ty k => some (h, ty, ty, some k, fun w sg x y => resultZ w sg false (min (readZ w sg x) (readZ w sg y)))
  | .imax h ty k => some (h, ty, ty, some k, fun w sg x y => resultZ w sg false (max (readZ w sg x) (readZ w sg y)))
  | .iabs h ty m => some (h, ty, ty, none, fun w sg x _ => resultZ w sg (m = 1) (readZ w sg x).natAbs)
  | .logic h ty fn k => some (h, ty, ty, some k, fun w sg x y =>
      let a := BitVec.ofNat w x
      let b := BitVec.ofNat w y
      (lanesB w sg (match fn.toNat with
        | 0 => a &&& b
        | 1 => a ||| b
        | 2 => a ^^^ b
        | 3 => a &&& ~~~b
        | 4 => a ||| ~~~b
        | _ => ~~~(a ^^^ b)), 0))
  | .shift h ty fn k => some (h, ty, ty, some k, fun w sg x y =>
      let a := BitVec.ofNat w x
      let n := y % 2 ^ w
      (lanesB w sg (match fn.toNat with
        | 0 => if n < w then a <<< n else 0
        | 1 => if n < w then a >>> n else 0
        | 2 => a.sshiftRight (min n w)
        | _ => a.rotateLeft n), 0))
  | .icmp h ty fn k => some (h, ty, .uint32, some k, fun w sg x y =>
      let a := readZ w sg x
      let b := readZ w sg y
      (truth (match fn.toNat with
        | 0 => decide (a = b)
        | 1 => decide (a ≠ b)
        | 2 => decide (a < b)
        | 3 => decide (a ≤ b)
        | 4 => decide (b < a)
        | _ => decide (b ≤ a)), 0))
  | .slotBitc h ty fn => some (h, ty, if fn = 3 then ty else .uint32, none, fun w sg x _ =>
      let a := BitVec.ofNat w x
      (match fn.toNat with
        | 0 => [BitVec.ofNat 32 ((List.range w).filter fun j => a.getLsbD j).length]
        | 1 => [BitVec.ofNat 32 ((List.range w).takeWhile fun j => !a.getLsbD (w - 1 - j)).length]
        | 2 => [BitVec.ofNat 32 ((List.range w).takeWhile fun j => !a.getLsbD j).length]
        | _ => lanesB w sg a.reverse, 0))
  | _ => none

/-- A function code of Tables 11-1 to 11-4 that the loader accepts (R252, R257, R258). -/
def codeOk : Instr → Bool
  | .imul _ _ m _ => m.toNat ≤ 2
  | .logic _ _ fn _ | .icmp _ _ fn _ => fn.toNat ≤ 5
  | .shift _ _ fn _ | .slotBitc _ _ fn => fn.toNat ≤ 3
  | _ => true

/-- An immediate passes the checks of R254. -/
def immOk (w : Nat) (sg : Bool) (k : BitVec 32) : Prop := w < 32 → k.toNat = (BitVec.ofInt 32 (readZ w sg k.toNat)).toNat

end Sys2Proof.Claims

/-- R92 and R93: what each tag operation makes of a result token of R95 whose interval lies in its field. Nest gives one token of length
1 per index, a level deeper, with its value, a run's as runs; unnest one token a level further out with the value of the highest index
(R238); at slots other than UNNEST that value, and the shapes of a nest, are the model's reading (log entry 19). Advance moves the interval
by one and cuts it where it would cross the end of the field, as keep cuts one that does. -/
def Obligations.TagOperations : Prop :=
  (∀ t : Token, 1 ≤ t.n → t.base + t.n ≤ fieldSize t.L → (t.shape = .scalar → t.n = 1) → cutTag t.tag t.L = t.tag →
    (tagOp 0 t = [t]) ∧
    (t.L < 4 → (tagOp 1 t).length = t.n ∧ ∀ i, i < t.n → ∃ r, (tagOp 1 t)[i]? = some r ∧ r.ty = t.ty ∧ r.n = 1 ∧ r.exp = t.exp ∧
      r.shape = (if t.shape = .run then .run else .scalar) ∧
      r.L = t.L + 1 ∧ outerOf r.tag t.L = outerOf t.tag t.L ∧ tagFld r.tag t.L = t.base + i ∧ tagFld r.tag (t.L + 1) = 0 ∧
      cutTag r.tag r.L = r.tag ∧ r.lanes = lanesOf t.ty (t.val i)) ∧
    (1 < t.L → ∃ r, tagOp 2 t = [r] ∧ r.ty = t.ty ∧ r.shape = .scalar ∧ r.n = 1 ∧ r.exp = t.exp ∧ r.L + 1 = t.L ∧
      outerOf r.tag t.L = outerOf t.tag t.L ∧ cutTag r.tag r.L = r.tag ∧ r.lanes = lanesOf t.ty (t.val (t.n - 1))) ∧
    (t.base + 1 + t.n ≤ fieldSize t.L → tagOp 3 t = [t.atBase (t.base + 1)]) ∧
    (t.base + 1 = fieldSize t.L → tagOp 3 t = [t.atBase 0]) ∧
    (t.base + 1 < fieldSize t.L → fieldSize t.L < t.base + 1 + t.n →
      ∃ a b, tagOp 3 t = [a, b] ∧ a.ty = t.ty ∧ b.ty = t.ty ∧ a.shape = t.shape ∧ b.shape = t.shape ∧ a.n = t.n - 1 ∧ b.n = 1 ∧
        a.base = t.base + 1 ∧ b.base = 0 ∧ outerOf a.tag t.L = outerOf t.tag t.L ∧ outerOf b.tag t.L = outerOf t.tag t.L ∧
        ∀ i, i < t.n → (if i + 1 < t.n then a.val i else b.val 0) = t.val i)) ∧
  (∀ t : Token, t.n ≤ fieldSize t.L → fieldSize t.L < t.base + t.n → t.shape ≠ .scalar →
    let k := fieldSize t.L - t.base
    ∃ a b, tagOp 0 t = [a, b] ∧ a.ty = t.ty ∧ b.ty = t.ty ∧ a.shape = t.shape ∧ b.shape = t.shape ∧ a.n = k ∧ b.n = t.n - k ∧
      a.base = t.base ∧ b.base = 0 ∧ outerOf a.tag t.L = outerOf t.tag t.L ∧ outerOf b.tag t.L = outerOf t.tag t.L ∧
      ∀ i, i < t.n → (if i < k then a.val i else b.val (i - k)) = t.val i)

/-- R252 to R258: the integer, bit and compare slots send, for each index of their pair, the exact integer result wrapped, cut or
saturated to its type, with OF where saturation changes it, in the shape of R96. An operand of another type raises TYPE-MISMATCH. Nothing
else changes. -/
def Obligations.IntegerSlots : Prop :=
  ∀ (s : State) (p : Pair) (c : Ctx) (u : State) (i : Instr) (h : Head) (ty rty : Fmt) (imm : Option (BitVec 32))
    (f : Nat → Bool → Nat → Nat → List Word × Flags) (w : Nat) (sg : Bool),
    Firing s h p c u → integerSlot i = some (h, ty, rty, imm, f) → codeOk i = true → intForm ty = some (w, sg) → 1 ≤ p.n →
      (p.left.ty = ty → imm = none → exec i s = .next (elementwise s p c h rty p.left.shape (fun j => f w sg (p.left.val j) 0) u)) ∧
      (p.left.ty = ty → imm ≠ none → h.arity ≠ 1 → p.right.ty = ty →
        exec i s = .next (elementwise s p c h rty (shapeOf p.left.shape p.right.shape) (fun j => f w sg (p.left.val j) (p.right.val j)) u)) ∧
      (∀ k, p.left.ty = ty → imm = some k → h.arity = 1 → immOk w sg k → exec i s = .next (elementwise s p c h rty (shapeOf p.left.shape .run)
        (fun j => f w sg (p.left.val j) (if w = 64 then (k.signExtend 64).toNat else k.toNat)) u)) ∧
      (p.left.ty ≠ ty ∨ (imm ≠ none ∧ h.arity ≠ 1 ∧ p.right.ty ≠ ty) →
        exec i s = .next (u.faultPair s.curStn h p { cls := 0x20 } 0 1 (some p)))

namespace Sys2Proof.Claims

open Sys2Proof.Machine

/-- A special input of FSPEC and its result (Table 11-5); none where the result is the rounded value. -/
def fspecial (fn : Nat) (f : FF) (v : FVal) : Option (Nat × Flags) :=
  let inf (n : Bool) : Nat := f.signed n f.infCode
  let bad : Nat × Flags := (f.nanCode, fNV)
  match v with
  | .nan => some (f.nanCode, 0)
  | .inf n =>
    if fn = 0 then some (f.zero n, 0)
    else if fn = 3 ∨ fn = 5 then some (if n then f.zero false else inf false, 0)
    else if fn = 7 then some (roundFmt ⟨n, 1, 0, false⟩ f .rne false)
    else if 8 ≤ fn then some (if n then (f.zero false, 0) else roundFmt ⟨false, 1, 0, false⟩ f .rne false)
    else some (if n then bad else (if fn = 2 then f.zero false else inf false, 0))
  | .num x =>
    if x.mag = 0 ∧ x.sticky = false then
      if fn = 0 then some (inf x.neg, fDZ)
      else if fn = 1 ∨ fn = 7 then some (f.zero x.neg, 0)
      else if fn = 2 then some (if x.neg then bad else (inf false, fDZ))
      else if fn = 4 ∨ fn = 6 then some (inf true, fDZ)
      else none
    else if x.neg = true ∧ fn ∈ [1, 2, 4, 6] then some bad
    else none

/-- One lane. -/
def one (r : Nat × Flags) : List Word × Flags := ([BitVec.ofNat 32 r.1], r.2)

/-- What a float slot of chapter 11 does (R258 to R262): its head, type, result type, its rounding code where it has one, its
immediate where it has a second operand, and the result of an index from the mode of its core, the rounding and the two codes. Inputs are
read after the flush of R72. -/
def floatSlot : Instr →
    Option (Head × Fmt × Fmt × BitVec 4 × Option (BitVec 32) × (FpMode → FF → Rm → Nat → Nat → List Word × Flags))
  | .fadd h ty rnd neg k => some (h, ty, ty, rnd, some k, fun m f rm x y =>
      let b := decodeF f y (m.fzi f)
      one (addF f rm (m.fzo f) (decodeF f x (m.fzi f)) (if neg then negF b else b)))
  | .fmul h ty rnd k => some (h, ty, ty, rnd, some k, fun m f rm x y =>
      one (mulF f rm (m.fzo f) (decodeF f x (m.fzi f)) (decodeF f y (m.fzi f))))
  | .ffma h ty rnd form negp k => some (h, ty, ty, rnd, some 0, fun m f rm x y =>
      let q := decodeF f k.toNat (m.fzi f)
      let a := decodeF f x (m.fzi f)
      let b := decodeF f y (m.fzi f)
      one (if form = false then fmaF f rm (m.fzo f) negp a b q else fmaF f rm (m.fzo f) negp a q b))
  | .fmin h ty fn k => some (h, ty, ty, 0, some k, fun m f _ x y =>
      one (encodeF f (minMaxF false (fn = 1) (decodeF f x (m.fzi f)) (decodeF f y (m.fzi f))), 0))
  | .fmax h ty fn k => some (h, ty, ty, 0, some k, fun m f _ x y =>
      one (encodeF f (minMaxF true (fn = 1) (decodeF f x (m.fzi f)) (decodeF f y (m.fzi f))), 0))
  | .fcmp h ty fn k => some (h, ty, .uint32, 0, some k, fun m f _ x y =>
      let r := cmpF ([Rel.eq, .ne, .lt, .le, .gt, .ge, .un].getD fn.toNat .un) (decodeF f x (m.fzi f)) (decodeF f y (m.fzi f))
      (truth r.1, r.2))
  | .fspec h ty fn => some (h, ty, ty, 0, none, fun m f _ x _ =>
      let v := decodeF f x (m.fzi f)
      one ((fspecial fn.toNat f v).getD (fspecVal fn.toNat f (m.fzo f) v)))
  | _ => none

/-- The rounding of an index: under SR, z is the low 16 bits of the random value there (R255). -/
def roundOf (m : FpMode) (rnd : BitVec 4) (z : Nat) : Rm := if rnd = 4 then .sr (z % 2 ^ 16) else vRm m rnd.toNat

/-- The random token of an arity-1 slot is at R, of another at P (R76). -/
def randomOf (h : Head) (p : Pair) : Token := if h.arity = 1 then p.right else p.pred

/-- Under SR a run with a dense random token becomes dense (R255). -/
def roundedShape (rnd : BitVec 4) (r : Shape) (x : Shape) : Shape := if rnd = 4 ∧ x = .run ∧ r = .dense then .dense else x

/-- A type that a random token may have. -/
def RandomOk (rnd : BitVec 4) (t : Token) : Prop := rnd = 4 → t.ty = .uint16 ∨ t.ty = .uint32

/-- CVT of the value of a token at an offset (R263, R75). -/
def converted (t : Token) (off : Nat) (dst : Fmt) (m : FpMode) (rm : Rm) (sat : Bool) : List Word × Flags :=
  let bits := t.val off
  let real : FVal := match fmtBsi t.ty, fmtFF t.ty with
    | some w, _ => .num (Exact.ofInt (BitVec.ofNat w bits).toInt ((t.exp.toNat : Int) - 127))
    | _, some f => decodeF f bits (m.fzi f)
    | _, _ => .nan
  match intForm dst, fmtFF dst, intForm t.ty with
  | some (w, sg), _, some (v, g) =>
    let x := readZ v g bits
    ((resultZ w sg sat x).1, if sat ∧ (x < intLo w sg ∨ intHi w sg < x) then fNV else 0)
  | some (w, sg), _, none => let r := toIntClamp real (intLo w sg) (intHi w sg) rm; (lanesZ w r.1, r.2)
  | none, some f, some (v, g) => one (roundFmt (Exact.ofInt (readZ v g bits)) f rm (m.fzo f))
  | none, some f, none => one (convertF real f rm (m.fzo f))
  | _, _, _ => ([], 0)

/-- DQNT of the value of a token at an offset (R266). -/
def dequantised (t : Token) (off : Nat) (f : FF) (m : FpMode) (rm : Rm) (adj : BitVec 8) : List Word × Flags :=
  let e : Int := (t.exp.toNat : Int) - 127 + adj.toInt
  if t.ty = .e2m1b then
    match decodeF .e2m1 (t.val off) m.fzi8 with
    | .num x => one (roundFmt { x with exp := x.exp + e } f rm (m.fzo f))
    | v => one (convertF v f rm (m.fzo f))
  else one (roundFmt (Exact.ofInt (BitVec.ofNat 16 (t.val off)).toInt e) f rm (m.fzo f))

/-- Offset and length of the maximal sub-intervals of n indices on which f does not change, in ascending order. -/
def Pieces {α : Type} (f : Nat → α) (n : Nat) (ps : List (Nat × Nat)) : Prop :=
  (∀ k o m, ps[k]? = some (o, m) → 1 ≤ m ∧ (∀ i, o ≤ i → i < o + m → f i = f o) ∧ o = ((ps.take k).map (·.2)).sum ∧
    (o + m = n ∨ (o + m < n ∧ f (o + m) ≠ f o))) ∧
  (ps.map (·.2)).sum = n

/-- The part of a token on an interval (R97): its values, or its one value. -/
def partOf (t : Token) (o m : Nat) : Token :=
  let k := if t.ty = .int64 ∨ t.ty = .fp64 then 2 else 1
  { t with tag := setTagFld t.tag t.L (t.base + o), n := m, lanes := if t.shape = .dense then (t.lanes.drop (k * o)).take (k * m) else t.lanes }

/-- ember's draw of R81 and R269 as lanes. -/
def drawn (fn : RngFn) (key d : Nat) : List Word :=
  match fn with
  | .sr16 => [BitVec.ofNat 32 (ember key (d / 4) / 2 ^ (16 * (d % 4)) % 2 ^ 16)]
  | .unif => [BitVec.ofNat 32 (roundFmt ⟨false, ember key d / 2 ^ 40, -24, false⟩ .fp32 .rne false).1]
  | .bits => [BitVec.ofNat 32 (ember key d), BitVec.ofNat 32 (ember key d / 2 ^ 32)]

end Sys2Proof.Claims

/-- R252 to R262: FADD, FMUL, FFMA, FMIN, FMAX, FCMP and FSPEC round the exact result of each index once, in the slot's mode, with its random
value under SR and the FPCTL sampled when the pair formed (R270; log entry 65); flags go to the context. FSPEC's special inputs are those of
Table 11-5; 1/x, the square root and its reciprocal are rounded from the exact value, said here by its integer part at the scale of y and
whether it has more; so are the values that are exact. The other values are the model's computation (log entry 21). Another type raises
TYPE-MISMATCH, and a format without hardware FORMAT-EMULATE. -/
def Obligations.FloatSlots : Prop :=
  (∀ (f : FF) (fzo : Bool) (x : Exact), x.sticky = false → 0 < x.mag → x.mag < 2 ^ 24 →
    let is (fn : Nat) (y : Exact) : Prop := fspecVal fn f fzo (.num x) = roundFmt y f .rne fzo
    (∃ y : Exact, is 0 y ∧ y.neg = x.neg ∧ y.exp = -100 - x.exp ∧ y.mag * x.mag ≤ 2 ^ 100 ∧ 2 ^ 100 < (y.mag + 1) * x.mag ∧
      (y.sticky = true ↔ y.mag * x.mag ≠ 2 ^ 100)) ∧
    (x.neg = false → ∃ (y : Exact) (m : Nat), is 1 y ∧ y.neg = false ∧ (m = x.mag ∨ m = 2 * x.mag) ∧ 2 * (y.exp + 60) = x.exp - (if m = x.mag then 0 else 1) ∧
      y.mag ^ 2 ≤ m * 2 ^ 120 ∧ m * 2 ^ 120 < (y.mag + 1) ^ 2 ∧ (y.sticky = true ↔ y.mag ^ 2 ≠ m * 2 ^ 120)) ∧
    (x.neg = false → ∃ (y : Exact) (m : Nat), is 2 y ∧ y.neg = false ∧ (m = x.mag ∨ m = 2 * x.mag) ∧ 2 * (y.exp + 100) = (if m = x.mag then 0 else 1) - x.exp ∧
      y.mag ^ 2 * m ≤ 2 ^ 200 ∧ 2 ^ 200 < (y.mag + 1) ^ 2 * m ∧ (y.sticky = true ↔ y.mag ^ 2 * m ≠ 2 ^ 200)) ∧
    (∀ n : Int, -152 ≤ n → n < 200 → x.neg = decide (n < 0) → (x.mag : Int) * 2 ^ x.exp.toNat = n.natAbs → 0 ≤ x.exp → is 3 ⟨false, 1, n, false⟩) ∧
    (∀ n : Nat, x.neg = false → x.mag = 2 ^ n → is 4 (Exact.ofInt (n + x.exp))) ∧
    (∀ n : Nat, x.neg = false → x.mag = 2 ^ n → x.exp = -n → is 6 (Exact.ofInt 0))) ∧
  (∀ (f : FF) (fzo : Bool) (b : Bool) (e : Int),
    let zero : FVal := .num ⟨b, 0, e, false⟩
    fspecVal 3 f fzo zero = roundFmt ⟨false, 1, 0, false⟩ f .rne fzo ∧ fspecVal 5 f fzo zero = roundFmt ⟨false, 1, 0, false⟩ f .rne fzo ∧
    fspecVal 8 f fzo zero = roundFmt ⟨false, 1, -1, false⟩ f .rne fzo) ∧
  ∀ (s : State) (p : Pair) (c : Ctx) (u : State) (i : Instr) (h : Head) (ty rty : Fmt) (rnd : BitVec 4) (imm : Option (BitVec 32))
    (f : FpMode → FF → Rm → Nat → Nat → List Word × Flags) (q : FF),
    Firing s h p c u → floatSlot i = some (h, ty, rty, rnd, imm, f) → 1 ≤ p.n →
      let m := p.fpMode
      let z := randomOf h p
      let l := p.left
      let r := p.right
      let goes (shape : Shape) (y : Nat → Nat) : Prop := exec i s = .next (elementwise s p c h rty (roundedShape rnd z.shape shape)
        (fun j => f m q (roundOf m rnd (z.val j)) (l.val j) (y j)) u)
      (fmtFF ty = some q → RandomOk rnd z → l.ty = ty →
        (imm = none → goes l.shape fun _ => 0) ∧
        (imm ≠ none → h.arity ≠ 1 → r.ty = ty → goes (shapeOf l.shape r.shape) r.val) ∧
        (∀ k, imm = some k → h.arity = 1 → goes (shapeOf l.shape .run) fun _ => k.toNat)) ∧
      (¬RandomOk rnd z ∨ l.ty ≠ ty ∨ (imm ≠ none ∧ h.arity ≠ 1 ∧ r.ty ≠ ty) →
        exec i s = .next (u.faultPair s.curStn h p { cls := 0x20 } 0 1 (some p))) ∧
      (fmtEmulated ty = true → RandomOk rnd z → l.ty = ty → (imm ≠ none → h.arity ≠ 1 → r.ty = ty) →
        exec i s = .next (u.faultPair s.curStn h p { cls := 0x0F, detail := ty.code } 0 1 (some p)))

/-- R259, R263, R266 and R269: SEL sends on each maximal piece of its predicate the part of L or of R; CVT and DQNT convert each value;
RNG sends the draw of each index, dense. -/
def Obligations.SelectConvertDraw : Prop :=
  ∀ (s : State) (p : Pair) (c : Ctx) (u : State) (h : Head) (ty : Fmt) (rnd : BitVec 4), Firing s h p c u → 1 ≤ p.n →
    let m := p.fpMode
    let L := h.level.toNat + 1
    let l := p.left
    let r := p.right
    let z := randomOf h p
    let fault (i : Instr) (cls detail : Nat) : Prop := exec i s = .next (u.faultPair s.curStn h p { cls, detail } 0 1 (some p))
    (fmtEmulated ty = false → l.ty = ty → r.ty = ty → (intForm p.pred.ty).isSome → ∃ ps,
      Pieces (fun i => (p.pred.val i).testBit 0) p.n ps ∧
      exec (.sel h ty) s = .next (sent s p c h ((ps.map fun (o, k) =>
        let v := if (p.pred.val o).testBit 0 then l else r
        resToks ty (shapeOf l.shape r.shape) L p.tag (p.base + o) k v.exp fun j => lanesOf ty (v.val (o + j))).flatten) u)) ∧
    (intForm p.pred.ty = none ∨ l.ty ≠ ty ∨ r.ty ≠ ty → fault (.sel h ty) 0x20 0) ∧
    (∀ sat, RandomOk rnd z → l.ty ∉ [Fmt.e2m1b, .wide, .fp16, .fp64] → (intForm ty).isSome ∨ (fmtFF ty).isSome →
      exec (.cvt h ty rnd sat) s = .next (elementwise s p c h ty (roundedShape rnd z.shape l.shape)
        (fun j => converted l j ty m (roundOf m rnd (z.val j)) sat) u)) ∧
    (∀ sat, ¬RandomOk rnd z ∨ l.ty ∈ [Fmt.e2m1b, .wide] → fault (.cvt h ty rnd sat) 0x20 0) ∧
    (∀ adj f, RandomOk rnd z → l.ty ∈ [Fmt.bsi8, .bsi16, .e2m1b] → fmtFF ty = some f →
      (l.ty = .e2m1b → l.exp = 0 → fault (.dqnt h ty rnd adj) 0x0E 0x110) ∧
      ((l.ty = .e2m1b → l.exp ≠ 0) → exec (.dqnt h ty rnd adj) s = .next (elementwise s p c h ty (roundedShape rnd z.shape l.shape)
        (fun j => dequantised l j f m (roundOf m rnd (z.val j)) adj) u))) ∧
    (∀ adj, ¬RandomOk rnd z ∨ l.ty ∉ [Fmt.bsi8, .bsi16, .e2m1b] → fault (.dqnt h ty rnd adj) 0x20 0) ∧
    (∀ fn posv seqf d, (fn, ty) ∈ [(RngFn.sr16, Fmt.uint16), (.unif, .fp32), (.bits, .int64)] → r.ty = .int64 →
      (posv = true → l.ty ∈ [Fmt.int32, .uint32, .int64]) →
        let key (i : Nat) : Nat := r.val i ^^^ (if seqf = 7 then 0 else tagFld p.tag (seqf.toNat + 1) * 2 ^ 40) ^^^
          (if posv then l.val i % 2 ^ 40 else p.base + i)
        exec (.slotRng h ty fn posv seqf d) s = .next (sent s p c h
          (resToks ty .dense L p.tag p.base p.n 0 fun i => drawn fn (key i % 2 ^ 64) d.toNat) u)) ∧
    (∀ fn posv seqf d, r.ty ≠ .int64 ∨ (posv = true ∧ l.ty ∉ [Fmt.int32, .uint32, .int64]) → fault (.slotRng h ty fn posv seqf d) 0x20 0)

namespace Sys2Proof.Claims

open Sys2Proof.Machine

/-- The bits of a block's value at an index: those of the entry that covers it (R264). -/
def blockBits (es : List Entry) (i : Nat) : Nat := (entryAt es i).1.val (entryAt es i).2

/-- An element of BQNT read in its own type (R265). -/
def blockReal (m : FpMode) (es : List Entry) (i : Nat) : FVal :=
  let t := (entryAt es i).1
  match intForm t.ty, fmtFF t.ty with
  | some (w, sg), _ => .num (Exact.ofInt (readZ w sg (blockBits es i)))
  | _, some f => decodeF f (blockBits es i) (m.fzi f)
  | _, _ => .nan

/-- The exact value of an element of BQNT, 0 for a NaN or an infinity. -/
def blockExact (m : FpMode) (es : List Entry) (i : Nat) : Exact :=
  match blockReal m es i with
  | .num x => x
  | _ => ⟨false, 0, 0, false⟩

/-- floor(log2(abs(x))) of a nonzero x. -/
def topOf (x : Exact) : Int := (Nat.log2 x.mag : Int) + x.exp

/-- abs(x) is at most 6 * 2^E. -/
def AtMostSix (x : Exact) (E : Int) : Prop :=
  let e := min x.exp (E + 1)
  x.mag * 2 ^ (x.exp - e).toNat ≤ 3 * 2 ^ (E + 1 - e).toNat

/-- The exponent of a BSI block of mantissa width w with elements x on n indices from b, whose rounded magnitudes at exponent E are q E
(R265). -/
def BlockExp (w b n : Nat) (x : Nat → Exact) (q : Int → Nat → Nat) (E : Int) : Prop :=
  let on (i : Nat) : Prop := b ≤ i ∧ i < b + n
  ∃ E0 : Int, E = min 128 (max (-127) E0) ∧
    ((∀ i, on i → (x i).mag = 0) → E0 = -127) ∧
    ((∃ i, on i ∧ (x i).mag ≠ 0) → ∃ top : Int, (∀ i, on i → (x i).mag ≠ 0 → topOf (x i) ≤ top) ∧
      (∃ i, on i ∧ (x i).mag ≠ 0 ∧ topOf (x i) = top) ∧
      ((∃ i, on i ∧ 2 ^ (w - 1) - 1 < q (top - (w - 2)) i) → E0 = top - (w - 2) + 1) ∧
      ((∀ i, on i → q (top - (w - 2)) i ≤ 2 ^ (w - 1) - 1) → E0 = top - (w - 2)))

/-- The least index of a block whose value is extreme, with that value (Table 11-6): larger says that y exceeds x; NaNs are passed over
when there is another value. -/
def Extreme (b n : Nat) (nan : Nat → Prop) (larger : Nat → Nat → Prop) (i : Nat) : Prop :=
  b ≤ i ∧ i < b + n ∧ ¬nan i ∧ ∀ j, b ≤ j → j < b + n → ¬nan j → ¬larger i j ∧ (j < i → larger j i)

/-- ⊕ of Table 11-6 for integers: 0 add, 1 min, 2 max, 3 and, 4 or, 5 xor. -/
def combineB (w : Nat) (sg : Bool) (fn : Nat) (a b : BitVec w) : BitVec w :=
  let z (v : BitVec w) : Int := if sg then v.toInt else v.toNat
  match fn with
  | 0 => a + b
  | 1 => if z a ≤ z b then a else b
  | 2 => if z a ≤ z b then b else a
  | 3 => a &&& b
  | 4 => a ||| b
  | _ => a ^^^ b

/-- ⊕ of Table 11-6 for floats, on codes and the flags so far. -/
def combineF (f : FF) (m : FpMode) (fn : Nat) (a b : Nat × Flags) : Nat × Flags :=
  let x := decodeF f a.1 false
  let y := decodeF f b.1 false
  let r : Nat × Flags := match fn with
    | 0 => addF f .rne (m.fzo f) x y
    | 1 => (encodeF f (minMaxF false false x y), 0)
    | _ => (encodeF f (minMaxF true false x y), 0)
  (r.1, r.2 ||| a.2 ||| b.2)

/-- The function by which a SCAN code combines: 0 and 1 add, 2 max, 3 min. -/
def scanBy (fn : BitVec 4) : Nat := if fn = 2 then 2 else if fn = 3 then 1 else 0

/-- SCAN's running values over a block from b: from start, element by element; max and min begin with the first element of all. -/
def Runs {α : Type} (op : α → α → α) (add : Bool) (b n : Nat) (start : α) (x : Nat → α) (run : Nat → α) : Prop :=
  run 0 = start ∧ ∀ k, k < n → run (k + 1) = if b = 0 ∧ k = 0 ∧ add = false then x 0 else op (run k) (x (b + k))

/-- The value of SCAN's carry entry that a block begins with: the identity for the first. -/
def carried (s : State) (p : Pair) (L : Nat) : Nat :=
  if p.base = 0 then 0 else (((s.stn s.curStn).store.find? (isCarry p L)).map fun e => e.tok.val 0).getD 0

/-- u with the running value put in the carry entry, or the entry freed after the last block. -/
def carriedOn (s : State) (p : Pair) (L : Nat) (ty : Fmt) (lanes : List Word) (last : Bool) (u : State) : State :=
  let st := u.stn s.curStn
  u.setStn s.curStn { st with
    store := if last then st.store.filter fun e => !isCarry p L e
      else st.store.map fun e => if isCarry p L e then { e with tok := { e.tok with ty, lanes } } else e }

end Sys2Proof.Claims

/-- R264, R265, R267 and R268: the block slots, for a block whose elements are there. BQNT finds the block's exponent, rounds, clamps
and sends one dense token; REDU combines by the tree of R197 and sends a scalar at the block's number to dest0, or the extreme there and the least index that has it
to dest1; SCAN sends the running values and carries the last on. -/
def Obligations.BlockSlots : Prop :=
  ∀ (s : State) (p : Pair) (c : Ctx) (u : State) (h : Head) (ty : Fmt) (fn rnd : BitVec 4) (cnt : BitVec 32) (w : Nat) (sg : Bool) (f : FF),
    Firing s h p c u → 1 ≤ p.n → p.n ≤ 32 →
      let m := p.fpMode
      let L := h.level.toNat + 1
      let idx : List Nat := (List.range p.n).map (p.base + ·)
      let on (i : Nat) : Prop := p.base ≤ i ∧ i < p.base + p.n
      let x := blockExact m p.l
      let rm (i : Nat) : Rm := roundOf m rnd (blockBits p.r i)
      let bad : Prop := ∃ i, on i ∧ ∀ y, blockReal m p.l i ≠ .num y
      let inputs : Prop := (∀ e ∈ p.l, e.tok.ty ∈ [Fmt.fp32, .bf16, .int8, .int16, .int32]) ∧ ∀ e ∈ p.r, RandomOk rnd e.tok
      let scalar (ty : Fmt) (lanes : List Word) : List Token := [resTok ty .scalar L p.tag (p.base / 32) 1 0 lanes]
      (inputs → (ty = .bsi8 ∧ w = 8 ∨ ty = .bsi16 ∧ w = 16) → ∃ (q : Int → Nat → Nat) (E : Int) (fl : Flags),
        (∀ E i, RoundsTo { x i with exp := (x i).exp - E } 0 (rm i) (q E i)) ∧ BlockExp w p.base p.n x q E ∧
        (let lane (i : Nat) : Int := (if (x i).neg then -1 else 1) * (min (2 ^ (w - 1) - 1) (q E i) : Nat)
         let past : Prop := ∃ i, on i ∧ 2 ^ (w - 1) - 1 < q E i
         let inexact : Prop := ∃ i, on i ∧ Inexact { x i with exp := (x i).exp - E } 0 (min (2 ^ (w - 1) - 1) (q E i))
         (fl.getLsbD 4 = true ↔ inexact) ∧ (fl.getLsbD 3 = true ↔ inexact ∧ E = -127) ∧ (fl.getLsbD 2 = true ↔ past) ∧
         fl.getLsbD 1 = false ∧ (fl.getLsbD 0 = true ↔ bad) ∧
         exec (.bqnt h ty rnd cnt) s = .next (sent s p c h
           [resTok ty .dense L p.tag p.base p.n (BitVec.ofInt 8 (E + 127)) (idx.map fun i => BitVec.ofInt 32 (lane i))] (flagged s p fl u)))) ∧
      (inputs → ty = .e2m1b → ∃ (E E0 : Int), E = min 128 (max (-126) E0) ∧
        ((∀ i, on i → (x i).mag = 0) → E0 = 0) ∧
        ((∃ i, on i ∧ (x i).mag ≠ 0) → (∀ i, on i → AtMostSix (x i) E0) ∧ ∃ i, on i ∧ ¬AtMostSix (x i) (E0 - 1)) ∧
        (let r (i : Nat) : Nat × Flags := roundFmt { x i with exp := (x i).exp - E } .e2m1 (rm i) m.fzo8
         ∃ nv : Flags, (bad → nv = fNV) ∧ (¬bad → nv = 0) ∧
           exec (.bqnt h ty rnd cnt) s = .next (sent s p c h
             [resTok ty .dense L p.tag p.base p.n (BitVec.ofInt 8 (E + 127)) (idx.map fun i => BitVec.ofNat 32 (r i).1)]
             (flagged s p (idx.foldl (fun a i => a ||| (r i).2) nv) u)))) ∧
      (¬inputs → exec (.bqnt h ty rnd cnt) s = .next (u.faultPair s.curStn h p { cls := 0x20 } 0 1 (some p))) ∧
      ((∃ e ∈ p.l, e.tok.ty ≠ ty) → ∀ i ∈ [Instr.redu h ty fn cnt, .scan h ty fn cnt],
        exec i s = .next (u.faultPair s.curStn h p { cls := 0x20 } 0 1 (some p))) ∧
      ((∀ e ∈ p.l, e.tok.ty = ty) →
        (intForm ty = some (w, sg) →
          let y (i : Nat) : BitVec w := BitVec.ofNat w (blockBits p.l i)
          let z (i : Nat) : Int := readZ w sg (blockBits p.l i)
          (fn.toNat ≤ 5 → ∃ r, treeOf (combineB w sg fn.toNat) 5 (idx.map y) = some r ∧
            exec (.redu h ty fn cnt) s = .next (sentRaw s p c h (tagged h (scalar ty (lanesB w sg r))) [] u)) ∧
          (fn = 6 ∨ fn = 7 → ∃ i, Extreme p.base p.n (fun _ => False) (fun a b => if fn = 6 then z a < z b else z b < z a) i ∧
            exec (.redu h ty fn cnt) s = .next (sentRaw s p c h (tagged h (scalar ty (lanesZ w (z i))))
              (tagged h (scalar .uint32 [BitVec.ofNat 32 i])) u)) ∧
          (fn.toNat ≤ 3 → ∃ run : Nat → BitVec w,
            Runs (combineB w sg (scanBy fn)) (fn.toNat < 2) p.base p.n (BitVec.ofNat w (carried s p L)) y run ∧
            exec (.scan h ty fn cnt) s = .next (sent s p c h
              (resToks ty .dense L p.tag p.base p.n 0 fun k => lanesB w sg (if fn = 1 then run k else run (k + 1)))
              (carriedOn s p L ty (lanesB w sg (run p.n)) (p.base + p.n = cnt.toNat) u)))) ∧
        (fmtFF ty = some f →
          let code (i : Nat) : Nat := encodeF f (decodeF f (blockBits p.l i) (m.fzi f))
          let v (i : Nat) : FVal := decodeF f (code i) false
          (fn.toNat ≤ 2 → ∃ r, treeOf (combineF f m fn.toNat) 5 (idx.map fun i => (code i, 0)) = some r ∧
            exec (.redu h ty fn cnt) s = .next (sentRaw s p c h (tagged h (scalar ty [BitVec.ofNat 32 r.1])) [] (flagged s p r.2 u))) ∧
          (fn = 6 ∨ fn = 7 → (∃ i, on i ∧ v i ≠ .nan) → ∃ i j,
            Extreme p.base p.n (fun k => v k = .nan)
              (fun a b => (cmpF .eq (v a) (v b)).1 = false ∧ if fn = 6 then fLess (v a) (v b) = true else fLess (v b) (v a) = true) i ∧
            on j ∧ v j ≠ .nan ∧ (∀ k, on k → (if fn = 6 then fLess (v j) (v k) else fLess (v k) (v j)) = false) ∧
            exec (.redu h ty fn cnt) s = .next (sentRaw s p c h (tagged h (scalar ty [BitVec.ofNat 32 (encodeF f (v j))]))
              (tagged h (scalar .uint32 [BitVec.ofNat 32 i])) u)) ∧
          (fn.toNat ≤ 3 → ∃ run : Nat → Nat × Flags,
            Runs (combineF f m (scanBy fn)) (fn.toNat < 2) p.base p.n (carried s p L, 0) (fun i => (code i, 0)) run ∧
            exec (.scan h ty fn cnt) s = .next (sent s p c h
              (resToks ty .dense L p.tag p.base p.n 0 fun k => [BitVec.ofNat 32 (if fn = 1 then run k else run (k + 1)).1])
              (flagged s p (run p.n).2 (carriedOn s p L ty [BitVec.ofNat 32 (run p.n).1] (p.base + p.n = cnt.toNat) u))))))

namespace Sys2Proof.Claims

open Sys2Proof.Machine

/-- The lanes of a constant of a type: for INT64 sext(imm32, 32) in two lanes, for a type of 8 or 16 bits its low bits, extended, else
imm32 (R233). -/
def constLane (ty : Fmt) (v : BitVec 32) : List Word :=
  if ty = .int64 then [v, if v.msb then BitVec.allOnes 32 else 0] else if ty.bits = 8 ∨ ty.bits = 16 then lanesOf ty v.toNat else [v]

/-- u with tokens in flight, piece by piece, each to a destination of its own. -/
def sentEach (s : State) (p : Pair) (c : Ctx) (l : List (Option Dest × List Token)) (u : State) : State :=
  { u with net := u.net ++ (l.map fun (d, ts) => flights s p c d ts).flatten }

/-- A scalar at the pair's own tag. -/
def tagScalar (ty : Fmt) (L : Nat) (p : Pair) (exp : Byte) (lanes : List Word) : Token :=
  { resTok ty .scalar L p.tag 0 1 exp lanes with tag := p.tag }

/-- A count operand's value at an index, read unsigned from 32 bits. -/
def countAt (t : Token) (i : Nat) : Nat := t.val i % 2 ^ 32

/-- A type whose values are read unsigned as counts and indices (R235, R239). -/
def CountTy (ty : Fmt) : Prop := ty = .uint32 ∨ ty = .int32

/-- The pair's context after SINK has counted its indices (R234). -/
def sunk (s : State) (p : Pair) (c : Ctx) (u : State) : State :=
  let st := u.stn s.curStn
  let old := spGet 0 c.sinks p.slot.toNat
  u.setStn s.curStn { st with
    ctxs := st.ctxs.set p.cx.val { c with sinks := spInsert c.sinks p.slot.toNat (old + BitVec.ofNat 64 p.n) } }

/-- The helper core's receive queue that dest0 of an XMIT names (R242). -/
def queueAgent (d : Dest) (a : Agent) : Prop :=
  a.kind = (if d.port = 0 then .access else .drain) ∧ a.die.val = d.stn.toNat / 8192 ∧ a.core.val = d.stn.toNat / 64 % 128

/-- An XMIT's token has room in its queue of 64 entries: tokens on their way count (the model's choice: log entry 20). -/
def Room (s : State) (a : Agent) : Prop := (s.core a).rq.length + (s.xnet.filter fun f => f.agent == a).length < 64

/-- u after an XMIT: an entry on its way to the queue, a copy to dest1. -/
def xmitted (s : State) (p : Pair) (c : Ctx) (h : Head) (a : Agent) (u : State) : State :=
  let t := p.left
  { u with
    xnet := u.xnet ++ [⟨16 * s.curStn + p.slot.toNat, a, { t with stn := 0, slot := 0, port := 0, act := 0 }⟩]
    net := u.net ++ flights s p c h.d1 (tagged h [t]) }

/-- Every core but one is as it was. -/
def OthersBut (s : State) (a : Agent) (t : State) : Prop := ∀ b, agentIdx b ≠ agentIdx a → t.core b = s.core b

end Sys2Proof.Claims

/-- R226 to R231 and R238: PASS, MERGE, GATE, WADV, NEST and UNNEST send their L token, each with its tag operation; a value operand of
another type raises TYPE-MISMATCH, here and at the other slots that pass values on. -/
def Obligations.PassingSlots : Prop :=
  ∀ (s : State) (p : Pair) (c : Ctx) (u : State) (h : Head) (ty : Fmt), Firing s h p c u →
    (p.left.ty = ty → fmtEmulated ty = false →
      ∀ i ∈ [Instr.pass h ty, .merge h ty, .gate h ty, .wadv h ty, .nest h ty, .unnest h ty], exec i s = .next (sent s p c h [p.left] u)) ∧
    (p.left.ty ≠ ty → ∀ k n, (intForm p.right.ty).isSome → CountTy p.right.ty →
      ∀ i ∈ [Instr.pass h ty, .merge h ty, .gate h ty, .wadv h ty, .nest h ty, .unnest h ty, .steer h ty, .tset h ty k, .rsplit h ty n,
          .expand h ty, .pack h ty, .xmit h ty],
        exec i s = .next (u.faultPair s.curStn h p { cls := 0x20 } 0 1 (some p)))

/-- R229, R232 to R236, R239 to R241: STEER sends the maximal pieces of L by bit 0 of R; JOIN, CONST, SINK, COUNT and PURGE; TSET and TGET
write and read a field of the tag; RSPLIT, RLEN, EXPAND and PACK reshape runs. COUNT raises COUNT-RANGE at the first value above its level's
field, and sends nothing then. -/
def Obligations.FlowSlots : Prop :=
  ∀ (s : State) (p : Pair) (c : Ctx) (u : State) (h : Head) (ty : Fmt), Firing s h p c u → 1 ≤ p.n →
    let L := h.level.toNat + 1
    let l := p.left
    let r := p.right
    let mismatch (i : Instr) : Prop := exec i s = .next (u.faultPair s.curStn h p { cls := 0x20 } 0 1 (some p))
    let ok : Prop := l.ty = ty ∧ fmtEmulated ty = false
    (ok → (intForm r.ty).isSome → ∃ ps, Pieces (fun i => (r.val i).testBit 0) p.n ps ∧
      exec (.steer h ty) s = .next (sentEach s p c
        (ps.map fun (o, m) => (if (r.val o).testBit 0 then h.d0 else h.d1, tagged h [partOf l o m])) u)) ∧
    (intForm r.ty = none → mismatch (.steer h ty)) ∧
    (∀ n, exec (.join h n) s = .next (sent s p c h [resTok .uint32 .scalar L p.tag 0 1 0 [n]] u)) ∧
    (∀ e v, h.arity = 0 → exec (.const h ty e v) s = .next (sent s p c h [tagScalar ty L p e (constLane ty v)] u)) ∧
    (∀ e v, h.arity ≠ 0 → exec (.const h ty e v) s =
      .next (sent s p c h [{ tagScalar ty L p e (constLane ty v) with shape := .run, n := p.n }] u)) ∧
    (∀ n, exec (.sink h ty n) s = .next (sunk s p c u)) ∧
    (∀ v, CountTy l.ty →
      ((∀ i, i < p.n → countAt l i ≤ fieldSize (L + 1)) → exec (.count h ty v) s = .next (sentEach s p c
        ((List.range p.n).map fun i =>
          let m := countAt l i
          let at_ (j : Nat) : DWord := setTagFld (setTagFld (setTagFld p.tag L (p.base + i)) (L + 1) 0) (L + 1) j
          if m = 0 then [] else
            [(h.d0, [{ resTok ty .run (L + 1) 0 0 m 0 (constLane ty v) with tag := setTagFld (setTagFld p.tag L (p.base + i)) (L + 1) 0 }]),
             (h.d1, [{ resTok .uint32 .scalar (L + 1) 0 0 1 0 [BitVec.ofNat 32 m] with tag := at_ (m - 1) }])]).flatten u)) ∧
      (∀ i, i < p.n → fieldSize (L + 1) < countAt l i → (∀ j, j < i → countAt l j ≤ fieldSize (L + 1)) →
        exec (.count h ty v) s = .next (u.faultPair s.curStn h p { cls := 0x24, detail := 1 } i 1 (some p)))) ∧
    (∀ v, ¬CountTy l.ty → mismatch (.count h ty v)) ∧
    (exec (.purge h ty) s = .next (sent s p c h [tagScalar ty L p 0 (lanesOf ty 0)] u)) ∧
    (∀ k : BitVec 2,
      let K := k.toNat + 1
      let idx (i : Nat) : Nat := countAt r i % fieldSize K
      (¬CountTy r.ty → mismatch (.tset h ty k)) ∧
      (ok → CountTy r.ty →
        (K < L → r.shape ≠ .dense →
          exec (.tset h ty k) s = .next (sent s p c h [{ l with tag := setTagFld l.tag K (idx 0) }] u)) ∧
        (¬(K < L ∧ r.shape ≠ .dense) → exec (.tset h ty k) s = .next (sent s p c h ((List.range p.n).map fun i =>
          { resTok ty .scalar L 0 0 1 l.exp (lanesOf ty (l.val i)) with tag := setTagFld (setTagFld p.tag L (p.base + i)) K (idx i) }) u)))) ∧
    (∀ k : BitVec 3,
      let K := k.toNat + 1
      (k = 4 → exec (.tget h k) s = .next (sent s p c h
        (resToks .uint32 l.shape L p.tag p.base p.n 0 fun _ => [BitVec.ofNat 32 (tagCtx p.tag).toNat]) u)) ∧
      (k.toNat < 4 → K < L → exec (.tget h k) s = .next (sent s p c h
        (resToks .uint32 l.shape L p.tag p.base p.n 0 fun _ => [BitVec.ofNat 32 (tagFld p.tag K)]) u)) ∧
      (k.toNat < 4 → K = L → exec (.tget h k) s = .next (sent s p c h
        (resToks .uint32 (if l.shape = .scalar then .scalar else .dense) L p.tag p.base p.n 0 fun i => [BitVec.ofNat 32 (p.base + i)]) u))) ∧
    (∀ k, 1 ≤ k.toNat → ok → ∃ ps, Pieces (fun i => (p.base + i) / k.toNat) p.n ps ∧
      exec (.rsplit h ty k) s = .next (sent s p c h (ps.map fun (o, m) => partOf l o m) u)) ∧
    (exec (.rlen h) s = .next (sent s p c h [tagScalar .uint32 L p 0 [BitVec.ofNat 32 p.n]] u)) ∧
    (ok → (l.shape = .run → exec (.expand h ty) s =
        .next (sent s p c h (resToks ty .dense L p.tag p.base p.n l.exp fun _ => lanesOf ty (l.val 0)) u)) ∧
      (l.shape ≠ .run → exec (.expand h ty) s = .next (sent s p c h [l] u))) ∧
    (ok → (l.shape = .dense → ∃ ps, Pieces l.val p.n ps ∧
        exec (.pack h ty) s = .next (sent s p c h (ps.map fun (o, m) => resTok ty .run L p.tag (p.base + o) m l.exp (lanesOf ty (l.val o))) u)) ∧
      (l.shape ≠ .dense → exec (.pack h ty) s = .next (sent s p c h [l] u)))

/-- R113 and R242: XMIT sends its token to a helper core's receive queue and a copy to dest1; a full queue holds the pair, which goes on
when there is room, entries on their way counting as taken (the model's choice: log entry 20); entries arrive in the order of their slot,
over links that are open (log entry 45). -/
def Obligations.ReceiveQueues : Prop :=
  ∀ (s : State) (h : Head) (ty : Fmt),
    (∀ p c u, Firing s h p c u → p.left.ty = ty → fmtEmulated ty = false →
      (h.d0 = none → exec (.xmit h ty) s = .next { u with net := u.net ++ flights s p c h.d1 (tagged h [p.left]) }) ∧
      (∀ d, h.d0 = some d → ∃ a, queueAgent d a ∧
        (Room u a → exec (.xmit h ty) s = .next (xmitted s p c h a u)) ∧
        (¬Room u a → exec (.xmit h ty) s = .next s))) ∧
    (∀ n p c u d, Firing { s with curStn := n } h p c u → c.instr p.slot = some (.xmit h ty) → p.left.ty = ty → fmtEmulated ty = false →
      h.d0 = some d → ∃ a, queueAgent d a ∧
        (Room u a → exec (.xmitQueueRoom n) s = .next (xmitted { s with curStn := n } p c h a u)) ∧
        (¬Room u a → exec (.xmitQueueRoom n) s = .next s)) ∧
    (∀ n f, s.xnet[n]? = some f →
      let behind : Prop := ∃ k g, k < n ∧ s.xnet[k]? = some g ∧ g.src = f.src ∧ g.agent = f.agent
      (¬behind → s.linkOpen (senderDie f.src) f.agent.die.val = true → Answers (.receiveQueueArrival n) s fun t =>
        (t.core f.agent).rq = (s.core f.agent).rq ++ [f.tok] ∧ t.xnet = listRemove n s.xnet ∧ OthersBut s f.agent t ∧
        t = { s with xnet := t.xnet, cores := t.cores }) ∧
      (behind ∨ s.linkOpen (senderDie f.src) f.agent.die.val = false → exec (.receiveQueueArrival n) s = .next s))

namespace Sys2Proof.Claims

open Sys2Proof.Machine

/-- Context cx of station k serves a token: its tag is the token's, its launch holds the core, and no other context's does (R87). -/
def Serves (s : State) (k : Nat) (t : Token) (cx : Fin 4) : Prop :=
  let is (j : Fin 4) : Prop := ((s.stn k).ctxs[j.val]).tag = some (tagCtx t.tag) ∧
    ∃ m, ((s.stn k).ctxs[j.val]).lid = some m ∧ (s.core (stnAgent k)).lid = some m
  is cx ∧ ∀ j, is j → j = cx

/-- The n-th token in flight may reach its station: no earlier one of its source and port, and none before it in the list of a loader or a
resume, is in flight; the links that it crosses are open; the station has four free entries, and has in this cycle taken fewer than four
tokens and none that comes after it in a cycle's order of ports, slots and inputs (R102, R103, R107, R140, R213, R391). -/
def Deliverable (s : State) (n : Nat) (f : Flight) : Prop :=
  let st := s.stn f.tok.stn.toNat
  s.net[n]? = some f ∧
    (∀ j g, j < n → s.net[j]? = some g → ¬(g.src = f.src ∧ g.tok.stn = f.tok.stn ∧ g.tok.slot = f.tok.slot ∧ g.tok.port = f.tok.port) ∧
      ¬(f.fifo ≠ none ∧ g.fifo = f.fifo)) ∧
    s.linkOpen (senderDie f.src) (f.tok.stn.toNat / 8192) = true ∧ 4 ≤ st.free ∧
    (st.arrAt = s.now → st.arrKey ≤ arrPlace f ∧ st.arrN < 4)

/-- The station of a token in flight with its arrival counted in the cycle. -/
def counted (s : State) (f : Flight) : Station :=
  let st := s.stn f.tok.stn.toNat
  { st with arrAt := s.now, arrKey := arrPlace f, arrN := if st.arrAt = s.now then st.arrN + 1 else 1 }

/-- s after the n-th token in flight has gone into its station, which becomes st. -/
def arrived (s : State) (n k : Nat) (st : Station) : State :=
  ({ s with net := listRemove n s.net, nextId := s.nextId + 1 }).setStn k st

/-- s after an arrival that faults: the token is held at the station's input and the launch stops (R419, R445). -/
def arrivalFault (s : State) (n : Nat) (fl : Flight) (lid : Option Nat) (word : SWord) (f : FI) : State :=
  let t := fl.tok
  let k := t.stn.toNat
  let st := counted s fl
  (arrived s n k { st with held := st.held ++ [⟨t, lid.getD 0xFFFF⟩] }).stopLaunch lid
    (stnRec k lid word t.slot t.level (tagCtx t.tag) t.tag 1 f)

/-- A pair that forms at a station samples the FPCTL of its core's access core (R71, R270; log entry 65). -/
def sampled (s : State) (k : Nat) (p : Pair) : Pair := { p with fp := (s.core (stnAgent k)).fpctl }

/-- An entry waits for a token of the same slot, context and outer fields, at a port. -/
def WaitsFor (cx : Fin 4) (t : Token) (port : BitVec 2) (e : Entry) : Bool :=
  decide (e.cx = cx ∧ e.tok.slot = t.slot ∧ outerOf e.tok.tag t.L = outerOf t.tag t.L ∧ e.tok.port = port)

/-- A token's interval lies in its level's field (R93). -/
def InField (t : Token) : Prop := 1 ≤ t.n ∧ t.base + t.n ≤ fieldSize t.L

/-- Two intervals have an index in common. -/
def Meets (t v : Token) : Prop := t.base < v.base + v.n ∧ v.base < t.base + t.n

/-- Entries put into a store in order of arrival. -/
def putAll (l store : List Entry) : List Entry := l.foldl (fun st e => insertEntry e st) store

end Sys2Proof.Claims

/-- R71, R87, R97 to R103, R227, R230, R232, R264 and R445: what a token that arrives does. A slot of one port fires on it, and so does MERGE; at
a slot of two it pairs with the oldest partner that overlaps it, on the overlap, the remainders waiting; or it waits. A sticky token stays and
pairs with each partner; a purge removes it. An index that is there already raises TAG-COLLISION, one beyond a count COUNT-RANGE, a context
that is not served CONTEXT; the token is then held. -/
def Obligations.TokenArrival : Prop :=
  ∀ (s : State) (n : Nat) (f : Flight), let t := f.tok
    let k := t.stn.toNat
    let st := counted s f
    let now (p : Pair) : Pair := sampled s k p
    let goes (st' : Station) : Prop := exec (.tokenArrival n) s = .next (arrived s n k st')
    (s.net[n]? = some f → ¬Deliverable s n f → exec (.tokenArrival n) s = .next s) ∧
    (Deliverable s n f → (∀ cx, ¬Serves s k t cx) → (∀ i j : Fin 4, ((st.ctxs[i.val]).tag = (st.ctxs[j.val]).tag) → (st.ctxs[i.val]).tag ≠ none → i = j) →
      exec (.tokenArrival n) s = .next (arrivalFault s n f (s.openLaunch f.lid) 0 { cls := 0x23, detail := (tagCtx t.tag).toNat })) ∧
    (∀ cx w i, Deliverable s n f → Serves s k t cx → spFind (st.ctxs[cx.val]).words t.slot.toNat = some w →
      decodeStation w.toNat = .ok i → 1 ≤ t.n →
      let e : Entry := ⟨cx, .normal, t, s.nextId⟩
      let faults (cls detail : Nat) : Prop :=
        exec (.tokenArrival n) s = .next (arrivalFault s n f (st.ctxs[cx.val]).lid w { cls, detail })
      let other : BitVec 2 := 1 - t.port
      let taken (kind : EntryKind) : Prop := ∃ x ∈ st.store, x.kind = kind ∧ WaitsFor cx t t.port x ∧ Meets x.tok t
      let partner (x : Entry) : Prop := x.kind = .normal ∧ WaitsFor cx t other x ∧ Meets x.tok t
      let sticky (x : Entry) : Prop := x.kind = .sticky ∧ WaitsFor cx t other x
      (actionOf i t = 2 → goes { st with store := st.store.filter fun x =>
        !(x.kind == .sticky && x.tok.port == t.port && x.at_ cx t.slot t.L (outerOf t.tag t.L)) }) ∧
      (actionOf i t = 1 → slotKind i = .plain → t.shape = .dense → faults 0x1B 0) ∧
      (actionOf i t = 0 → slotKind i = .plain →
        (taken .normal → faults 0x21 t.port.toNat) ∧
        (slotPorts i = [t.port] → ¬taken .normal →
          goes { st with issueq := st.issueq ++ [now (mkPair cx t.slot t.tag t.L t.base t.n [e])] }) ∧
        (slotPorts i = [0, 1] → t.port ∈ slotPorts i → ¬taken .normal →
          ((∀ x ∈ st.store, ¬partner x ∧ ¬sticky x) → goes { st with store := insertEntry e st.store }) ∧
          (∀ x, st.store.find? (fun x => x.kind == .sticky && WaitsFor cx t other x) = some x → (∀ y ∈ st.store, ¬partner y) →
            goes { st with issueq := st.issueq ++ [now (mkPair cx t.slot t.tag t.L t.base t.n [e, x])] }) ∧
          (∀ x a z, st.store = a ++ x :: z → partner x → (∀ y ∈ a ++ z, ¬partner y ∧ ¬sticky y) → x ∉ a ++ z → InField t → InField x.tok →
            x.tok.level = t.level →
            let lo := max t.base x.tok.base
            let hi := min (t.base + t.n) (x.tok.base + x.tok.n)
            goes { st with
              issueq := st.issueq ++ [now (mkPair cx t.slot t.tag t.L lo (hi - lo) [e, x])]
              store := putAll (e.outside lo hi) (putAll (x.outside lo hi) (a ++ z)) }))) ∧
      (actionOf i t = 1 → slotKind i = .plain → slotPorts i = [0, 1] → t.port ∈ slotPorts i → t.shape ≠ .dense →
        (∀ x ∈ st.store, x.kind = .normal → ∀ q, q ≠ t.port → WaitsFor cx t q x = false) → goes { st with
          store := insertEntry { e with kind := .sticky } (st.store.filter fun x => !(x.kind == .sticky && WaitsFor cx t t.port x)) }) ∧
      (actionOf i t = 0 → slotKind i = .merge →
        let clash : Prop := ∃ p ∈ st.issueq, p.cx = cx ∧ p.slot = t.slot ∧ outerOf p.tag t.L = outerOf t.tag t.L ∧
          ∃ x ∈ p.l ++ p.r, x.tok.port ≠ t.port ∧ Meets x.tok t
        (clash → faults 0x21 (t.port.toNat + 4)) ∧
        (¬clash → goes { st with issueq := st.issueq ++ [now ⟨cx, t.slot, t.tag, t.base, t.n, [e], [], [], 0⟩] })) ∧
      (∀ m, actionOf i t = 0 → slotKind i = .join m →
        let mine (x : Entry) : Prop := x.kind = .interval ∧ WaitsFor cx t x.tok.port x
        (m < t.base + t.n → faults 0x24 2) ∧
        (t.base + t.n ≤ m → (∃ x ∈ st.store, mine x ∧ Meets x.tok t) → faults 0x21 (t.port.toNat + 4)) ∧
        ((∀ x ∈ st.store, ¬mine x) →
          (t.base = 0 → t.n = m →
            goes { st with issueq := st.issueq ++ [now ⟨cx, t.slot, setTagFld t.tag t.L 0, 0, m, [], [], [], 0⟩] }) ∧
          (t.base + t.n ≤ m → t.n ≠ m → ∃ x, goes { st with store := insertEntry x st.store } ∧ x.kind = .interval ∧
            x.cx = cx ∧ x.tok.slot = t.slot ∧ x.tok.base = t.base ∧ x.tok.n = t.n ∧ x.tok.L = t.L ∧
            outerOf x.tok.tag t.L = outerOf t.tag t.L))) ∧
      (∀ m, actionOf i t = 0 → t.port = 0 → (∃ scan, slotKind i = .block m scan) → takesRandom i = false →
        (m < t.base + t.n → faults 0x24 2) ∧
        (t.base + t.n ≤ m → taken .block → faults 0x21 4) ∧
        ((∀ x ∈ st.store, x.kind ≠ .block ∧ ∀ j, x.kind ≠ .carry j) → t.base = 0 → t.n = m → m ≤ 32 →
          ∃ x, goes { st with issueq := st.issueq ++ [now ⟨cx, t.slot, setTagFld t.tag t.L 0, 0, m, [x], [], [], 0⟩] } ∧
            ∀ j, j < m → (entryAt [x] j).1.ty = t.ty ∧ (entryAt [x] j).1.val (entryAt [x] j).2 = t.val j)))

/-! ## Memory nodes -/

namespace Sys2Proof.Claims

open Sys2Proof.Machine

/-- A memory node's head, kind (0 LDN, 1 STN, 2 AMON, 3 FAMN), type and fields. -/
def nodeForm : Instr → Option (Head × Nat × Fmt × NodeF)
  | .ldn h ty f => some (h, 0, ty, f)
  | .stn h ty f => some (h, 1, ty, f)
  | .amon h ty f => some (h, 2, ty, f)
  | .famn h f => some (h, 3, .fp32, f)
  | _ => none

/-- Width of a node's access in bytes (R244). -/
def nodeBytes (kind : Nat) (ty : Fmt) : Nat :=
  if kind = 3 then 32
  else match ty with
    | .int8 | .uint8 | .e4m3 | .e5m2 => 1
    | .int16 | .uint16 | .bf16 => 2
    | .int64 => 8
    | _ => 4

/-- The types that a node accepts (R244). -/
def nodeType (kind : Nat) (ty : Fmt) : Prop :=
  if kind = 2 then ty = .int32 ∨ ty = .int64
  else ty ∈ [Fmt.int8, .uint8, .e4m3, .e5m2, .int16, .uint16, .bf16, .int32, .uint32, .fp32, .int64]

/-- The place of a node's access at an offset of its pair, or its fault (R245, R249). -/
def nodeAt (s : State) (n : Nat) (c : Ctx) (kind : Nat) (ty : Fmt) (f : NodeF) (l : Token) (o : Nat) : Except FI Loc :=
  let W := nodeBytes kind ty
  let A : Int := l.val o + f.off.toInt * W
  let w : Who := ⟨stnDie n, n / 64 % 128, false, c.tag.getD 0⟩
  match kind with
  | 0 => s.access w A W W false f.fg
  | 1 => s.access w A W W true
  | 2 => s.accessRmw w A W
  | _ => s.wideCell w A true

/-- An arc holds the access at an offset: its predecessor's access has not been performed (R108). -/
def ArcHolds (s : State) (lid : Nat) (f : NodeF) (p : Pair) (L o : Nat) : Prop :=
  f.pred ≠ 127 ∧ ¬(f.carried = true ∧ p.base + o = 0) ∧
    ∀ a ∈ s.arcs, ¬(a.lid = lid ∧ a.node = f.pred ∧ a.tag = setTagFld p.tag L (if f.carried then p.base + o - 1 else p.base + o))

/-- u with an operation of a memory node waiting to be performed. -/
def nodeWaits (s : State) (op : NodeOp) (u : State) : State :=
  u.setStn s.curStn { u.stn s.curStn with nodeOps := (u.stn s.curStn).nodeOps ++ [op] }

/-- The record of a memory node's pair some of whose indices fault (R413, R420; log entry 67): the class that comes first, with what it says at
the lowest index that meets it; the lowest faulting index; how many indices fault. -/
def PairRec (n lid : Nat) (h : Head) (c : Ctx) (p : Pair) (fs : List (Nat × FI)) (r : FRec) : Prop :=
  ∃ o0 o e, (∃ g, (o0, g) ∈ fs) ∧ (∀ x ∈ fs, o0 ≤ x.1) ∧ (o, e) ∈ fs ∧
    (∀ x ∈ fs, laneRank e.cls < laneRank x.2.cls ∨ (laneRank e.cls = laneRank x.2.cls ∧ o ≤ x.1)) ∧
    r = stnRec n (some lid) ((spFind c.words p.slot.toNat).getD 0) p.slot h.level ((c.tag).getD 0)
      (setTagFld p.tag (h.level.toNat + 1) (p.base + o0)) fs.length e

/-- The offsets below n that satisfy bad, as maximal runs in ascending order: offset and length. -/
def RunsOf (bad : Nat → Prop) (n : Nat) (ps : List (Nat × Nat)) : Prop :=
  (∀ o, (∃ q ∈ ps, q.1 ≤ o ∧ o < q.1 + q.2) ↔ o < n ∧ bad o) ∧ (∀ q ∈ ps, 1 ≤ q.2) ∧ ps.Pairwise fun a b => a.1 + a.2 < b.1

/-- Station st with parts of a pair returned as operand entries (R419). -/
def returned (st : Station) (p : Pair) (L : Nat) (ps : List (Nat × Nat)) : Station :=
  ps.foldl (fun st q => st.giveUp ((p.from_ L q.1).upto q.2)) st

/-- The operation of a pair whose accesses at the offsets that satisfy good have been issued. -/
def NodeOpOf (s : State) (lid : Nat) (f : NodeF) (p : Pair) (L : Nat) (good : Nat → Prop) (op : NodeOp) : Prop :=
  op.pair = p ∧ op.vals = [] ∧ (∀ o, o ∈ op.todo ↔ o < p.n ∧ good o) ∧ (∀ o, o ∈ op.main ↔ o < p.n ∧ good o ∧ ¬ArcHolds s lid f p L o) ∧
    op.todo.Pairwise (· < ·) ∧ op.main.Pairwise (· < ·)

/-- What an access does at its place: the value it gives, and the bytes that it leaves, none where it only reads. -/
def nodeEffect (s : State) (n kind : Nat) (ty : Fmt) (f : NodeF) (l : Loc) (x : Nat) : Nat × Option (List Byte) :=
  let W := nodeBytes kind ty
  match kind with
  | 0 => (leValue (s.view (stnDie n).val l W), none)
  | 1 => (0, some (leBytes W x))
  | 2 =>
    let w := 8 * W
    let old : BitVec w := BitVec.ofNat w (leValue (s.home l W))
    (leValue (s.home l W), some (leBytes W (if f.func = 8 then BitVec.ofNat w x else amoSpec w f.func.toNat old (BitVec.ofNat w x)).toNat))
  | _ =>
    let old := s.home l 32
    let r := wideAdd (leValue (old.take 16)) (leValue ((old.drop 16).take 1)) x
    (0, some (leBytes 16 r.1 ++ leBytes 1 r.2 ++ old.drop 17))

end Sys2Proof.Claims

/-- R108 to R110, R243 to R249, R413 and R420: a memory node issues its pair, the accesses whose addresses are good waiting to be performed
and the others returning as operand entries with one record, which later faults of the same pair join. Each access is performed by itself, in no
fixed order, when its arc holds it no more, its links are open and what comes before it is performed: it reads, writes, updates or adds, and its
successor may go on; when all that no arc held have been performed, as far as the node's scope, the results are sent. AMON and FAMN wait for
their die to be up to date (the model's choice: log entry 18). -/
def Obligations.MemoryNodes : Prop :=
  ∀ (s : State) (i : Instr) (h : Head) (kind : Nat) (ty : Fmt) (f : NodeF), nodeForm i = some (h, kind, ty, f) → nodeType kind ty →
    let L := h.level.toNat + 1
    (∀ (p : Pair) (c : Ctx) (u : State) (lid : Nat), Firing s h p c u → c.lid = some lid → 1 ≤ p.n →
      let place := nodeAt u s.curStn c kind ty f p.left
      let typed : Prop := p.left.ty ∈ [Fmt.int32, .uint32, .int64] ∧ (kind ≠ 0 → p.right.ty = ty)
      let bad (o : Nat) : Prop := ∃ e, place o = .error e
      (typed → (∀ o, o < p.n → ¬bad o) → ∃ op, NodeOpOf s lid f p L (fun _ => True) op ∧ op.faults = [] ∧ op.raised = none ∧
        exec i s = .next (nodeWaits s op u)) ∧
      (∀ ps fs r, typed → ps ≠ [] → RunsOf bad p.n ps → fs.Pairwise (fun a b => a.1 < b.1) →
        (∀ o e, (o, e) ∈ fs ↔ o < p.n ∧ place o = .error e) → PairRec s.curStn lid h c p fs r →
        let t := (u.setStn s.curStn (returned (u.stn s.curStn) p L ps)).stopLaunch (some lid) r
        ((∀ o, o < p.n → bad o) → exec i s = .next t) ∧
        ((∃ o, o < p.n ∧ ¬bad o) → ∃ op, NodeOpOf s lid f p L (fun o => ¬bad o) op ∧ op.raised = some r ∧
          op.faults = fs.map (fun x => (x.1, x.2.cls, x.2.addr, x.2.detail)) ∧ exec i s = .next (nodeWaits s op t))) ∧
      (¬typed → exec i s = .next (u.faultPair s.curStn h p { cls := 0x20 } 0 1 (some p)))) ∧
    (∀ (n k lid : Nat) (op : NodeOp), (s.stn n).nodeOps[k]? = some op →
      let p := op.pair
      let c := (s.stn n).ctxs[p.cx.val]
      let W := nodeBytes kind ty
      let ak := nodeKey n p.slot
      let place := nodeAt s n c kind ty f p.left
      let goes := Answers (.memoryNodeAccessPerformed n k) s
      let may (l : Loc) : Prop := s.linkTo (stnDie n) l = true ∧ (kind ≠ 1 → s.depsMet ak (stnDie n) l W = true) ∧
        (kind = 2 ∨ kind = 3 → UpToDate s (stnDie n) l W)
      c.lid = some lid → c.instr p.slot = some i →
      (op.todo ≠ [] → f.pred = 127 → (∀ o ∈ op.todo, ∃ l, place o = .ok l ∧ may l) → goes fun t =>
        ∃ o l, o ∈ op.todo ∧ place o = .ok l ∧ (∀ a, SameCore (t.core a) (s.core a)) ∧
          (let r := nodeEffect s n kind ty f l (p.right.val o)
           (∃ id, (t.stn n).nodeOps = listModify (fun op =>
              { op with todo := op.todo.filter (· ≠ o), vals := op.vals ++ [(o, r.1, id)] }) k (s.stn n).nodeOps ∧ (kind = 0 → id = none)) ∧
           (f.succ = 127 → t.arcs = s.arcs) ∧
           (f.succ ≠ 127 → ∃ a, t.arcs = s.arcs ++ [a] ∧ a.lid = lid ∧ a.node = f.node ∧ a.tag = setTagFld p.tag L (p.base + o)) ∧
           SameEngine s t ∧
           t = { s with
             stations := t.stations, arcs := t.arcs, cores := t.cores, mem := t.mem, tags := t.tags, skeys := t.skeys, ecc := t.ecc
             stale := t.stale, staleTags := t.staleTags, pend := t.pend, nextW := t.nextW, nextCo := t.nextCo, know := t.know
             engine := t.engine, spoiled := t.spoiled } ∧
           match r.2 with
           | none => t.mem = s.mem ∧ t.pend = s.pend
           | some bs => s.Inv → InLine l bs.length → OwnKey s l → MemFrame s t l.at_ bs.length ∧ t.home l bs.length = bs)) ∧
      (op.todo ≠ [] → op.main = [] → op.vals = [] → (∀ o ∈ op.todo, ArcHolds s lid f p L o ∨ ∃ l, place o = .ok l ∧ ¬may l) →
        exec (.memoryNodeAccessPerformed n k) s = .next s) ∧
      (∀ o e r, op.todo = [o] → o < p.n → f.pred = 127 → place o = .error e →
        let fs := op.faults.map (fun x => (x.1, { cls := x.2.1, addr := x.2.2.1, detail := x.2.2.2 : FI })) ++ [(o, e)]
        (fs.map (·.1)).Nodup → PairRec n lid h c p fs r →
        let op' : NodeOp := { op with
          todo := [], main := op.main.filter (· ≠ o), faults := op.faults ++ [(o, e.cls, e.addr, e.detail)], raised := some r }
        let s1 := s.setStn n (returned (s.stn n) p L [(o, 1)])
        let ends (t : State) : Prop := exec (.memoryNodeAccessPerformed n k) s = .next (t.setStn n { t.stn n with
          nodeOps := if op.vals = [] then listRemove k (t.stn n).nodeOps else listModify (fun _ => op') k (t.stn n).nodeOps })
        (op.raised = none → ends (s1.stopLaunch (some lid) r)) ∧
        (∀ old l, op.raised = some old → s.launch lid = some l → (∃ x ∈ l.recs, x.2 = old) →
          ends (s1.modLaunch lid fun l => { l with
            recs := l.recs.map fun x => if x.2 = old then (x.1, r) else x, logged := l.logged.map fun x => if x = old then r else x }))) ∧
      (∀ v : Nat → Nat × Option Nat, op.todo = [] → 1 ≤ p.n → op.main = List.range p.n →
        op.vals = (List.range p.n).map (fun o => (o, v o)) →
        let due : Prop := ∀ o id, o < p.n → (v o).2 = some id → (f.scope = .dev ∨ f.scope = .sys) → ¬NotYet s id
        let out := tagged h (if kind = 1 ∨ kind = 3 then [resTok .uint32 .run L p.tag p.base p.n 0 [0]]
          else resToks ty (if p.left.shape = .scalar then .scalar else .dense) L p.tag p.base p.n 0 fun o => lanesOf ty (v o).1)
        let at_ : State := { s with curStn := n }
        (due → exec (.memoryNodeAccessPerformed n k) s = .next
          ({ s with net := s.net ++ flights at_ p c h.d0 out ++ flights at_ p c h.d1 out }.setStn n
            { s.stn n with nodeOps := listRemove k (s.stn n).nodeOps })) ∧
        (¬due → exec (.memoryNodeAccessPerformed n k) s = .next s)))

/-! ## Segments, tables and accumulators -/

namespace Sys2Proof.Claims

open Sys2Proof.Machine

/-- Mantissa width of an activation type (R275). -/
def actBits : Fmt → Option Nat
  | .int8 | .bsi8 => some 8
  | .int16 | .bsi16 => some 16
  | _ => none

/-- A token's value at an offset, signed. -/
def mantAt (w : Nat) (t : Token) (o : Nat) : Int := (BitVec.ofNat w (t.val o)).toInt

/-- A token's exponent: exp - 127 for block-scaled values, 0 for integers (R275). -/
def valueExp (t : Token) : Int := if t.ty = .bsi8 ∨ t.ty = .bsi16 then (t.exp.toNat : Int) - 127 else 0

/-- D of R31 and R34: the difference of two entries of a column with the listed deltas between them, wrapped to the table's width. -/
def segSum (st : Station) (tb : Table) (c a b : Nat) : Int :=
  let listed := st.kindling.filter fun e => e.ctx == tb.ctx && e.t == tb.t && e.col == c && decide (a ≤ e.k) && decide (e.k < b)
  (BitVec.ofInt (if tb.wide then 64 else 32) ((st.ent tb c b : Int) - st.ent tb c a + (listed.map (·.delta)).sum)).toInt

/-- p * 2^s, exactly for s at least 0, else to nearest, ties to even; and whether that changed it (R34). -/
def entering (p s : Int) : Int × Bool :=
  if 0 ≤ s then (p * 2 ^ s.toNat, false)
  else
    let u : Int := 2 ^ (-s).toNat
    let q := p / u
    let r := p % u
    (if 2 * r < u then q else if u < 2 * r then q + 1 else q + q % 2, r ≠ 0)

/-- The pieces of [a, b) of Lsafe indices each from the low end (R33). -/
def safePieces (q a b : Nat) : List (Nat × Nat) :=
  (List.range ((b - a + q - 1) / q)).map fun j => (a + q * j, min (a + q * (j + 1)) b)

/-- A row after products have entered it: products of each column below C whose zero flag is not set, each scaled by 2^sc (R34, R50). -/
def RowGets (tb : Table) (x : Row) (sc : Int) (products : Nat → List Int) (y : Row) (inexact : Prop) : Prop :=
  let live (c : Nat) : Prop := c < 2 ^ tb.lgC ∧ tb.zflags.getD c .invalid ≠ .set
  y.owner = x.owner ∧ y.eacc = x.eacc ∧
    (∀ c : Fin 32, live c.val →
      y.cells[c] = BitVec.ofInt 64 (x.cells[c].toInt + ((products c.val).map fun q => (entering q sc).1).sum)) ∧
    (∀ c : Fin 32, ¬live c.val → y.cells[c] = x.cells[c]) ∧
    (inexact ↔ ∃ c, live c ∧ ∃ q ∈ products c, (entering q sc).2 = true)

/-- The context holds table t at a station, of the right width, not being built or folded, and fit to be read (R272, R284, R430). -/
def TableAt (s : State) (n : Nat) (ctx : Byte) (t : BitVec 2) (tb : Table) : Prop :=
  (s.stn n).table ctx t = some tb ∧ tb.ctx = ctx ∧ tb.t = t ∧
    (∀ b ∈ (s.stn n).bg, b.kind ≠ .pupd → ¬(b.ctx = ctx ∧ b.t = t))

/-- u with a row of the station replaced. -/
def rowPut (s : State) (r : Nat) (y : Row) (u : State) : State :=
  u.setStn s.curStn { u.stn s.curStn with rows := spInsert (u.stn s.curStn).rows r y }

/-- u after SGP, DMAC or SPMC: the input to dest0, its part above the table's range to dest1 (R276). -/
def forwarded (s : State) (p : Pair) (c : Ctx) (h : Head) (tb : Table) (u : State) : State :=
  sentRaw s p c h (tagged h [p.left])
    (if tb.k0 + tb.ks < p.base + p.n then tagged h [partOf p.left (tb.k0 + tb.ks - p.base) (p.n - (tb.k0 + tb.ks - p.base))] else []) u

/-- The row of an operand (R272). -/
def rowNo (p : Pair) (rsel : BitVec 3) (row : BitVec 5) : Nat :=
  if rsel = 0 then row.toNat else (row.toNat + tagFld p.tag rsel.toNat) % 32

/-- The segment product instructions: head, type, row fields, width of their table, and whether they take runs. -/
def productForm : Instr → Option (Head × Fmt × RowSel × Bool × Bool)
  | .sgpN32 h ty r => some (h, ty, r, false, true)
  | .sgpN64 h ty r => some (h, ty, r, true, true)
  | .dmacN32 h ty r => some (h, ty, r, false, false)
  | .dmacN64 h ty r => some (h, ty, r, true, false)
  | .spmc h ty w r => some (h, ty, r, w, false)
  | _ => none

/-- What SPMC may rely on at a table (R278 to R280): a nonzero weight has its bit in the descriptor, and a program that the die's cache holds
for the table as it stands is the one compiled from it, undamaged. -/
def CacheTrue (s : State) (n : Nat) (tb : Table) : Prop :=
  (∀ c i, c < 2 ^ tb.lgC → i < tb.ks → segSum (s.stn n) tb c i (i + 1) ≠ 0 → (tb.bitmaps.getD c 0).testBit i = true) ∧
    ∀ e ∈ (s.die (stnDie n)).pcache, e.slice.stn = n → e.slice.ctx = tb.ctx → e.slice.t = tb.t → e.slice.wgen = tb.wgen →
      ∀ ops, e.prog = .prog ops → compileSlice tb e.slice.j = .prog ops ∧ e.corrupt = false

/-- Groups of R38 over n elements: offset and length, each as long as its rule allows. -/
def Groups (x : Nat → Int) (tau lmax n : Nat) (brk : Nat → Prop) (gs : List (Nat × Nat)) : Prop :=
  (gs.map (·.2)).sum = n ∧ ∀ k o m, gs[k]? = some (o, m) → o = ((gs.take k).map (·.2)).sum ∧
    let joins (j : Nat) : Prop := (x j - x o).natAbs ≤ tau ∧ j - o < lmax ∧ ¬brk j
    1 ≤ m ∧ (∀ j, o < j → j < o + m → joins j) ∧ (o + m = n ∨ ¬joins (o + m))

/-- The pieces that SEGT makes of n dense elements (R38): the groups of at least mu elements as runs, the others gathered into dense
tokens of at most 32, cut at breaks. -/
def Segmented (x : Nat → Int) (tau mu lmax n : Nat) (brk : Nat → Prop) (ps : List (Bool × Nat × Nat)) : Prop :=
  (ps.map (·.2.2)).sum = n ∧ (∀ (k : Nat) q, ps[k]? = some q → q.2.1 = ((ps.take k).map (·.2.2)).sum) ∧
    (∃ gs, Groups x tau lmax n brk gs ∧ ∀ o m, (true, o, m) ∈ ps ↔ (o, m) ∈ gs ∧ mu ≤ m) ∧
    ∀ o m, (false, o, m) ∈ ps → 1 ≤ m ∧ m ≤ 32 ∧ (∀ j, o < j → j < o + m → ¬brk j) ∧
      (m = 32 ∨ o + m = n ∨ brk (o + m) ∨ ∃ k, (true, o + m, k) ∈ ps)

/-- Set bits of a word below a place. -/
def rank (w q : Nat) : Nat := ((List.range q).filter fun j => w.testBit j).length

end Sys2Proof.Claims

/-- R33 to R35, R40, R50 and R272 to R278: SGP, DMAC and SPMC add their products for the overlap of the pair with the table's range into
the cells of their row, and forward the token along the two axes. SGP adds one product for each piece of Lsafe indices, DMAC and SPMC one exact
dot product for each column, each rounded once when its scale is negative. An SGP may stop after any of its pieces, the rest of its pair going
back to the head of the queue (Table 05-9). The wrong shape raises SHAPE, a missing table or the wrong width TABLE-GEOMETRY, a divergent pair
PAIR before anything is read (R431); a spilled table or a row of another context waits for the collier. -/
def Obligations.SegmentProducts : Prop :=
  ∀ (s : State) (p : Pair) (c : Ctx) (u : State) (i : Instr) (h : Head) (ty : Fmt) (r : RowSel) (wide runs : Bool) (w : Nat) (ctx : Byte),
    Firing s h p c u → productForm i = some (h, ty, r, wide, runs) → actBits ty = some w → c.tag = some ctx → p.left.ty = ty →
      let n := s.curStn
      let l := p.left
      let fault (f : FI) : Prop := exec i s = .next (u.faultPair n h p f 0 1 (some p))
      let shaped : Prop := l.shape = .scalar ∨ l.shape = if runs then .run else .dense
      (¬shaped → fault { cls := 0x1B }) ∧
      let waits : Prop := exec i s = .next (s.setStn n { s.stn n with own := true })
      (shaped → (u.stn n).busy ctx r.t = true → exec i s = .next s) ∧
      (shaped → (u.stn n).busy ctx r.t = false → (u.stn n).table ctx r.t = none →
        ((ctx, n, r.t) ∉ u.spilledTables → fault { cls := 0x25 }) ∧ ((ctx, n, r.t) ∈ u.spilledTables → waits)) ∧
      ∀ tb, shaped → TableAt u n ctx r.t tb →
        let apart : Prop := tb.bind ≠ none ∧ tb.gen ≠ tb.pgen ∧ tb.msgs = 0
        (apart → fault { cls := 0x28, detail := 1 }) ∧
        (¬apart → tb.wide ≠ wide → fault { cls := 0x25, detail := 1 }) ∧
        (¬apart → tb.wide = wide → tb.lgC ≤ 5 → 1 ≤ tb.lsafe → 1 ≤ p.n → 1 ≤ tb.ks →
          let lo := max p.base tb.k0
          let hi := min (p.base + p.n) (tb.k0 + tb.ks)
          let a := lo - tb.k0
          let b := hi - tb.k0
          let row := rowNo p r.rsel r.row
          let x := u.row n row
          (hi ≤ lo → exec i s = .next (forwarded s p c h tb u)) ∧
          (lo < hi → x.owner ≠ some ctx → waits) ∧
          (lo < hi → x.owner = some ctx → (∀ hh ww q, i = .spmc hh ty ww q → CacheTrue u n tb) →
            let v (j : Nat) : Int := if tb.k0 + j < p.base ∨ p.base + p.n ≤ tb.k0 + j then 0 else mantAt w l (tb.k0 + j - p.base)
            let z := match s.cut with
              | some k => if runs = true ∧ 0 < k ∧ a + k * tb.lsafe < b then a + k * tb.lsafe else b
              | none => b
            let off := tb.k0 + z - p.base
            let products (col : Nat) : List Int :=
              if runs then (safePieces tb.lsafe a z).map fun q => v a * segSum (u.stn n) tb col q.1 q.2
              else [((List.range (b - a)).map fun j => v (a + j) * segSum (u.stn n) tb col (a + j) (a + j + 1)).sum]
            ∃ y fl dies, RowGets tb x (valueExp l + tb.et - x.eacc) products y (fl = fNX) ∧ (fl = fNX ∨ fl = 0) ∧
              ((∀ hh ww q, i ≠ .spmc hh ty ww q) → dies = u.dies) ∧
              let t := flagged s p fl (rowPut s row y u)
              (z = b → exec i s = .next { forwarded s p c h tb t with dies }) ∧
              (z < b → exec i s = .next { forwarded s (p.upto off) c h tb (t.setStn n { t.stn n with
                issueq := p.from_ (h.level.toNat + 1) off :: (t.stn n).issueq }) with dies })))

/-- R38, R273, R274 and R281: SEGT cuts its token into runs, sent to dest0, and dense tokens, sent to dest1; ISECT sends the offsets and
positions of the common bits of two bitmap words, one level down, and nothing where there is none. -/
def Obligations.RunsAndIntersections : Prop :=
  ∀ (s : State) (p : Pair) (c : Ctx) (u : State) (h : Head), Firing s h p c u → 1 ≤ p.n →
    let L := h.level.toNat + 1
    let l := p.left
    let r := p.right
    (∀ (ty : Fmt) (w : Nat) (mu : BitVec 5) (tau : BitVec 8) (kr lmax : BitVec 16), actBits ty = some w → l.ty = ty → l.n = p.n → l.base = p.base →
      let go (ps : List (Bool × Nat × Nat)) : Prop := exec (.segt h ty mu tau kr lmax) s = .next (sentEach s p c (ps.map fun q =>
        if q.1 then (h.d0, tagged h [resTok ty .run L p.tag (p.base + q.2.1) q.2.2 l.exp (lanesOf ty (l.val q.2.1))])
        else (h.d1, tagged h (resToks ty .dense L p.tag (p.base + q.2.1) q.2.2 l.exp fun i => lanesOf ty (l.val (q.2.1 + i))))) u)
      (l.shape ≠ .run → ∃ ps, go ps ∧ Segmented (mantAt w l) tau.toNat (mu.toNat + 1) (lmax.toNat + 1) p.n
        (fun j => j = p.n ∨ (kr ≠ 0 ∧ (p.base + j) % kr.toNat = 0)) ps) ∧
      (l.shape = .run → ∃ ps, go ps ∧ (ps.map (·.2.2)).sum = p.n ∧ ∀ (k : Nat) q, ps[k]? = some q →
        q.2.1 = ((ps.take k).map (·.2.2)).sum ∧ (q.1 = true ↔ mu.toNat + 1 ≤ q.2.2) ∧
        q.2.2 = min (min (lmax.toNat + 1) (p.n - q.2.1)) (if kr = 0 then p.n else kr.toNat - (p.base + q.2.1) % kr.toNat))) ∧
    (∀ fn : BitVec 4,
      (l.ty = .int64 → r.ty = .int64 → exec (.isect h fn) s = .next (sentEach s p c (((List.range p.n).map fun i =>
        let a := l.val i % 2 ^ 32
        let b := r.val i % 2 ^ 32
        let qs := (List.range 32).filter fun q => a.testBit q && b.testBit q
        let toks (f : Nat → Nat) : List Token :=
          [resTok .uint32 .dense (L + 1) (setTagFld p.tag L (p.base + i)) 0 qs.length 0 (qs.map fun q => BitVec.ofNat 32 (f q))]
        let pos (q : Nat) : Nat := 32 * (p.base + i) + q
        let offs (w v q : Nat) : Nat := v / 2 ^ 32 + rank w q
        if qs = [] then []
        else [(h.d0, toks (if fn = 2 then pos else offs a (l.val i))), (h.d1, toks (if fn = 1 then pos else offs b (r.val i)))]).flatten) u)) ∧
      (l.ty ≠ .int64 ∨ r.ty ≠ .int64 → exec (.isect h fn) s = .next (u.faultPair s.curStn h p { cls := 0x20 } 0 1 (some p))))

namespace Sys2Proof.Claims

open Sys2Proof.Machine

/-- Width of a table's entries (R25). -/
def tableBits (tb : Table) : Nat := if tb.wide then 64 else 32

/-- u with a background operation at the end of the station's list. -/
def inBackground (s : State) (b : Bg) (u : State) : State :=
  u.setStn s.curStn { u.stn s.curStn with bg := (u.stn s.curStn).bg ++ [b] }

/-- The completion token of a table instruction: a UINT32 run of value 0 over its pair (R284). -/
def completion (L : Nat) (p : Pair) : Token := { resTok .uint32 .run L p.tag 0 p.n 0 [0] with tag := p.tag }

/-- The slot of a waiting pair: its context and head. -/
def SlotIs (s : State) (n : Nat) (p : Pair) (c : Ctx) (h : Head) (i : Instr) : Prop :=
  c = (s.stn n).ctxs[p.cx.val] ∧ c.instr p.slot = some i ∧ stnHead i = some h

/-- A built table with its entries is that of weights w in its geometry (R25 to R32). -/
def BuiltFrom (x : Built) (w : Nat → Nat → Int) : Prop :=
  let tb := x.tb
  let M := tableBits tb
  let here (c i : Nat) : Prop := c < 2 ^ tb.lgC ∧ i < tb.ks
  1 ≤ tb.ks ∧ tb.ebase + 2 ^ tb.lgC * (tb.ks + 1) * (if tb.wide then 2 else 1) ≤ 8192 ∧
    (∀ c, c < 2 ^ tb.lgC → ∃ es, x.ents[c]? = some es ∧ es.length = tb.ks + 1 ∧ es[0]? = some 0 ∧
      ∀ i, i < tb.ks → es[i + 1]? = (es[i]?).map fun (t : Nat) => (((t : Int) + w c i) % 2 ^ M).toNat) ∧
    (∀ c i, here c i → (w c i).natAbs ≤ tb.wmax) ∧ (tb.wmax ≠ 0 → ∃ c i, here c i ∧ (w c i).natAbs = tb.wmax) ∧ tb.wmax ≤ 2 ^ (M - 1) - 1 ∧
    tb.lsafe = (if tb.wmax = 0 then tb.ks else (2 ^ (M - 1) - 1) / tb.wmax) ∧
    (∀ c, c < 2 ^ tb.lgC → (tb.zflags[c]? = some .set ↔ ∀ i, i < tb.ks → w c i = 0)) ∧
    (∀ c i, here c i → ((tb.bitmaps.getD c 0).testBit i = true ↔ w c i ≠ 0))

/-- A table's header is the one that its descriptor D gives (Table 12-3). -/
def FromDescriptor (tb : Table) (D : Nat) : Prop :=
  tb.k0 = fld D 71 56 ∧ tb.n0 = fld D 55 40 ∧ tb.ks = fld D 39 27 ∧ tb.ebase = fld D 26 14 ∧ tb.lgC = fld D 13 11 ∧ tb.wide = bitOf D 10 ∧
    (bitOf D 9 = true → tb.et = (fld D 8 1 : Int) - 127)

/-- An update of δ at column c and local index k of a table has been applied (R42, R43, R51): every sum over k, and no other, has moved by it. -/
def Applied (st : Station) (tb : Table) (c k : Nat) (d : Int) (fold : Bool) (st' : Station) (tb' : Table) : Prop :=
  let M := tableBits tb
  let w : Int := segSum st tb c k (k + 1) + d
  st'.table tb.ctx tb.t = some tb' ∧
    tb' = { tb with wmax := tb'.wmax, lsafe := tb'.lsafe, zflags := tb'.zflags, bitmaps := tb'.bitmaps, wgen := tb.wgen + 1 } ∧
    tb'.wmax = max tb.wmax w.natAbs ∧
    tb'.lsafe = (if tb.wmax < w.natAbs then (2 ^ (M - 1) - 1) / w.natAbs else tb.lsafe) ∧
    (∀ e, e ≠ c → tb'.zflags[e]? = tb.zflags[e]? ∧ tb'.bitmaps[e]? = tb.bitmaps[e]?) ∧
    (c < tb.zflags.length → tb'.zflags[c]? = some .clear) ∧
    (c < tb.bitmaps.length → ∀ j, (tb'.bitmaps.getD c 0).testBit j = ((tb.bitmaps.getD c 0).testBit j || decide (j = k))) ∧
    (∀ e a b, e < 2 ^ tb.lgC → a ≤ b → b ≤ tb.ks →
      (segSum st' tb' e a b - segSum st tb e a b - (if e = c ∧ a ≤ k ∧ k < b then d else 0)) % 2 ^ M = 0) ∧
    (fold = false → st.kindling.length < 16 → st'.tstore = st.tstore ∧ st'.kindling = st.kindling ++ [⟨tb.ctx, tb.t, c, k, d⟩]) ∧
    (fold = true → st'.kindling = st.kindling)

/-- A folded table (R44, R287): every sum is as it was, no delta of it is listed, and its flags and bitmaps are exact. -/
def Folded (st : Station) (tb : Table) (st' : Station) (tb' : Table) : Prop :=
  st'.table tb.ctx tb.t = some tb' ∧ tb' = { tb with zflags := tb'.zflags, bitmaps := tb'.bitmaps, wgen := tb.wgen + 1 } ∧
    st'.kindling = st.kindling.filter (fun e => !(e.ctx == tb.ctx && e.t == tb.t)) ∧
    (∀ c a b, c < 2 ^ tb.lgC → a ≤ b → b ≤ tb.ks → segSum st' tb' c a b = segSum st tb c a b) ∧
    (∀ c, c < 2 ^ tb.lgC → (tb'.zflags[c]? = some .set ↔ ∀ i, 1 ≤ i → i ≤ tb.ks → st'.ent tb' c i = 0)) ∧
    (∀ c i, c < 2 ^ tb.lgC → i < tb.ks → ((tb'.bitmaps.getD c 0).testBit i = true ↔
      (BitVec.ofInt (tableBits tb) ((st'.ent tb' c (i + 1) : Int) - st'.ent tb' c i)) ≠ 0))

end Sys2Proof.Claims

/-- R25 to R32, R42 to R44, R282 to R287, R290 and R291: TBLD builds in the background the table of running sums that its descriptor names
and replaces the one before; TUPD applies its deltas in order, so that every sum over the index moves by them; TFOLD folds in the background,
changing no sum; TSUM sends the column sums of a segment and TRD entries or weights. Outside the table they raise TABLE-INDEX. A table that
was spilled, or that another context's stands in the way of, waits for the collier (R141). TFOLD of an emulated type raises FORMAT-EMULATE
(R60), and a fold of a damaged table SRAM-ECC (R437). The flag that an update of a column with an invalid flag leaves is the model's reading (log
entry 68). -/
def Obligations.SumTables : Prop :=
  (∀ (s : State) (p : Pair) (c : Ctx) (u : State) (h : Head) (ty : Fmt) (t : BitVec 2) (ctx : Byte), Firing s h p c u → c.tag = some ctx →
    let n := s.curStn
    let L := h.level.toNat + 1
    let st := u.stn n
    let fault (i : Instr) (f : FI) (o : Nat) (rest : Pair) : Prop := exec i s = .next (u.faultPair n h p f o 1 (some rest))
    (p.left.ty ≠ .int64 → fault (.tbld h t) { cls := 0x20 } 0 p) ∧
    (p.left.ty = .int64 → st.busy ctx t = true → exec (.tbld h t) s = .next s) ∧
    let waits (i : Instr) : Prop := exec i s = .next (s.setStn n { s.stn n with own := true })
    (p.left.ty = .int64 → st.busy ctx t = false →
      ((ctx, n, t) ∉ u.spilledTables → u.displaced n ctx p t = [] →
        exec (.tbld h t) s = .next (inBackground s ⟨.build, t, ctx, p, 0⟩ u)) ∧
      ((ctx, n, t) ∈ u.spilledTables ∨ u.displaced n ctx p t ≠ [] → waits (.tbld h t))) ∧
    (∀ all, fmtEmulated ty = true → fault (.tfold h ty all t) { cls := 0x0F, detail := ty.code } 0 p) ∧
    (∀ tb, TableAt u n ctx t tb →
      (fmtEmulated ty = false → exec (.tfold h ty false t) s = .next (inBackground s ⟨.fold, t, ctx, p, 1⟩ u)) ∧
      (ty = (if tb.wide then .int64 else .int32) → 1 ≤ p.n →
        let lo := max p.base tb.k0
        let hi := min (p.base + p.n) (tb.k0 + tb.ks)
        let w := tableBits tb
        (hi ≤ lo → exec (.tsum h ty t) s = .next u) ∧
        (lo < hi → exec (.tsum h ty t) s = .next
          (let ts := resToks ty .dense (L + 1) (setTagFld p.tag L p.base) 0 (2 ^ tb.lgC) 0 fun col =>
            lanesZ w (if tb.zflags.getD col .invalid = .set then 0 else segSum st tb col (lo - tb.k0) (hi - tb.k0))
           sentRaw s p c h ts ts u)) ∧
        ∀ (fn : BitVec 4) (col : BitVec 5),
          let top := if fn = 0 then tb.ks else tb.ks - 1
          let bad (i : Nat) : Prop := p.base + i < tb.k0 ∨ tb.k0 + top < p.base + i
          (2 ^ tb.lgC ≤ col.toNat → fault (.trd h ty fn col t) { cls := 0x27, detail := 2 ^ 9 } 0 p) ∧
          (∀ i, col.toNat < 2 ^ tb.lgC → i < p.n → bad i → (∀ j, j < i → ¬bad j) → fault (.trd h ty fn col t) { cls := 0x27, detail := 2 ^ 10 } i p) ∧
          (col.toNat < 2 ^ tb.lgC → (∀ i, i < p.n → ¬bad i) → exec (.trd h ty fn col t) s = .next (sent s p c h
            (resToks ty .dense L p.tag p.base p.n 0 fun i => lanesZ w (if fn = 0 then (st.ent tb col.toNat (p.base + i - tb.k0) : Int)
              else segSum st tb col.toNat (p.base + i - tb.k0) (p.base + i - tb.k0 + 1))) u)))) ∧
    (fmtEmulated ty = false → (∃ v, (ctx, n, v) ∈ u.spilledTables) → waits (.tfold h ty true t)) ∧
    (fmtEmulated ty = false → (∀ v, (ctx, n, v) ∉ u.spilledTables) → (∀ tb ∈ st.tables, tb.ctx = ctx → st.busy ctx tb.t = false) →
      let ts := (st.tables.filter fun tb => tb.ctx == ctx).map (·.t)
      (ts = [] → exec (.tfold h ty true t) s = .next (sent s p c h [completion L p] u)) ∧
      (ts ≠ [] → ts.Nodup → ∃ bs : List Bg, bs.map (fun b => (b.kind, b.t, b.ctx, b.pair)) = ts.map (fun t => (.fold, t, ctx, p)) ∧
        exec (.tfold h ty true t) s = .next (u.setStn n { st with bg := st.bg ++ bs }))) ∧
    (∀ (fold : Bool) (w : Nat) (sts : Nat → Station), (ty = .int32 ∧ w = 32 ∨ ty = .int64 ∧ w = 64) → CountTy p.left.ty → p.right.ty = ty →
      (∃ tb, TableAt u n ctx t tb ∧ tb.wide = decide (ty = .int64)) → sts 0 = st →
      let pos (i : Nat) : Nat := countAt p.left i
      let step (i : Nat) : Except FI Station := match (sts i).table ctx t with
        | some tb => (sts i).update tb (fld (pos i) 20 16 : Nat) ((fld (pos i) 15 0 : Nat) - (tb.k0 : Int)) (BitVec.ofNat w (p.right.val i)).toInt fold
        | none => .ok (sts i)
      ((∀ i, i < p.n → fld (pos i) 31 21 = 0 ∧ (∃ tb, (sts i).table ctx t = some tb) ∧ step i = .ok (sts (i + 1))) →
        ∃ dies, exec (.tupd h ty fold t) s = .next { sent s p c h [completion L p] (u.setStn n (sts p.n)) with dies }) ∧
      (∀ m f, m < p.n → (∀ i, i ≤ m → fld (pos i) 31 21 = 0 ∧ ∃ tb, (sts i).table ctx t = some tb) →
        (∀ i, i < m → step i = .ok (sts (i + 1))) → step m = .error f →
        ∃ dies, exec (.tupd h ty fold t) s =
          .next (State.faultPair { u.setStn n (sts m) with dies } n h p f m 1 (some (p.from_ L m)))))) ∧
  (∀ (st : Station) (tb : Table) (c k d : Int) (fold : Bool), st.table tb.ctx tb.t = some tb → spWf 0 st.tstore = true →
    let M := tableBits tb
    let w : Int := segSum st tb c.toNat k.toNat (k.toNat + 1) + d
    let inC : Prop := 0 ≤ c ∧ c < 2 ^ tb.lgC
    let inK : Prop := 0 ≤ k ∧ k < tb.ks
    (¬inC → inK → st.update tb c k d fold = .error { cls := 0x27, detail := 2 ^ 9 }) ∧
    (inC → ¬inK → st.update tb c k d fold = .error { cls := 0x27, detail := 2 ^ 10 }) ∧
    (¬inC → ¬inK → st.update tb c k d fold = .error { cls := 0x27, detail := 2 ^ 9 + 2 ^ 10 }) ∧
    ((∀ e ∈ st.kindling, ¬(e.ctx = tb.ctx ∧ e.t = tb.t ∧ e.col = c.toNat ∧ e.k = k.toNat)) → inC → inK →
      (2 ^ (M - 1) - 1 < w.natAbs → st.update tb c k d fold = .error { cls := 0x26, detail := 2 ^ 8 + 2 ^ 10 }) ∧
      (w.natAbs ≤ 2 ^ (M - 1) - 1 → (fold = true ∨ st.kindling.length < 16) →
        ∃ st' tb', st.update tb c k d fold = .ok st' ∧ Applied st tb c.toNat k.toNat d fold st' tb'))) ∧
  (∀ (s : State) (n k : Nat) (b : Bg) (c : Ctx) (h : Head) (i : Instr), (s.stn n).bg[k]? = some b → SlotIs s n b.pair c h i →
    let L := h.level.toNat + 1
    let rest : List Bg := listRemove k (s.stn n).bg
    let A := b.pair.left.val b.next
    let done (t : State) : Prop := (t.stn n).bg = rest ∧
      t.net = s.net ++ flights { s with curStn := n } b.pair c h.d0 (tagged h [completion L b.pair])
        ++ flights { s with curStn := n } b.pair c h.d1 (tagged h [completion L b.pair])
    (b.kind = .fold → b.next = 1 → (∀ x ∈ (s.stn n).bg.take k, ¬(x.kind = .fold ∧ x.pair = b.pair)) → spWf 0 (s.stn n).tstore = true →
      ∀ tb, (s.stn n).table b.ctx b.t = some tb →
      ((∀ e ∈ s.ecc, e.sram = false) → Answers (.foldComplete n k) s fun t =>
        (∃ tb', Folded (s.stn n) tb (t.stn n) tb') ∧ done t ∧ t = { s with stations := t.stations, dies := t.dies, net := t.net }) ∧
      (∀ f, (s.tableCheck n tb).1 = some f → exec (.foldComplete n k) s = .next (State.faultPair (s.setStn n { s.stn n with
        bg := (s.stn n).bg.filter fun x => !(x.kind == .fold && x.pair == b.pair) }) n h b.pair f 0 1 (some b.pair)))) ∧
    (b.kind = .build → ∀ f, (buildTable n b.ctx b.t A).run s = .error f →
      exec (.tableBuildComplete n k) s =
        .next (State.faultPair (s.setStn n { s.stn n with bg := rest }) n h b.pair f b.next 1 (some (b.pair.from_ L b.next)))) ∧
    (b.kind = .build → spWf 0 (s.stn n).tstore = true → ∀ x s1, (buildTable n b.ctx b.t A).run s = .ok (x, s1) →
      let hi := x.tb.ebase + 2 ^ x.tb.lgC * (x.tb.ks + 1) * (if x.tb.wide then 2 else 1)
      let inWay : Prop := ∃ o ∈ (s.stn n).tables, o.ctx ≠ b.ctx ∧ o.inWay b.ctx b.t x.tb.ebase hi = true
      (inWay → exec (.tableBuildComplete n k) s = .next (s.askOwn n (.room b.ctx c.lid b.t x.tb.ebase hi))) ∧
      (¬inWay → Answers (.tableBuildComplete n k) s fun t =>
        (∃ w, BuiltFrom x w) ∧ x.tb.ctx = b.ctx ∧ x.tb.t = b.t ∧
        (∀ l, s.access (nodeWho n b.ctx) A 32 32 false = .ok l → FromDescriptor x.tb (leValue (s.view (stnDie n).val l 32))) ∧
        (t.stn n).table b.ctx b.t = some x.tb ∧ (∀ e ∈ (t.stn n).kindling, ¬(e.ctx = b.ctx ∧ e.t = b.t)) ∧
        (∀ col es, col < 2 ^ x.tb.lgC → x.ents[col]? = some es → ∀ j v, j ≤ x.tb.ks → es[j]? = some v → (t.stn n).ent x.tb col j = v) ∧
        (b.next + 1 < b.pair.n → t.net = s.net ∧ (t.stn n).bg = listModify (fun b => { b with next := b.next + 1 }) k (s.stn n).bg) ∧
        (b.pair.n ≤ b.next + 1 → done t))))

namespace Sys2Proof.Claims

open Sys2Proof.Machine

/-- Column and local index of a weight-matrix position in a table of an orientation (R289). -/
def pairPlace (tb : Table) (tr : Bool) (pos : Nat) : Int × Int :=
  let n : Int := (pos / 2 ^ 16 % 2 ^ 16 : Nat)
  let k : Int := (pos % 2 ^ 16 : Nat)
  if tr then (k - tb.n0, n - tb.k0) else (n - tb.n0, k - tb.k0)

/-- A table after a half of a PUPD (R46, R429): the next generation, in a journal of the last four. -/
def journalled (t : Table) (pos : Word) (d : Int) : Table :=
  let js := t.journal ++ [⟨t.gen + 1, pos, d⟩]
  { t with gen := t.gen + 1, journal := js.drop (js.length - 4) }

/-- A half of a PUPD applied: as a TUPD, then the table's generation and journal. -/
def HalfApplied (st : Station) (tb : Table) (tr fold : Bool) (pos : Word) (d : Int) (st' : Station) (t' : Table) : Prop :=
  ∃ st1 t1, st.update tb (pairPlace tb tr pos.toNat).1 (pairPlace tb tr pos.toNat).2 d fold = .ok st1 ∧ st1.table tb.ctx tb.t = some t1 ∧
    t' = journalled t1 pos d ∧ st' = st1.putTable t'

/-- s with a message between tables taken from its list. -/
def taken (s : State) (k : Nat) : State := { s with tmsgs := listRemove k s.tmsgs }

/-- The answer to a message. -/
def answering (m : TMsg) (kind : TMsgKind) : TMsg := ⟨kind, m.to_, m.toT, m.from_, m.fromT, m.ctx, m.pair⟩

/-- A table's binding and both its generations set, its journal emptied (R45, R429). -/
def boundTo (tb : Table) (n : Nat) (t : BitVec 2) (tr : Bool) (gen : BitVec 16) : Table :=
  { tb with bind := some ⟨n, t, tr⟩, gen, pgen := gen, journal := [] }

end Sys2Proof.Claims

/-- R45, R46, R288, R289, R429 and R430: PBIND asks the partner to bind, which takes the other orientation and answers, and the completion
token follows; PUPD applies each index to its own table, tells the partner, which applies it in its own coordinates and acknowledges, and goes on
with the next; refusals, missing and unbound tables raise PAIR or TABLE-INDEX, with what the partner found (Table 23-1). A message waits while
its table is built or folded or the links it crosses are not open (R391), and for the collier when the table was spilled (R141). A damaged
partner raises SRAM-ECC at its own station and refuses (the model's choice: log entry 73). PBIND of an emulated type raises FORMAT-EMULATE. -/
def Obligations.TablePairs : Prop :=
  (∀ (s : State) (p : Pair) (c : Ctx) (u : State) (h : Head) (ty : Fmt) (t : BitVec 2) (ctx : Byte) (tb : Table), Firing s h p c u →
    c.tag = some ctx → TableAt u s.curStn ctx t tb →
    let n := s.curStn
    let st := u.stn n
    (∀ tr pt partner gen, fmtEmulated ty = false → exec (.pbind h ty tr pt t partner gen) s =
      .next { u with tmsgs := u.tmsgs ++ [⟨.bind tr pt gen tb.et, n, t, partner.toNat, pt, ctx, some p⟩] }) ∧
    (∀ (fold : Bool) (w : Nat), (ty = .int32 ∧ w = 32 ∨ ty = .int64 ∧ w = 64) → tb.wide = decide (ty = .int64) →
      CountTy p.left.ty → p.right.ty = ty →
      let pos := BitVec.ofNat 32 (p.left.val 0)
      let d := (BitVec.ofNat w (p.right.val 0)).toInt
      (tb.bind = none → exec (.pupd h ty fold t) s = .next (u.faultPair n h p { cls := 0x28, detail := 2 } 0 1 (some p))) ∧
      (∀ b f, tb.bind = some b → st.update tb (pairPlace tb b.tr pos.toNat).1 (pairPlace tb b.tr pos.toNat).2 d fold = .error f →
        exec (.pupd h ty fold t) s = .next (u.faultPair n h p f 0 1 (some p))) ∧
      (∀ b st' t', tb.bind = some b → HalfApplied st tb b.tr fold pos d st' t' → ∃ dies, exec (.pupd h ty fold t) s =
        .next { u.setStn n { st'.putTable { t' with msgs := t'.msgs + 1 } with bg := st'.bg ++ [⟨.pupd, t, ctx, p, 0⟩] } with
          dies, tmsgs := u.tmsgs ++ [⟨.update pos d fold t'.gen, n, t, b.stn, b.t, ctx, some p⟩] }))) ∧
  (∀ (s : State) (p : Pair) (c : Ctx) (u : State) (h : Head) (ty : Fmt) (t : BitVec 2) (ctx : Byte) (tr : Bool) (pt : BitVec 2)
      (partner gen : BitVec 16), Firing s h p c u → c.tag = some ctx → (u.stn s.curStn).busy ctx t = false →
    (fmtEmulated ty = true →
      exec (.pbind h ty tr pt t partner gen) s = .next (u.faultPair s.curStn h p { cls := 0x0F, detail := ty.code } 0 1 (some p))) ∧
    (fmtEmulated ty = false → (u.stn s.curStn).table ctx t = none →
      ((ctx, s.curStn, t) ∉ u.spilledTables →
        exec (.pbind h ty tr pt t partner gen) s = .next (u.faultPair s.curStn h p { cls := 0x28, detail := 4 } 0 1 (some p))) ∧
      ((ctx, s.curStn, t) ∈ u.spilledTables →
        exec (.pbind h ty tr pt t partner gen) s = .next (s.setStn s.curStn { s.stn s.curStn with own := true })))) ∧
  (∀ (s : State) (k : Nat) (m : TMsg), s.tmsgs[k]? = some m →
    let n := m.to_
    let st := s.stn n
    let u := taken s k
    let tells (a : TMsg) (u : State) : State := { u with tmsgs := u.tmsgs ++ [a] }
    let linked := s.linkOpen (some (m.from_ / 8192)) (m.to_ / 8192)
    (st.busy m.ctx m.toT = true ∨ linked = false →
      ∀ i ∈ [Instr.pbindMessage k, .pbindConfirm k, .pupdUpdateMessage k, .pupdAcknowledge k], exec i s = .next s) ∧
    (st.busy m.ctx m.toT = false → linked = true → ∀ tb, st.table m.ctx m.toT = some tb →
      (∀ tr gen et, m.kind = .bind tr m.toT gen et →
        (tb.et = et → exec (.pbindMessage k) s = .next (tells (answering m (.bindAnswer true 0))
          (u.setStn n (st.putTable (boundTo tb m.from_ m.fromT (!tr) gen))))) ∧
        (tb.et ≠ et → exec (.pbindMessage k) s = .next (tells (answering m (.bindAnswer false 16)) u))) ∧
      (∀ pos d fold g, m.kind = .update pos d fold g →
        (∀ b st' t', tb.bind = some b → b.stn = m.from_ → b.t = m.fromT →
          (∀ e ∈ s.ecc, e.sram = false) → HalfApplied (st.putTable { tb with pgen := g }) { tb with pgen := g } b.tr fold pos d st' t' →
          ∃ dies, exec (.pupdUpdateMessage k) s = .next (tells (answering m (.ack t'.gen)) { u.setStn n st' with dies })) ∧
        (∀ b f, tb.bind = some b → b.stn = m.from_ → b.t = m.fromT → (∀ e ∈ s.ecc, e.sram = false) →
          (st.putTable { tb with pgen := g }).update { tb with pgen := g } (pairPlace tb b.tr pos.toNat).1 (pairPlace tb b.tr pos.toNat).2 d fold
            = .error f →
          exec (.pupdUpdateMessage k) s = .next (tells
            (answering m (.refuse (if f.cls = 0x27 then BitVec.ofNat 16 f.detail else 0))) (u.setStn n (st.putTable { tb with pgen := g })))) ∧
        (∀ b f v, tb.bind = some b → b.stn = m.from_ → b.t = m.fromT →
          (u.setStn n (st.putTable { tb with pgen := g })).tableCheck n { tb with pgen := g } = (some f, v) →
          exec (.pupdUpdateMessage k) s = .next ((tells (answering m (.refuse 0)) v).stopLaunch (v.lidAt n m.ctx)
            (stnRec n (v.lidAt n m.ctx) 0 0 0 m.ctx 0 1 f))) ∧
        ((∀ b, tb.bind = some b → ¬(b.stn = m.from_ ∧ b.t = m.fromT)) →
          exec (.pupdUpdateMessage k) s = .next (tells (answering m (.refuse 0)) u))) ∧
      (∀ p c h ty tr pt t' partner gen, m.pair = some p → SlotIs s n p c h (.pbind h ty tr pt t' partner gen) →
        let at_ : State := { s with curStn := n }
        (∀ det, m.kind = .bindAnswer true det → exec (.pbindConfirm k) s =
          .next { u.setStn n (st.putTable (boundTo tb m.from_ m.fromT tr gen)) with
            net := s.net ++ flights at_ p c h.d0 (tagged h [completion (h.level.toNat + 1) p])
              ++ flights at_ p c h.d1 (tagged h [completion (h.level.toNat + 1) p]) }) ∧
        (∀ det, m.kind = .bindAnswer false det →
          exec (.pbindConfirm k) s = .next (u.faultPair n h p { cls := 0x28, detail := det.toNat } 0 1 (some p)))) ∧
      (∀ p c h ty fold j b, m.pair = some p → SlotIs s n p c h (.pupd h ty fold m.toT) → st.bg[j]? = some b →
        (∀ i x, i < j → st.bg[i]? = some x → ¬(x.kind = .pupd ∧ x.pair = p)) → b = ⟨.pupd, m.toT, m.ctx, p, b.next⟩ →
        let at_ : State := { s with curStn := n }
        let L := h.level.toNat + 1
        let done (st' : Station) : State := u.setStn n { st' with bg := listRemove j st.bg }
        (∀ g, m.kind = .ack g →
          let tb1 : Table := { tb with msgs := tb.msgs - 1, pgen := g }
          let st1 := st.putTable tb1
          (b.next + 1 = p.n → exec (.pupdAcknowledge k) s = .next { done st1 with
            net := s.net ++ flights at_ p c h.d0 (tagged h [completion L p]) ++ flights at_ p c h.d1 (tagged h [completion L p]) }) ∧
          (b.next + 1 ≠ p.n → ∀ (w : Nat) z st' t', (ty = .int32 ∧ w = 32 ∨ ty = .int64 ∧ w = 64) → tb.bind = some z →
            let pos := BitVec.ofNat 32 (p.left.val (b.next + 1))
            let d := (BitVec.ofNat w (p.right.val (b.next + 1))).toInt
            HalfApplied st1 tb1 z.tr fold pos d st' t' → ∃ dies, exec (.pupdAcknowledge k) s = .next
              (tells ⟨.update pos d fold t'.gen, n, m.toT, z.stn, z.t, m.ctx, some p⟩
                { u.setStn n { st'.putTable { t' with msgs := t'.msgs + 1 } with
                    bg := listModify (fun b => { b with next := b.next + 1 }) j st.bg } with dies }))) ∧
        (∀ det, m.kind = .refuse det → exec (.pupdAcknowledge k) s =
          .next (State.faultPair (done (st.putTable { tb with msgs := tb.msgs - 1 })) n h p
            { cls := 0x27, detail := 2 ^ 8 + det.toNat } b.next 1
            (if b.next + 1 < p.n then some (p.from_ L (b.next + 1)) else none))))) ∧
    (st.busy m.ctx m.toT = false → linked = true → st.table m.ctx m.toT = none → (m.ctx, n, m.toT) ∈ s.spilledTables →
      (∀ tr gen et, m.kind = .bind tr m.toT gen et → exec (.pbindMessage k) s = .next (s.askOwn n (.table m.ctx (s.lidAt n m.ctx) m.toT))) ∧
      (∀ pos d fold g, m.kind = .update pos d fold g →
        exec (.pupdUpdateMessage k) s = .next (s.askOwn n (.table m.ctx (s.lidAt n m.ctx) m.toT)))) ∧
    (st.busy m.ctx m.toT = false → linked = true → st.table m.ctx m.toT = none → (m.ctx, n, m.toT) ∉ s.spilledTables →
      (∀ tr gen et, m.kind = .bind tr m.toT gen et → ∃ det : BitVec 16, (det = 4 ∨ det = 8) ∧
        ((∀ x ∈ st.tables, x.t ≠ m.toT) → det = 4) ∧ ((∃ x ∈ st.tables, x.t = m.toT) → det = 8) ∧
        exec (.pbindMessage k) s = .next (tells (answering m (.bindAnswer false det)) u)) ∧
      (∀ pos d fold g, m.kind = .update pos d fold g → exec (.pupdUpdateMessage k) s = .next (tells (answering m (.refuse 0)) u))))

namespace Sys2Proof.Claims

open Sys2Proof.Machine

/-- u with the sticky flags of the pair's context cleared (R292). -/
def cleared (s : State) (p : Pair) (u : State) : State :=
  let st := u.stn s.curStn
  u.setStn s.curStn { st with ctxs := st.ctxs.set p.cx.val { st.ctxs[p.cx.val] with flags := 0 } }

/-- The lanes and flags of a column that AEMIT converts, with exponent e (R293). -/
def emitted (ty : Fmt) (rm : Rm) (m : FpMode) (cell : DWord) (e : Int) : List Word × Flags :=
  let x : Exact := ⟨decide (cell.toInt < 0), cell.toInt.natAbs, e, false⟩
  if ty = .int64 then ([cell.setWidth 32, (cell >>> 32).setWidth 32], 0)
  else match intForm ty, fmtFF ty with
    | some (w, sg), _ => let r := toIntClamp (.num x) (intLo w sg) (intHi w sg) rm; (lanesZ w r.1, r.2)
    | none, some f => one (roundFmt x f rm (m.fzo f))
    | none, none => ([], 0)

end Sys2Proof.Claims

/-- R141, R142, R272 and R292 to R294: ACLR clears its row and sets its E_acc, or reads and clears the context's flags; AEMIT converts the first
columns of its row, sends them or hands them to its station's SEGT, and clears them if it says so; a dense random token that is too short
supplies free values (log entry 22); ACLR of an emulated type raises FORMAT-EMULATE. A row of another context waits for the collier, which
writes it to its owner's save area, cells and E_acc, and gives the pair's context the row it spilled before or a row of zeros. A save area that
cannot be found stops the launch (the model's choice: log entry 23). -/
def Obligations.AccumulatorRows : Prop :=
  (∀ (s : State) (p : Pair) (c : Ctx) (u : State) (h : Head) (ty : Fmt) (ctx : Byte) (rsel : BitVec 3) (row : BitVec 5),
    Firing s h p c u → c.tag = some ctx →
    let n := s.curStn
    let L := h.level.toNat + 1
    let k := rowNo p rsel row
    let x := u.row n k
    let waits : State := s.setStn n { s.stn n with own := true }
    let scalar (v : Nat) : List Token := [tagScalar .uint32 L p 0 [BitVec.ofNat 32 v]]
    (∀ fn e, fmtEmulated ty = true →
      exec (.aclr h ty fn rsel row e) s = .next (u.faultPair n h p { cls := 0x0F, detail := ty.code } 0 1 (some p))) ∧
    (∀ e, fmtEmulated ty = false → exec (.aclr h ty 2 rsel row e) s = .next (sent s p c h (scalar c.flags.toNat) (cleared s p u))) ∧
    (∀ fn e, fmtEmulated ty = false → fn = 0 ∨ fn = 1 → x.owner ≠ some ctx → exec (.aclr h ty fn rsel row e) s = .next waits) ∧
    (∀ fn e, fmtEmulated ty = false → fn = 0 ∨ fn = 1 → x.owner = some ctx →
      let v := rowPut s k { x with eacc := BitVec.toInt e, cells := Vector.replicate 32 0 } u
      exec (.aclr h ty fn rsel row e) s = .next (sent s p c h (scalar 0) (if fn = 1 then cleared s p v else v))) ∧
    (∀ (rnd : BitVec 4) (seg clear : Bool) (slot : BitVec 4) (adj : BitVec 8) (ncols : BitVec 6) (kbase : BitVec 16),
      let i : Instr := .aemit h ty rnd seg clear slot rsel row adj ncols kbase
      let N := ncols.toNat + 1
      let m := p.fpMode
      let rt := p.right
      let col (z : Nat → Nat) (j : Nat) : List Word × Flags :=
        emitted ty (roundOf m rnd (z j)) m (x.cells.toList.getD j 0) (x.eacc + adj.toInt)
      let v (z : Nat → Nat) (y : Row) : State :=
        flagged s p ((List.range N).foldl (fun a j => a ||| (col z j).2) 0) (rowPut s k y u)
      let toks (z : Nat → Nat) : List Token := resToks ty .dense L p.tag kbase.toNat N 0 fun j => (col z j).1
      let out (z : Nat → Nat) (v : State) : State :=
        if seg then (tagged h (toks z)).foldl (fun a t => a.arrive n c.lid { t with stn := BitVec.ofNat 16 n, slot, port := 0, act := 0 }) v
        else sent s p c h (toks z) v
      (¬RandomOk rnd rt → exec i s = .next (u.faultPair n h p { cls := 0x20 } 0 1 (some p))) ∧
      (RandomOk rnd rt → x.owner ≠ some ctx → exec i s = .next waits) ∧
      (RandomOk rnd rt → x.owner = some ctx → N ≤ 32 → (ty ∈ [Fmt.int8, .int16, .int32, .int64, .e4m3, .e5m2, .bf16, .fp32]) →
        ∃ y : Row, y.owner = x.owner ∧ y.eacc = x.eacc ∧ (∀ j : Fin 32, y.cells[j] = if clear = true ∧ j.val < N then 0 else x.cells[j]) ∧
          (¬(rnd = 4 ∧ rt.shape = .dense ∧ rt.n < N) → exec i s = .next (out rt.val (v rt.val y))) ∧
          (rnd = 4 → rt.shape = .dense → rt.n < N → ∃ z : Nat → Nat, (∀ j, j < rt.n → z j % 2 ^ 16 = rt.val j % 2 ^ 16) ∧
            exec i s = .next (out z { v z y with fresh := s.fresh + 2 * N }))))) ∧
  (∀ (s : State) (n : Nat), (s.stn n).own = false → exec (.ownershipService n) s = .next s) ∧
  (∀ (s : State) (n : Nat) (p : Pair) (q : List Pair) (c : Ctx) (ctx : Byte) (i : Instr) (r : Nat), (s.stn n).own = true →
    (s.stn n).want = [] → (s.stn n).issueq = p :: q → c = (s.stn n).ctxs[p.cx.val] → c.tag = some ctx → c.instr p.slot = some i →
    rowUse i p = some r → (∀ t, tableUse i = some t → ((s.stn n).table ctx t).isSome) → (∀ e ∈ s.ecc, e.sram = false) →
      let x := s.row n r
      let j := 32 * n + r
      let serves (P : State → Prop) : Prop := Answers (.ownershipService n) s fun t =>
        (t.stn n).own = false ∧ (t.stn n).issueq = (s.stn n).issueq ∧ (∀ k, k ≠ r → t.row n k = s.row n k) ∧
        (∀ k, k ≠ n → t.stn k = s.stn k) ∧ P t
      ((ctx, j) ∉ s.spilledRows → x.owner = none → serves fun t =>
        t.row n r = { owner := some ctx } ∧ t.spilledRows = s.spilledRows ∧ t.mem = s.mem) ∧
      (∀ o b, (ctx, j) ∉ s.spilledRows → x.owner = some o → o ≠ ctx → s.saveBase o = .ok b → serves fun t =>
        t.row n r = { owner := some ctx } ∧ t.spilledRows = s.spilledRows.filter (· ≠ (o, j)) ++ [(o, j)] ∧
        (s.Inv → n < 65536 → r < 32 → b % 128 = 0 → b + 2 ^ 30 ≤ devSize →
          (∀ f, s.lineFault (b + 2 ^ 29 + 8 * j) 8 true ((b + 2 ^ 29 + 8 * j) / 128 * 128) ≠ some f) →
          t.mem.bytes (b + 256 * j) 256 = (x.cells.toList.map fun v => leBytes 8 v.toNat).flatten ∧
          t.mem.bytes (b + 2 ^ 29 + 8 * j) 8 = leBytes 8 (x.eacc % 2 ^ 64).toNat)) ∧
      (∀ b cs e, (ctx, j) ∈ s.spilledRows → x.owner = none → s.saveBase ctx = .ok b →
        s.readRange (b + 256 * j) 256 3 (some (stnDie n)) = .ok cs → s.readRange (b + 2 ^ 29 + 8 * j) 8 2 (some (stnDie n)) = .ok e →
        serves fun t => t.spilledRows = s.spilledRows.filter (· ≠ (ctx, j)) ∧ (t.row n r).owner = some ctx ∧
          (t.row n r).eacc = (BitVec.ofNat 64 (leValue e)).toInt ∧
          ∀ k : Fin 32, (t.row n r).cells[k] = BitVec.ofNat 64 (leValue ((cs.drop (8 * k.val)).take 8))) ∧
      (∀ o f, x.owner = some o → o ≠ ctx → s.saveBase o = .error f → exec (.ownershipService n) s =
        .next (State.stopLaunch (s.setStn n { s.stn n with own := false }) c.lid
          { (unitRec f ctx (agentSrc (collierOf (stnDie n))) 0) with lid := lidBits c.lid })))

namespace Sys2Proof.Claims
open Sys2Proof.Machine

/-- Dependence j of a record is satisfied at the counters (R117, R123, R133). -/
def DepMet (s : State) (r j : Nat) : Prop :=
  bitOf r (128 + 16 * j + 15) = false ∨
    (spGet 0 s.counters (fld r (128 + 16 * j + 13) (128 + 16 * j)) - BitVec.ofNat 64 (fld r (256 + 64 * j + 63) (256 + 64 * j))).toNat < 2 ^ 63

/-- A record passes the checks of R118 and R148 for a context. -/
def RecordGood (s : State) (r : Nat) (ctx : Byte) : Prop :=
  fld r 127 111 = 0 ∧ bitOf r 55 = false ∧ fld r 51 43 = 0 ∧ (∀ j, j < 4 → bitOf r (128 + 16 * j + 14) = false) ∧
  fld r 79 64 % 4 = 0 ∧ fld r 95 80 % 4 = 0 ∧ fld r 63 56 ≠ 0 ∧ fld r 39 32 = ctx.toNat ∧
  (∃ c, s.configs.find? (fun c => c.cfgid.toNat == fld r 31 0) = some c ∧ fld r 54 52 = c.nreg) ∧
  ∃ e, s.ctxEntry ctx = .ok e ∧ bitOf e 128 = true

/-- A launch as arming makes it (R122, R123): READY when every dependence is satisfied, else WAITING. -/
def PendingIs (s : State) (lid recno : Nat) (bs : List Byte) (ctx : Byte) (dev : Bool) (source : Nat) (batch : Option (Nat × Nat))
    (l : Launch) : Prop :=
  let r := leValue bs
  l = { lid, recno, bytes := bs, st := l.st, cls := fld r 42 40, ctx, cfgid := BitVec.ofNat 32 r, since := s.now, ageAt := s.now
        dev, source, deps := l.deps, batch } ∧
  ((∀ j, j < 4 → DepMet s r j) → l.st = .ready) ∧ (¬(∀ j, j < 4 → DepMet s r j) → l.st = .waiting)

/-- What an arming comes to: a pending launch, or a fault of a class (R118, R120, R122). -/
def Arms (s : State) (recno lid : Nat) (patch : List Byte → List Byte) (fits : Prop) (ctx : Byte) (dev : Bool) (source : Nat)
    (batch : Option (Nat × Nat)) (ok : Launch → Prop) (bad : Nat → Prop) : Prop :=
  let busy := ∃ l ∈ s.launches, l.recno = recno
  (busy → bad 0x13) ∧ (¬busy → ¬fits → bad 0x12) ∧
  (∀ f, ¬busy → s.readRange (s.recPool + 256 * recno) 256 3 = .error f → bad 0x12) ∧
  (∀ bs, ¬busy → fits → s.readRange (s.recPool + 256 * recno) 256 3 = .ok bs →
    (RecordGood s (leValue (patch bs)) ctx → ∃ l, PendingIs s lid recno (patch bs) ctx dev source batch l ∧ ok l) ∧
    (¬RecordGood s (leValue (patch bs)) ctx → bad 0x12))

/-- v is s with corrected errors counted in the colliers (R436): s itself where no word of memory has an error. -/
def Counted (s v : State) : Prop :=
  v = { s with cores := v.cores, ecc := v.ecc } ∧ (∀ a, SameCore (v.core a) (s.core a)) ∧ (s.ecc = [] → v = s)

/-- Bits of a work-queue descriptor that are reserved (Table 05-2). -/
def descReserved (i : Nat) : Bool := decide ((1 ≤ i ∧ i ≤ 5) ∨ (56 ≤ i ∧ i ≤ 59) ∨ 72 ≤ i)

end Sys2Proof.Claims

/-- R118 to R122, R213, R388 and R447: tail words and descriptors are written through BAR0, head words are only read, and another size or
alignment reads 0 and writes nothing; an image that keeps the limits of R213 is registered, any other refused with CONFIG-WORD; the scan takes
one request of the next queue, in ascending order from the one after the last; an accepted request becomes a launch with the lowest free
index, and a rejected one is consumed with its record: LAUNCH-BUSY or LAUNCH-RECORD; an entry in host memory whose link is down raises LINK at
the collier of CD0 (the model's choice: log entry 82). A request waits for the host's earlier writes, a LARM for those it releases and its die's
link (R130, R131, R391). -/
def Obligations.LaunchRequests : Prop :=
  ∀ s : State,
    (∀ (q : Nat) (v : Word), q < 16384 →
      exec (.hostTailWrite q v) s = .next { s with wq := spInsert s.wq q { spGet {} s.wq q with tail := v } }) ∧
    (∀ (q : Nat) (v : Word), 16384 ≤ q → exec (.hostTailWrite q v) s = .next s) ∧
    (∀ b rest, s.barIn = b :: rest →
      let t := { s with barIn := rest }
      (∀ q k v, q < 16384 → k < 2 →
        let w : WorkQueue := spGet {} s.wq q
        (b = ⟨8 * q, 4, some v⟩ → exec .hostBar0Write s = .next { t with wq := spInsert s.wq q { w with tail := BitVec.ofNat 32 v } }) ∧
        (b = ⟨8 * q + 4, 4, some v⟩ → exec .hostBar0Write s = .next t) ∧
        (b = ⟨8 * q, 4, none⟩ → exec .hostBar0Write s = .next { t with barAnswer := w.tail.toNat }) ∧
        (b = ⟨8 * q + 4, 4, none⟩ → exec .hostBar0Write s = .next { t with barAnswer := w.head.toNat }) ∧
        (b = ⟨0x20000 + 16 * q + 8 * k, 8, some v⟩ → ∃ d : BitVec 128,
          (∀ i, d.getLsbD i = (!descReserved i && if i / 64 = k then v.testBit (i % 64) else w.desc.getLsbD i)) ∧
          exec .hostBar0Write s = .next { t with wq := spInsert s.wq q { w with desc := d } })) ∧
      (¬((b.size = 4 ∨ b.size = 8) ∧ b.off % b.size = 0) →
        exec .hostBar0Write s = .next (if b.value = none then { t with barAnswer := 0 } else t))) ∧
    (∀ bs rest, s.cfgIn = bs :: rest →
      let h := leValue (bs.take 64)
      let code := 4 * (fld h 223 208 + fld h 255 240)
      let refused : Prop := ∃ r : FRec, r.cls = 0x15 ∧ exec .configRegistration s = .next { s with cfgIn := rest, cfgAnswer := some r }
      (∀ c, parseImage bs = some c →
        exec .configRegistration s = .next
          { s with cfgIn := rest, configs := s.configs.filter (fun x => x.cfgid ≠ c.cfgid) ++ [c], cfgAnswer := none } ∧
        c.cfgid.toNat = fld h 31 0 ∧ c.nreg = fld h 322 320 ∧ c.aoff = fld h 207 192 ∧ c.doff = fld h 239 224 ∧
        c.acode.length = fld h 223 208 ∧ c.dcode.length = fld h 255 240 ∧ c.slots.length = fld h 287 256 ∧
        c.inits.length = fld h 319 288 ∧
        (∀ i w, c.acode[i]? = some w → w.toNat = leValue ((bs.drop (64 + 4 * i)).take 4)) ∧
        (∀ i x, c.slots[i]? = some x →
          let r := leValue ((bs.drop (64 + code + 32 * i)).take 32)
          x.1.toNat = fld r 143 128 ∧ x.2.1.toNat = fld r 147 144 ∧ x.2.2.toNat = fld r 127 0)) ∧
      (parseImage bs = none → refused) ∧
      (bs.length < 64 ∨ fld h 511 323 ≠ 0 ∨ fld h 191 32 ≠ 0 ∨ fld h 207 192 % 4 ≠ 0 ∨ fld h 239 224 % 4 ≠ 0 ∨
        16384 < fld h 223 208 ∨ 16384 < fld h 255 240 ∨ 65536 < fld h 207 192 + 4 * fld h 223 208 ∨
        65536 < fld h 239 224 + 4 * fld h 255 240 ∨ bs.length < 64 + code + 32 * fld h 287 256 → refused)) ∧
    (∀ lid, s.freeLid = some lid → lid < 65535 ∧ (∀ l ∈ s.launches, l.lid ≠ lid) ∧ ∀ j, j < lid → ∃ l ∈ s.launches, l.lid = j) ∧
    (∀ q, s.wq.Pairwise (fun a b => a.1 < b.1) → s.scanNext = some q → (s.queue q).wants = true ∧ ∀ k w, (k, w) ∈ s.wq → w.wants = true →
      (s.wqNext ≤ q → k < s.wqNext ∨ q ≤ k) ∧ (q < s.wqNext → k < s.wqNext ∧ q ≤ k)) ∧
    (∀ q lid, s.freeLid = some lid → s.scanNext = some q → s.evict = .serving → AllApplied s hostKey →
      let w : WorkQueue := spGet {} s.wq q
      let ctx : Byte := BitVec.ofNat 8 (fld w.desc.toNat 71 64)
      let s1 := { s with wq := spInsert s.wq q { w with head := w.head + 1 }, wqNext := q + 1 }
      let entry := s.ringRead ctx (fld w.desc.toNat 55 6 * 64 + 64 * (w.head.toNat % (16 * 2 ^ fld w.desc.toNat 63 60)))
      (∀ f, entry = .error f →
        (f.cls ≠ 0x30 → ∃ r : FRec, r.cls = 0x12 ∧ exec (.arming (some q) 0) s = .next (s1.logFault ctx r)) ∧
        (f.cls = 0x30 → ∃ r : FRec, r.cls = 0x30 ∧ r.detail = BitVec.ofNat 16 f.detail ∧ r.ctx = ctx ∧
          exec (.arming (some q) 0) s = .next (s1.queueFault 0 r))) ∧
      (∀ bs t, entry = .ok (bs, t) →
        let v := leValue bs
        let recno := fld v 15 0
        let new := (bs.drop 8).take (8 * fld v 23 16)
        let at_ := 64 + 8 * fld v 31 24
        Arms s recno lid (fun b => b.take at_ ++ new ++ b.drop (at_ + new.length)) (fld v 23 16 ≤ 7 ∧ fld v 31 24 + fld v 23 16 ≤ 24)
          ctx false q none
          (fun l => ∃ v, Counted s1 v ∧ exec (.arming (some q) 0) s = .next { v with launches := s.launches ++ [l] })
          (fun cls => ∃ r : FRec, r.cls = BitVec.ofNat 8 cls ∧ r.addr = BitVec.ofNat 56 (s.recPool + 256 * recno) ∧
            ∃ v, Counted s1 v ∧ exec (.arming (some q) 0) s = .next (v.logFault ctx r)))) ∧
    (∀ (d : Fin 8) r rest lid, s.freeLid = some lid → (s.die d).armq = r :: rest → (∀ id ∈ r.after, ¬NotYet s id) →
      s.linkOpen none d.val = true →
      let s1 := s.setDie d { s.die d with armq := rest }
      let run := exec (.arming none d.val) s
      let answers (t : State) (a : Agent) (x : Option FRec) : State := t.setCore a { t.core a with wait := .arm (some x) }
      Arms s r.recno lid (fun b => match r.arg with | none => b | some v => b.take 64 ++ leBytes 8 v.toNat ++ b.drop 72) True
        r.ctx true d.val r.batch
        (fun l => ∃ v, Counted s1 v ∧ (r.agent = none → run = .next { v with launches := s.launches ++ [l] }) ∧
          ∀ a, r.agent = some a → (s.core a).wait = .arm none → run = .next (answers { v with launches := s.launches ++ [l] } a none))
        (fun cls => ∃ (f : FRec) (v : State), Counted s1 v ∧ f.cls = BitVec.ofNat 8 cls ∧ f.addr = BitVec.ofNat 56 (s.recPool + 256 * r.recno) ∧
          (∀ a, r.agent = some a → (s.core a).wait = .arm none → run = .next (answers v a (some f))) ∧
          (r.agent = none → r.batch = none → run = .next (v.logFault r.ctx f)) ∧
          (∀ q b, r.agent = none → r.batch = some (q, b) → run = .next ((v.logFault r.ctx f).dropBatch q b)))) ∧
    (∀ q d, s.freeLid = none ∨ (q = none ∧ ∃ r rest, (s.die (Fin.ofNat 8 d)).armq = r :: rest ∧
        ((∃ id ∈ r.after, NotYet s id) ∨ s.linkOpen none (Fin.ofNat 8 d).val = false)) →
      exec (.arming q d) s = .next s)

/-- R123 to R126 and R136: a launch that has waited 2^20 scheduler cycles in READY or PREEMPTED gains a class; the first launch that can be
placed, by class, time and source, gets its regions, a fresh start its start blocks; regions are free rectangles on allowed dies, the first as wide
as it can be, then lowest; when none can be placed, victims of lower class are pre-empted for the first waiting launch for which they suffice and
which the cores of leaving launches do not help (log entry 24). -/
def Obligations.LaunchSelection : Prop :=
  ∀ s : State,
    (∀ lid l, s.launch lid = some l → l.st = .ready ∨ (∃ f, l.st = .preempted f) →
      (2 ^ 20 * 14 ≤ (s.now - l.ageAt) * 10 → exec (.ageCountExpiry lid) s = .next { s with launches := s.launches.map fun m =>
        if m.lid = lid then { m with cls := min (m.cls + 1) 7, ageAt := s.now } else m }) ∧
      ((s.now - l.ageAt) * 10 < 2 ^ 20 * 14 → exec (.ageCountExpiry lid) s = .next s)) ∧
    (s.evict ≠ .serving → exec .schedulerSelect s = .next s) ∧
    (let used := usedCores s.launches
     let waits (l : Launch) : Prop := l ∈ s.launches ∧ (l.st = .ready ∨ l.st = .preempted false)
     let cyc (l : Launch) : Nat := l.since * 10 / 14
     let notAfter (l m : Launch) : Prop := m.cls ≤ l.cls ∧
       (m.cls = l.cls → cyc l ≤ cyc m ∧ (cyc l = cyc m → l.dev = true → m.dev = true))
     let lower (t : Launch) (v : Launch) : Bool := decide (v.cls < t.cls)
     let plan (t : Launch) (vs : List Nat) : Prop := waits t ∧ s.soonFits t = false ∧ s.victims t (lower t) = some vs
     s.evict = .serving →
      ((∃ l, waits l ∧ (l.fit used).isSome) → ∃ l rs, waits l ∧ l.fit used = some rs ∧
        (∀ m, waits m → (m.fit used).isSome → notAfter l m) ∧
        let fresh := l.saved.isNone
        let l1 : Launch := { l with
          st := .loading, regions := rs, lseq := if fresh then s.lseq + 1 else l.lseq, resumed := !fresh, since := s.now }
        let t : State := { s with
          lseq := if fresh then s.lseq + 1 else s.lseq, launches := s.launches.map fun m => if m.lid = l.lid then l1 else m }
        (s.iodOpen rs = true → exec .schedulerSelect s =
          .next (if fresh then (coresOf rs).foldl (fun t p => t.startBlock l1 p) t else t)) ∧
        (s.iodOpen rs = false → exec .schedulerSelect s = .next s)) ∧
      ((∀ l, waits l → l.fit used = none) → (∃ t vs, plan t vs) → ∃ t vs, ∃ f : Launch → Option (Nat × Nat), plan t vs ∧ (∀ t' vs', plan t' vs' → notAfter t t') ∧
        Answers .schedulerSelect s fun u =>
          u.launches = s.launches.map (fun m => if m.lid ∈ vs then { m with st := .saving, since := s.now, saveAt := f m } else m) ∧
          (∀ v ∈ vs, ∃ l ∈ s.launches, l.lid = v ∧ l.st = .running ∧ l.cls < t.cls) ∧
          ∀ a, (∀ v ∈ vs, (s.core a).lid = some v → (s.core a).run = .running → (u.core a).run = .stopped) ∧
            ((∀ v ∈ vs, (s.core a).lid ≠ some v) → u.core a = s.core a)) ∧
      ((∀ l, waits l → l.fit used = none) → (¬∃ t vs, plan t vs) → exec .schedulerSelect s = .next s)) ∧
    (∀ (l : Launch) (used : List Nat) (rs : List Region), l.fit used = some rs →
      (∀ g ∈ rs, rectFree used g = true) ∧
      (l.saved = none → rs.length = fld (leValue l.bytes) 54 52 + 1 ∧ (∀ g ∈ rs, bitOf (fld (leValue l.bytes) 63 56) g.die.val = true) ∧
        ∀ g rest, rs = g :: rest →
          let b := fld (leValue l.bytes) 199 192
          let w := b % 16 + 1
          let can (x : Region) : Prop := x.h = b / 16 % 8 + 1 ∧ x.w ≤ w ∧ (w + 1) / 2 ≤ x.w ∧ (bitOf b 7 = true → x.w = w)
          can g ∧ ∀ x, can x → x.core < 128 → bitOf (fld (leValue l.bytes) 63 56) x.die.val = true → rectFree used x = true →
            x.w < g.w ∨ (x.w = g.w ∧ (g.die < x.die ∨ (g.die = x.die ∧ g.core ≤ x.core))))) ∧
    (∀ (l : Launch) (p : GCore) (g : Region), s.mem.wf = true → l.regions[p.reg]? = some g → 1 ≤ g.w → g.w ≤ 16 → 1 ≤ g.h → g.h ≤ 8 →
      p.idx < 128 → p.reg < 8 → l.cls < 8 → l.bytes.length = 256 →
      let t := s.startBlock l p
      let A := coreMemBase p.die.val p.core + 0xFFF00
      let x := leValue (t.mem.bytes A 64)
      fld x 31 0 = l.cfgid.toNat ∧ fld x 39 32 = l.ctx.toNat ∧ fld x 42 40 = l.cls ∧ fld x 45 43 = p.reg ∧ fld x 52 46 = p.idx ∧
      fld x 55 53 = p.die.val ∧ fld x 59 56 = g.w - 1 ∧ fld x 62 60 = g.h - 1 ∧ bitOf x 63 = l.resumed ∧ fld x 127 64 = l.lseq % 2 ^ 64 ∧
      fld x 511 128 = 0 ∧ (l.resumed = false → t.mem.bytes (A + 64) 192 = l.bytes.drop 64) ∧
      ∀ a, a < A ∨ A + (if l.resumed then 64 else 256) ≤ a → t.mem.byte a = s.mem.byte a)

namespace Sys2Proof.Claims
open Sys2Proof.Machine

/-- The helper cores of a launch. -/
def agentsOf (l : Launch) : List Agent := ((coresOf l.regions).map fun p => [p.access, p.drain]).flatten

/-- The launches with one of them changed. -/
def changed (s : State) (lid : Nat) (f : Launch → Launch) : List Launch := s.launches.map fun m => if m.lid = lid then f m else m

/-- A station without the sticky tokens of a launch's context. -/
def unstuck (st : Station) (lid : Nat) : Station :=
  match st.ctxOf lid with
  | none => st
  | some k => { st with store := st.store.filter fun e => !(e.cx == k && e.kind == .sticky) }

/-- A core freed: its registers keep what they hold. -/
def freed (c : Core) : Core := { c with run := .idle, lid := none, wait := .none, rq := [], escalated := false }

/-- The cores of a launch freed, all others as they were. -/
def Freed (s t : State) (l : Launch) : Prop :=
  (∀ a ∈ agentsOf l, t.core a = freed (s.core a)) ∧
  ∀ a, (∀ b ∈ agentsOf l, agentIdx b ≠ agentIdx a) → t.core a = s.core a

/-- A station holds a token that waits for a launch, other than a sticky one (R443). -/
def Blocked (s : State) (lid n : Nat) : Prop :=
  ∃ k, (s.stn n).ctxOf lid = some k ∧ ∃ e ∈ (s.stn n).store, e.cx = k ∧ e.kind ≠ .sticky ∧ e.isCarry = false

/-- A helper core as it begins a launch (R127). -/
def begins (l : Launch) (entry : Nat) : Core :=
  { run := .running, lid := some l.lid, pc := BitVec.ofNat 16 entry, ctxid := l.ctx.setWidth 64 }

end Sys2Proof.Claims

/-- R112, R123, R127, R138, R140, R351 and R443: a quiescent launch that is complete drops its sticky tokens and is reported, or gives one core that
waits in GCFG its answer; any other is deadlocked and stops with records of its regions that are not complete. A loaded configuration starts its
cores and stations, or restores them from the image in its context's save area and then, when the residue has been delivered, lets its cores go
on; a saved launch leaves its cores and stations, and its image, written to the save area, holds them (its bytes' layout, and a save or resume
that cannot reach it: log entries 32, 33 and 78); a closed launch is gone, and its counter counts it unless it was ended. -/
def Obligations.LaunchProgress : Prop :=
  ∀ (s : State) (lid : Nat) (l : Launch), s.launch lid = some l → s.mem.wf = true →
    let waitsCfg (a : Agent) : Prop := a ∈ agentsOf l ∧ (s.core a).wait = .gcfg none
    (s.quiet l = false → exec (.damperQuiescence lid) s = .next s) ∧
    (s.quiet l = true → l.st = .running ∧ (∀ o ∈ s.engine, o.lid ≠ some lid) ∧ (∀ f ∈ s.flying, f.lid ≠ some lid) ∧
      (∀ g ∈ l.regions, s.linkOpen none g.die.val = true) ∧ (∀ n ∈ stationsOf l.regions, (s.stn n).own = false ∧
      ∀ b ∈ (s.stn n).bg, b.ctx ≠ l.ctx) ∧ ∀ a ∈ agentsOf l, (s.core a).run = .halted ∨ (s.core a).run = .running) ∧
    (s.quiet l = true → s.configDone l = true → (∀ a, ¬waitsCfg a) → Answers (.damperQuiescence lid) s fun t =>
      t = { s with stations := t.stations, launches := t.launches } ∧
      (∀ n, (n ∈ stationsOf l.regions → t.stn n = unstuck (s.stn n) lid) ∧ (n ∉ stationsOf l.regions → t.stn n = s.stn n)) ∧
      ((∀ a ∈ agentsOf l, (s.core a).run = .halted) →
        t.launches = changed s lid fun m => { m with complete := true, st := .closing, since := s.now }) ∧
      (¬(∀ a ∈ agentsOf l, (s.core a).run = .halted) → t.launches = changed s lid fun m => { m with complete := true })) ∧
    (s.quiet l = true → s.configDone l = true → (∃ a, waitsCfg a) → ∃ a, waitsCfg a ∧ Answers (.damperQuiescence lid) s fun t =>
      (∀ b, agentIdx b ≠ agentIdx a → t.core b = s.core b) ∧
      ∀ (x : Guard) (r : GReg) (n : Nat), decode (s.coreWord a (s.core a).pc.toNat) 0 = .ok (.gcfg x r, n) →
        (∀ f, s.gcfgCheck l (s.core a) ((s.core a).rg r) = .error f →
          ∃ e : FRec, e.cls = BitVec.ofNat 8 f.cls ∧ t.core a = { s.core a with wait := .gcfg (some (some e)) }) ∧
        (∀ g rs, s.gcfgCheck l (s.core a) ((s.core a).rg r) = .ok (g, rs) →
          t.core a = { s.core a with wait := .gcfg (some none) } ∧ t.net = s.net ++ g.flights rs lid l.ctx ∧
          t.launches = changed s lid fun m => { m with cfgid := g.cfgid, placed := rs, complete := false })) ∧
    (s.quiet l = true → s.configDone l = false → ∃ rs : List FRec, (∀ r ∈ rs, r.cls = 0x1C) ∧ rs ≠ [] ∧
      (∀ r ∈ rs, r.kind = 0 → ∃ g ∈ l.regions, s.regionsDone l [g] = false ∧ ∃ n ∈ stationsOf [g], r.src = BitVec.ofNat 16 n) ∧
      (∀ g ∈ l.regions, ((stationsOf [g]).filter fun n => (s.deadlockStn l n).isSome).length ≤ 16 →
        ∀ n ∈ stationsOf [g], Blocked s lid n → ∃ r ∈ rs, r.src = BitVec.ofNat 16 n ∧ r.kind = 0) ∧
      Answers (.damperQuiescence lid) s fun t =>
        t.launches = (changed s lid fun m => { m with st := .stopped, recs := m.recs ++ rs.map (s.now, ·), logged := m.logged ++ rs }) ∧
        t.stations = s.stations ∧ t.mem = s.mem ∧ ∀ a, (s.core a).lid = some lid → (s.core a).run = .running → (t.core a).run = .stopped) ∧
    let linked : Prop := ∀ g ∈ l.regions, s.linkOpen none g.die.val = true
    let loads : Prop := l.st = .loading ∧ l.restoring = false ∧ linked
    (l.st ≠ .loading ∨ (l.restoring = false ∧ ¬linked) ∨ (l.restoring = true ∧ ∃ f ∈ s.net, f.fifo = some lid) →
      exec (.loadComplete lid) s = .next s) ∧
    (∀ c, loads → s.configs.find? (fun c => c.cfgid == l.cfgid) = some c → l.saved = none →
      (∀ f, c.check l.regions l.dev = some f → l.batch = none → ∃ r : FRec, r.cls = BitVec.ofNat 8 f.cls ∧ exec (.loadComplete lid) s =
        .next ((State.forgetLid { s with launches := s.launches.filter fun m => m.lid ≠ lid } lid).logFault l.ctx r)) ∧
      (c.check l.regions l.dev = none → c.aoff + 4 * c.acode.length ≤ 65536 → c.doff + 4 * c.dcode.length ≤ 65536 →
        Answers (.loadComplete lid) s fun t =>
          t.launches = (changed s lid fun m => { m with st := .running, since := s.now, placed := m.regions, complete := false }) ∧
          (∀ p ∈ coresOf l.regions,
            t.core p.access = begins l (fld (leValue l.bytes) 79 64) ∧ t.core p.drain = begins l (fld (leValue l.bytes) 95 80) ∧
            t.mem.bytes (istoreBase p.access + c.aoff) (4 * c.acode.length) = (c.acode.map fun w => leBytes 4 w.toNat).flatten ∧
            t.mem.bytes (istoreBase p.drain + c.doff) (4 * c.dcode.length) = (c.dcode.map fun w => leBytes 4 w.toNat).flatten) ∧
          (∀ n ∈ stationsOf l.regions,
            let k := (s.stn n).ctxFor l.ctx
            let x := (t.stn n).ctxs[k.val]
            x.tag = some l.ctx ∧ x.lid = some lid ∧ x.cfgid = c.cfgid ∧
            x.words = (let old := (s.stn n).ctxs[k.val]; if old.tag ≠ none ∧ old.cfgid = c.cfgid then old.words else c.wordsAt l.regions n) ∧
            x.flags = 0 ∧ x.sinks = [] ∧
            (t.stn n).rows = (s.stn n).rows ∧ (t.stn n).tables = (s.stn n).tables ∧ (t.stn n).kindling = (s.stn n).kindling ∧
            ∀ (slot : BitVec 4) w i h, spFind x.words slot.toNat = some w → decodeStation w.toNat = .ok i → stnHead i = some h →
              h.arity = 0 → ∃ p ∈ (t.stn n).issueq, p.cx = k ∧ p.slot = slot ∧ p.tag = BitVec.ofNat 64 (l.ctx.toNat * 2 ^ 56)) ∧
          t.net = s.net ++ c.flights l.regions lid l.ctx)) ∧
    (∀ c im v old, loads → s.configs.find? (fun c => c.cfgid == l.cfgid) = some c → l.saved = some old →
      let placed := (l.regions.zip l.placed).map fun (g, p) => ({ g with w := p.w, h := p.h } : Region)
      c.check placed l.dev = none → (s.cacheConfig l.cfgid l.regions).readImage l = .ok (im, v) → l.regions = im.regions →
      (∀ x ∈ im.stations, x.entries = [] ∧ x.held = [] ∧ x.stn ∈ stationsOf l.regions) →
      (im.stations.map (·.stn)).Nodup → (im.cores.map fun x => agentIdx x.1).Nodup → (∀ x ∈ im.cores, x.1.kind ≠ .collier) →
      ((coresOf l.regions).map (·.key)).Nodup → (∀ p ∈ coresOf l.regions, p.core < 128) →
        Answers (.loadComplete lid) s fun t =>
          t.launches = (changed s lid fun m => { m with
            restoring := true, since := s.now, placed := placed, complete := false, resumed := true, saved := none, saveAt := none }) ∧
          (∀ x ∈ im.cores, t.core x.1 = { x.2 with lid := some lid }) ∧
          (∀ x ∈ im.stations,
            let k := (s.stn x.stn).ctxFor l.ctx
            (t.stn x.stn).ctxs[k.val].flags = x.flags ∧ (t.stn x.stn).ctxs[k.val].sinks = x.sinks ∧
            (t.stn x.stn).nodeOps = (s.stn x.stn).nodeOps ++ x.nodeOps.map (fun o => { o with pair := o.pair.moved k x.stn }) ∧
            (t.stn x.stn).issueq = (x.sources.map fun p => p.moved k x.stn) ++ (s.stn x.stn).issueq) ∧
          t.net = s.net ++ im.residue.map (fun f => f.again l.regions l.regions lid) ∧
          ∀ i p j cells, (coresOf l.regions)[i]? = some p → i < im.mems.length → im.mems.find? (fun m => m.1 == i) = some (j, cells) →
            spWf 0 cells = true → (∀ c ∈ cells, c.1 < 2 ^ 20) → ∀ a, a < 0xFFF00 ∨ (0xFFF40 ≤ a ∧ a < 2 ^ 20) →
              t.mem.byte (coreMemBase p.die.val p.core + a) = spGet 0 cells a) ∧
    (∀ c f old, loads → s.configs.find? (fun c => c.cfgid == l.cfgid) = some c → l.saved = some old →
      c.check ((l.regions.zip l.placed).map fun (g, p) => ({ g with w := p.w, h := p.h } : Region)) l.dev = none →
      let s0 := s.cacheConfig l.cfgid l.regions
      s0.readImage l = .error f → ∃ r : FRec, r.cls = BitVec.ofNat 8 f.cls ∧ r.lid = BitVec.ofNat 16 lid ∧
        exec (.loadComplete lid) s = .next { s0 with
          launches := changed s lid fun m => { m with st := .stopped, recs := m.recs ++ [(s.now, r)], logged := m.logged ++ [r] } }) ∧
    (l.st = .loading → l.restoring = true → (∀ f ∈ s.net, f.fifo ≠ some lid) → Answers (.loadComplete lid) s fun t =>
      t = { s with cores := t.cores, launches := changed s lid fun m =>
        { m with st := .running, since := s.now, restoring := false, skip := false } } ∧
      (∀ a ∈ agentsOf l, (s.core a).run ≠ .stopped → t.core a = s.core a) ∧
      (∀ a ∈ agentsOf l, (s.core a).run = .stopped →
        let c := s.core a
        let two : Bool := fld (s.coreWord a c.pc.toNat) 31 25 == 0x24
        t.core a = { (if l.skip = true ∧ c.escalated = true then c.retire (if two then c.pc + 4 else c.pc) else c) with
          run := .running, escalated := false })) ∧
    (l.st = .saving → s.settled l = true → s.writesDone l = true → s.readsDone l = true → linked →
      let mine (f : Flight) : Bool := tagCtx f.tok.tag == l.ctx && (stationsOf l.regions).contains f.tok.stn.toNat
      (∀ f, s.imagePlace l = .error f → exec (.saveComplete lid) s = .next (s.schedStop l f)) ∧
      ∀ at_ size, s.imagePlace l = .ok (at_, size) → ∃ (t : State) (im : Image), exec (.saveComplete lid) s = .next (t.appendRecs l.recs) ∧
        t.launches = (changed s lid fun m => { m with
          st := .preempted (m.recs != []), saved := some m.regions, since := s.now, ageAt := s.now, recs := [] }) ∧
        im.cfgid = l.cfgid ∧ im.regions = l.regions ∧ im.cores = (agentsOf l).map (fun a => (a, s.core a)) ∧
        im.residue = s.net.filter mine ∧ t.net = s.net.filter (fun f => !mine f) ∧
        (let bs := putImage im l.ctx l.cls
         let n := 128 * ((bs.length + 127) / 128)
         s.Inv → (spFind s.keys 0).isSome → bs.length ≤ size → at_ % 128 = 0 → at_ + n ≤ devSize →
          t.mem.bytes at_ bs.length = bs ∧ ∀ a, a < at_ ∨ at_ + n ≤ a → t.mem.byte a = s.mem.byte a) ∧
        (∀ a ∈ agentsOf l, t.core a = freed (s.core a)) ∧
        (∀ a, (∀ b ∈ agentsOf l, agentIdx b ≠ agentIdx a) → SameCore (t.core a) (s.core a)) ∧
        (∀ i p, (coresOf l.regions)[i]? = some p → ∃ cells, (i, cells) ∈ im.mems ∧
          ∀ a, a < 2 ^ 20 → spGet 0 cells a = s.mem.byte (coreMemBase p.die.val p.core + a)) ∧
        ∀ n ∈ stationsOf l.regions, ∀ k, (s.stn n).ctxOf lid = some k →
          let st := s.stn n
          let u := t.stn n
          u.ctxs[k.val].lid = none ∧ (∀ e ∈ u.store, e.cx ≠ k) ∧ (∀ p ∈ u.issueq, p.cx ≠ k) ∧ u.rows = st.rows ∧ u.tables = st.tables ∧
          ∃ x ∈ im.stations, x.stn = n ∧ x.flags = st.ctxs[k.val].flags ∧ x.sinks = st.ctxs[k.val].sinks ∧
            ∀ e ∈ st.store, e.cx = k → e.isCarry = false → e ∈ x.entries) ∧
    (l.st ≠ .saving ∨ s.settled l = false ∨ s.writesDone l = false ∨ s.readsDone l = false ∨ ¬linked → exec (.saveComplete lid) s = .next s) ∧
    (l.st = .closing → (∀ o ∈ s.engine, o.lid ≠ some lid) → s.writesDone l = true → s.readsDone l = true →
      let up := bitOf (leValue l.bytes) 110 && !l.ended
      let k := fld (leValue l.bytes) 109 96
      ∃ t, exec (.launchClose lid) s = .next (match l.batch, l.batchDone with | some (q, b), false => t.dropBatch q b | _, _ => t) ∧
        (up = true → spGet 0 t.counters k = spGet 0 s.counters k + 1 ∧ (∀ j, j ≠ k → spGet 0 t.counters j = spGet 0 s.counters j) ∧
          ∀ d, (t.die d).rmsgs = (s.die d).rmsgs ++ [(k, spGet 0 s.counters k + 1)]) ∧
        (up = false → t.counters = s.counters ∧ t.dies = s.dies) ∧
        t.launches.map (·.lid) = (s.launches.map (·.lid)).filter (· ≠ lid) ∧ t.mem = s.mem ∧ Freed s t l) ∧
    (l.st ≠ .closing ∨ (∃ o ∈ s.engine, o.lid = some lid) ∨ s.writesDone l = false ∨ s.readsDone l = false →
      exec (.launchClose lid) s = .next s)

namespace Sys2Proof.Claims
open Sys2Proof.Machine

/-- A record in the fault queue of a die's collier, or waiting while the queue is full (R423). -/
def Queued (s t : State) (d : Fin 8) (r : FRec) : Prop :=
  let a := collierOf d
  let c := s.core a
  let n := (c.fqtail.toNat + 128 - c.fqhead.toNat) % 128
  let A := collierBase d.val + fld c.fqbase.toNat 17 12 * 4096 + 64 * (c.fqtail.toNat % 64)
  (n ≠ 64 → t = { s with mem := t.mem, cores := t.cores } ∧ t.mem.bytes A 64 = leBytes 64 (r.high * 2 ^ 256 + r.word.toNat * 2 ^ 128) ∧
    (∀ k, k < A ∨ A + 64 ≤ k → t.mem.byte k = s.mem.byte k) ∧
    t.core a = { c with fqtail := BitVec.ofNat 64 ((c.fqtail.toNat + 1) % 128) } ∧
    ∀ b, agentIdx b ≠ agentIdx a → t.core b = s.core b) ∧
  (n = 64 → t = { s with dies := t.dies } ∧ t.die d = { s.die d with fwait := (s.die d).fwait ++ [r] } ∧ ∀ e, e ≠ d → t.die e = s.die e)

/-- A core of a stopped launch that goes on; with skip, one that has faulted itself after its instruction, a LIMM pair's two words (R423). -/
def goneOn (s : State) (a : Agent) (skip : Bool) : Core :=
  let c := s.core a
  if c.run = .stopped then
    let two : Bool := fld (s.coreWord a c.pc.toNat) 31 25 == 0x24
    { (if skip = true ∧ c.escalated = true then c.retire (if two then c.pc + 4 else c.pc) else c) with run := .running, escalated := false }
  else c

/-- A station of a launch that goes on (R140, R423, R445): its entries re-enter under the matching rules, with skip without the operands of
its faulting pairs; the result buffer is cleared; tokens held for the launch arrive again, or with skip are gone. -/
def wentOn (l : Launch) (skip : Bool) (s : State) (n : Nat) : State :=
  let st := s.stn n
  let s1 := s.setStn n { st with held := st.held.filter (·.lid ≠ l.lid) }
  let s2 := match st.ctxOf l.lid with
    | none => s1
    | some k =>
      let lost := ((st.faulted.filter fun p => p.cx == k).map st.returned).flatten
      (s1.setStn n { s1.stn n with
        store := st.store.filter fun e => e.cx ≠ k, faulted := st.faulted.filter fun p => p.cx ≠ k, resbuf := [], reshdr := [] }).reenterList n
          (st.store.filter fun e => e.cx == k && !(skip && lost.contains e))
  if skip then s2 else (st.held.filter (·.lid == l.lid)).foldl (fun t h => t.arrive n (some h.lid) h.tok) s2

/-- LCTL's three actions as events. -/
def lctlEvent (d : Fin 8) (act lid : Nat) : Instr :=
  if act = 0 then .lctlResume d lid else if act = 1 then .lctlResumeSkip d lid else .lctlEnd d lid

/-- A launch that LCTL acts on (R423). -/
def AtLctl (l : Launch) : Prop := l.st = .stopped ∨ l.st = .preempted true

end Sys2Proof.Claims

/-- R422 to R424, R437, R445, R446 and R448: a settled stop returns the launch's waiting pairs to the matching stores and appends its records, those
of one cycle in ascending src; LCTL resume lets a stopped launch run on with its operand entries re-entering, resume with skip without those of its
faulting pairs and past the faulting instructions, end closes it with its records in the fault log; one whose load was abandoned is loaded again
(the model's choice: log entry 78); a launch PREEMPTED with a fault pending becomes eligible or is gone; damage of a matching store or configuration context makes resume end; 0xFFFF names
the tokens held for no launch; LCANCEL withdraws a WAITING or READY launch. A CSRW to LCTL is that event, or ILLEGAL. -/
def Obligations.LaunchStops : Prop :=
  (∀ (s : State) (d : Fin 8) (r : FRec), s.mem.wf = true → Queued s (s.queueFault d r) d r) ∧
  (∀ (s : State) (lid : Nat) (l : Launch), s.launch lid = some l →
    let run (act : Nat) (d : Fin 8) := exec (lctlEvent d act lid) s
    let ends := ∃ r ∈ l.logged.drop l.handled, r.cls = 0x29 ∧ (r.detail.toNat % 16 = 2 ∨ r.detail.toNat % 16 = 3)
    (l.st = .stopped → l.recs ≠ [] → s.settled l = true → (stationsOf l.regions).Nodup → ∃ (t : State) (rs : List (Nat × FRec)),
      exec (.faultStopComplete lid) s = .next (rs.foldl (fun t r => t.queueFault (Fin.ofNat 8 (r.2.src.toNat / 8192)) r.2) t) ∧
      rs.Perm l.recs ∧ rs.Pairwise (fun x y => x.1 < y.1 ∨ (x.1 = y.1 ∧ x.2.src.toNat ≤ y.2.src.toNat)) ∧
      t = { s with stations := t.stations, launches := changed s lid fun m => { m with recs := [] } } ∧
      ∀ n ∈ stationsOf l.regions, ∀ k, (s.stn n).ctxOf lid = some k → t.stn n = (s.stn n).unissue k ∧
        ∀ p ∈ (s.stn n).issueq, p.cx = k → (s.stn n).isSource p = false →
          p ∉ (t.stn n).issueq ∧ ∀ e ∈ (s.stn n).returned p, e ∈ (t.stn n).store) ∧
    (l.st ≠ .stopped ∨ l.recs = [] ∨ s.settled l = false → exec (.faultStopComplete lid) s = .next s) ∧
    (∀ d act, lid ≠ 0xFFFF → ¬AtLctl l → run act d = .next s) ∧
    (∀ d act, lid ≠ 0xFFFF → l.st = .stopped → act = 0 ∨ act = 1 → ¬ends → l.recs = [] →
      (∀ n ∈ s.stnsOf l, act = 1 → (s.stn n).reshdr = []) → (agentsOf l).Nodup →
      let skip : Bool := act == 1
      let l1 : Launch := { l with handled := l.logged.length, complete := false, skip := l.skip || skip }
      let on (u : State) : Prop := run act d = .next ((s.stnsOf l).foldl (wentOn l skip) u)
      (l.saved ≠ none → run act d = .next { s with launches := changed s lid fun _ => { l1 with st := .loading } }) ∧
      (l.saved = none → l.restoring = true → on { s with launches := changed s lid fun _ => { l1 with st := .loading } }) ∧
      (l.saved = none → l.restoring = false → ∃ u, on u ∧
        u = { s with cores := u.cores, launches := changed s lid fun _ => { l1 with st := .running, skip := false, saveAt := none } } ∧
        ∀ a ∈ agentsOf l, u.core a = goneOn s a skip)) ∧
    (∀ d act, lid ≠ 0xFFFF → l.st = .stopped → act = 2 ∨ ends → act ≤ 2 → ∃ t, run act d = .next t ∧
      t.launches = (changed s lid fun m => { m with st := .closing, since := s.now, recs := [], ended := true }) ∧
      t.msix = s.msix ++ List.replicate l.logged.length (1024 + l.ctx.toNat)) ∧
    (∀ d act, lid ≠ 0xFFFF → l.st = .preempted true → act = 0 ∨ act = 1 → ¬ends → ∃ t, run act d = .next t ∧
      t = { s with launches := changed s lid fun m => { m with st := .preempted false, handled := m.logged.length, skip := act == 1 } }) ∧
    (∀ d act, lid ≠ 0xFFFF → l.st = .preempted true → act = 2 ∨ ends → act ≤ 2 → l.batch = none → ∃ t, run act d = .next t ∧
      t.launches = s.launches.filter (fun m => m.lid ≠ lid) ∧
      t.msix = s.msix ++ List.replicate l.logged.length (1024 + l.ctx.toNat))) ∧
  (∀ (s : State) (d : Fin 8), exec (.lctlResumeSkip d 0xFFFF) s = .next { s with stations := s.stations.map fun (n, st) =>
      if n / 8192 % 8 = d.val then (n, { st with held := st.held.filter (·.lid ≠ 0xFFFF) }) else (n, st) } ∧
    exec (.lctlResume d 0xFFFF) s = .next s ∧ exec (.lctlEnd d 0xFFFF) s = .next s) ∧
  (∀ (s : State) (d : Fin 8) (v : DWord),
    let recno := v.toNat % 65536
    let answers (t : State) (done : Nat) : State :=
      t.setCore (collierOf d) { t.core (collierOf d) with lcancel := BitVec.ofNat 64 (recno + done * 2 ^ 16) }
    let fits (l : Launch) : Bool := l.recno == recno && (l.st == .waiting || l.st == .ready)
    ((∀ l ∈ s.launches, fits l = false) → exec (.lcancelWrite d v) s = .next (answers s 0)) ∧
    (∀ l, s.launches.find? fits = some l → l.batch = none → ∃ r : FRec, r.cls = 0x12 ∧ r.detail.toNat % 16 = 11 ∧
      exec (.lcancelWrite d v) s =
        .next (answers ((State.forgetLid { s with launches := s.launches.filter fun m => m.lid ≠ l.lid } l.lid).logFault l.ctx r) 1))) ∧
  (∀ (s : State) (x : Guard) (d a : GReg) (imm : BitVec 11), s.me.guard x = true → s.cur.kind = .collier →
    (s.me.rg a + s.immI imm).toNat % 4096 = 0x803 →
    let v := (s.me.rg d).toNat
    let act := v / 2 ^ 16 % 4
    let lid := v % 2 ^ 16
    let legal := act < 3 ∧ ((lid = 0xFFFF ∧ act = 1) ∨ (lid ≠ 0xFFFF ∧ ∃ l, s.launch lid = some l ∧ AtLctl l))
    (legal → ∃ t, exec (lctlEvent s.cur.die act lid) s = .next t ∧
      exec (.csrw x d a imm) s = .next { t.setMe (t.me.retire s.wordPc) with limm := none }) ∧
    (¬legal → exec (.csrw x d a imm) s = .next (afterFault s { cls := 0x01 })))

namespace Sys2Proof.Claims
open Sys2Proof.Machine

/-- PAIRSVC as it reads after a service: status, the partner's gen, station and table (Table 23-2). -/
def served (s : State) (d : Fin 8) (status pg n : Nat) (t : BitVec 2) : State :=
  s.setCore (collierOf d) { s.core (collierOf d) with pairsvc := BitVec.ofNat 64 (status * 2 ^ 48 + pg * 2 ^ 32 + n % 65536 * 4 + t.toNat) }

/-- The three services of PAIRSVC. -/
def services (d : Fin 8) (n : Nat) (t : BitVec 2) : List Instr := [.pairsvcReplay d n t, .pairsvcRetract d n t, .pairsvcUnbind d n t]

/-- Journal entries applied to a table one after another, folded, its gen following theirs (R432). -/
def Replays (ctx : Byte) (t : BitVec 2) (tr : Bool) : Station → List JEntry → Station → Prop
  | st, [], st' => st' = st
  | st, e :: es, st' => ∃ tb st1 t1, st.table ctx t = some tb ∧
      st.update tb (pairPlace tb tr e.pos.toNat).1 (pairPlace tb tr e.pos.toNat).2 e.delta true = .ok st1 ∧ st1.table ctx t = some t1 ∧
      Replays ctx t tr (st1.putTable { t1 with gen := e.gen }) es st'

/-- An item that WSEL selects at a die's collier, with what WDATA reads there and what a write of it does (R435). -/
def Sees (s : State) (d : Fin 8) (W : Nat) (value : DWord) (put : DWord → State) : Prop :=
  let src := fld W 47 32
  let kind := fld W 31 30
  let i := fld W 11 0
  let stopped (lid : Option Nat) : Prop := ∃ n l, lid = some n ∧ s.launch n = some l ∧ l.st = .stopped
  src / 8192 = d.val ∧
  (((kind = 1 ∨ kind = 2) ∧ src % 64 = 0 ∧
    let a : Agent := ⟨if kind = 1 then .access else .drain, d, Fin.ofNat 128 (src / 64)⟩
    let c := s.core a
    stopped c.lid ∧ c.run = .stopped ∧
    ((∃ g : GReg, i = g.val ∧ value = c.rg g ∧ put = fun v => s.setCore a (c.wg g v)) ∨
      (∃ p : PReg, i = 32 + p.val ∧ value = (c.rp p).setWidth 64 ∧ put = fun v => s.setCore a (c.wp p (v.setWidth 32))) ∨
      (∃ (r : VReg) (j : Fin 32), i = 64 + 32 * r.val + j.val ∧ value = ((c.rv r)[j]).setWidth 64 ∧
        put = fun v => s.setCore a (c.wv r ((c.rv r).set j.val (v.setWidth 32)))) ∨
      (i = 576 ∧ value = c.fpctl ∧
        put = fun v => if 5 ≤ v.toNat % 8 then s else s.setCore a { c with fpctl := v &&& 0x1F01FF }))) ∨
  kind = 0 ∧ ∃ lid, (s.core (stnAgent src)).lid = some lid ∧ stopped (some lid) ∧
    let st := s.stn src
    ((∃ k, i = 0x800 ∧ st.ctxOf lid = some k ∧ value = (st.ctxs[k.val].flags).setWidth 64 ∧
        put = fun v => s.setStn src { st with ctxs := st.ctxs.set k.val { st.ctxs[k.val] with flags := v.setWidth 5 } }) ∨
      (∃ (p : Pair) (rest : List Pair) (e : Entry) (es : List Entry) (w : Word) (j : Nat), j < 32 ∧ i = j ∧ st.faulted = p :: rest ∧
        p.l = e :: es ∧ e.tok.lanes[j]? = some w ∧ value = w.setWidth 64 ∧ put = fun v =>
          let e' : Entry := { e with tok := { e.tok with lanes := e.tok.lanes.set j (v.setWidth 32) } }
          s.setStn src { st with
            store := st.store.map (fun x => if x = e then e' else x), faulted := { p with l := e' :: es } :: rest }) ∨
      (∃ (dest half : Fin 2) (w : DWord), i = 1024 + 256 * dest.val + 32 + half.val ∧ spFind st.reshdr (dest.val * 2 + half.val) = some w ∧
        value = w ∧ put = fun v => s.setStn src { st with
          reshdr := spInsert st.reshdr (dest.val * 2 + half.val) (if half = 1 then v &&& ~~~0xC0 else v) }) ∨
      (∃ (dest : Fin 2) (j : Nat) (w : Word), j < 32 ∧ i = 1024 + 256 * dest.val + j ∧ spFind st.resbuf (dest.val * 32 + j) = some w ∧
        value = w.setWidth 64 ∧ put = fun v => s.setStn src { st with resbuf := spInsert st.resbuf (dest.val * 32 + j) (v.setWidth 32) })))

/-- A launch that PAIRSVC may act for at table t of station n: stopped, or preempted with a fault pending; it has the station, and its context's
table stands there or was spilled there (R432). -/
def ServedFor (s : State) (n : Nat) (t : BitVec 2) (l : Launch) : Prop :=
  l ∈ s.launches ∧ AtLctl l ∧ n ∈ stationsOf (l.saved.getD l.regions) ∧
    ((s.stn n).table l.ctx t ≠ none ∨ (l.ctx, n, t) ∈ s.spilledTables)

/-- The CSRs of a collier whose write is an operation, with the event that performs it. -/
def csrEvent (d : Fin 8) (n : Nat) (v : DWord) : Option Instr :=
  if n = 0x801 then some (.fqheadWrite d v)
  else if n = 0x808 then some (.lcancelWrite d v)
  else if n = 0x804 then (services d (fld v.toNat 17 2) (BitVec.ofNat 2 v.toNat))[fld v.toNat 63 62]?
  else none

end Sys2Proof.Claims

/-- R423, R432, R435 and R437: FQHEAD takes its value and waiting records enter while the queue has room; PAIRSVC replays, retracts or unbinds a
pair whose launch is stopped, bringing spilled tables back first, and answers short, unbound or refused with nothing changed; a damaged table or
save area raises its fault (the model's choice: log entry 83); WDATA reads and writes what WSEL selects; the scrubber
writes single-bit errors back, counts them, and reports double-bit ones. A CSRW to these CSRs is the same operation. -/
def Obligations.CollierServices : Prop :=
  (∀ (s : State) (d : Fin 8) (v : DWord), s.mem.wf = true →
    let a := collierOf d
    let c := s.core a
    let h := v &&& 0x7F
    let n := (c.fqtail.toNat + 128 - h.toNat) % 128
    let w := (s.die d).fwait
    let k := min (64 - n) w.length
    let base := collierBase d.val + fld c.fqbase.toNat 17 12 * 4096
    c.fqtail.toNat < 128 → n ≤ 64 → Answers (.fqheadWrite d v) s fun t =>
      t = { s with cores := t.cores, mem := t.mem, dies := t.dies } ∧
      t.core a = { c with fqhead := h, fqtail := BitVec.ofNat 64 ((c.fqtail.toNat + k) % 128) } ∧
      t.die d = { s.die d with fwait := w.drop k } ∧ (∀ b, agentIdx b ≠ agentIdx a → t.core b = s.core b) ∧
      (∀ e, e ≠ d → t.die e = s.die e) ∧ (∀ b, b < base ∨ base + 4096 ≤ b → t.mem.byte b = s.mem.byte b) ∧
      ∀ j r, j < k → w[j]? = some r → t.mem.bytes (base + 64 * ((c.fqtail.toNat + j) % 64)) 64 = r.bytes) ∧
  (∀ (s : State) (d : Fin 8) (n : Nat) (t : BitVec 2),
    let replay := exec (.pairsvcReplay d n t) s
    let retract := exec (.pairsvcRetract d n t) s
    ((∀ l, ¬ServedFor s n t l) → ∀ i ∈ services d n t, exec i s = .next (served s d 3 0 n t)) ∧
    (∀ ctx lid tb, (s.stn n).table ctx t = some tb → (∀ e ∈ s.ecc, e.sram = false) → s.svcTable n ctx t lid = .ok (some tb, s)) ∧
    (∀ ctx lid, (s.stn n).table ctx t = none → (ctx, n, t) ∉ s.spilledTables → s.svcTable n ctx t lid = .ok (none, s)) ∧
    (∀ ctx lid, s.svcOwner n t = some (ctx, lid) →
      (∃ l, ServedFor s n t l ∧ l.ctx = ctx ∧ l.lid = lid) ∧
      (∀ f, s.svcTable n ctx t lid = .error f → ∃ r : FRec, r.cls = BitVec.ofNat 8 f.cls ∧
        ∀ i ∈ services d n t, exec i s = .next (s.queueFault d r)) ∧
      ∀ tb s1, s.svcTable n ctx t lid = .ok (some tb, s1) →
      (tb.bind = none → ∀ i ∈ services d n t, exec i s = .next (served s1 d 2 0 n t)) ∧
      (∀ b s2, tb.bind = some b → s1.svcTable b.stn ctx b.t lid = .ok (none, s2) → ∀ i ∈ services d n t, exec i s = .next (served s2 d 2 0 n t)) ∧
      (∀ b pt v, tb.bind = some b → s1.svcTable b.stn ctx b.t lid = .ok (some pt, v) → (v.stn n).table ctx t = some tb →
        (v.stn b.stn).table ctx b.t = some pt → (b.stn ≠ n ∨ b.t ≠ t) →
        let k := (pt.gen - tb.gen).toNat
        let back := (tb.gen - pt.gen).toNat
        let both (u : State) (x y : Table) : Prop := (u.stn n).table ctx t = some x ∧ (u.stn b.stn).table ctx b.t = some y
        (k = 0 ∨ 2 ^ 15 ≤ k → replay = .next (served v d 3 pt.gen.toNat n t)) ∧
        (0 < k → k < 2 ^ 15 → (∃ i, i < k ∧ ∀ e ∈ pt.journal, e.gen ≠ tb.gen + BitVec.ofNat 16 (i + 1)) →
          replay = .next (served v d 1 pt.gen.toNat n t)) ∧
        (0 < k → k ≤ 4 → ∀ es st' x, es.length = k → (∀ i, i < k → pt.journal.find? (fun e => e.gen == tb.gen + BitVec.ofNat 16 (i + 1)) = es[i]?) →
          Replays ctx t b.tr (v.stn n) es st' → st'.table ctx t = some x → ∃ u, replay = .next (served u d 0 pt.gen.toNat n t) ∧
            u = { v with stations := u.stations, dies := u.dies } ∧ x.gen = pt.gen ∧
            both u { x with pgen := pt.gen } { pt with pgen := x.gen } ∧ (u.stn n).tstore = st'.tstore) ∧
        (back = 0 ∨ 2 ^ 15 ≤ back → retract = .next (served v d 3 pt.gen.toNat n t)) ∧
        (0 < back → back < 2 ^ 15 → tb.journal = [] → retract = .next (served v d 1 pt.gen.toNat n t)) ∧
        (0 < back → back < 2 ^ 15 → ∀ e js st1 x, tb.journal = js ++ [e] →
          (v.stn n).update tb (pairPlace tb b.tr e.pos.toNat).1 (pairPlace tb b.tr e.pos.toNat).2 (-e.delta) true = .ok st1 →
          st1.table ctx t = some x → ∃ u, retract = .next (served u d 0 pt.gen.toNat n t) ∧
            u = { v with stations := u.stations, dies := u.dies } ∧ (u.stn n).tstore = st1.tstore ∧
            both u { x with gen := tb.gen - 1, pgen := pt.gen, journal := js } { pt with pgen := tb.gen - 1 }) ∧
        ∃ u, exec (.pairsvcUnbind d n t) s = .next (served u d 0 pt.gen.toNat n t) ∧ u = { v with stations := u.stations } ∧
          both u { tb with bind := none, journal := [] } { pt with bind := none, journal := [] }))) ∧
  (∀ (s : State) (d : Fin 8),
    let W := (s.core (collierOf d)).wsel.toNat
    (∀ value put, Sees s d W value put → (∀ v, exec (.wdataAccess d (some v)) s = .next (put v)) ∧ exec (.wdataAccess d none) s = .next s) ∧
    (fld W 47 32 / 8192 ≠ d.val ∨ fld W 31 30 = 3 ∨ (fld W 31 30 ≠ 0 ∧ fld W 47 32 % 64 ≠ 0) → ∀ v, exec (.wdataAccess d v) s = .next s)) ∧
  (∀ (s : State) (x : Guard) (g a : GReg) (imm : BitVec 11), s.me.guard x = true → s.cur = collierOf s.cur.die →
    let n := (s.me.rg a + s.immI imm).toNat % 4096
    let v := s.me.rg g
    let W := s.me.wsel.toNat
    let retired (t : State) : State := { t.setMe (t.me.retire s.wordPc) with limm := none }
    let svc := s.pairSvc s.cur.die (fld v.toNat 63 62) (fld v.toNat 17 2) (BitVec.ofNat 2 v.toNat)
    (∀ i, csrEvent s.cur.die n v = some i → (n = 0x804 → ∃ u, svc = .ok u) →
      ∃ t, exec i s = .next t ∧ exec (.csrw x g a imm) s = .next (retired t)) ∧
    (∀ f, n = 0x804 → fld v.toNat 63 62 ≠ 3 → svc = .error f → exec (.csrw x g a imm) s = .next (afterFault s f)) ∧
    (n = 0x804 → fld v.toNat 63 62 = 3 → exec (.csrw x g a imm) s = .next (afterFault s { cls := 0x01 })) ∧
    (∀ value put, n = 0x806 → Sees s s.cur.die W value put →
      exec (.csrw x g a imm) s = .next (retired (put v)) ∧ exec (.csrr x g a imm) s = .next (afterCore s (s.me.wg g value))) ∧
    (n = 0x806 → fld W 47 32 / 8192 ≠ s.cur.die.val ∨ fld W 31 30 = 3 → exec (.csrw x g a imm) s = .next (afterFault s { cls := 0x01 }) ∧
      exec (.csrr x g a imm) s = .next (afterFault s { cls := 0x01 }))) ∧
  (∀ (s : State) (d : Fin 8),
    let mine (e : EccErr) : Bool := e.sram && (e.store == 0 || e.store == 1) && decide (e.unit / 8192 % 8 = d.val)
    let k := (s.ecc.filter fun e => mine e && !e.double).length
    let c := s.core (collierOf d)
    let high := min (fld c.ecccnt.toNat 63 32 + k) (2 ^ 32 - 1)
    let counted : Core := { c with ecccnt := BitVec.ofNat 64 (high * 2 ^ 32 + fld c.ecccnt.toNat 31 0) }
    ∃ rs : List FRec,
      (∃ t, t = { s with ecc := s.ecc.filter (fun e => !(mine e && !e.double)), cores := t.cores } ∧
        (k = 0 → t.cores = s.cores) ∧ (0 < k → t.cores = (s.setCore (collierOf d) counted).cores) ∧
        exec (.scrub d) s = .next (rs.foldl (fun t r => t.queueFault d r) t)) ∧
      rs.length = (s.ecc.filter fun e => mine e && e.double).length ∧
      ∀ e ∈ s.ecc, mine e = true → e.double = true → ∃ r ∈ rs, r.cls = 0x29 ∧ r.src = BitVec.ofNat 16 e.unit ∧ r.kind = 0 ∧
        r.detail.toNat = e.store.toNat + e.word % 2048 * 16)

namespace Sys2Proof.Claims
open Sys2Proof.Machine

/-- The waiting entries of a queue that count in a cycle (R367). -/
def waitingAt (e : EQueue) (now : Nat) : List EqEntry := e.entries.filter fun x => x.batch == none && decide (x.at_ < now)

/-- The queues of this module have not been sent to a neighbour (R395, R396). -/
def Here (s : State) : Prop := ¬(s.evict = .moving ∧ s.evictSent = true)

/-- A queue may fire: enabled, with a waiting entry that counts, and no batch of it waiting for dispatch (R367). -/
def Able (s : State) (d : Fin 8) (q : Fin 256) : Prop :=
  let e := s.eq (d.val * 256 + q.val)
  e.en = true ∧ waitingAt e s.now ≠ [] ∧ (∀ f ∈ (s.die d).dispatch, f.q ≠ q) ∧ Here s

/-- The oldest waiting entry of a queue has reached its age (R367). -/
def Aged (s : State) (d : Fin 8) (q : Fin 256) : Prop :=
  let e := s.eq (d.val * 256 + q.val)
  ∃ x rest, waitingAt e s.now = x :: rest ∧ (e.age : Int) ≤ s.now - x.at_

/-- A firing of a queue is due in this cycle: it comes before the queue takes another entry (R367). -/
def Due (s : State) (d : Fin 8) (q : Fin 256) : Prop :=
  let e := s.eq (d.val * 256 + q.val)
  Able s d q ∧ (e.fill ≤ (waitingAt e s.now).length ∨ Aged s d q)

/-- Every queue but one as it was. -/
def OtherQueues (s t : State) (q : Nat) : Prop := ∀ k, k ≠ q → t.eq k = s.eq k

/-- A record has a pending launch or waits in an arm queue. -/
def RecBusy (s : State) (recno : Nat) : Prop :=
  (∃ l ∈ s.launches, l.recno = recno) ∨ ∃ d, ∃ r ∈ (s.die d).armq, r.recno = recno

/-- The entries of a pattern cache of 1,024, with room for one more (R384). -/
def Roomy (c c' : List PEntry) : Prop :=
  (c.length < 1024 → c' = c) ∧ (1024 ≤ c.length → (∃ x ∈ c, x.prog ≠ .pending) →
    ∃ old ∈ c, old.prog ≠ .pending ∧ (∀ x ∈ c, x.prog ≠ .pending → old.used ≤ x.used) ∧ c' = c.erase old)

/-- The cache without the pending entry of a slice. -/
def unpended (c : List PEntry) (id : Slice) : List PEntry := c.filter fun e => !(e.slice == id && e.prog == .pending)

/-- Bits of an entry that are reserved (Table 14-4). -/
def entryReserved (i : Nat) : Bool := decide (248 ≤ i ∨ (176 ≤ i ∧ i ≤ 191) ∨ (152 ≤ i ∧ i ≤ 159) ∨ (128 ≤ i ∧ i ≤ 143))

/-- Only what an engine's reads and writes of core memory touch has changed, and the engine operations are es but for marks of what was
rewritten (R340, R355). -/
def EngFrame (s t : State) (es : List EngOp) : Prop :=
  t.engine.map (fun o => { o with bad := false }) = es.map (fun o => { o with bad := false }) ∧
  t = { s with
    mem := t.mem, engine := t.engine, know := t.know, pend := t.pend, nextW := t.nextW, nextCo := t.nextCo, spoiled := t.spoiled }

/-- Only what a write of device memory and its application by dies touch has changed. -/
def LandFrame (s t : State) (fs : List Fly) : Prop :=
  SameEngine s t ∧ t.flying = fs ∧ t = { s with
    cores := t.cores, mem := t.mem, tags := t.tags, skeys := t.skeys, ecc := t.ecc, stale := t.stale, staleTags := t.staleTags
    pend := t.pend, nextCo := t.nextCo, know := t.know, flying := t.flying, engine := t.engine, spoiled := t.spoiled }

end Sys2Proof.Claims

/-- R364 to R370, R379 to R384, R449, R450 and R453: the unit takes an arrival into an on-chip or spill place, holds the queue when there is none, and
refuses it on a queue that is not enabled or not its context's; a queue fires a batch of its oldest entries on fill or age; dispatch takes an
idle record's firing, promoted ones first, then by class and age, and arms it with the batch descriptor; the compiler queues a request with a
pending entry and stores a program or marker in its place. -/
def Obligations.QueueEvents : Prop :=
  (∀ (s : State) (d : Fin 8) (n : Nat) (p : EqPush), (s.die d).eqIn[n]? = some p →
    let e := s.eq p.q
    let run := exec (.eqEntryAccept d n) s
    let first := ∀ i x, i < n → (s.die d).eqIn[i]? = some x → x.q ≠ p.q
    let s1 := s.setDie d { s.die d with eqIn := listRemove n (s.die d).eqIn }
    let gone (t : State) : State := { t with engine := t.engine.filter (·.id ≠ p.op) }
    let spilled := e.entries.filter fun x => match x.place with | .spill _ => true | .chip _ => false
    let free (c : Nat) : Prop := c < 512 ∧ (∀ x ∈ e.entries, x.place ≠ .chip c) ∧ ∀ j, j < c → ∃ x ∈ e.entries, x.place = .chip j
    let noChip := ∀ j, j < 512 → ∃ x ∈ e.entries, x.place = .chip j
    let k := if spilled = [] then 0 else e.spillNext
    let due := Due s d (Fin.ofNat 256 p.q) ∨ ¬Here s
    (¬first ∨ e.held ≠ none ∨ due → run = .next s) ∧
    (first → e.held = none → ¬due → e.en = false ∨ e.ctx ≠ p.ctx → ∃ r : FRec, r.cls = 0x17 ∧ r.addr = BitVec.ofNat 56 p.addr ∧
      run = .next (((gone s1).queueFault (Fin.ofNat 8 (p.q / 256)) r).logFault p.ctx r)) ∧
    (first → e.held = none → ¬due → e.en = true → e.ctx = p.ctx →
      (∀ c, spilled = [] → free c → Answers (.eqEntryAccept d n) s fun t =>
        t = gone { s1 with eqs := t.eqs, ecc := t.ecc } ∧ OtherQueues s t p.q ∧
        t.eq p.q = { e with entries := e.entries ++ [⟨p.data, s.now, .chip c, none⟩], stuck := false }) ∧
      (spilled ≠ [] ∨ noChip → e.scap ≤ spilled.length → ∃ r : FRec, r.cls = 0x1A ∧ r.addr = BitVec.ofNat 56 e.sbase ∧
        run = .next (State.queueFault { s1 with eqs := spInsert s.eqs p.q { e with held := some p } } (Fin.ofNat 8 (p.q / 256)) r)) ∧
      (∀ l, spilled ≠ [] ∨ noChip → spilled.length < e.scap → s.spillAccess p.q (e.sbase + 32 * k) true = .ok l →
        Answers (.eqEntryAccept d n) s fun t =>
          t = gone { s1.write (some (Fin.ofNat 8 (p.q / 256))) (unitKey (Fin.ofNat 8 (p.q / 256))) none l (leBytes 32 p.data.toNat) with
            eqs := t.eqs } ∧ OtherQueues s t p.q ∧
          t.eq p.q = { e with
            entries := e.entries ++ [⟨p.data, s.now, .spill k, none⟩], spillNext := (k + 1) % e.scap, stuck := false }) ∧
      (∀ f, spilled ≠ [] ∨ noChip → spilled.length < e.scap → s.spillAccess p.q (e.sbase + 32 * k) true = .error f →
        ∃ r : FRec, r.cls = BitVec.ofNat 8 f.cls ∧ run = .next (State.queueFault
          { s1 with eqs := spInsert s.eqs p.q { e with held := some p, stuck := true } } (Fin.ofNat 8 (p.q / 256)) r)))) ∧
  (∀ (s : State) (d : Fin 8) (q : Fin 256),
    let num := d.val * 256 + q.val
    let e := s.eq num
    let w := waitingAt e s.now
    let m := min w.length e.maxb
    let able := Able s d q
    let old := Aged s d q
    let fires (i : Instr) : Prop := Answers i s fun t =>
      t = { s with eqs := t.eqs, dies := t.dies } ∧ OtherQueues s t num ∧
      (∀ c, c ≠ d → t.die c = s.die c) ∧ t.die d = { s.die d with dispatch := (s.die d).dispatch ++ [⟨q, e.bseq, m, s.now, 0⟩] } ∧
      t.eq num = { e with
        entries := (t.eq num).entries, batches := e.batches ++ [⟨e.bseq, m, false⟩], bseq := (e.bseq + 1) % 2 ^ 32 } ∧
      (t.eq num).entries.length = e.entries.length ∧
      (∀ (i : Nat) (x : EqEntry), e.entries[i]? = some x → ∃ b, (t.eq num).entries[i]? = some { x with batch := b } ∧
        (b = x.batch ∨ (x.batch = none ∧ b = some e.bseq))) ∧
      (t.eq num).entries.filter (·.batch == none) = (e.entries.filter (·.batch == none)).drop m
    (able → e.fill ≤ w.length → fires (.queueFireOnFill d q)) ∧ (able → old → fires (.queueFireOnAge d q)) ∧
    (¬able ∨ w.length < e.fill → exec (.queueFireOnFill d q) s = .next s) ∧ (¬able ∨ ¬old → exec (.queueFireOnAge d q) s = .next s)) ∧
  (∀ (s : State) (d : Fin 8),
    let num (f : Firing) : Nat := d.val * 256 + f.q.val
    let e (f : Firing) : EQueue := s.eq (num f)
    let idle (f : Firing) : Prop := Here s ∧ f ∈ (s.die d).dispatch ∧ ¬RecBusy s (e f).recno
    let notAfter (f g : Firing) : Prop := (64 ≤ g.passed → 64 ≤ f.passed ∧ f.ord ≤ g.ord) ∧
      (g.passed < 64 → f.passed < 64 → (e g).cls ≤ (e f).cls ∧ ((e g).cls = (e f).cls → f.ord ≤ g.ord))
    ((∀ f, ¬idle f) → exec (.queueDispatch d) s = .next s) ∧
    ((∃ f, idle f) → ∃ f rest, idle f ∧ (∀ g, idle g → notAfter f g) ∧
      rest.length + 1 = (s.die d).dispatch.length ∧
      (∀ g ∈ rest, ∃ g0 ∈ (s.die d).dispatch, (idle g0 → g = { g0 with passed := g0.passed + 1 }) ∧ (¬idle g0 → g = g0)) ∧
      let desc : DWord := BitVec.ofNat 64 (f.bseq * 2 ^ 32 + f.count * 2 ^ 16 + num f)
      let s1 := s.setDie d { s.die d with dispatch := rest }
      (s.recCtx (e f).recno = .ok (e f).ctx ∨ (∃ g, s.recCtx (e f).recno = .error g) → ∃ ids, Unapplied s (unitKey d) ids ∧ exec (.queueDispatch d) s = .next (s1.setDie d
        { s.die d with
          dispatch := rest, armq := (s.die d).armq ++ [⟨(e f).recno, some desc, (e f).ctx, none, some (num f, f.bseq), ids⟩] })) ∧
      (∀ c, s.recCtx (e f).recno = .ok c → c ≠ (e f).ctx → ∃ r : FRec, r.cls = 0x12 ∧ r.detail = 12 + 16 ∧
        exec (.queueDispatch d) s = .next ((s1.dropBatch (num f) f.bseq).logFault (e f).ctx r)))) ∧
  (∀ (s : State) (d : Fin 8) (id : Slice) (rest : List Slice), (s.die d).preq = id :: rest →
    let x := s.die d
    let there := (∃ e ∈ x.pcache, e.slice = id) ∨ 64 ≤ x.pq.length
    (there → exec (.patternRequestArrival d) s = .next (s.setDie d { x with preq := rest })) ∧
    (¬there → ∃ c, Roomy x.pcache c ∧ exec (.patternRequestArrival d) s = .next
      (s.setDie d { x with preq := rest, pq := x.pq ++ [id], pcache := c ++ [⟨id, .pending, s.steps, false⟩] }))) ∧
  (∀ (s : State) (d : Fin 8) (id : Slice) (rest : List Slice), (s.die d).pq = id :: rest →
    let x := s.die d
    let damaged := ∃ e ∈ s.ecc, e.sram = true ∧ e.store = 4 ∧ e.unit = id.stn ∧ e.word = 4 * id.ctx.toNat + id.t.toNat
    let frees : State := s.setDie d { x with pq := rest, pcache := unpended x.pcache id }
    (damaged → exec (.patternCompileComplete d) s = .next (frees.countEcc d 0 1)) ∧
    (¬damaged → ∀ tb, (s.stn id.stn).table id.ctx id.t = some tb →
      (tb.wgen ≠ id.wgen → exec (.patternCompileComplete d) s = .next frees) ∧
      (tb.wgen = id.wgen → ∃ prog, exec (.patternCompileComplete d) s = .next (s.setDie d { x with
          pq := rest, pcache := x.pcache.map fun e => if e.slice = id ∧ e.prog = .pending then { e with prog } else e }) ∧
        let idx := (List.range (min 32 (tb.ks - 32 * id.j))).map (32 * id.j + ·)
        let live := (List.range tb.cols).filter fun c => tb.zflags.getD c .invalid != .set
        let row (c : Nat) : List Nat := idx.filter fun i => bitOf (tb.bitmaps.getD c 0) i
        let ops : List MicroOp := ((idx.filter fun i => live.any fun c => bitOf (tb.bitmaps.getD c 0) i).map .gather) ++
          ((live.filter fun c => row c != []).map fun c => (row c).map (.mac c) ++ [.emit c]).flatten ++ [.done]
        (ops.length ≤ 256 → prog = .prog ops) ∧ (256 < ops.length → prog = .marker))))

/-- R152, R171, R174, R175, R179 to R181, R312, R313, R317, R340, R341, R343, R344, R355 and R372: a copy reads its source and writes its
destination, and its operation ends; a fault stops the launch with COPY; rows go to memory and back, waiting for the collier where another
context owns one; a QPUSH publishes its slot in turn, a QPOP and an EQPOP answer their core, an EQPUSH is sent to its unit without its reserved
bits, an SCLONE asks for its parts and counts at its end; all wait for the links they cross. A descriptor that software has rewritten meanwhile
holds free values (log entry 75). An access that issued is performed when no earlier one of its core to those bytes is on its way; a die applies a
write after those before it that bind it, and its view only moves forward; a walk may leave its leaf; a stream reads its next word. -/
def Obligations.EngineEvents : Prop :=
  (∀ (s : State) (n : Nat) (o : EngOp), s.engine[n]? = some o → s.mem.wf = true → s.ecc = [] →
    let run := exec (.copyComplete n) s
    let ek := engKey o.agent
    let base := coreMemBase o.agent.die.val o.agent.core.val
    let gone : List EngOp := s.engine.filter (·.id ≠ o.id)
    let near (A k : Nat) : Prop := o.agent.kind ≠ .collier ∧ A + k ≤ 2 ^ 20
    let reads (A k : Nat) : Prop := s.engOpen o A k false = true
    let writes (A k : Nat) : Prop := s.engOpen o A k true = true
    let onlyThere (t : State) (A k : Nat) : Prop := ∀ a, a < base + A ∨ base + A + k ≤ a → t.mem.byte a = s.mem.byte a
    let become (k : EngKind) (es : List EngOp) : List EngOp := es.map fun x => if x.id = o.id then { x with kind := k } else x
    let seen (kn : Sparse Know) : State := { s with know := kn }
    (∀ dst src len, o.kind = .mem dst src len →
      (¬(reads src len ∧ writes dst len) → run = .next s) ∧
      (reads src len → writes dst len → near dst len → near src len →
        (dst + len ≤ src ∨ src + len ≤ dst → Answers (.copyComplete n) s fun t => EngFrame s t gone ∧
          t.mem.bytes (base + dst) len = s.mem.bytes (base + src) len ∧ onlyThere t dst len) ∧
        (0 < len → dst < src + len → src < dst + len → Answers (.copyComplete n) s fun t =>
          EngFrame { s with fresh := s.fresh + len } t gone ∧ onlyThere t dst len))) ∧
    (∀ dst src len k l, o.kind = .mem dst src len → 0 < len → o.agent.kind ≠ .collier → 2 ^ 20 ≤ src → src + len ≤ 2 ^ 32 →
      writes dst len → dst + len ≤ src ∨ src + len ≤ dst → o.lid = some k → s.launch k = some l → l.st = .running →
      Answers (.copyComplete n) s fun t => t.engine = gone ∧ t.mem = s.mem ∧ ∃ r : FRec, r.cls = 0x09 ∧ r.pc = o.pc ∧ r.src = agentSrc o.agent ∧
        t.launches = changed s k fun m => { m with st := .stopped, recs := m.recs ++ [(s.now, r)], logged := m.logged ++ [r] }) ∧
    (∀ f : FI, (o.raises f).cls = (if f.cls = 0x30 ∨ (f.cls = 0x06 ∧ o.kind.forQueue = true) then f.cls else 0x09)) ∧
    (∀ A m r k, (o.kind = .aout A m r k ∧ writes A (256 * k)) ∨ (o.kind = .ain m r k A ∧ reads A (256 * k)) →
      (∃ j, j < k ∧ (s.row m (r + j)).owner ≠ some o.ctx) → Answers (.copyComplete n) s fun t =>
        t = { s with stations := t.stations } ∧ (∀ x, x ≠ m → t.stn x = s.stn x) ∧
        t.stn m = { s.stn m with own := true, want := (t.stn m).want } ∧
        (∀ w ∈ (s.stn m).want, w ∈ (t.stn m).want) ∧
        ∀ j, j < k → (s.row m (r + j)).owner ≠ some o.ctx → .row o.ctx o.lid (r + j) ∈ (t.stn m).want) ∧
    (∀ dst m r k, o.kind = .aout dst m r k → writes dst (256 * k) → near dst (256 * k) → (∀ j, j < k → (s.row m (r + j)).owner = some o.ctx) →
      Answers (.copyComplete n) s fun t => EngFrame s t gone ∧ onlyThere t dst (256 * k) ∧
        ∀ j (i : Fin 32), j < k → leValue (t.mem.bytes (base + dst + 256 * j + 8 * i.val) 8) = ((s.row m (r + j)).cells[i]).toNat) ∧
    (∀ src m r k, o.kind = .ain m r k src → reads src (256 * k) → near src (256 * k) →
      (∀ j, j < k → (s.row m (r + j)).owner = some o.ctx) →
      Answers (.copyComplete n) s fun t => t = { s with stations := t.stations, engine := gone, know := t.know } ∧
        (∀ x, x ≠ m → t.stn x = s.stn x) ∧ (∀ x, x < r ∨ r + k ≤ x → t.row m x = s.row m x) ∧ ∀ j, j < k →
          (t.row m (r + j)).owner = some o.ctx ∧ (t.row m (r + j)).eacc = (s.row m (r + j)).eacc ∧
          ∀ i : Fin 32, ((t.row m (r + j)).cells[i]).toNat = leValue (s.mem.bytes (base + src + 256 * j + 8 * i.val) 8)) ∧
    (∀ m e k src, o.kind = .tbl m e k src →
      ((∃ b ∈ (s.stn m).bg, b.kind ≠ .pupd) ∨ ¬reads src (4 * k) → run = .next s) ∧
      ((∀ b ∈ (s.stn m).bg, b.kind = .pupd) → reads src (4 * k) → near src (4 * k) → spWf 0 (s.stn m).tstore = true →
        Answers (.copyComplete n) s fun t =>
        t = { s with stations := t.stations, dies := t.dies, engine := gone, know := t.know } ∧ (∀ x, x ≠ m → t.stn x = s.stn x) ∧
        (∀ x, x < e ∨ e + k ≤ x → spGet 0 (t.stn m).tstore x = spGet 0 (s.stn m).tstore x) ∧
        ∀ j, j < k → (spGet 0 (t.stn m).tstore (e + j)).toNat = leValue (s.mem.bytes (base + src + 4 * j) 4))) ∧
    (∀ desc slot entry idx l sl, o.kind = .qpush desc slot entry idx true → s.access o.who desc 32 32 true = .ok l →
      s.access o.who slot 64 1 false = .ok sl →
      let at_ := l.plus 12
      let held := s.descWaits o.agent.die l
      let lost := ∃ k ∈ s.spoiled, l.at_ ≤ k ∧ k < l.at_ + 32
      (held = true ∨ (¬lost ∧ leValue (s.home at_ 4) ≠ idx) → run = .next s) ∧
      (held = false → ¬lost → leValue (s.home at_ 4) = idx → ∃ after, run = .next { s.writeAfter o.agent.die ek after at_
        (leBytes 4 ((idx + 1) % 2 ^ 32)) with engine := gone, spoiled := s.spoiled }) ∧
      (held = false → lost → ∃ after bs m, bs.length = 4 ∧ run = .next { (State.writeAfter { s with fresh := m } o.agent.die ek after at_ bs) with
        engine := gone, spoiled := s.spoiled })) ∧
    (∀ desc slot entry idx l, o.kind = .qpush desc slot entry idx false → near entry 64 → slot % 64 = 0 →
      s.access o.who slot 64 1 true = .ok l →
      (¬(reads entry 64 ∧ writes slot 64) → run = .next s) ∧
      (reads entry 64 → writes slot 64 → ∃ kn,
        let t := (seen kn).write (some o.agent.die) ek none l (s.mem.bytes (base + entry) 64)
        run = .next { t with engine := become (.qpush desc slot entry idx true) t.engine })) ∧
    (∀ desc slot dst lp ls, o.kind = .qpop desc slot dst → near dst 64 → dst % 64 = 0 → slot % 64 = 0 → desc % 32 = 0 →
      s.access o.who (desc + 12 : Nat) 4 1 false = .ok lp → s.access o.who slot 64 1 false = .ok ls → (s.core o.agent).wait = .engine o.id none →
      (¬(reads (desc + 12) 4 ∧ reads slot 64 ∧ writes dst 64) → run = .next s) ∧
      (reads (desc + 12) 4 → reads slot 64 → writes dst 64 → Answers (.copyComplete n) s fun t =>
        EngFrame { s with cores := t.cores } t gone ∧ onlyThere t dst 64 ∧
        t.mem.bytes (base + dst) 64 = s.view o.agent.die.val ls 64 ∧
        t.core o.agent = { s.core o.agent with wait := .engine o.id (some 1) } ∧
        ∀ b, agentIdx b ≠ agentIdx o.agent → t.core b = s.core b)) ∧
    (∀ q A, o.kind = .eqpush q A →
      let earlier := (∃ x ∈ s.engine, x.agent = o.agent ∧ x.id < o.id ∧ ∃ B, x.kind = .eqpush q B) ∨
        ∃ e ∈ (s.knows ek).ord, NotYet s e.1
      let shut := ¬reads A 32 ∨ s.linkOpen (some o.agent.die.val) (q / 256 % 8) = false
      (earlier ∨ shut → run = .next s) ∧
      (¬earlier → ¬shut → near A 32 → A % 32 = 0 → ∃ (data : BitVec 256) (kn : Sparse Know),
        (∀ i, i < 256 → data.getLsbD i = (!entryReserved i && (leValue (s.mem.bytes (base + A) 32)).testBit i)) ∧
        let d : Fin 8 := Fin.ofNat 8 (q / 256)
        run = .next { (seen kn).setDie d { s.die d with eqIn := (s.die d).eqIn ++ [⟨q, data, o.ctx, o.lid, A, o.id⟩] } with
          engine := become (.eqsent q) s.engine })) ∧
    (∀ q, o.kind = .eqsent q → run = .next s) ∧
    (∀ q b count dst, o.kind = .eqpop q b count dst → dst % 32 = 0 → near dst (32 * count) → (s.core o.agent).wait = .engine o.id none →
      let mine := (s.eq q).entries.filter (·.batch == some b)
      let linked := writes dst (32 * count) ∧ s.linkOpen (some (q / 256 % 8)) o.agent.die.val = true
      (¬linked → run = .next s) ∧
      (linked → mine.length = count → (∀ x ∈ (s.eq q).entries, ∃ c, x.place = .chip c) → (s.eq q).held = none →
      Answers (.copyComplete n) s fun t =>
        EngFrame { s with cores := t.cores, eqs := t.eqs, launches := t.launches } t gone ∧ onlyThere t dst (32 * count) ∧
        (∀ i x, mine[i]? = some x → leValue (t.mem.bytes (base + dst + 32 * i) 32) = x.data.toNat) ∧
        (t.eq q).entries = (s.eq q).entries.filter (·.batch ≠ some b) ∧ (∀ y ∈ (t.eq q).batches, y.bseq ≠ b) ∧ OtherQueues s t q ∧
        t.launches = (match o.lid with | some k => changed s k (fun m => { m with batchDone := true }) | none => s.launches) ∧
        t.core o.agent = { s.core o.agent with wait := .engine o.id (some (BitVec.ofNat 64 count)) } ∧
        ∀ b, agentIdx b ≠ agentIdx o.agent → t.core b = s.core b)) ∧
    (∀ (p : Fin 18) list entry off A, o.kind = .sclone p list entry off (some A) → run = .next s) ∧
    (∀ (p : Fin 18) list entry off, o.kind = .sclone p list entry off none → o.bad = false → list % 16 = 0 →
      near list (16 + 32 * (entry + 1)) →
      let h := leValue (s.mem.bytes (base + list) 16)
      let e := leValue (s.mem.bytes (base + list + 16 + 32 * entry) 32)
      let len := fld e 191 128
      let from_ := (fld e 55 0 + off) % 2 ^ 56
      let k := min 224 (len - off)
      let q := s.peers[p]
      let opens := reads list 16 ∧ reads (list + 16 + 32 * entry) 32
      (¬opens ∨ (fld h 15 0 ≤ entry ∧ ¬AllApplied s ek) → run = .next s) ∧
      (opens → ∃ kn,
        (fld h 15 0 ≤ entry → AllApplied s ek → run = .next { seen kn with
          engine := gone
          cmsgs := if bitOf h 30 then s.cmsgs ++ [⟨agentIdx o.agent, fld h 29 16, true, 1, []⟩] else s.cmsgs }) ∧
        (entry < fld h 15 0 → len ≤ off → run = .next { seen kn with engine := become (.sclone p list (entry + 1) 0 none) s.engine }) ∧
        (entry < fld h 15 0 → off < len → q.up = true → q.txseq < 2 ^ 32 → run = .next { seen kn with
          engine := become (.sclone p list entry off (some from_)) s.engine
          peers := s.peers.set p { q with
            out := q.out ++ [⟨2, k, q.txseq, from_, List.replicate k 0⟩], txseq := (q.txseq + 1) % 2 ^ 32 } }) ∧
        (entry < fld h 15 0 → off < len → q.up = false → run = .next ((seen kn).copyFault o { cls := 0x09, addr := from_ }))))) ∧
  (∀ (s : State) (n : Nat), s.engine[n]? = none → exec (.copyComplete n) s = .next s) ∧
  (∀ (s : State) (n : Nat) (f : Fly), s.flying.find? (fun f => f.id == n) = some f →
    let a := f.agent
    let ak := agentIdx a
    let l := f.loc
    let lands : Prop := s.linkTo a.die l = true ∧
      (∀ g ∈ s.flying.takeWhile (fun g => g.id != n), agentIdx g.agent = ak → g.meets l f.n = false) ∧
      match f.kind with
      | .store _ | .famo _ => True
      | .amo .. => s.depsMet ak a.die l f.n = true ∧ UpToDate s a.die l f.n
      | _ => s.depsMet ak a.die l f.n = true
    let goes (P : State → Prop) : Prop := Answers (.memoryAccessComplete n) s fun t => LandFrame s t (s.flying.filter (·.id ≠ n)) ∧ P t
    let gets (t : State) (c : Core) : Prop := SameCore (t.core a) c ∧ ∀ b, agentIdx b ≠ ak → SameCore (t.core b) (s.core b)
    let keeps (t : State) : Prop := t.mem = s.mem ∧ t.pend = s.pend
    let stores (t : State) (bs : List Byte) : Prop :=
      s.Inv → InLine l bs.length → OwnKey s l → MemFrame s t l.at_ bs.length ∧ t.home l bs.length = bs
    let bytes := s.view a.die.val l f.n
    let c := s.core a
    (¬lands → exec (.memoryAccessComplete n) s = .next s) ∧
    (lands → match f.kind with
      | .load g sx => goes fun t => keeps t ∧ gets t (c.wg g (loaded (if sx then .sext else .plain) f.n bytes))
      | .vload v => ∃ w : Vector Word 32, (∀ j : Fin 32, w[j] = BitVec.ofNat 32 (leValue ((bytes.drop (4 * j.val)).take 4))) ∧
          goes fun t => keeps t ∧ gets t (c.wv v w)
      | .lane v j => j < 32 → goes fun t => keeps t ∧ gets t (c.wv v ((c.rv v).set! j (BitVec.ofNat 32 (leValue bytes))))
      | .store bs => goes fun t => gets t c ∧ stores t bs
      | .famo x =>
        let old := s.home l 32
        let r := wideAdd (leValue (old.take 16)) (leValue ((old.drop 16).take 1)) x
        goes fun t => gets t c ∧ stores t (leBytes 16 r.1 ++ leBytes 1 r.2 ++ old.drop 17)
      | .amo g fn arg cmp =>
        let w := 8 * f.n
        let old : BitVec w := BitVec.ofNat w (leValue (s.home l f.n))
        let res : DWord := if fn = 4 ∨ fn = 5 then old.signExtend 64 else old.setWidth 64
        f.n = 4 ∨ f.n = 8 → goes fun t => gets t (c.wg g res) ∧
          (fn = 8 → leValue (s.home l f.n) ≠ cmp → t.mem = s.mem) ∧
          (fn = 8 → leValue (s.home l f.n) = cmp → stores t (leBytes f.n arg)) ∧
          (fn < 8 → arg < 2 ^ w → stores t (leBytes f.n (amoSpec w fn old (BitVec.ofNat w arg)).toNat)))) ∧
  (∀ (s : State) (d : Fin 8) (w : PendW) (n : Nat), s.pend.find? (fun w => w.id == n) = some w →
    let waits (e : Nat × Scope) (d : Fin 8) : Prop := bindsDie w.agent e.2 d.val = true ∧
      ((∃ f ∈ s.flying, f.id = e.1) ∨ ∃ x ∈ s.pend, x.id = e.1 ∧ x.todo.getLsbD d.val = true)
    let may (d : Fin 8) : Prop := w.todo.getLsbD d.val = true ∧ (∀ e ∈ w.deps, ¬waits e d) ∧ s.wayTo d.val w = true
    (¬may d → exec (.dieApplyWrite d n) s = .next s) ∧
    (may d → s.stale.Pairwise (fun a b => a.1 < b.1) → (s.pend.map (·.id)).Nodup → (w.cells.map Prod.fst).Nodup →
      (∀ c ∈ w.cells, c.1 < 2 ^ 56) →
      Answers (.dieApplyWrite d n) s fun t =>
        t = { s with stale := t.stale, staleTags := t.staleTags, pend := t.pend, peers := t.peers } ∧
        (∀ x ∈ t.pend, ∃ y ∈ s.pend, x = if y.id = n then { y with todo := w.todo &&& ~~~(1#8 <<< d.val) } else y) ∧
        (∀ y ∈ s.pend, y.id ≠ n → y.todo ≠ 0 → y ∈ t.pend) ∧
        (w.todo &&& ~~~(1#8 <<< d.val) ≠ 0 → { w with todo := w.todo &&& ~~~(1#8 <<< d.val) } ∈ t.pend) ∧
        ((∀ q ∈ s.peers.toList, q.acks = []) → t.peers = s.peers) ∧
        (∀ a, a < 2 ^ 56 → ∀ e : Fin 8, e ≠ d ∨ (∀ c ∈ w.cells, c.1 ≠ a) → spFind t.stale (staleKey e.val a) = spFind s.stale (staleKey e.val a)) ∧
        ∀ c ∈ w.cells, ∀ b v ky, spFind s.stale (staleKey d.val c.1) = some ⟨b, v, ky⟩ →
          let newer := ∃ x ∈ s.pend, w.co < x.co ∧ x.todo.getLsbD d.val = true ∧ ∃ y ∈ x.cells, y.1 = c.1
          (w.co ≤ v → spFind t.stale (staleKey d.val c.1) = some ⟨b, v, ky⟩) ∧
          (v < w.co → newer → spFind t.stale (staleKey d.val c.1) = some ⟨c.2, w.co, w.key⟩) ∧
          (v < w.co → ¬newer → spFind t.stale (staleKey d.val c.1) = none)) ∧
    ((∀ f ∈ s.flying, f.id ≠ n) → (∀ e ∈ w.deps, ¬NotYet s e.1) → (∀ e : Fin 8, w.todo.getLsbD e.val = true → s.wayTo e.val w = true) →
      (s.pend.map (·.id)).Nodup → (∀ e ∈ w.deps, e.1 ≠ n) →
      Answers (.memoryAccessComplete n) s fun t =>
        t = { s with stale := t.stale, staleTags := t.staleTags, pend := t.pend, peers := t.peers } ∧
        ¬NotYet t n ∧ ∀ y ∈ s.pend, y.id ≠ n → y.todo ≠ 0 → y ∈ t.pend)) ∧
  (∀ (s : State) (d : Fin 8) (ctx : Byte) (va : Nat),
    let there := ∃ l ∈ s.tlb, l.die = d ∧ l.ctx = ctx ∧ l.va ≤ va ∧ va < l.va + l.size
    (there ∨ va < 2 ^ 32 ∨ 2 ^ 56 ≤ va ∨ (∃ f, s.walk ctx va = .error f) → exec (.translationWalkComplete d ctx va) s = .next s) ∧
    (∀ p, ¬there → 2 ^ 32 ≤ va → va < 2 ^ 56 → s.walk ctx va = .ok p → (s.tlb.filter (·.die == d)).length < 4096 →
      exec (.translationWalkComplete d ctx va) s = .next { s with tlb := s.tlb ++ [⟨d, ctx, p.va, p.size, p.pa, p.key, p.wr⟩] })) ∧
  (∀ (s : State) (a : Agent) (r : SReg),
    let st := (s.core a).st[r]
    (st.isOpen = false → exec (.streamWordRead a r) s = .next s) ∧
    (∀ k, st.isOpen = true → st.j.toNat ≤ k → k < st.j.toNat + 64 → k < st.n.toNat → spFind st.words k = none →
      (∀ i, st.j.toNat ≤ i → i < k → (spFind st.words i).isSome) →
      (∀ f, s.access (s.who a) (st.base.toNat + 4 * k : Nat) 4 4 false = .error f → exec (.streamWordRead a r) s = .next s) ∧
      (∀ l, s.access (s.who a) (st.base.toNat + 4 * k : Nat) 4 4 false = .ok l →
        (s.mayAccess (agentIdx a) a.die l 4 = false → exec (.streamWordRead a r) s = .next s) ∧
        (s.mayAccess (agentIdx a) a.die l 4 = true → Answers (.streamWordRead a r) s fun t =>
        t = { s with cores := t.cores, know := t.know, ecc := t.ecc } ∧
        SameCore (t.core a) { s.core a with st := (s.core a).st.set r.val { st with
          words := spInsert st.words k (BitVec.ofNat 32 (leValue (s.view a.die.val l 4))) } } ∧
        ∀ b, agentIdx b ≠ agentIdx a → SameCore (t.core b) (s.core b)))))

namespace Sys2Proof.Claims
open Sys2Proof.Machine

/-- A peer port changed. -/
def portSet (s : State) (p : Fin 18) (q : Peer) : State := { s with peers := s.peers.set p.val q }

/-- Every link but one as it was, and nothing else changed. -/
def OneLink (s t : State) (k : Nat) (u : Ucie) : Prop :=
  t = { s with ucie := t.ucie } ∧ t.link k = u ∧ ∀ j, j ≠ k → t.link j = s.link j

/-- An access of an agent without a fault route that a line allows (R161, R463): within one line, the key slot filled, no fault. -/
def Untranslated (s : State) (slot pa n : Nat) (write : Bool) (key : BitVec 512) : Prop :=
  1 ≤ n ∧ pa % 128 + n ≤ 128 ∧ pa + n ≤ 0x6000000000 ∧ spFind s.keys slot = some key ∧ s.lineFault pa n write pa = none

/-- A request of a peer within one line, translated under the context of its route (R390). -/
def PeerPlace (s : State) (q : Peer) (va n : Nat) (write : Bool) (l : Loc) : Prop :=
  1 ≤ n ∧ va % 128 + n ≤ 128 ∧ 2 ^ 32 ≤ va ∧ va < 2 ^ 56 ∧ ∃ pg, s.walk q.ctxin va = .ok pg ∧ s.leafLoc pg va n write = .ok l ∧
    s.accessFault l n write va = none

/-- The places of a peer request, line by line. -/
def PeerPlaces (s : State) (q : Peer) (write : Bool) : Nat → Nat → List (Loc × Nat) → Prop
  | _, n, [] => n = 0
  | va, n, (l, k) :: ps => k = min n (128 - va % 128) ∧ PeerPlace s q va k write l ∧ PeerPlaces s q write (va + k) (n - k) ps

/-- The links to the homes of those places are open (R391). -/
def PlacesOpen (s : State) (ps : List (Loc × Nat)) : Prop := ∀ x ∈ ps, x.1.space = .dev → s.linkOpen none (homeDie x.1.at_) = true

/-- Bytes written at those places in order. -/
def writtenAt (p : Fin 18) (t : State) : List (Loc × Nat) → List Byte → State
  | [], _ => t
  | (l, k) :: ps, bs => writtenAt p (t.write none (peerKey p.val) none l (bs.take k)) ps (bs.drop k)

/-- A port's acknowledgements of writes that every die has applied are sent, in order (R184, R390). -/
def AcksSent (s : State) (q q' : Peer) : Prop := ∃ done rest, q.acks = done ++ rest ∧ (∀ a ∈ done, ∀ id ∈ a.2, ¬NotYet s id) ∧
  (∀ a more, rest = a :: more → ∃ id ∈ a.2, NotYet s id) ∧ q' = done.foldl (fun (q : Peer) a => q.send 5 0 a.1 []) { q with acks := rest }

/-- An SCLONE that waits for the data at an address of a peer. -/
def Asks (p : Fin 18) (addr : Nat) (o : EngOp) : Prop := ∃ list entry off, o.kind = .sclone p list entry off (some addr)

/-- The launches of a list pre-empted one after another: one whose image has a place gets it and its cores stop; another goes on (R137,
R139). -/
def SavesEach : List Nat → State → State → Prop
  | [], s, u => u = s
  | n :: ns, s, u => ∃ v, SavesEach ns v u ∧ (s.launch n = none → v = s) ∧ ∀ l, s.launch n = some l →
      (freeRange s.launches l.ctx l.imageSize = none → v = s) ∧
      ∀ o, freeRange s.launches l.ctx l.imageSize = some o →
        v = { s with
          cores := v.cores, dies := v.dies
          launches := changed s n fun m => { m with st := .saving, since := s.now, saveAt := some (o, m.imageSize) } } ∧
        ∀ a, ((s.core a).lid = some n → (s.core a).run = .running → (v.core a).run = .stopped) ∧
          ((s.core a).lid ≠ some n → v.core a = s.core a)

/-- Every RUNNING launch of s pre-empted. -/
def Saves (s u : State) : Prop := SavesEach ((s.launches.filter (·.st == .running)).map (·.lid)) s u

/-- The handshake fails (R456): EVICT to the collier of CD0 and a report, no later acknowledgement ends a launch, and those that run are saved. -/
def EvictFails (s : State) (state why : Nat) (w : State) : Prop :=
  s.mem.wf = true → ∃ (r : FRec) (u : State), r.cls = 0x31 ∧ r.detail.toNat = state + 8 * why ∧
    Queued { s with peers := s.peers.map fun q => { q with waiting := q.waiting.map fun x =>
      (x.1, x.2.1, if x.2.1 = none then none else x.2.2) } } u 0 r ∧
    Saves { u with evict := .failed, evictSent := false, mctp := s.mctp ++ [.evictFailed why] } w

/-- Nothing of the module's own is on its way. -/
def AtRest (s : State) : Prop :=
  s.flying = [] ∧ s.engine = [] ∧ s.conts = [] ∧ s.cmsgs = [] ∧ ∀ w ∈ s.pend, w.todo = 0

/-- Every launch is disposed of, and no arming waits (R396). -/
def Disposed (s : State) : Prop :=
  (∀ l ∈ s.launches, l.st = .waiting ∨ l.st = .ready ∨ l.st = .preempted false) ∧ ∀ d, (s.die d).armq = []

/-- A record for the collier of CD0 from a port of the IOD. -/
def PortRecord (s : State) (cls detail : Nat) (t : State) : Prop :=
  ∃ r : FRec, r.cls = BitVec.ofNat 8 cls ∧ r.lid = 0xFFFF ∧ r.detail = BitVec.ofNat 16 detail ∧ t = s.queueFault 0 r

/-- The item of token flits that a port has received, with the flit's payload its last part. -/
def rxItem (q : Peer) (f : Flit) : MoveItem := (getItem ((if f.addr / 2 ^ 32 = 0 then [] else q.rx) ++ f.payload)).1

end Sys2Proof.Claims

/-- R159, R161, R185, R389 to R391, R454, R455, R456 and R463: a retry is counted, also for its lane; trained lanes come into use, those with the
fewest errors (log entry 87 for ties); 1,024 retries raise LINK once; a host link that goes down is down and its accesses on their way raise LINK, as
an IDE failure does; a peer link that goes down ends its remote writes with LINK at their issuers and an SCLONE with COPY; host and
home-controller accesses read and write lines under their key slots, part after part, and wait for links, a line without its data poisons a read, and
firmware loads key slots and routes; flits have the layout of R389; a peer's write is performed and acknowledged when every die has applied it, its
read answered, and requests on a closed route and reserved kinds are refused with LINK; token flits bring the items of an eviction (their layout: log
entry 84), which a module in its receiving state takes over. -/
def Obligations.LinksAndHost : Prop :=
  (∀ (s : State) (d : Fin 8) (m : Fin 4),
    let k := 4 * d.val + m.val
    let u := s.link k
    let none_ := (m.val = 0 ∧ d.val % 4 = 0) ∨ (m.val = 1 ∧ d.val % 4 = 3)
    (∀ lane, none_ → exec (.flitRetry d m lane) s = .next s) ∧
    (∀ lane, ¬none_ → spWf 0 u.errs = true → Answers (.flitRetry d m lane) s fun t =>
      OneLink s t k { u with retries := min (u.retries + 1) 65535, errs := (t.link k).errs } ∧
      spGet 0 (t.link k).errs lane.val = spGet 0 u.errs lane.val + 1 ∧
      ∀ j, j ≠ lane.val → spGet 0 (t.link k).errs j = spGet 0 u.errs j) ∧
    (u.training = none → exec (.linkTrainingComplete d m) s = .next s) ∧
    (∀ n, u.training = some n → n ≤ 64 → Answers (.linkTrainingComplete d m) s fun t =>
      let used (i : Nat) : Bool := (t.link k).inUse.getLsbD i
      OneLink s t k { u with lanes := n, inUse := (t.link k).inUse, training := none } ∧ ((List.range 64).filter used).length = n ∧
      ∀ i j, i < 64 → j < 64 → used i = true → used j = false →
        spGet 0 u.errs i < spGet 0 u.errs j ∨ (spGet 0 u.errs i = spGet 0 u.errs j ∧ i < j)) ∧
    (u.reported = true ∨ u.retries < 1024 → exec (.linkRetryThreshold d m) s = .next s) ∧
    (u.reported = false → 1024 ≤ u.retries → ∃ (t : State) (r : FRec), OneLink s t k { u with reported := true } ∧
      exec (.linkRetryThreshold d m) s = .next (t.queueFault d r) ∧ r.cls = 0x30 ∧ r.lid = 0xFFFF ∧
      r.detail.toNat = 2 + 4 * m.val + if u.lanes = 32 then 1024 else 0)) ∧
  (∀ s : State,
    let t : State := { s with hostUp := false }
    ((∀ f ∈ s.flying, f.loc.space ≠ .host) → exec (.linkDown .host) s = .next t ∧
      ∃ v, PortRecord t 0x30 (128 * 4) v ∧ exec (.linkDown .ide) s = .next v) ∧
    (∀ f k l, s.flying.filter (fun f => f.loc.space == .host) = [f] → f.lid = some k → s.launch k = some l → l.st = .running →
      Answers (.linkDown .host) s fun u => u.hostUp = false ∧ u.mem = s.mem ∧ u.flying = s.flying.filter (fun f => f.loc.space != .host) ∧
        ∃ r : FRec, r.cls = 0x30 ∧ r.src = agentSrc f.agent ∧ r.lid = BitVec.ofNat 16 k ∧ r.detail.toNat = 128 ∧
          u.launches = changed s k fun m => { m with st := .stopped, recs := m.recs ++ [(s.now, r)], logged := m.logged ++ [r] })) ∧
  (∀ (s : State) (p : Fin 18),
    let q := s.peers[p]
    let run := exec (.linkDown (.peer p)) s
    let down := portSet s p { q with up := false, out := [], waiting := [], acks := [], taking := false, rx := [] }
    let evicting := (s.evict = .fencing ∨ s.evict = .moving ∨ s.evict = .draining) ∧ s.evictPort = p
    let cloning (es : List EngOp) : Prop := ∃ o ∈ es, ∃ A, Asks p A o
    (¬evicting → ¬cloning s.engine → q.waiting = [] → run = .next down) ∧
    (∀ n k, ¬evicting → ¬cloning s.engine → q.waiting = [(n, none, k)] → run = .next down) ∧
    (∀ n a k l, ¬evicting → ¬cloning s.engine → q.waiting = [(n, some a, some k)] → s.launch k = some l → l.st = .running →
      Answers (.linkDown (.peer p)) s fun t => t.peers = down.peers ∧ t.mem = s.mem ∧ ∃ r : FRec,
        r.cls = 0x30 ∧ r.src = agentSrc a ∧ r.lid = BitVec.ofNat 16 k ∧ r.detail.toNat = 1 + 4 * p.val + 128 ∧
        t.launches = changed s k fun m => { m with st := .stopped, recs := m.recs ++ [(s.now, r)], logged := m.logged ++ [r] }) ∧
    (∀ es o fs A, ¬evicting → q.waiting = [] → s.engine = es ++ o :: fs → Asks p A o → ¬cloning es → ¬cloning fs →
      run = .next (down.copyFault o { cls := 0x09, addr := A })) ∧
    (evicting → ¬cloning s.engine → (∀ w ∈ q.waiting, w.2.1 = none) → ∃ w, run = .next w ∧
      EvictFails down (if s.evict = .fencing then 1 else if s.evict = .moving then 2 else 3) 2 w)) ∧
  (∀ (s : State) (c : CxlAccess) (rest : List CxlAccess), s.cxlIn = c :: rest →
    let t : State := { s with cxlIn := rest }
    let slot := (s.cxlKeys[c.window]).toNat
    let n := max c.readLen c.write.length
    let shut := ∃ a, c.pa ≤ a ∧ a < c.pa + n ∧ s.linkOpen none (homeDie a) = false
    let oneLine := 1 ≤ c.readLen ∧ c.pa % 128 + c.readLen ≤ 128
    let goes := s.hostUp = true ∧ c.pa + n ≤ 0x6000000000 ∧ ¬shut
    let k := 128 - c.pa % 128
    let bad (cls : BitVec 8) : Prop := ∃ r : FRec, r.cls = cls ∧ r.lid = 0xFFFF ∧ r.addr = BitVec.ofNat 56 (c.pa / 128 * 128) ∧
      exec .cxlMemRequest s = .next { t.queueFault (Fin.ofNat 8 (homeDie c.pa)) r with cxlAnswer := .poisoned }
    (¬goes → exec .cxlMemRequest s = .next s) ∧
    (∀ key, goes → c.write = [] → Untranslated s slot c.pa c.readLen false key → Answers .cxlMemRequest s fun u =>
      u = { t with ecc := u.ecc, cores := u.cores, cxlAnswer := .data (s.devBytes key c.pa c.readLen) } ∧ ∀ a, SameCore (u.core a) (s.core a)) ∧
    (goes → c.write = [] → oneLine → spFind s.keys slot = none → bad 0x04) ∧
    (goes → c.write = [] → oneLine → (spFind s.keys slot).isSome → 9 ≤ (s.tag c.pa).toNat → bad 0x05) ∧
    (∀ u, goes → c.write = [] → k < c.readLen → exec .cxlMemRequest { s with cxlIn := { c with readLen := k } :: rest } = .next u →
      (u.cxlAnswer = .poisoned → exec .cxlMemRequest s = .next u) ∧
      ∀ bs v, u.cxlAnswer = .data bs →
        exec .cxlMemRequest { u with cxlIn := { c with pa := c.pa + k, readLen := c.readLen - k } :: rest } = .next v →
        (v.cxlAnswer = .poisoned → exec .cxlMemRequest s = .next v) ∧
        ∀ cs, v.cxlAnswer = .data cs → exec .cxlMemRequest s = .next { v with cxlAnswer := .data (bs ++ cs) }) ∧
    (∀ key, goes → c.readLen ≤ c.write.length → Untranslated s slot c.pa c.write.length true key →
      exec .cxlMemRequest s = .next { t.write none hostKey (some .sys) ⟨.dev, c.pa, key, []⟩ c.write with cxlAnswer := .done }) ∧
    (∀ u, goes → c.readLen = 0 → k < c.write.length →
      exec .cxlMemRequest { s with cxlIn := { c with write := c.write.take k } :: rest } = .next u →
      exec .cxlMemRequest s = exec .cxlMemRequest { u with cxlIn := { c with pa := c.pa + k, write := c.write.drop k } :: rest })) ∧
  (∀ (s : State) (h : HomeAccess) (rest : List HomeAccess), s.homeIn = h :: rest →
    let t : State := { s with homeIn := rest }
    let run := exec .homeControllerAccess s
    let shut (pa n : Nat) : Prop := ∃ a, pa ≤ a ∧ a < pa + n ∧ s.linkOpen none (homeDie a) = false
    (∀ pa n, h = .read pa n →
      (0x6000000000 < pa + n → run = .next t) ∧
      (pa + n ≤ 0x6000000000 → shut pa n → run = .next s) ∧
      (∀ key, ¬shut pa n → Untranslated s 0 pa n false key → Answers .homeControllerAccess s fun u =>
        u = { t with ecc := u.ecc, cores := u.cores, homeAnswer := s.devBytes key pa n } ∧ ∀ a, SameCore (u.core a) (s.core a)) ∧
      (pa + n ≤ 0x6000000000 → ¬shut pa n → 1 ≤ n → pa % 128 + n ≤ 128 → spFind s.keys 0 = none → ∃ r : FRec,
        r.cls = 0x04 ∧ r.lid = 0xFFFF ∧ run = .next { t.queueFault (Fin.ofNat 8 (homeDie pa)) r with homeAnswer := [] })) ∧
    (∀ pa bs, h = .write pa bs →
      (0x6000000000 < pa + bs.length → run = .next t) ∧
      (pa + bs.length ≤ 0x6000000000 → shut pa bs.length → run = .next s) ∧
      (∀ key, ¬shut pa bs.length → Untranslated s 0 pa bs.length true key →
        run = .next (t.write none schedKey (some .dev) ⟨.dev, pa, key, []⟩ bs))) ∧
    (∀ n key, h = .slot n key →
      (n < 2 ^ 14 → run = .next { t with keys := spInsert s.keys n key }) ∧ (2 ^ 14 ≤ n → run = .next t)) ∧
    (∀ p en serial ctxin, h = .route p en serial ctxin → run = .next (portSet t p { s.peers[p] with en, serial, ctxin }))) ∧
  (∀ f : Flit, f.kind < 16 → f.used ≤ 224 → f.payload.length = f.used → f.seq < 2 ^ 32 → f.addr < 2 ^ 56 →
    (Flit.bytes f).length = 240 ∧ (Flit.bytes f).take 16 = leBytes 16 (f.kind + 16 * f.used + 2 ^ 16 * f.seq + 2 ^ 48 * f.addr) ∧
    ((Flit.bytes f).drop 16).take f.used = f.payload ∧ flitOf (Flit.bytes f) = f) ∧
  (∀ (s : State) (p : Fin 18) (f : Flit), flitOf (Flit.bytes f) = f →
    let q := s.peers[p]
    let run := exec (.peerFlitReceive p f) s
    let q1 : Peer := { q with rxseq := (q.rxseq + 1) % 2 ^ 32 }
    let t := portSet s p q1
    let refuses (u : State) (why : Nat) : Prop := ∃ v, PortRecord u 0x30 (1 + 4 * p.val + 128 * why) v ∧ run = .next v
    (q.up = false ∨ f.seq ≠ q.rxseq → run = .next s) ∧
    (q.up = true → f.seq = q.rxseq →
      (q.en = false → f.kind = 4 → refuses t 2) ∧
      (q.en = false → f.kind = 1 ∨ f.kind = 2 → (∀ ps, PeerPlaces s q (f.kind == 1) f.addr f.used ps → PlacesOpen s ps) → f.used ≤ 224 → refuses t 2) ∧
      (f.kind = 0 ∨ 6 ≤ f.kind → refuses (portSet s p { q1 with errors := q.errors + 1 }) 3) ∧
      (∀ ps, f.kind = 1 ∨ f.kind = 2 → f.used ≤ 224 → PeerPlaces s q (f.kind == 1) f.addr f.used ps → ¬PlacesOpen s ps → run = .next s) ∧
      (∀ ps, q.en = true → f.kind = 1 → f.used = f.payload.length → PeerPlaces s q true f.addr f.used ps → PlacesOpen s ps →
        let v := writtenAt p t ps f.payload
        ∃ u, run = .next u ∧ u = { v with peers := u.peers } ∧ ∀ j : Fin 18,
          AcksSent v (if j = p then { q1 with acks := q.acks ++ [(f.addr, range s.nextW (v.nextW - s.nextW))] } else s.peers[j]) u.peers[j]) ∧
      (∀ ps, q.en = true → f.kind = 2 → f.used ≤ 224 → PeerPlaces s q false f.addr f.used ps → PlacesOpen s ps →
        Answers (.peerFlitReceive p f) s fun u =>
          u = portSet { s with ecc := u.ecc, cores := u.cores } p (q1.send 3 f.used f.addr (ps.map fun x => s.home x.1 x.2).flatten) ∧
          ∀ a, SameCore (u.core a) (s.core a)) ∧
      (∀ e, q.en = true → f.kind = 1 ∨ f.kind = 2 → 1 ≤ f.used → f.used ≤ 224 → f.used = f.payload.length ∨ f.kind = 2 → 2 ^ 32 ≤ f.addr →
        s.walk q.ctxin f.addr = .error e → ∃ v, PortRecord t e.cls e.detail v ∧ run = .next v) ∧
      (f.kind = 3 → (∀ o ∈ s.engine, ¬Asks p f.addr o) → run = .next (portSet s p { q1 with out := dropKind [2] q.out })) ∧
      (∀ es o fs list entry off, f.kind = 3 → s.engine = es ++ o :: fs → (∀ x ∈ es ++ fs, ¬Asks p f.addr x ∧ x.id ≠ o.id) →
        o.kind = .sclone p list entry off (some f.addr) → o.bad = false → o.agent.kind ≠ .collier → list + 16 + 32 * (entry + 1) ≤ 2 ^ 20 →
        s.ecc = [] → s.mem.wf = true → f.payload.length = f.used →
        let base := coreMemBase o.agent.die.val o.agent.core.val
        let A := fld (leValue (s.mem.bytes (base + list + 16 + 32 * entry) 32)) 119 64 + off
        (s.engOpen o A f.used true = false → run = .next s) ∧
        (s.engOpen o A f.used true = true → A + f.used ≤ 2 ^ 20 → Answers (.peerFlitReceive p f) s fun u =>
          u.mem.bytes (base + A) f.used = f.payload ∧ (∀ k, k < base + A ∨ base + A + f.used ≤ k → u.mem.byte k = s.mem.byte k) ∧
          u.engine.map (fun x => { x with bad := false }) =
            (es ++ { o with kind := .sclone p list entry (off + f.used) none } :: fs).map (fun x => { x with bad := false }) ∧
          u.peers = (portSet s p { q1 with out := dropKind [2] q.out }).peers)) ∧
      (f.kind = 5 → q.waiting = [] → run = .next t) ∧
      (∀ n who lid rest, f.kind = 5 → q.waiting = (n, who, lid) :: rest → run = .next
        { portSet s p { q1 with waiting := rest, out := dropKind [1, 4] q.out } with
          launches := match who, lid with | none, some k => s.launches.filter (fun l => l.lid ≠ k) | _, _ => s.launches }) ∧
      (q.en = true → f.kind = 4 → f.addr % 2 ^ 32 ≠ 0 → run = .next (portSet s p
        { q1.send 5 0 f.addr [] with rx := (if f.addr / 2 ^ 32 = 0 then [] else q.rx) ++ f.payload })) ∧
      (q.en = true → f.kind = 4 → f.addr % 2 ^ 32 = 0 →
        let it := rxItem q f
        let q2 : Peer := { q1 with rx := [] }
        let v := portSet s p q2
        let mayOpen := s.launches = [] ∧ (∀ x ∈ s.eqs, x.2.en = false) ∧
          ∀ c : Byte, ∀ e, s.ctxEntry c = .ok e → bitOf e 128 = false
        let takes (P : State → Prop) : Prop := ∃ u, run = .next u ∧ u.peers = (portSet s p (q2.send 5 0 f.addr [])).peers ∧ P u
        (it = .opening → mayOpen → run = .next (portSet s p ({ q2 with taking := true }.send 5 0 f.addr []))) ∧
        (it = .opening → ¬mayOpen → refuses v 2) ∧
        (it ≠ .opening → q.taking = false → refuses v 2) ∧
        (q.taking = true → (it = .ending → run = .next (portSet s p ({ q2 with taking := false }.send 5 0 f.addr []))) ∧
          (∀ c rows tables, it = .spilled c rows tables → takes fun u => u = { s with
            peers := u.peers, spilledRows := s.spilledRows ++ rows.map (c, ·), spilledTables := s.spilledTables ++ tables.map fun x => (c, x.1, x.2) }) ∧
          (∀ c off bs b, it = .area c off bs → s.saveBase c = .ok b → takes fun u =>
            u = { s.writeRange (b + off) bs (bs.length / 128 + 2) with peers := u.peers }) ∧
          (∀ c off bs e, it = .area c off bs → s.saveBase c = .error e → run = .next v) ∧
          (∀ vs, it = .counters vs → s.counters = [] → vs.length ≤ 16384 → takes fun u =>
            u = { s with peers := u.peers, counters := u.counters, dies := u.dies, launches := u.launches } ∧
            ∀ k, k < vs.length → spGet 0 u.counters k = vs.getD k 0) ∧
          (∀ n e, it = .queue n e → (∀ x ∈ e.entries, ∃ c, x.place = .chip c) → takes fun u =>
            u = { s with peers := u.peers, eqs := u.eqs } ∧ OtherQueues s u n ∧ u.eq n = { e with
              entries := e.entries.map fun x => { x with at_ := s.now - x.at_ } }) ∧
          (∀ d fs, it = .dispatch d fs → takes fun u => u = { s with peers := u.peers, dies := u.dies } ∧ (∀ c, c ≠ d → u.die c = s.die c) ∧
            u.die d = { s.die d with dispatch := (s.die d).dispatch ++ fs.map fun g => { g with ord := s.now } }) ∧
          (∀ l arcs im lid, it = .launch l arcs im → s.freeLid = some lid → l.saved = none → takes fun u =>
            let l1 : Launch := { l with lid, since := s.now, ageAt := s.now }
            u = { s with
              peers := u.peers, arcs := u.arcs
              launches := s.launches ++ [l1.evalDeps s.now fun k => some (spGet 0 s.counters k)] } ∧
            u.arcs = s.arcs ++ arcs.map fun x => ⟨lid, x.1, x.2, {}⟩) ∧
          (∀ l arcs im lid rs o b, it = .launch l arcs im → s.freeLid = some lid → l.saved = some rs →
            freeRange s.launches l.ctx im.length = some o → s.saveBase l.ctx = .ok b → takes fun u =>
              u.mem = (s.writeRange (b + 2 ^ 32 + o) im (im.length / 128 + 2) { lid := some lid }).mem ∧
              u.launches = s.launches ++ [{ l with lid, since := s.now, ageAt := s.now, saveAt := some (o, im.length) }]) ∧
          (∀ l arcs im, it = .launch l arcs im → s.freeLid = none → run = .next v)))))

/-- R185, R392 to R399, R456 and R457: the eviction handshake goes through the states of Table 17-4, saves what runs, sends everything of Table 17-5
to the neighbour (the layout of its items: log entry 84), and fails on a port that is down, a neighbour that refuses, or 30 s of MOVING; the
management port reports, reads the identity record, takes records for the service log, takes firmware and signs transcripts, over MCTP or DOE; a
frozen module's stores are read out and none is written (the order of the scan path: log entry 85); a reset measures the images, starts those
whose signature verifies and leaves nothing live; the governor moves a level at a time, and freezes above 80 degrees. -/
def Obligations.EvictionAndManagement : Prop :=
  (∀ s : State,
    let fails (base : State) (i : Instr) (state why : Nat) : Prop := ∃ w, exec i s = .next w ∧ EvictFails base state why w
    let running := ∃ l ∈ s.launches, l.st = .running
    (∀ port ready ranges rest, s.mgmtIn = .evict port ready ranges :: rest →
      let t : State := { s with mgmtIn := rest }
      let may := s.quietModule = false ∧ (s.evict = .serving ∨ (s.evict = .failed ∧ port ≠ s.evictPort))
      let num := if s.evict = .serving then 1 else 2
      let u : State := { t with evict := if s.evict = Evict.serving then Evict.fencing else Evict.moving, evictPort := port, evictRanges := ranges }
      (¬may → exec .evictRequest s = .next t) ∧
      (may → s.peers[port].up = false → fails u .evictRequest num 2) ∧
      (may → s.peers[port].up = true → ready = false → fails u .evictRequest num 1) ∧
      (may → s.evict = .serving → s.peers[port].up = true → ready = true → ∃ w, exec .evictRequest s = .next w ∧ Saves u w) ∧
      (may → s.evict = .failed → s.peers[port].up = true → ready = true →
        exec .evictRequest s = .next { u with evictAt := s.now, evictSent := false })) ∧
    (s.evict ≠ .fencing → exec .fencingComplete s = .next s) ∧
    (s.evict = .fencing → running → ∃ w, exec .fencingComplete s = .next w ∧ Saves s w) ∧
    (s.evict = .fencing → Disposed s → exec .fencingComplete s = .next { s with evict := .moving, evictAt := s.now, evictSent := false }) ∧
    (s.evict = .fencing → ¬running → ¬Disposed s → exec .fencingComplete s = .next s) ∧
    (s.evict ≠ .moving → exec .movingComplete s = .next s) ∧
    (s.evict = .moving → s.evictSent = true →
      (s.peers[s.evictPort].waiting ≠ [] → exec .movingComplete s = .next s) ∧
      (s.peers[s.evictPort].waiting = [] → exec .movingComplete s = .next { s with
        evict := .draining, launches := [], eqs := [], arcs := [], spilledRows := [], spilledTables := []
        dies := s.dies.map fun d => { d with dispatch := [], eqIn := [] } })) ∧
    (s.evict = .moving → s.evictSent = false →
      (running → ∃ w, exec .movingComplete s = .next w ∧ Saves s w) ∧
      (¬running → ¬Disposed s ∨ ¬AtRest s → exec .movingComplete s = .next s) ∧
      (Disposed s → AtRest s →
        ((∃ e, s.spillEverything = .error e) → exec .movingComplete s = .next s) ∧
        ∀ t, s.spillEverything = .ok t →
          ((s.stations.Pairwise fun a b => a.1 < b.1) → (∀ x ∈ s.stations, x.2.rows.Pairwise fun a b => a.1 < b.1) → ∀ n,
            (t.stn n).tables = [] ∧ ∀ r, (t.row n r).owner = none) ∧
          ((∃ e, t.sendAll = .error e) → exec .movingComplete s = .next s) ∧
          ∀ v, t.sendAll = .ok v → exec .movingComplete s = .next v ∧ v.evictSent = true ∧
            ∃ (items : List MoveItem) (ranges : List (Nat × List Byte)),
              (∀ j, j ≠ t.evictPort → v.peers[j] = t.peers[j]) ∧
              v.peers[t.evictPort] = (items ++ [MoveItem.ending]).foldl Peer.sendItem
                (ranges.foldl (fun q x => q.sendRange x.1 x.2) ((t.peers[t.evictPort]).sendItem MoveItem.opening)) ∧
              ranges.map Prod.fst = t.evictRanges.map (·.2.2) ∧
              (∀ (i pa n to_ : Nat) (bs : List Byte), t.evictRanges[i]? = some (pa, n, to_) → ranges[i]? = some (to_, bs) →
                t.readRange pa n (n / 128 + 2) = .ok bs) ∧
              MoveItem.counters ((List.range 16384).map fun k => spGet 0 t.counters k) ∈ items ∧
              (∀ d : Fin 8, MoveItem.dispatch d (t.die d).dispatch ∈ items) ∧
              (∀ l ∈ t.launches, ∃ im, MoveItem.launch l ((t.arcs.filter (·.lid == l.lid)).map fun a => (a.node, a.tag)) im ∈ items ∧
                (l.saved ≠ none → ∀ A n, t.imagePlace l = .ok (A, n) → t.readRange A n (n / 128 + 2) = .ok im)) ∧
              (∀ x ∈ t.eqs, x.2.en = true → ∃ e : EQueue, MoveItem.queue x.1 e ∈ items ∧
                e = { t.eq x.1 with entries := e.entries } ∧ e.entries.length = (t.eq x.1).entries.length ∧
                (t.ecc = [] → ∀ (i : Nat) (y : EqEntry), (t.eq x.1).entries[i]? = some y → (∃ c, y.place = .chip c) →
                  e.entries[i]? = some { y with at_ := t.now - y.at_ })) ∧
              ∀ c ∈ t.liveCtxs, ∃ bs, MoveItem.area c (2 ^ 30) bs ∈ items ∧
                (∀ b, t.saveBase c = .ok b → t.readRange (b + 2 ^ 30) 16384 130 = .ok bs) ∧
                MoveItem.spilled c ((t.spilledRows.filter (·.1 == c)).map (·.2)) ((t.spilledTables.filter (·.1 == c)).map (·.2)) ∈ items)) ∧
    (let idle := (∀ p : Fin 18, s.peers[p].en = false ∧ s.peers[p].waiting = [] ∧
       ∀ f ∈ s.peers[p].out, f.kind = 3 ∨ f.kind = 5) ∧ AtRest s
     (s.evict = .draining → idle → ∃ heads, exec .drainingComplete s = .next
       { s with evict := .drained, mctp := s.mctp ++ [.routesDrained heads] } ∧
       ∀ q h, (q, h) ∈ heads ↔ ∃ w, (q, w) ∈ s.wq ∧ bitOf w.desc.toNat 0 = true ∧ w.head = h) ∧
     (s.evict ≠ .draining ∨ ¬idle → exec .drainingComplete s = .next s)) ∧
    (s.evict = .moving → s.evictAt + 42000000000 ≤ s.now → fails s .evictTimeout 2 0) ∧
    (s.evict ≠ .moving ∨ s.now < s.evictAt + 42000000000 → exec .evictTimeout s = .next s) ∧
    (s.evict = .failed → exec .evictAbort s = .next { s with evict := .serving }) ∧
    (s.evict ≠ .failed → exec .evictAbort s = .next s) ∧
    (s.evict = .drained → exec .unlatch s = .next { s with unlatched := true }) ∧
    (s.evict ≠ .drained → exec .unlatch s = .next s) ∧
    exec .freezeMessage s = .next { s with frozen := true } ∧
    (∀ off len rest, s.mgmtIn = .scan off len :: rest →
      (s.frozen = true → ∃ bs, bs.length = len ∧ (∀ i, i < len → bs[i]? = some (s.scanByte (off + i))) ∧
        exec .scanReadOut s = .next { s with mgmtIn := rest, mctp := s.mctp ++ [.scan bs] }) ∧
      (s.frozen = false → exec .scanReadOut s = .next { s with mgmtIn := rest })) ∧
    (∀ n b, n < 2 ^ 16 → b < 4 → ∀ e, e < 2 ^ 15 →
      s.scanByte (2 ^ 20 * n + 2 ^ 17 + 4 * e + b) = (spGet 0 (s.stn n).tstore e).extractLsb' (8 * b) 8) ∧
    (∀ n (k : Fin 4) slot b, n < 2 ^ 16 → slot < 16 → b < 16 →
      s.scanByte (2 ^ 20 * n + 2 ^ 16 + 256 * k.val + 16 * slot + b) = (spGet 0 ((s.stn n).ctxs[k]).words slot).extractLsb' (8 * b) 8) ∧
    (∀ n r (j : Fin 32) b, n < 2 ^ 16 → r < 32 → b < 8 →
      s.scanByte (2 ^ 20 * n + 2 ^ 18 + 512 * r + 8 * j.val + b) = ((s.row n r).cells[j]).extractLsb' (8 * b) 8) ∧
    (∀ i, i < 2 ^ 30 → s.scanByte (2 ^ 38 + i) = s.mem.byte (coreMemBase 0 0 + i)) ∧
    ((∀ m rest, s.mgmtIn = m :: rest → (∀ off len, m ≠ .eeprom off len) ∧ ∀ r, m ≠ .service r) →
      exec .pldmMonitoring s = .next { s with mctp := s.mctp ++ [.monitoring s.inlet s.outlet s.power s.evict] }) ∧
    (∀ off len rest, s.mgmtIn = .eeprom off len :: rest → ∃ bs, exec .pldmMonitoring s = .next
        { s with mgmtIn := rest, mctp := s.mctp ++ [.eeprom bs] } ∧
      (s.identity.length = 1024 → ∀ i b, i < len → off + i < 1024 → s.identity[off + i]? = some b → bs[i]? = some b) ∧
      (s.identity.length = 1024 → ∀ k r j i, s.service[k]? = some r → j < 32 → i < len → off + i = 1024 + 32 * k + j → k < 96 →
        bs[i]? = some (r.extractLsb' (8 * j) 8))) ∧
    (∀ r rest, s.mgmtIn = .service r :: rest → exec .pldmMonitoring s = .next
      { s with mgmtIn := rest, service := if s.service.length < 96 then s.service ++ [r] else s.service }) ∧
    (∀ i bs sig rest, s.mgmtIn = .firmware i bs sig :: rest → exec .pldmFirmwareUpdate s = .next
      { s with mgmtIn := rest, images := s.images.set i.val (bs, sig), mctp := s.mctp ++ [.firmware i true] }) ∧
    (∀ x doe rest, s.mgmtIn = .spdm x doe :: rest →
      let a : SpdmAnswer := ⟨[s.measured[0], s.measured[1], s.measured[2], s.measured[3]], Config.ed448Sign (Config.shake256 x)⟩
      (doe = false → exec .spdmMessage s = .next { s with mgmtIn := rest, mctp := s.mctp ++ [.spdm a] }) ∧
      (doe = true → s.hostUp = true → exec .spdmMessage s = .next { s with mgmtIn := rest, doe := s.doe ++ [a] }) ∧
      (doe = true → s.hostUp = false → exec .spdmMessage s = .next { s with mgmtIn := rest })) ∧
    Answers .moduleReset s (fun t =>
      (∀ i : Fin 4, t.measured[i] = Config.shake256 s.images[i].1 ∧
        t.started[i] = Config.ed448Verify (Config.shake256 s.images[i].1) s.images[i].2) ∧
      t.images = s.images ∧ t.identity = s.identity ∧ t.service = s.service ∧ t.resetAt = s.now ∧ t.now = s.now ∧
      t.frozen = false ∧ t.evict = .serving ∧ t.launches = [] ∧ t.stations = [] ∧ t.cores = State.reset.cores ∧
      t.net = [] ∧ t.engine = [] ∧ t.flying = [] ∧ t.counters = [] ∧ t.eqs = [] ∧ t.level = 0 ∧ t.wq = [] ∧ t.keys = [] ∧
      (∀ (d : Fin 8) i b, i < 2 ^ 18 → s.images[(3 : Fin 4)].1[i]? = some b → t.mem.byte (collierBase d.val + i) = b)) ∧
    (let hot := 65 < s.outlet ∨ 45 < s.inlet
     let cool := s.outlet < 60 ∧ s.inlet < 42
     let since := s.hotAt.getD s.now
     let up := hot ∧ ((s.level = 0 ∧ since + 1400000 ≤ s.now) ∨
       (1 ≤ s.level ∧ s.level < 3 ∧ max since s.levelAt + 140000000 ≤ s.now))
     let down := cool ∧ 0 < s.level ∧ s.coolAt.getD s.now + 1400000 ≤ s.now
     Answers .governorCheck s fun t =>
       t.frozen = (s.frozen || decide (80 < s.outlet)) ∧ (hot → t.hotAt = some since) ∧ (¬hot → t.hotAt = none) ∧
       (¬up → ¬down → t = { s with hotAt := t.hotAt, coolAt := t.coolAt, frozen := t.frozen } ∧
         (cool → t.coolAt = some (s.coolAt.getD s.now)) ∧ (¬cool → t.coolAt = none)) ∧
       (up → t.level = s.level + 1 ∧ t.levelAt = s.now ∧ t.coolAt = none) ∧
       (down → t.level = s.level - 1 ∧ t.levelAt = s.now ∧ t.coolAt = some s.now) ∧
       (up ∨ down → t.launches = s.launches ∧ ∀ d : Fin 8,
         let c := s.core (collierOf d)
         (c.fqtail.toNat + 128 - c.fqhead.toNat) % 128 ≠ 64 →
           t.core (collierOf d) = { c with fqtail := BitVec.ofNat 64 ((c.fqtail.toNat + 1) % 128) }))) ∧
  (∀ (q : Peer) (it : MoveItem), q.txseq + ((putItem it).length + 223) / 224 ≤ 2 ^ 32 → (putItem it).length < 224 * 2 ^ 24 →
    let n := ((putItem it).length + 223) / 224
    ∃ fs : List Flit, fs.length = n ∧ q.sendItem it = { q with
      out := q.out ++ fs, txseq := (q.txseq + n) % 2 ^ 32
      waiting := q.waiting ++ (List.range n).map fun i =>
        (q.txseq + i, none, match it with | .launch l _ _ => if i + 1 = n then some l.lid else none | _ => none) } ∧
      (fs.map (·.payload)).flatten = putItem it ∧
      ∀ i f, fs[i]? = some f → f.kind = 4 ∧ f.seq = q.txseq + i ∧ f.addr = i * 2 ^ 32 + (n - 1 - i) ∧ f.payload.length = f.used ∧ f.used ≤ 224) ∧
  (getItem (putItem .opening)).1 = .opening ∧ (getItem (putItem .ending)).1 = .ending ∧
  (∀ c off bs, off < 2 ^ 64 → bs.length < 2 ^ 32 → (getItem (putItem (.area c off bs))).1 = .area c off bs) ∧
  (∀ vs, vs.length < 2 ^ 32 → (getItem (putItem (.counters vs))).1 = .counters vs)


/-! ## Encodings, the step and the invariant -/

namespace Sys2Proof.Claims

open Sys2Proof.Machine

/-- The state in which an instruction of a core issues: the agenda moved on, a step and its cycles counted, the core current, its memory
access performed at once or left for later (R175). -/
def coreIssues (s : State) (a : Agent) (late : Bool) (rest : List Act) : State :=
  { s with agenda := rest, steps := s.steps + 1, now := s.now + Config.stepCycles s.steps, cur := a, limm := none, late, cut := none }

/-- The state in which the pair at the head of a station's issue queue issues, whole or with a cut after some pieces (Table 05-9). -/
def stationIssues (s : State) (n : Nat) (cut : Option Nat) (rest : List Act) : State :=
  { s with agenda := rest, steps := s.steps + 1, now := s.now + Config.stepCycles s.steps, curStn := n, late := false, cut }

/-- The state in which a unit performs an event. -/
def eventRuns (s : State) (rest : List Act) : State :=
  { s with agenda := rest, steps := s.steps + 1, now := s.now + Config.stepCycles s.steps, late := false, cut := none }

/-- The two words that a core's pc is at. -/
def wordsAt (s : State) (a : Agent) : Nat × Nat :=
  (leValue (s.mem.bytes (istoreBase a + (s.core a).pc.toNat) 4),
    leValue (s.mem.bytes (istoreBase a + ((s.core a).pc.toNat + 4) % 2 ^ 16) 4))

/-- No word of a core's store holds an error (R436, R437). -/
def CleanFetch (s : State) (a : Agent) : Prop :=
  ∀ e ∈ s.ecc, ∀ n, n ≤ 8 → e.meets (istoreBase a + (s.core a).pc.toNat) n = false

/-- An instruction names a register that an earlier access of its core has still to write. -/
def Owes (s : State) (a : Agent) (i : Instr) : Prop := ∃ f ∈ s.flying, f.agent = a ∧ ∃ r, f.dest = some r ∧ r ∈ regsOf i

end Sys2Proof.Claims

/-- The machine after reset. From the spec: the colliers run (R143) and hold the fault queue registers of R423; every store is zero-filled
(R217) and reads 0 everywhere, in canonical form; no key has been written (R161), no launch, configuration, table binding (R429), pending
write or fault is there; the identity record names version 1 and the part (Table 17-3), and measurement i is the digest of image i (R398). The value
0 of every other register is the model's choice (log entries 1 and 2), and that the images are empty and have been started is too (log
entry 34). -/
def Obligations.ResetState : Prop :=
  State.reset.Inv ∧ (∀ k, State.reset.mem.byte k = 0) ∧
  (∀ d : Fin 8, (State.reset.core ⟨.collier, d, 0⟩) = { run := .running } ∧
    (State.reset.core ⟨.collier, d, 0⟩).fqbase = 0x3F000 ∧ (State.reset.core ⟨.collier, d, 0⟩).fqhead = 0 ∧
    (State.reset.core ⟨.collier, d, 0⟩).fqtail = 0 ∧ (State.reset.die d) = {}) ∧
  (∀ (k : CoreKind) (d : Fin 8) (c : Fin 128), k ≠ .collier → State.reset.core ⟨k, d, c⟩ = {}) ∧
  (∀ n, State.reset.stn n = {}) ∧ State.reset.launches = [] ∧ State.reset.configs = [] ∧ State.reset.pend = [] ∧
  State.reset.ecc = [] ∧ State.reset.keys = [] ∧ State.reset.counters = [] ∧ State.reset.engine = [] ∧ State.reset.frozen = false ∧
  State.reset.unlatched = false ∧ State.reset.flying = [] ∧ State.reset.net = [] ∧ State.reset.evict = .serving ∧
  State.reset.identity.length = 1024 ∧ State.reset.identity.take 20 = [1, 0, 0, 0, 76, 75, 88, 52, 45, 49, 48, 50, 52, 45, 72, 0, 0, 0, 0, 0] ∧
  (∀ i, 211 ≤ i → i < 1024 → State.reset.identity[i]? = some 0) ∧ State.reset.service = [] ∧
  (∀ i : Fin 4, State.reset.measured[i] = Config.shake256 State.reset.images[i].1 ∧ State.reset.started[i] = true) ∧
  ∀ k : Fin 32, (State.reset.link k.val).paused = false ∧ (State.reset.link k.val).training = none ∧ (State.reset.link k.val).lanes = 64

/-- Every step keeps memory in its canonical form, from any state that has it, whatever the agent that acts and whatever it does: stores
of cores and units, compressed lines, code and core memories restored, records written, a module reset. -/
def Obligations.StepKeepsInvariant : Prop := ∀ s t : State, s.Inv → step s = .next t → t.Inv

/-- Decoding and encoding agree (R210 to R216, R221 to R223): for every well-formed core instruction, prefix pairs among them, and every
well-formed station instruction, at every value of every operand, its words fit their width and decode to it and to no other; and words
that decode are the words of the instruction they decode to. -/
def Obligations.EncodingRoundTrip : Prop :=
  (∀ (i : Instr) (u v : Nat), isCore i = true → i.wf = true → (∀ w ∈ encode i, w < 2 ^ 32) ∧
    ((∃ imm j, i = .limm imm j ∧ decode ((encode i).getD 0 u) ((encode i).getD 1 v) = .ok (i, 2)) ∨
      ((∀ imm j, i ≠ .limm imm j) ∧ decode ((encode i).getD 0 u) v = .ok (i, 1)))) ∧
  (∀ (w0 w1 : Nat) (i : Instr) (n : Nat), w0 < 2 ^ 32 → decode w0 w1 = .ok (i, n) → i.wf = true ∧ isCore i = true ∧
    encode i = [w0, w1].take n) ∧
  (∀ i : Instr, isStation i = true → i.wf = true → encStation i < 2 ^ 128 ∧ decodeStation (encStation i) = .ok i) ∧
  (∀ (w : Nat) (i : Instr), decodeStation w = .ok i → i.wf = true ∧ isStation i = true ∧ encStation i = w)

/-- Words that the spec works out (Tables 09-4, 09-8, 10-8, 11-7, 12-6 and 18-5) decode to the instructions they stand for; the all-zero
core word is ADD g0, g0, g0 (R217), and opcodes that no row assigns decode to none (R221, R223). -/
def Obligations.DecodeWords : Prop :=
  (decode 0x20042008 0).toOption = some (.addI ⟨0, false⟩ 4 4 8, 1) ∧
  (decode 0x48000024 0x20042345).toOption = some (.limm 0x24 (.addI ⟨0, false⟩ 4 4 0x345), 2) ∧
  (decode 0x60052310 0).toOption = some (.ld ⟨0, false⟩ .plain 3 false .die 5 4, 1) ∧
  (decode 0x4A5FFFFC 0).toOption = some (.br ⟨1, false⟩ (-4), 1) ∧
  (decode 0 0).toOption = some (.addR ⟨0, false⟩ 0 0 0, 1) ∧
  (decode 0xF4000000 0).toOption = none ∧
  (decodeStation 0x05D0000012280000082000003E000000).toOption =
    some (.const ⟨0, 0, 0, some ⟨9, 1, 1, 1⟩, none⟩ .fp32 0 0x3E000000) ∧
  (decodeStation 0x2DD08000800000000020000000000000).toOption = some (.fmul ⟨2, 0, 0, some ⟨0x40, 0, 0, 0⟩, none⟩ .fp32 0 0) ∧
  (decodeStation 0x1420800018400000003FC08400000000).toOption =
    some (.stn ⟨2, 0, 0, some ⟨0xC, 2, 0, 0⟩, none⟩ .int32 ⟨127, 1, false, 0, .die, 0, 0, false, 0⟩) ∧
  (decodeStation 0x132040001860000000203F8402000000).toOption =
    some (.ldn ⟨1, 0, 0, some ⟨0xC, 3, 0, 0⟩, none⟩ .int32 ⟨0, 127, false, 0, .die, 1, 0, false, 0⟩) ∧
  (decodeStation 0x33A44000800000000020000000000000).toOption = some (.cvt ⟨1, 0, 0, some ⟨0x40, 0, 0, 0⟩, none⟩ .e4m3 4 false) ∧
  (decodeStation 0x40004000282000A1006001020080FFFF).toOption =
    some (.segt ⟨1, 0, 0, some ⟨0x14, 1, 0, 0⟩, some ⟨0x14, 2, 0, 0⟩⟩ .int8 1 2 128 0xFFFF) ∧
  (decodeStation 0x410040002A2000000020000C00000000).toOption =
    some (.sgpN32 ⟨1, 0, 0, some ⟨0x15, 1, 0, 0⟩, none⟩ .int8 ⟨0, 3, 0⟩) ∧
  (decodeStation 0x43004000000000000000000C00000000).toOption = some (.dmacN32 ⟨1, 0, 0, none, none⟩ .int8 ⟨0, 3, 0⟩) ∧
  (decodeStation 0x48208200014000000020000000000000).toOption =
    some (.tupd ⟨2, 0, 1, some ⟨0, 10, 0, 0⟩, none⟩ .int32 false 0) ∧
  (decodeStation 0x50000000000000000000000000000000).toOption = none

/-- A step runs the decoded instruction. When the agenda's head lets a running core act and the words at its pc decode to i, the step is
exec of i in the state in which it issues (R215, R217), its memory access performed at once or left for later (R175): the second word of a pair is
the next one, and a LIMM in the last word of the store is an illegal encoding, as words are that decode to none (R216, R223). A word with a
double-bit error raises SRAM-ECC (R437), and an instruction that needs what an earlier access of its core has still to bring waits. When the
head lets a station act, the step is exec of the slot of the pair at the head of its issue queue (R104), whole or up to a piece (Table 05-9); when it
names an event, exec of it. With an empty agenda, one of the actions that can happen is next. A frozen module does only what its management
port asks for (R397); an unlatched one takes no step. -/
def Obligations.StepRunsDecoded : Prop :=
  (∀ s : State, s.unlatched = true → step s = .fault .unlatched) ∧
  (∀ (s : State) (rest : List Act), s.unlatched = false →
    (∀ a late, s.agenda = (if late = true then .late a else .core a) :: rest → s.quietModule = false → (s.core a).run = .running →
      let (w0, w1) := wordsAt s a
      let u := coreIssues s a late rest
      let i : Instr := match decode w0 w1 with
        | .ok (i, n) => if n = 2 ∧ (s.core a).pc = 65532 then .illegalEncoding (BitVec.ofNat 32 w0) (BitVec.ofNat 32 w1) else i
        | .error _ => .illegalEncoding (BitVec.ofNat 32 w0) (BitVec.ofNat 32 w1)
      (Owes s a i → step s = .next u) ∧
      (¬Owes s a i → CleanFetch s a → step s = exec i u) ∧
      (¬Owes s a i → (∃ e ∈ s.ecc, e.double = true ∧ e.meets (s.fetchAt a) (s.fetchLen a) = true) → ∃ f : FI, f.cls = 0x29 ∧
        step s = .next (u.coreFault a (s.core a).pc false f))) ∧
    (∀ a late, s.agenda = (if late = true then .late a else .core a) :: rest → s.quietModule = false → (s.core a).run ≠ .running →
      step s = .next (coreIssues s a late rest)) ∧
    (∀ n p ps i, s.quietModule = false → (s.stn n).issueq = p :: ps → (s.stn n).ctxs[p.cx.val].instr p.slot = some i →
      (s.agenda = .station n :: rest → step s = exec i (stationIssues s n none rest)) ∧
      (s.agenda = .stationPart n :: rest → ∃ k, 1 ≤ k ∧ step s = exec i (stationIssues s n (some k) rest))) ∧
    (∀ i, s.agenda = .event i :: rest → s.quietModule = false ∨ mgmtOnly (.event i) = true → step s = exec i (eventRuns s rest)) ∧
    (∀ a, s.agenda = a :: rest → s.quietModule = true → mgmtOnly a = false → step s = .next (eventRuns s rest)) ∧
    (s.agenda = [] → (s.cands = [] → step s = .next (eventRuns s [])) ∧
      (s.cands ≠ [] → ∃ a ∈ s.cands, step s = step { s with agenda := [a] })))
end

