-- ==== Sys2Proof/Laws/Bits.lean ====
section
/-! SUPPORT. Laws of sparse maps: what a read returns after a write, and that a write keeps the canonical form. -/

namespace Sys2Proof.Machine

variable {α : Type}

/-- A read of the key written. -/
@[simp] theorem spGet_spInsert_self (d : α) (m : List (Nat × α)) (k : Nat) (x : α) : spGet d (spInsert m k x) k = x := by
  induction m with
  | nil => simp [spInsert, spGet]
  | cons h m ih =>
    obtain ⟨j, y⟩ := h
    simp only [spInsert]
    split
    · simp [spGet]
    · split
      · simp [spGet]
      · simp only [spGet, *, if_false]

/-- A read of another key. -/
theorem spGet_spInsert_ne (d : α) (m : List (Nat × α)) {k j : Nat} (x : α) (h : j ≠ k) :
    spGet d (spInsert m k x) j = spGet d m j := by
  induction m with
  | nil => simp [spInsert, spGet, Ne.symm h]
  | cons a m ih =>
    obtain ⟨i, y⟩ := a
    simp only [spInsert]
    split
    · subst_vars; simp [spGet, Ne.symm h]
    · split
      · simp only [spGet, Ne.symm h, if_false]
        split
        · have : i ≠ j := by omega
          have : j < i := by omega
          simp [*]
        · rfl
      · simp only [spGet, ih]

/-- The second of two writes to a key stands alone. -/
@[simp] theorem spInsert_spInsert (m : List (Nat × α)) (k : Nat) (x y : α) :
    spInsert (spInsert m k x) k y = spInsert m k y := by
  induction m with
  | nil => simp [spInsert]
  | cons a m ih =>
    obtain ⟨i, z⟩ := a
    simp only [spInsert]
    split
    · simp [spInsert]
    · split
      · simp [spInsert]
      · simp [spInsert, *]

/-- A search finds the key written. -/
@[simp] theorem spFind_spInsert_self (m : List (Nat × α)) (k : Nat) (x : α) : spFind (spInsert m k x) k = some x := by
  induction m with
  | nil => simp [spInsert, spFind]
  | cons h m ih =>
    obtain ⟨j, y⟩ := h
    simp only [spInsert]
    split
    · simp [spFind]
    · split
      · simp [spFind]
      · simp only [spFind, *, if_false]

section Canonical

variable [DecidableEq α] {d : α}

/-- A lower bound on the keys can be weakened. -/
theorem spWfFrom_mono {m : List (Nat × α)} {b c : Option Nat} (h : spWfFrom d b m = true)
    (hc : ∀ x, c = some x → ∃ y, b = some y ∧ x ≤ y) : spWfFrom d c m = true := by
  cases m with
  | nil => rfl
  | cons a m =>
    obtain ⟨j, y⟩ := a
    cases c with
    | none => cases b <;> simp_all [spWfFrom]
    | some x =>
      obtain ⟨z, rfl, hz⟩ := hc x rfl
      simp only [spWfFrom, Bool.and_eq_true, decide_eq_true_eq] at h ⊢
      exact ⟨⟨by omega, h.1.2⟩, h.2⟩

/-- Below every key of a canonical map reads the default. -/
theorem spGet_below {m : List (Nat × α)} {b k : Nat} (h : spWfFrom d (some b) m = true) (hk : k ≤ b) : spGet d m k = d := by
  cases m with
  | nil => rfl
  | cons a m =>
    obtain ⟨j, y⟩ := a
    simp only [spWfFrom, Bool.and_eq_true, decide_eq_true_eq] at h
    have h1 : j ≠ k := by omega
    have h2 : k < j := by omega
    simp [spGet, h1, h2]

/-- A removed key reads the default. -/
theorem spGet_spErase_self {m : List (Nat × α)} {b : Option Nat} (h : spWfFrom d b m = true) (k : Nat) :
    spGet d (spErase m k) k = d := by
  induction m generalizing b with
  | nil => rfl
  | cons a m ih =>
    obtain ⟨j, y⟩ := a
    simp only [spWfFrom, Bool.and_eq_true] at h
    simp only [spErase]
    split
    · subst_vars; exact spGet_below h.2 (Nat.le_refl _)
    · split
      · simp [spGet, *]
      · simp only [spGet, *, if_false]; exact ih h.2

/-- Another key keeps its value when a key is removed. -/
theorem spGet_spErase_ne {m : List (Nat × α)} {b : Option Nat} (h : spWfFrom d b m = true) {k j : Nat} (hj : j ≠ k) :
    spGet d (spErase m k) j = spGet d m j := by
  induction m generalizing b with
  | nil => rfl
  | cons a m ih =>
    obtain ⟨i, y⟩ := a
    simp only [spWfFrom, Bool.and_eq_true] at h
    simp only [spErase]
    split
    · subst_vars
      simp only [spGet, Ne.symm hj, if_false]
      split
      · exact spGet_below h.2 (by omega)
      · rfl
    · split
      · rfl
      · simp only [spGet, ih h.2]

/-- A removal keeps the canonical form. -/
theorem spWfFrom_spErase {m : List (Nat × α)} {b : Option Nat} (h : spWfFrom d b m = true) (k : Nat) :
    spWfFrom d b (spErase m k) = true := by
  induction m generalizing b with
  | nil => rfl
  | cons a m ih =>
    obtain ⟨j, y⟩ := a
    have h' := h
    simp only [spWfFrom, Bool.and_eq_true, decide_eq_true_eq] at h
    simp only [spErase]
    split
    · apply spWfFrom_mono h.2
      intro x hx
      subst hx
      exact ⟨j, rfl, by have := h.1.1; simp only [decide_eq_true_eq] at this; omega⟩
    · split
      · exact h'
      · simp only [spWfFrom, Bool.and_eq_true, decide_eq_true_eq]
        exact ⟨h.1, ih h.2⟩

/-- A value other than the default keeps the canonical form. -/
theorem spWfFrom_spInsert {m : List (Nat × α)} {b : Option Nat} (h : spWfFrom d b m = true) {k : Nat} {x : α}
    (hx : x ≠ d) (hb : ∀ y, b = some y → y < k) : spWfFrom d b (spInsert m k x) = true := by
  induction m generalizing b with
  | nil => cases b <;> simp_all [spInsert, spWfFrom]
  | cons a m ih =>
    obtain ⟨j, y⟩ := a
    have h' := h
    simp only [spWfFrom, Bool.and_eq_true, decide_eq_true_eq] at h
    simp only [spInsert]
    split
    · subst_vars
      simp only [spWfFrom, Bool.and_eq_true, decide_eq_true_eq]
      exact ⟨⟨h.1.1, hx⟩, h.2⟩
    · split
      · have hj : k < j := ‹_›
        cases b <;> simp_all [spWfFrom]
      · simp only [spWfFrom, Bool.and_eq_true, decide_eq_true_eq]
        refine ⟨h.1, ih h.2 ?_⟩
        intro z hz
        cases hz
        omega

/-- A write keeps the canonical form. -/
theorem spWf_spSet {m : List (Nat × α)} (h : spWf d m = true) (k : Nat) (x : α) : spWf d (spSet d m k x) = true := by
  unfold spSet
  split
  · exact spWfFrom_spErase h k
  · exact spWfFrom_spInsert h ‹_› (by simp)

/-- A read of the key written, in a canonical map. -/
theorem spGet_spSet_self {m : List (Nat × α)} (h : spWf d m = true) (k : Nat) (x : α) : spGet d (spSet d m k x) k = x := by
  unfold spSet
  split
  · subst_vars; exact spGet_spErase_self h k
  · exact spGet_spInsert_self d m k x

/-- A read of another key, in a canonical map. -/
theorem spGet_spSet_ne {m : List (Nat × α)} (h : spWf d m = true) {k j : Nat} (hj : j ≠ k) (x : α) :
    spGet d (spSet d m k x) j = spGet d m j := by
  unfold spSet
  split
  · exact spGet_spErase_ne h hj
  · exact spGet_spInsert_ne d m x hj

end Canonical

/-! ## Bytes -/

/-- The number of bytes asked for. -/
@[simp] theorem leBytes_length (n v : Nat) : (leBytes n v).length = n := by
  induction n generalizing v with
  | zero => rfl
  | succ n ih => simp [leBytes, ih]

/-- The value of the bytes of a value. -/
theorem leValue_leBytes (n v : Nat) : leValue (leBytes n v) = v % 256 ^ n := by
  induction n generalizing v with
  | zero => simp [leBytes, leValue, Nat.mod_one]
  | succ n ih =>
    simp only [leBytes, leValue, ih, BitVec.toNat_ofNat]
    rw [show 256 ^ (n + 1) = 256 * 256 ^ n from Nat.pow_succ', Nat.mod_mul]

/-- A value is below the number of values that its bytes can hold. -/
theorem leValue_lt (bs : List Byte) : leValue bs < 256 ^ bs.length := by
  induction bs with
  | nil => simp [leValue]
  | cons b bs ih =>
    have := b.isLt
    simp only [leValue, List.length_cons, Nat.pow_succ]
    omega

/-- The number of numbers asked for. -/
@[simp] theorem range_length (a n : Nat) : (range a n).length = n := by simp [range]

/-- A range is its first number and the range after it. -/
theorem range_succ (a n : Nat) : range a (n + 1) = a :: range (a + 1) n := by
  simp only [range, List.range_succ_eq_map, List.map_cons, List.map_map, Nat.add_zero]
  congr 1
  apply List.map_congr_left
  intro x _
  simp; omega

end Sys2Proof.Machine
end

