-- ==== Sys2Proof/Laws/Memory.lean ====
section
/-! SUPPORT. Laws of the memory list: a read after a store, the frame of a store, and the canonical form. -/

namespace Sys2Proof.Machine

/-- A store of cells keeps the canonical form. -/
theorem Memory.wf_storeCells {m : Memory} (h : m.wf = true) (cs : List Host.Cell) : (m.storeCells cs).wf = true := by
  induction cs generalizing m with
  | nil => exact h
  | cons c cs ih => exact ih (spWf_spSet h c.1 c.2)

/-- A store keeps the canonical form. -/
theorem Memory.wf_store {m : Memory} (h : m.wf = true) (k : Nat) (bs : List Byte) : (m.store k bs).wf = true := by
  induction bs generalizing m k with
  | nil => exact h
  | cons b bs ih => exact ih (spWf_spSet h k b) (k + 1)

/-- A store leaves every byte outside it as it was. -/
theorem Memory.byte_store_out {m : Memory} (h : m.wf = true) {k a : Nat} (bs : List Byte)
    (ha : a < k ∨ k + bs.length ≤ a) : (m.store k bs).byte a = m.byte a := by
  induction bs generalizing m k with
  | nil => rfl
  | cons b bs ih =>
    simp only [List.length_cons] at ha
    rw [Memory.store, ih (spWf_spSet h k b) (by omega)]
    exact spGet_spSet_ne h (by omega) b

/-- A byte stored is read. -/
theorem Memory.byte_store_in {m : Memory} (h : m.wf = true) (k : Nat) (bs : List Byte) (i : Nat) (hi : i < bs.length) :
    (m.store k bs).byte (k + i) = bs[i] := by
  induction bs generalizing m k i with
  | nil => simp at hi
  | cons b bs ih =>
    cases i with
    | zero =>
      exact (Memory.byte_store_out (spWf_spSet h k b) bs (Or.inl (Nat.lt_succ_self k))).trans (spGet_spSet_self h k b)
    | succ i =>
      have := ih (spWf_spSet h k b) (k + 1) i (by simpa using hi)
      simpa [Memory.store, Nat.add_assoc, Nat.add_comm 1 i] using this

/-- The bytes stored are read back. -/
theorem Memory.bytes_store_self {m : Memory} (h : m.wf = true) (k : Nat) (bs : List Byte) :
    (m.store k bs).bytes k bs.length = bs := by
  apply List.ext_getElem
  · simp [Memory.bytes]
  · intro i h1 h2
    simp only [Memory.bytes, range, List.map_map, List.getElem_map, List.getElem_range, Function.comp]
    exact Memory.byte_store_in h k bs i h2

/-- Bytes apart from a store are read as before. -/
theorem Memory.bytes_store_out {m : Memory} (h : m.wf = true) {k a n : Nat} (bs : List Byte)
    (ha : a + n ≤ k ∨ k + bs.length ≤ a) : (m.store k bs).bytes a n = m.bytes a n := by
  simp only [Memory.bytes, range, List.map_map]
  apply List.map_congr_left
  intro i hi
  have := List.mem_range.mp hi
  exact Memory.byte_store_out h bs (by simp only; omega)

/-- The number of bytes read. -/
@[simp] theorem Memory.bytes_length (m : Memory) (k n : Nat) : (m.bytes k n).length = n := by simp [Memory.bytes]

/-! ## Every operation that writes memory keeps the canonical form -/

/-- A line written. -/
theorem State.wf_putLine {s : State} (h : s.mem.wf = true) (key : BitVec 512) (l : Nat) (bs : List Byte) :
    (s.putLine key l bs).mem.wf = true := Memory.wf_store h l bs

/-- Bytes of a line written by the home controller. -/
theorem State.wf_putDev {s : State} (h : s.mem.wf = true) (key : BitVec 512) (pa : Nat) (bs : List Byte) :
    (s.putDev key pa bs).mem.wf = true := by
  simp only [State.putDev]
  split
  · exact State.wf_putLine h key _ bs
  · split
    · exact Memory.wf_store h _ _
    · exact State.wf_putLine h key _ _

/-- Bytes written at home. -/
theorem State.wf_putHome {s : State} (h : s.mem.wf = true) (l : Loc) (bs : List Byte) : (s.putHome l bs).mem.wf = true := by
  simp only [State.putHome]
  split
  · exact State.wf_putDev h _ _ bs
  · exact Memory.wf_store h _ bs

/-- Counting corrected errors changes no memory. -/
@[simp] theorem State.mem_countEcc (s : State) (d : Fin 8) (a b : Nat) : (s.countEcc d a b).mem = s.mem := by
  simp only [State.countEcc]; split <;> rfl
@[simp] theorem State.tags_countEcc (s : State) (d : Fin 8) (a b : Nat) : (s.countEcc d a b).tags = s.tags := by
  simp only [State.countEcc]; split <;> rfl
@[simp] theorem State.skeys_countEcc (s : State) (d : Fin 8) (a b : Nat) : (s.countEcc d a b).skeys = s.skeys := by
  simp only [State.countEcc]; split <;> rfl

/-- What the home holds: bytes, tags and keys. -/
def State.sameHome (s t : State) : Prop := s.mem = t.mem ∧ s.tags = t.tags ∧ s.skeys = t.skeys

/-- Counting what a write meets leaves what the home holds. -/
theorem State.sameHome_correctWrite (s : State) (l : Loc) (n : Nat) : (s.correctWrite l n).sameHome s := by
  have hit (s : State) (pa n : Nat) (b : Bool) : (s.countHit pa n b).sameHome s := by simp [State.countHit, State.sameHome]
  have all (via : List Nat) (s : State) : (via.foldl (fun s pa => s.countHit pa 8 false) s).sameHome s := by
    induction via generalizing s with
    | nil => exact ⟨rfl, rfl, rfl⟩
    | cons pa via ih =>
      obtain ⟨a, b, c⟩ := ih (s.countHit pa 8 false)
      obtain ⟨d, e, f⟩ := hit s pa 8 false
      exact ⟨a.trans d, b.trans e, c.trans f⟩
  simp only [State.correctWrite]
  split
  · obtain ⟨a, b, c⟩ := all l.via (s.countHit l.at_ n true)
    obtain ⟨d, e, f⟩ := hit s l.at_ n true
    exact ⟨a.trans d, b.trans e, c.trans f⟩
  · exact all l.via s

/-- What is written at home depends on what the home holds alone. -/
theorem State.mem_putHome_congr {s t : State} (h : s.sameHome t) (l : Loc) (bs : List Byte) :
    (s.putHome l bs).mem = (t.putHome l bs).mem := by
  obtain ⟨hm, ht, hk⟩ := h
  cases hl : l.space <;>
    simp only [State.putHome, hl, State.putDev, State.putLine, State.tag, State.devBytes, State.line, State.lineKeys, hm, ht, hk] <;>
    repeat' split <;> simp_all

/-- What spoils an engine operation is no memory. -/
@[simp] theorem State.mem_spoil (s : State) (at_ n : Nat) : (s.spoil at_ n).mem = s.mem := by
  simp only [State.spoil]; split <;> rfl

/-- A write performed does to the memory list what its home does. -/
@[simp] theorem State.mem_enter (s : State) (id : Nat) (die : Option (Fin 8)) (ak : Nat) (deps : List (Nat × Scope)) (rel : Option Scope)
    (chain : List (Nat × Nat × Scope)) (l : Loc) (bs : List Byte) :
    (s.enter id die ak deps rel chain l bs).mem = (s.putHome l bs).mem := by
  rw [← State.mem_putHome_congr (s.sameHome_correctWrite l bs.length) l bs]
  simp only [State.enter]
  split
  · split <;> simp only [State.mem_spoil] <;> rfl
  · simp only [State.mem_spoil]; rfl

/-- So does a write of an agent. -/
@[simp] theorem State.mem_write (s : State) (die : Option (Fin 8)) (ak : Nat) (rel : Option Scope) (l : Loc) (bs : List Byte)
    (chain : List (Nat × Nat × Scope)) : (s.write die ak rel l bs chain).mem = (s.putHome l bs).mem :=
  (State.mem_enter { s with nextW := s.nextW + 1 } s.nextW die ak (s.before ak rel) rel chain l bs).trans
    (State.mem_putHome_congr (s := { s with nextW := s.nextW + 1 }) (t := s) ⟨rfl, rfl, rfl⟩ l bs)

/-- A write of an agent keeps the canonical form. -/
theorem State.wf_write {s : State} (h : s.mem.wf = true) (die : Option (Fin 8)) (ak : Nat) (rel : Option Scope) (l : Loc)
    (bs : List Byte) (chain : List (Nat × Nat × Scope)) : (s.write die ak rel l bs chain).mem.wf = true := by
  rw [State.mem_write]
  exact State.wf_putHome h l bs

/-- Core memory, stores and host memory change at the bytes written alone. -/
theorem State.byte_putHome_out {s : State} (h : s.mem.wf = true) {l : Loc} (hl : l.space ≠ .dev) (bs : List Byte) {a : Nat}
    (ha : a < l.at_ ∨ l.at_ + bs.length ≤ a) : (s.putHome l bs).mem.byte a = s.mem.byte a := by
  obtain ⟨sp, at_, key⟩ := l
  cases sp
  · exact Memory.byte_store_out h bs ha
  · simp at hl
  · exact Memory.byte_store_out h bs ha

/-- A read leaves memory as it was. -/
@[simp] theorem State.mem_noteRead (s : State) (die ak : Nat) (acq : Option Scope) (l : Loc) (n : Nat) :
    (s.noteRead die ak acq l n).mem = s.mem := by
  simp only [State.noteRead]
  split <;> rfl

/-- A fence leaves memory as it was. -/
@[simp] theorem State.mem_noteFence (s : State) (ak : Nat) (sc : Scope) : (s.noteFence ak sc).mem = s.mem := rfl

/-- A write that reaches a die leaves the home's memory as it was. -/
@[simp] theorem State.mem_applyAt (s : State) (d : Nat) (w : PendW) : (s.applyAt d w).mem = s.mem := rfl

end Sys2Proof.Machine
end

