-- ==== Sys2Proof/Laws/State.lean ====
section
/-! SUPPORT. What each named update of the state leaves: one lemma for each field that it does not change, so that no proof
unfolds a record update. -/

namespace Sys2Proof.Machine

/-! ## setCore: a core replaced -/

@[simp] theorem State.setCore_stations (s : State) (a : Agent) (c : Core) : (s.setCore a c).stations = s.stations := rfl
@[simp] theorem State.setCore_mem (s : State) (a : Agent) (c : Core) : (s.setCore a c).mem = s.mem := rfl
@[simp] theorem State.setCore_tags (s : State) (a : Agent) (c : Core) : (s.setCore a c).tags = s.tags := rfl
@[simp] theorem State.setCore_skeys (s : State) (a : Agent) (c : Core) : (s.setCore a c).skeys = s.skeys := rfl
@[simp] theorem State.setCore_keys (s : State) (a : Agent) (c : Core) : (s.setCore a c).keys = s.keys := rfl
@[simp] theorem State.setCore_flying (s : State) (a : Agent) (c : Core) : (s.setCore a c).flying = s.flying := rfl
@[simp] theorem State.setCore_pend (s : State) (a : Agent) (c : Core) : (s.setCore a c).pend = s.pend := rfl
@[simp] theorem State.setCore_stale (s : State) (a : Agent) (c : Core) : (s.setCore a c).stale = s.stale := rfl
@[simp] theorem State.setCore_staleTags (s : State) (a : Agent) (c : Core) : (s.setCore a c).staleTags = s.staleTags := rfl
@[simp] theorem State.setCore_nextW (s : State) (a : Agent) (c : Core) : (s.setCore a c).nextW = s.nextW := rfl
@[simp] theorem State.setCore_nextCo (s : State) (a : Agent) (c : Core) : (s.setCore a c).nextCo = s.nextCo := rfl
@[simp] theorem State.setCore_know (s : State) (a : Agent) (c : Core) : (s.setCore a c).know = s.know := rfl
@[simp] theorem State.setCore_tlb (s : State) (a : Agent) (c : Core) : (s.setCore a c).tlb = s.tlb := rfl
@[simp] theorem State.setCore_ecc (s : State) (a : Agent) (c : Core) : (s.setCore a c).ecc = s.ecc := rfl
@[simp] theorem State.setCore_recPool (s : State) (a : Agent) (c : Core) : (s.setCore a c).recPool = s.recPool := rfl
@[simp] theorem State.setCore_ctxTable (s : State) (a : Agent) (c : Core) : (s.setCore a c).ctxTable = s.ctxTable := rfl
@[simp] theorem State.setCore_configs (s : State) (a : Agent) (c : Core) : (s.setCore a c).configs = s.configs := rfl
@[simp] theorem State.setCore_launches (s : State) (a : Agent) (c : Core) : (s.setCore a c).launches = s.launches := rfl
@[simp] theorem State.setCore_wq (s : State) (a : Agent) (c : Core) : (s.setCore a c).wq = s.wq := rfl
@[simp] theorem State.setCore_wqNext (s : State) (a : Agent) (c : Core) : (s.setCore a c).wqNext = s.wqNext := rfl
@[simp] theorem State.setCore_lseq (s : State) (a : Agent) (c : Core) : (s.setCore a c).lseq = s.lseq := rfl
@[simp] theorem State.setCore_spilledRows (s : State) (a : Agent) (c : Core) : (s.setCore a c).spilledRows = s.spilledRows := rfl
@[simp] theorem State.setCore_spilledTables (s : State) (a : Agent) (c : Core) : (s.setCore a c).spilledTables = s.spilledTables := rfl
@[simp] theorem State.setCore_counters (s : State) (a : Agent) (c : Core) : (s.setCore a c).counters = s.counters := rfl
@[simp] theorem State.setCore_cmsgs (s : State) (a : Agent) (c : Core) : (s.setCore a c).cmsgs = s.cmsgs := rfl
@[simp] theorem State.setCore_engine (s : State) (a : Agent) (c : Core) : (s.setCore a c).engine = s.engine := rfl
@[simp] theorem State.setCore_spoiled (s : State) (a : Agent) (c : Core) : (s.setCore a c).spoiled = s.spoiled := rfl
@[simp] theorem State.setCore_net (s : State) (a : Agent) (c : Core) : (s.setCore a c).net = s.net := rfl
@[simp] theorem State.setCore_xnet (s : State) (a : Agent) (c : Core) : (s.setCore a c).xnet = s.xnet := rfl
@[simp] theorem State.setCore_tmsgs (s : State) (a : Agent) (c : Core) : (s.setCore a c).tmsgs = s.tmsgs := rfl
@[simp] theorem State.setCore_arcs (s : State) (a : Agent) (c : Core) : (s.setCore a c).arcs = s.arcs := rfl
@[simp] theorem State.setCore_conts (s : State) (a : Agent) (c : Core) : (s.setCore a c).conts = s.conts := rfl
@[simp] theorem State.setCore_readers (s : State) (a : Agent) (c : Core) : (s.setCore a c).readers = s.readers := rfl
@[simp] theorem State.setCore_dies (s : State) (a : Agent) (c : Core) : (s.setCore a c).dies = s.dies := rfl
@[simp] theorem State.setCore_eqs (s : State) (a : Agent) (c : Core) : (s.setCore a c).eqs = s.eqs := rfl
@[simp] theorem State.setCore_ucie (s : State) (a : Agent) (c : Core) : (s.setCore a c).ucie = s.ucie := rfl
@[simp] theorem State.setCore_peers (s : State) (a : Agent) (c : Core) : (s.setCore a c).peers = s.peers := rfl
@[simp] theorem State.setCore_hostUp (s : State) (a : Agent) (c : Core) : (s.setCore a c).hostUp = s.hostUp := rfl
@[simp] theorem State.setCore_cxlIn (s : State) (a : Agent) (c : Core) : (s.setCore a c).cxlIn = s.cxlIn := rfl
@[simp] theorem State.setCore_barIn (s : State) (a : Agent) (c : Core) : (s.setCore a c).barIn = s.barIn := rfl
@[simp] theorem State.setCore_cfgIn (s : State) (a : Agent) (c : Core) : (s.setCore a c).cfgIn = s.cfgIn := rfl
@[simp] theorem State.setCore_mgmtIn (s : State) (a : Agent) (c : Core) : (s.setCore a c).mgmtIn = s.mgmtIn := rfl
@[simp] theorem State.setCore_homeIn (s : State) (a : Agent) (c : Core) : (s.setCore a c).homeIn = s.homeIn := rfl
@[simp] theorem State.setCore_cxlKeys (s : State) (a : Agent) (c : Core) : (s.setCore a c).cxlKeys = s.cxlKeys := rfl
@[simp] theorem State.setCore_cxlAnswer (s : State) (a : Agent) (c : Core) : (s.setCore a c).cxlAnswer = s.cxlAnswer := rfl
@[simp] theorem State.setCore_cfgAnswer (s : State) (a : Agent) (c : Core) : (s.setCore a c).cfgAnswer = s.cfgAnswer := rfl
@[simp] theorem State.setCore_barAnswer (s : State) (a : Agent) (c : Core) : (s.setCore a c).barAnswer = s.barAnswer := rfl
@[simp] theorem State.setCore_homeAnswer (s : State) (a : Agent) (c : Core) : (s.setCore a c).homeAnswer = s.homeAnswer := rfl
@[simp] theorem State.setCore_msix (s : State) (a : Agent) (c : Core) : (s.setCore a c).msix = s.msix := rfl
@[simp] theorem State.setCore_mctp (s : State) (a : Agent) (c : Core) : (s.setCore a c).mctp = s.mctp := rfl
@[simp] theorem State.setCore_evict (s : State) (a : Agent) (c : Core) : (s.setCore a c).evict = s.evict := rfl
@[simp] theorem State.setCore_evictPort (s : State) (a : Agent) (c : Core) : (s.setCore a c).evictPort = s.evictPort := rfl
@[simp] theorem State.setCore_evictAt (s : State) (a : Agent) (c : Core) : (s.setCore a c).evictAt = s.evictAt := rfl
@[simp] theorem State.setCore_evictRanges (s : State) (a : Agent) (c : Core) : (s.setCore a c).evictRanges = s.evictRanges := rfl
@[simp] theorem State.setCore_evictSent (s : State) (a : Agent) (c : Core) : (s.setCore a c).evictSent = s.evictSent := rfl
@[simp] theorem State.setCore_frozen (s : State) (a : Agent) (c : Core) : (s.setCore a c).frozen = s.frozen := rfl
@[simp] theorem State.setCore_unlatched (s : State) (a : Agent) (c : Core) : (s.setCore a c).unlatched = s.unlatched := rfl
@[simp] theorem State.setCore_level (s : State) (a : Agent) (c : Core) : (s.setCore a c).level = s.level := rfl
@[simp] theorem State.setCore_levelAt (s : State) (a : Agent) (c : Core) : (s.setCore a c).levelAt = s.levelAt := rfl
@[simp] theorem State.setCore_hotAt (s : State) (a : Agent) (c : Core) : (s.setCore a c).hotAt = s.hotAt := rfl
@[simp] theorem State.setCore_coolAt (s : State) (a : Agent) (c : Core) : (s.setCore a c).coolAt = s.coolAt := rfl
@[simp] theorem State.setCore_inlet (s : State) (a : Agent) (c : Core) : (s.setCore a c).inlet = s.inlet := rfl
@[simp] theorem State.setCore_outlet (s : State) (a : Agent) (c : Core) : (s.setCore a c).outlet = s.outlet := rfl
@[simp] theorem State.setCore_power (s : State) (a : Agent) (c : Core) : (s.setCore a c).power = s.power := rfl
@[simp] theorem State.setCore_images (s : State) (a : Agent) (c : Core) : (s.setCore a c).images = s.images := rfl
@[simp] theorem State.setCore_measured (s : State) (a : Agent) (c : Core) : (s.setCore a c).measured = s.measured := rfl
@[simp] theorem State.setCore_started (s : State) (a : Agent) (c : Core) : (s.setCore a c).started = s.started := rfl
@[simp] theorem State.setCore_identity (s : State) (a : Agent) (c : Core) : (s.setCore a c).identity = s.identity := rfl
@[simp] theorem State.setCore_service (s : State) (a : Agent) (c : Core) : (s.setCore a c).service = s.service := rfl
@[simp] theorem State.setCore_doe (s : State) (a : Agent) (c : Core) : (s.setCore a c).doe = s.doe := rfl
@[simp] theorem State.setCore_cur (s : State) (a : Agent) (c : Core) : (s.setCore a c).cur = s.cur := rfl
@[simp] theorem State.setCore_curStn (s : State) (a : Agent) (c : Core) : (s.setCore a c).curStn = s.curStn := rfl
@[simp] theorem State.setCore_limm (s : State) (a : Agent) (c : Core) : (s.setCore a c).limm = s.limm := rfl
@[simp] theorem State.setCore_late (s : State) (a : Agent) (c : Core) : (s.setCore a c).late = s.late := rfl
@[simp] theorem State.setCore_cut (s : State) (a : Agent) (c : Core) : (s.setCore a c).cut = s.cut := rfl
@[simp] theorem State.setCore_agenda (s : State) (a : Agent) (c : Core) : (s.setCore a c).agenda = s.agenda := rfl
@[simp] theorem State.setCore_steps (s : State) (a : Agent) (c : Core) : (s.setCore a c).steps = s.steps := rfl
@[simp] theorem State.setCore_now (s : State) (a : Agent) (c : Core) : (s.setCore a c).now = s.now := rfl
@[simp] theorem State.setCore_resetAt (s : State) (a : Agent) (c : Core) : (s.setCore a c).resetAt = s.resetAt := rfl
@[simp] theorem State.setCore_fresh (s : State) (a : Agent) (c : Core) : (s.setCore a c).fresh = s.fresh := rfl
@[simp] theorem State.setCore_nextId (s : State) (a : Agent) (c : Core) : (s.setCore a c).nextId = s.nextId := rfl

/-! ## setMe: the issuing core replaced -/

@[simp] theorem State.setMe_stations (s : State) (c : Core) : (s.setMe c).stations = s.stations := rfl
@[simp] theorem State.setMe_mem (s : State) (c : Core) : (s.setMe c).mem = s.mem := rfl
@[simp] theorem State.setMe_tags (s : State) (c : Core) : (s.setMe c).tags = s.tags := rfl
@[simp] theorem State.setMe_skeys (s : State) (c : Core) : (s.setMe c).skeys = s.skeys := rfl
@[simp] theorem State.setMe_keys (s : State) (c : Core) : (s.setMe c).keys = s.keys := rfl
@[simp] theorem State.setMe_flying (s : State) (c : Core) : (s.setMe c).flying = s.flying := rfl
@[simp] theorem State.setMe_pend (s : State) (c : Core) : (s.setMe c).pend = s.pend := rfl
@[simp] theorem State.setMe_stale (s : State) (c : Core) : (s.setMe c).stale = s.stale := rfl
@[simp] theorem State.setMe_staleTags (s : State) (c : Core) : (s.setMe c).staleTags = s.staleTags := rfl
@[simp] theorem State.setMe_nextW (s : State) (c : Core) : (s.setMe c).nextW = s.nextW := rfl
@[simp] theorem State.setMe_nextCo (s : State) (c : Core) : (s.setMe c).nextCo = s.nextCo := rfl
@[simp] theorem State.setMe_know (s : State) (c : Core) : (s.setMe c).know = s.know := rfl
@[simp] theorem State.setMe_tlb (s : State) (c : Core) : (s.setMe c).tlb = s.tlb := rfl
@[simp] theorem State.setMe_ecc (s : State) (c : Core) : (s.setMe c).ecc = s.ecc := rfl
@[simp] theorem State.setMe_recPool (s : State) (c : Core) : (s.setMe c).recPool = s.recPool := rfl
@[simp] theorem State.setMe_ctxTable (s : State) (c : Core) : (s.setMe c).ctxTable = s.ctxTable := rfl
@[simp] theorem State.setMe_configs (s : State) (c : Core) : (s.setMe c).configs = s.configs := rfl
@[simp] theorem State.setMe_launches (s : State) (c : Core) : (s.setMe c).launches = s.launches := rfl
@[simp] theorem State.setMe_wq (s : State) (c : Core) : (s.setMe c).wq = s.wq := rfl
@[simp] theorem State.setMe_wqNext (s : State) (c : Core) : (s.setMe c).wqNext = s.wqNext := rfl
@[simp] theorem State.setMe_lseq (s : State) (c : Core) : (s.setMe c).lseq = s.lseq := rfl
@[simp] theorem State.setMe_spilledRows (s : State) (c : Core) : (s.setMe c).spilledRows = s.spilledRows := rfl
@[simp] theorem State.setMe_spilledTables (s : State) (c : Core) : (s.setMe c).spilledTables = s.spilledTables := rfl
@[simp] theorem State.setMe_counters (s : State) (c : Core) : (s.setMe c).counters = s.counters := rfl
@[simp] theorem State.setMe_cmsgs (s : State) (c : Core) : (s.setMe c).cmsgs = s.cmsgs := rfl
@[simp] theorem State.setMe_engine (s : State) (c : Core) : (s.setMe c).engine = s.engine := rfl
@[simp] theorem State.setMe_spoiled (s : State) (c : Core) : (s.setMe c).spoiled = s.spoiled := rfl
@[simp] theorem State.setMe_net (s : State) (c : Core) : (s.setMe c).net = s.net := rfl
@[simp] theorem State.setMe_xnet (s : State) (c : Core) : (s.setMe c).xnet = s.xnet := rfl
@[simp] theorem State.setMe_tmsgs (s : State) (c : Core) : (s.setMe c).tmsgs = s.tmsgs := rfl
@[simp] theorem State.setMe_arcs (s : State) (c : Core) : (s.setMe c).arcs = s.arcs := rfl
@[simp] theorem State.setMe_conts (s : State) (c : Core) : (s.setMe c).conts = s.conts := rfl
@[simp] theorem State.setMe_readers (s : State) (c : Core) : (s.setMe c).readers = s.readers := rfl
@[simp] theorem State.setMe_dies (s : State) (c : Core) : (s.setMe c).dies = s.dies := rfl
@[simp] theorem State.setMe_eqs (s : State) (c : Core) : (s.setMe c).eqs = s.eqs := rfl
@[simp] theorem State.setMe_ucie (s : State) (c : Core) : (s.setMe c).ucie = s.ucie := rfl
@[simp] theorem State.setMe_peers (s : State) (c : Core) : (s.setMe c).peers = s.peers := rfl
@[simp] theorem State.setMe_hostUp (s : State) (c : Core) : (s.setMe c).hostUp = s.hostUp := rfl
@[simp] theorem State.setMe_cxlIn (s : State) (c : Core) : (s.setMe c).cxlIn = s.cxlIn := rfl
@[simp] theorem State.setMe_barIn (s : State) (c : Core) : (s.setMe c).barIn = s.barIn := rfl
@[simp] theorem State.setMe_cfgIn (s : State) (c : Core) : (s.setMe c).cfgIn = s.cfgIn := rfl
@[simp] theorem State.setMe_mgmtIn (s : State) (c : Core) : (s.setMe c).mgmtIn = s.mgmtIn := rfl
@[simp] theorem State.setMe_homeIn (s : State) (c : Core) : (s.setMe c).homeIn = s.homeIn := rfl
@[simp] theorem State.setMe_cxlKeys (s : State) (c : Core) : (s.setMe c).cxlKeys = s.cxlKeys := rfl
@[simp] theorem State.setMe_cxlAnswer (s : State) (c : Core) : (s.setMe c).cxlAnswer = s.cxlAnswer := rfl
@[simp] theorem State.setMe_cfgAnswer (s : State) (c : Core) : (s.setMe c).cfgAnswer = s.cfgAnswer := rfl
@[simp] theorem State.setMe_barAnswer (s : State) (c : Core) : (s.setMe c).barAnswer = s.barAnswer := rfl
@[simp] theorem State.setMe_homeAnswer (s : State) (c : Core) : (s.setMe c).homeAnswer = s.homeAnswer := rfl
@[simp] theorem State.setMe_msix (s : State) (c : Core) : (s.setMe c).msix = s.msix := rfl
@[simp] theorem State.setMe_mctp (s : State) (c : Core) : (s.setMe c).mctp = s.mctp := rfl
@[simp] theorem State.setMe_evict (s : State) (c : Core) : (s.setMe c).evict = s.evict := rfl
@[simp] theorem State.setMe_evictPort (s : State) (c : Core) : (s.setMe c).evictPort = s.evictPort := rfl
@[simp] theorem State.setMe_evictAt (s : State) (c : Core) : (s.setMe c).evictAt = s.evictAt := rfl
@[simp] theorem State.setMe_evictRanges (s : State) (c : Core) : (s.setMe c).evictRanges = s.evictRanges := rfl
@[simp] theorem State.setMe_evictSent (s : State) (c : Core) : (s.setMe c).evictSent = s.evictSent := rfl
@[simp] theorem State.setMe_frozen (s : State) (c : Core) : (s.setMe c).frozen = s.frozen := rfl
@[simp] theorem State.setMe_unlatched (s : State) (c : Core) : (s.setMe c).unlatched = s.unlatched := rfl
@[simp] theorem State.setMe_level (s : State) (c : Core) : (s.setMe c).level = s.level := rfl
@[simp] theorem State.setMe_levelAt (s : State) (c : Core) : (s.setMe c).levelAt = s.levelAt := rfl
@[simp] theorem State.setMe_hotAt (s : State) (c : Core) : (s.setMe c).hotAt = s.hotAt := rfl
@[simp] theorem State.setMe_coolAt (s : State) (c : Core) : (s.setMe c).coolAt = s.coolAt := rfl
@[simp] theorem State.setMe_inlet (s : State) (c : Core) : (s.setMe c).inlet = s.inlet := rfl
@[simp] theorem State.setMe_outlet (s : State) (c : Core) : (s.setMe c).outlet = s.outlet := rfl
@[simp] theorem State.setMe_power (s : State) (c : Core) : (s.setMe c).power = s.power := rfl
@[simp] theorem State.setMe_images (s : State) (c : Core) : (s.setMe c).images = s.images := rfl
@[simp] theorem State.setMe_measured (s : State) (c : Core) : (s.setMe c).measured = s.measured := rfl
@[simp] theorem State.setMe_started (s : State) (c : Core) : (s.setMe c).started = s.started := rfl
@[simp] theorem State.setMe_identity (s : State) (c : Core) : (s.setMe c).identity = s.identity := rfl
@[simp] theorem State.setMe_service (s : State) (c : Core) : (s.setMe c).service = s.service := rfl
@[simp] theorem State.setMe_doe (s : State) (c : Core) : (s.setMe c).doe = s.doe := rfl
@[simp] theorem State.setMe_cur (s : State) (c : Core) : (s.setMe c).cur = s.cur := rfl
@[simp] theorem State.setMe_curStn (s : State) (c : Core) : (s.setMe c).curStn = s.curStn := rfl
@[simp] theorem State.setMe_limm (s : State) (c : Core) : (s.setMe c).limm = s.limm := rfl
@[simp] theorem State.setMe_late (s : State) (c : Core) : (s.setMe c).late = s.late := rfl
@[simp] theorem State.setMe_cut (s : State) (c : Core) : (s.setMe c).cut = s.cut := rfl
@[simp] theorem State.setMe_agenda (s : State) (c : Core) : (s.setMe c).agenda = s.agenda := rfl
@[simp] theorem State.setMe_steps (s : State) (c : Core) : (s.setMe c).steps = s.steps := rfl
@[simp] theorem State.setMe_now (s : State) (c : Core) : (s.setMe c).now = s.now := rfl
@[simp] theorem State.setMe_resetAt (s : State) (c : Core) : (s.setMe c).resetAt = s.resetAt := rfl
@[simp] theorem State.setMe_fresh (s : State) (c : Core) : (s.setMe c).fresh = s.fresh := rfl
@[simp] theorem State.setMe_nextId (s : State) (c : Core) : (s.setMe c).nextId = s.nextId := rfl

/-! ## setStn: a station replaced -/

@[simp] theorem State.setStn_cores (s : State) (n : Nat) (x : Station) : (s.setStn n x).cores = s.cores := rfl
@[simp] theorem State.setStn_mem (s : State) (n : Nat) (x : Station) : (s.setStn n x).mem = s.mem := rfl
@[simp] theorem State.setStn_tags (s : State) (n : Nat) (x : Station) : (s.setStn n x).tags = s.tags := rfl
@[simp] theorem State.setStn_skeys (s : State) (n : Nat) (x : Station) : (s.setStn n x).skeys = s.skeys := rfl
@[simp] theorem State.setStn_keys (s : State) (n : Nat) (x : Station) : (s.setStn n x).keys = s.keys := rfl
@[simp] theorem State.setStn_flying (s : State) (n : Nat) (x : Station) : (s.setStn n x).flying = s.flying := rfl
@[simp] theorem State.setStn_pend (s : State) (n : Nat) (x : Station) : (s.setStn n x).pend = s.pend := rfl
@[simp] theorem State.setStn_stale (s : State) (n : Nat) (x : Station) : (s.setStn n x).stale = s.stale := rfl
@[simp] theorem State.setStn_staleTags (s : State) (n : Nat) (x : Station) : (s.setStn n x).staleTags = s.staleTags := rfl
@[simp] theorem State.setStn_nextW (s : State) (n : Nat) (x : Station) : (s.setStn n x).nextW = s.nextW := rfl
@[simp] theorem State.setStn_nextCo (s : State) (n : Nat) (x : Station) : (s.setStn n x).nextCo = s.nextCo := rfl
@[simp] theorem State.setStn_know (s : State) (n : Nat) (x : Station) : (s.setStn n x).know = s.know := rfl
@[simp] theorem State.setStn_tlb (s : State) (n : Nat) (x : Station) : (s.setStn n x).tlb = s.tlb := rfl
@[simp] theorem State.setStn_ecc (s : State) (n : Nat) (x : Station) : (s.setStn n x).ecc = s.ecc := rfl
@[simp] theorem State.setStn_recPool (s : State) (n : Nat) (x : Station) : (s.setStn n x).recPool = s.recPool := rfl
@[simp] theorem State.setStn_ctxTable (s : State) (n : Nat) (x : Station) : (s.setStn n x).ctxTable = s.ctxTable := rfl
@[simp] theorem State.setStn_configs (s : State) (n : Nat) (x : Station) : (s.setStn n x).configs = s.configs := rfl
@[simp] theorem State.setStn_launches (s : State) (n : Nat) (x : Station) : (s.setStn n x).launches = s.launches := rfl
@[simp] theorem State.setStn_wq (s : State) (n : Nat) (x : Station) : (s.setStn n x).wq = s.wq := rfl
@[simp] theorem State.setStn_wqNext (s : State) (n : Nat) (x : Station) : (s.setStn n x).wqNext = s.wqNext := rfl
@[simp] theorem State.setStn_lseq (s : State) (n : Nat) (x : Station) : (s.setStn n x).lseq = s.lseq := rfl
@[simp] theorem State.setStn_spilledRows (s : State) (n : Nat) (x : Station) : (s.setStn n x).spilledRows = s.spilledRows := rfl
@[simp] theorem State.setStn_spilledTables (s : State) (n : Nat) (x : Station) : (s.setStn n x).spilledTables = s.spilledTables := rfl
@[simp] theorem State.setStn_counters (s : State) (n : Nat) (x : Station) : (s.setStn n x).counters = s.counters := rfl
@[simp] theorem State.setStn_cmsgs (s : State) (n : Nat) (x : Station) : (s.setStn n x).cmsgs = s.cmsgs := rfl
@[simp] theorem State.setStn_engine (s : State) (n : Nat) (x : Station) : (s.setStn n x).engine = s.engine := rfl
@[simp] theorem State.setStn_spoiled (s : State) (n : Nat) (x : Station) : (s.setStn n x).spoiled = s.spoiled := rfl
@[simp] theorem State.setStn_net (s : State) (n : Nat) (x : Station) : (s.setStn n x).net = s.net := rfl
@[simp] theorem State.setStn_xnet (s : State) (n : Nat) (x : Station) : (s.setStn n x).xnet = s.xnet := rfl
@[simp] theorem State.setStn_tmsgs (s : State) (n : Nat) (x : Station) : (s.setStn n x).tmsgs = s.tmsgs := rfl
@[simp] theorem State.setStn_arcs (s : State) (n : Nat) (x : Station) : (s.setStn n x).arcs = s.arcs := rfl
@[simp] theorem State.setStn_conts (s : State) (n : Nat) (x : Station) : (s.setStn n x).conts = s.conts := rfl
@[simp] theorem State.setStn_readers (s : State) (n : Nat) (x : Station) : (s.setStn n x).readers = s.readers := rfl
@[simp] theorem State.setStn_dies (s : State) (n : Nat) (x : Station) : (s.setStn n x).dies = s.dies := rfl
@[simp] theorem State.setStn_eqs (s : State) (n : Nat) (x : Station) : (s.setStn n x).eqs = s.eqs := rfl
@[simp] theorem State.setStn_ucie (s : State) (n : Nat) (x : Station) : (s.setStn n x).ucie = s.ucie := rfl
@[simp] theorem State.setStn_peers (s : State) (n : Nat) (x : Station) : (s.setStn n x).peers = s.peers := rfl
@[simp] theorem State.setStn_hostUp (s : State) (n : Nat) (x : Station) : (s.setStn n x).hostUp = s.hostUp := rfl
@[simp] theorem State.setStn_cxlIn (s : State) (n : Nat) (x : Station) : (s.setStn n x).cxlIn = s.cxlIn := rfl
@[simp] theorem State.setStn_barIn (s : State) (n : Nat) (x : Station) : (s.setStn n x).barIn = s.barIn := rfl
@[simp] theorem State.setStn_cfgIn (s : State) (n : Nat) (x : Station) : (s.setStn n x).cfgIn = s.cfgIn := rfl
@[simp] theorem State.setStn_mgmtIn (s : State) (n : Nat) (x : Station) : (s.setStn n x).mgmtIn = s.mgmtIn := rfl
@[simp] theorem State.setStn_homeIn (s : State) (n : Nat) (x : Station) : (s.setStn n x).homeIn = s.homeIn := rfl
@[simp] theorem State.setStn_cxlKeys (s : State) (n : Nat) (x : Station) : (s.setStn n x).cxlKeys = s.cxlKeys := rfl
@[simp] theorem State.setStn_cxlAnswer (s : State) (n : Nat) (x : Station) : (s.setStn n x).cxlAnswer = s.cxlAnswer := rfl
@[simp] theorem State.setStn_cfgAnswer (s : State) (n : Nat) (x : Station) : (s.setStn n x).cfgAnswer = s.cfgAnswer := rfl
@[simp] theorem State.setStn_barAnswer (s : State) (n : Nat) (x : Station) : (s.setStn n x).barAnswer = s.barAnswer := rfl
@[simp] theorem State.setStn_homeAnswer (s : State) (n : Nat) (x : Station) : (s.setStn n x).homeAnswer = s.homeAnswer := rfl
@[simp] theorem State.setStn_msix (s : State) (n : Nat) (x : Station) : (s.setStn n x).msix = s.msix := rfl
@[simp] theorem State.setStn_mctp (s : State) (n : Nat) (x : Station) : (s.setStn n x).mctp = s.mctp := rfl
@[simp] theorem State.setStn_evict (s : State) (n : Nat) (x : Station) : (s.setStn n x).evict = s.evict := rfl
@[simp] theorem State.setStn_evictPort (s : State) (n : Nat) (x : Station) : (s.setStn n x).evictPort = s.evictPort := rfl
@[simp] theorem State.setStn_evictAt (s : State) (n : Nat) (x : Station) : (s.setStn n x).evictAt = s.evictAt := rfl
@[simp] theorem State.setStn_evictRanges (s : State) (n : Nat) (x : Station) : (s.setStn n x).evictRanges = s.evictRanges := rfl
@[simp] theorem State.setStn_evictSent (s : State) (n : Nat) (x : Station) : (s.setStn n x).evictSent = s.evictSent := rfl
@[simp] theorem State.setStn_frozen (s : State) (n : Nat) (x : Station) : (s.setStn n x).frozen = s.frozen := rfl
@[simp] theorem State.setStn_unlatched (s : State) (n : Nat) (x : Station) : (s.setStn n x).unlatched = s.unlatched := rfl
@[simp] theorem State.setStn_level (s : State) (n : Nat) (x : Station) : (s.setStn n x).level = s.level := rfl
@[simp] theorem State.setStn_levelAt (s : State) (n : Nat) (x : Station) : (s.setStn n x).levelAt = s.levelAt := rfl
@[simp] theorem State.setStn_hotAt (s : State) (n : Nat) (x : Station) : (s.setStn n x).hotAt = s.hotAt := rfl
@[simp] theorem State.setStn_coolAt (s : State) (n : Nat) (x : Station) : (s.setStn n x).coolAt = s.coolAt := rfl
@[simp] theorem State.setStn_inlet (s : State) (n : Nat) (x : Station) : (s.setStn n x).inlet = s.inlet := rfl
@[simp] theorem State.setStn_outlet (s : State) (n : Nat) (x : Station) : (s.setStn n x).outlet = s.outlet := rfl
@[simp] theorem State.setStn_power (s : State) (n : Nat) (x : Station) : (s.setStn n x).power = s.power := rfl
@[simp] theorem State.setStn_images (s : State) (n : Nat) (x : Station) : (s.setStn n x).images = s.images := rfl
@[simp] theorem State.setStn_measured (s : State) (n : Nat) (x : Station) : (s.setStn n x).measured = s.measured := rfl
@[simp] theorem State.setStn_started (s : State) (n : Nat) (x : Station) : (s.setStn n x).started = s.started := rfl
@[simp] theorem State.setStn_identity (s : State) (n : Nat) (x : Station) : (s.setStn n x).identity = s.identity := rfl
@[simp] theorem State.setStn_service (s : State) (n : Nat) (x : Station) : (s.setStn n x).service = s.service := rfl
@[simp] theorem State.setStn_doe (s : State) (n : Nat) (x : Station) : (s.setStn n x).doe = s.doe := rfl
@[simp] theorem State.setStn_cur (s : State) (n : Nat) (x : Station) : (s.setStn n x).cur = s.cur := rfl
@[simp] theorem State.setStn_curStn (s : State) (n : Nat) (x : Station) : (s.setStn n x).curStn = s.curStn := rfl
@[simp] theorem State.setStn_limm (s : State) (n : Nat) (x : Station) : (s.setStn n x).limm = s.limm := rfl
@[simp] theorem State.setStn_late (s : State) (n : Nat) (x : Station) : (s.setStn n x).late = s.late := rfl
@[simp] theorem State.setStn_cut (s : State) (n : Nat) (x : Station) : (s.setStn n x).cut = s.cut := rfl
@[simp] theorem State.setStn_agenda (s : State) (n : Nat) (x : Station) : (s.setStn n x).agenda = s.agenda := rfl
@[simp] theorem State.setStn_steps (s : State) (n : Nat) (x : Station) : (s.setStn n x).steps = s.steps := rfl
@[simp] theorem State.setStn_now (s : State) (n : Nat) (x : Station) : (s.setStn n x).now = s.now := rfl
@[simp] theorem State.setStn_resetAt (s : State) (n : Nat) (x : Station) : (s.setStn n x).resetAt = s.resetAt := rfl
@[simp] theorem State.setStn_fresh (s : State) (n : Nat) (x : Station) : (s.setStn n x).fresh = s.fresh := rfl
@[simp] theorem State.setStn_nextId (s : State) (n : Nat) (x : Station) : (s.setStn n x).nextId = s.nextId := rfl

/-! ## setDie: a die's units replaced -/

@[simp] theorem State.setDie_cores (s : State) (d : Fin 8) (x : Die) : (s.setDie d x).cores = s.cores := rfl
@[simp] theorem State.setDie_stations (s : State) (d : Fin 8) (x : Die) : (s.setDie d x).stations = s.stations := rfl
@[simp] theorem State.setDie_mem (s : State) (d : Fin 8) (x : Die) : (s.setDie d x).mem = s.mem := rfl
@[simp] theorem State.setDie_tags (s : State) (d : Fin 8) (x : Die) : (s.setDie d x).tags = s.tags := rfl
@[simp] theorem State.setDie_skeys (s : State) (d : Fin 8) (x : Die) : (s.setDie d x).skeys = s.skeys := rfl
@[simp] theorem State.setDie_keys (s : State) (d : Fin 8) (x : Die) : (s.setDie d x).keys = s.keys := rfl
@[simp] theorem State.setDie_flying (s : State) (d : Fin 8) (x : Die) : (s.setDie d x).flying = s.flying := rfl
@[simp] theorem State.setDie_pend (s : State) (d : Fin 8) (x : Die) : (s.setDie d x).pend = s.pend := rfl
@[simp] theorem State.setDie_stale (s : State) (d : Fin 8) (x : Die) : (s.setDie d x).stale = s.stale := rfl
@[simp] theorem State.setDie_staleTags (s : State) (d : Fin 8) (x : Die) : (s.setDie d x).staleTags = s.staleTags := rfl
@[simp] theorem State.setDie_nextW (s : State) (d : Fin 8) (x : Die) : (s.setDie d x).nextW = s.nextW := rfl
@[simp] theorem State.setDie_nextCo (s : State) (d : Fin 8) (x : Die) : (s.setDie d x).nextCo = s.nextCo := rfl
@[simp] theorem State.setDie_know (s : State) (d : Fin 8) (x : Die) : (s.setDie d x).know = s.know := rfl
@[simp] theorem State.setDie_tlb (s : State) (d : Fin 8) (x : Die) : (s.setDie d x).tlb = s.tlb := rfl
@[simp] theorem State.setDie_ecc (s : State) (d : Fin 8) (x : Die) : (s.setDie d x).ecc = s.ecc := rfl
@[simp] theorem State.setDie_recPool (s : State) (d : Fin 8) (x : Die) : (s.setDie d x).recPool = s.recPool := rfl
@[simp] theorem State.setDie_ctxTable (s : State) (d : Fin 8) (x : Die) : (s.setDie d x).ctxTable = s.ctxTable := rfl
@[simp] theorem State.setDie_configs (s : State) (d : Fin 8) (x : Die) : (s.setDie d x).configs = s.configs := rfl
@[simp] theorem State.setDie_launches (s : State) (d : Fin 8) (x : Die) : (s.setDie d x).launches = s.launches := rfl
@[simp] theorem State.setDie_wq (s : State) (d : Fin 8) (x : Die) : (s.setDie d x).wq = s.wq := rfl
@[simp] theorem State.setDie_wqNext (s : State) (d : Fin 8) (x : Die) : (s.setDie d x).wqNext = s.wqNext := rfl
@[simp] theorem State.setDie_lseq (s : State) (d : Fin 8) (x : Die) : (s.setDie d x).lseq = s.lseq := rfl
@[simp] theorem State.setDie_spilledRows (s : State) (d : Fin 8) (x : Die) : (s.setDie d x).spilledRows = s.spilledRows := rfl
@[simp] theorem State.setDie_spilledTables (s : State) (d : Fin 8) (x : Die) : (s.setDie d x).spilledTables = s.spilledTables := rfl
@[simp] theorem State.setDie_counters (s : State) (d : Fin 8) (x : Die) : (s.setDie d x).counters = s.counters := rfl
@[simp] theorem State.setDie_cmsgs (s : State) (d : Fin 8) (x : Die) : (s.setDie d x).cmsgs = s.cmsgs := rfl
@[simp] theorem State.setDie_engine (s : State) (d : Fin 8) (x : Die) : (s.setDie d x).engine = s.engine := rfl
@[simp] theorem State.setDie_spoiled (s : State) (d : Fin 8) (x : Die) : (s.setDie d x).spoiled = s.spoiled := rfl
@[simp] theorem State.setDie_net (s : State) (d : Fin 8) (x : Die) : (s.setDie d x).net = s.net := rfl
@[simp] theorem State.setDie_xnet (s : State) (d : Fin 8) (x : Die) : (s.setDie d x).xnet = s.xnet := rfl
@[simp] theorem State.setDie_tmsgs (s : State) (d : Fin 8) (x : Die) : (s.setDie d x).tmsgs = s.tmsgs := rfl
@[simp] theorem State.setDie_arcs (s : State) (d : Fin 8) (x : Die) : (s.setDie d x).arcs = s.arcs := rfl
@[simp] theorem State.setDie_conts (s : State) (d : Fin 8) (x : Die) : (s.setDie d x).conts = s.conts := rfl
@[simp] theorem State.setDie_readers (s : State) (d : Fin 8) (x : Die) : (s.setDie d x).readers = s.readers := rfl
@[simp] theorem State.setDie_eqs (s : State) (d : Fin 8) (x : Die) : (s.setDie d x).eqs = s.eqs := rfl
@[simp] theorem State.setDie_ucie (s : State) (d : Fin 8) (x : Die) : (s.setDie d x).ucie = s.ucie := rfl
@[simp] theorem State.setDie_peers (s : State) (d : Fin 8) (x : Die) : (s.setDie d x).peers = s.peers := rfl
@[simp] theorem State.setDie_hostUp (s : State) (d : Fin 8) (x : Die) : (s.setDie d x).hostUp = s.hostUp := rfl
@[simp] theorem State.setDie_cxlIn (s : State) (d : Fin 8) (x : Die) : (s.setDie d x).cxlIn = s.cxlIn := rfl
@[simp] theorem State.setDie_barIn (s : State) (d : Fin 8) (x : Die) : (s.setDie d x).barIn = s.barIn := rfl
@[simp] theorem State.setDie_cfgIn (s : State) (d : Fin 8) (x : Die) : (s.setDie d x).cfgIn = s.cfgIn := rfl
@[simp] theorem State.setDie_mgmtIn (s : State) (d : Fin 8) (x : Die) : (s.setDie d x).mgmtIn = s.mgmtIn := rfl
@[simp] theorem State.setDie_homeIn (s : State) (d : Fin 8) (x : Die) : (s.setDie d x).homeIn = s.homeIn := rfl
@[simp] theorem State.setDie_cxlKeys (s : State) (d : Fin 8) (x : Die) : (s.setDie d x).cxlKeys = s.cxlKeys := rfl
@[simp] theorem State.setDie_cxlAnswer (s : State) (d : Fin 8) (x : Die) : (s.setDie d x).cxlAnswer = s.cxlAnswer := rfl
@[simp] theorem State.setDie_cfgAnswer (s : State) (d : Fin 8) (x : Die) : (s.setDie d x).cfgAnswer = s.cfgAnswer := rfl
@[simp] theorem State.setDie_barAnswer (s : State) (d : Fin 8) (x : Die) : (s.setDie d x).barAnswer = s.barAnswer := rfl
@[simp] theorem State.setDie_homeAnswer (s : State) (d : Fin 8) (x : Die) : (s.setDie d x).homeAnswer = s.homeAnswer := rfl
@[simp] theorem State.setDie_msix (s : State) (d : Fin 8) (x : Die) : (s.setDie d x).msix = s.msix := rfl
@[simp] theorem State.setDie_mctp (s : State) (d : Fin 8) (x : Die) : (s.setDie d x).mctp = s.mctp := rfl
@[simp] theorem State.setDie_evict (s : State) (d : Fin 8) (x : Die) : (s.setDie d x).evict = s.evict := rfl
@[simp] theorem State.setDie_evictPort (s : State) (d : Fin 8) (x : Die) : (s.setDie d x).evictPort = s.evictPort := rfl
@[simp] theorem State.setDie_evictAt (s : State) (d : Fin 8) (x : Die) : (s.setDie d x).evictAt = s.evictAt := rfl
@[simp] theorem State.setDie_evictRanges (s : State) (d : Fin 8) (x : Die) : (s.setDie d x).evictRanges = s.evictRanges := rfl
@[simp] theorem State.setDie_evictSent (s : State) (d : Fin 8) (x : Die) : (s.setDie d x).evictSent = s.evictSent := rfl
@[simp] theorem State.setDie_frozen (s : State) (d : Fin 8) (x : Die) : (s.setDie d x).frozen = s.frozen := rfl
@[simp] theorem State.setDie_unlatched (s : State) (d : Fin 8) (x : Die) : (s.setDie d x).unlatched = s.unlatched := rfl
@[simp] theorem State.setDie_level (s : State) (d : Fin 8) (x : Die) : (s.setDie d x).level = s.level := rfl
@[simp] theorem State.setDie_levelAt (s : State) (d : Fin 8) (x : Die) : (s.setDie d x).levelAt = s.levelAt := rfl
@[simp] theorem State.setDie_hotAt (s : State) (d : Fin 8) (x : Die) : (s.setDie d x).hotAt = s.hotAt := rfl
@[simp] theorem State.setDie_coolAt (s : State) (d : Fin 8) (x : Die) : (s.setDie d x).coolAt = s.coolAt := rfl
@[simp] theorem State.setDie_inlet (s : State) (d : Fin 8) (x : Die) : (s.setDie d x).inlet = s.inlet := rfl
@[simp] theorem State.setDie_outlet (s : State) (d : Fin 8) (x : Die) : (s.setDie d x).outlet = s.outlet := rfl
@[simp] theorem State.setDie_power (s : State) (d : Fin 8) (x : Die) : (s.setDie d x).power = s.power := rfl
@[simp] theorem State.setDie_images (s : State) (d : Fin 8) (x : Die) : (s.setDie d x).images = s.images := rfl
@[simp] theorem State.setDie_measured (s : State) (d : Fin 8) (x : Die) : (s.setDie d x).measured = s.measured := rfl
@[simp] theorem State.setDie_started (s : State) (d : Fin 8) (x : Die) : (s.setDie d x).started = s.started := rfl
@[simp] theorem State.setDie_identity (s : State) (d : Fin 8) (x : Die) : (s.setDie d x).identity = s.identity := rfl
@[simp] theorem State.setDie_service (s : State) (d : Fin 8) (x : Die) : (s.setDie d x).service = s.service := rfl
@[simp] theorem State.setDie_doe (s : State) (d : Fin 8) (x : Die) : (s.setDie d x).doe = s.doe := rfl
@[simp] theorem State.setDie_cur (s : State) (d : Fin 8) (x : Die) : (s.setDie d x).cur = s.cur := rfl
@[simp] theorem State.setDie_curStn (s : State) (d : Fin 8) (x : Die) : (s.setDie d x).curStn = s.curStn := rfl
@[simp] theorem State.setDie_limm (s : State) (d : Fin 8) (x : Die) : (s.setDie d x).limm = s.limm := rfl
@[simp] theorem State.setDie_late (s : State) (d : Fin 8) (x : Die) : (s.setDie d x).late = s.late := rfl
@[simp] theorem State.setDie_cut (s : State) (d : Fin 8) (x : Die) : (s.setDie d x).cut = s.cut := rfl
@[simp] theorem State.setDie_agenda (s : State) (d : Fin 8) (x : Die) : (s.setDie d x).agenda = s.agenda := rfl
@[simp] theorem State.setDie_steps (s : State) (d : Fin 8) (x : Die) : (s.setDie d x).steps = s.steps := rfl
@[simp] theorem State.setDie_now (s : State) (d : Fin 8) (x : Die) : (s.setDie d x).now = s.now := rfl
@[simp] theorem State.setDie_resetAt (s : State) (d : Fin 8) (x : Die) : (s.setDie d x).resetAt = s.resetAt := rfl
@[simp] theorem State.setDie_fresh (s : State) (d : Fin 8) (x : Die) : (s.setDie d x).fresh = s.fresh := rfl
@[simp] theorem State.setDie_nextId (s : State) (d : Fin 8) (x : Die) : (s.setDie d x).nextId = s.nextId := rfl

/-! ## modLaunch: a launch changed -/

@[simp] theorem State.modLaunch_cores (s : State) (lid : Nat) (f : Launch → Launch) : (s.modLaunch lid f).cores = s.cores := rfl
@[simp] theorem State.modLaunch_stations (s : State) (lid : Nat) (f : Launch → Launch) : (s.modLaunch lid f).stations = s.stations := rfl
@[simp] theorem State.modLaunch_mem (s : State) (lid : Nat) (f : Launch → Launch) : (s.modLaunch lid f).mem = s.mem := rfl
@[simp] theorem State.modLaunch_tags (s : State) (lid : Nat) (f : Launch → Launch) : (s.modLaunch lid f).tags = s.tags := rfl
@[simp] theorem State.modLaunch_skeys (s : State) (lid : Nat) (f : Launch → Launch) : (s.modLaunch lid f).skeys = s.skeys := rfl
@[simp] theorem State.modLaunch_keys (s : State) (lid : Nat) (f : Launch → Launch) : (s.modLaunch lid f).keys = s.keys := rfl
@[simp] theorem State.modLaunch_flying (s : State) (lid : Nat) (f : Launch → Launch) : (s.modLaunch lid f).flying = s.flying := rfl
@[simp] theorem State.modLaunch_pend (s : State) (lid : Nat) (f : Launch → Launch) : (s.modLaunch lid f).pend = s.pend := rfl
@[simp] theorem State.modLaunch_stale (s : State) (lid : Nat) (f : Launch → Launch) : (s.modLaunch lid f).stale = s.stale := rfl
@[simp] theorem State.modLaunch_staleTags (s : State) (lid : Nat) (f : Launch → Launch) : (s.modLaunch lid f).staleTags = s.staleTags := rfl
@[simp] theorem State.modLaunch_nextW (s : State) (lid : Nat) (f : Launch → Launch) : (s.modLaunch lid f).nextW = s.nextW := rfl
@[simp] theorem State.modLaunch_nextCo (s : State) (lid : Nat) (f : Launch → Launch) : (s.modLaunch lid f).nextCo = s.nextCo := rfl
@[simp] theorem State.modLaunch_know (s : State) (lid : Nat) (f : Launch → Launch) : (s.modLaunch lid f).know = s.know := rfl
@[simp] theorem State.modLaunch_tlb (s : State) (lid : Nat) (f : Launch → Launch) : (s.modLaunch lid f).tlb = s.tlb := rfl
@[simp] theorem State.modLaunch_ecc (s : State) (lid : Nat) (f : Launch → Launch) : (s.modLaunch lid f).ecc = s.ecc := rfl
@[simp] theorem State.modLaunch_recPool (s : State) (lid : Nat) (f : Launch → Launch) : (s.modLaunch lid f).recPool = s.recPool := rfl
@[simp] theorem State.modLaunch_ctxTable (s : State) (lid : Nat) (f : Launch → Launch) : (s.modLaunch lid f).ctxTable = s.ctxTable := rfl
@[simp] theorem State.modLaunch_configs (s : State) (lid : Nat) (f : Launch → Launch) : (s.modLaunch lid f).configs = s.configs := rfl
@[simp] theorem State.modLaunch_wq (s : State) (lid : Nat) (f : Launch → Launch) : (s.modLaunch lid f).wq = s.wq := rfl
@[simp] theorem State.modLaunch_wqNext (s : State) (lid : Nat) (f : Launch → Launch) : (s.modLaunch lid f).wqNext = s.wqNext := rfl
@[simp] theorem State.modLaunch_lseq (s : State) (lid : Nat) (f : Launch → Launch) : (s.modLaunch lid f).lseq = s.lseq := rfl
@[simp] theorem State.modLaunch_spilledRows (s : State) (lid : Nat) (f : Launch → Launch) : (s.modLaunch lid f).spilledRows = s.spilledRows := rfl
@[simp] theorem State.modLaunch_spilledTables (s : State) (lid : Nat) (f : Launch → Launch) : (s.modLaunch lid f).spilledTables = s.spilledTables := rfl
@[simp] theorem State.modLaunch_counters (s : State) (lid : Nat) (f : Launch → Launch) : (s.modLaunch lid f).counters = s.counters := rfl
@[simp] theorem State.modLaunch_cmsgs (s : State) (lid : Nat) (f : Launch → Launch) : (s.modLaunch lid f).cmsgs = s.cmsgs := rfl
@[simp] theorem State.modLaunch_engine (s : State) (lid : Nat) (f : Launch → Launch) : (s.modLaunch lid f).engine = s.engine := rfl
@[simp] theorem State.modLaunch_spoiled (s : State) (lid : Nat) (f : Launch → Launch) : (s.modLaunch lid f).spoiled = s.spoiled := rfl
@[simp] theorem State.modLaunch_net (s : State) (lid : Nat) (f : Launch → Launch) : (s.modLaunch lid f).net = s.net := rfl
@[simp] theorem State.modLaunch_xnet (s : State) (lid : Nat) (f : Launch → Launch) : (s.modLaunch lid f).xnet = s.xnet := rfl
@[simp] theorem State.modLaunch_tmsgs (s : State) (lid : Nat) (f : Launch → Launch) : (s.modLaunch lid f).tmsgs = s.tmsgs := rfl
@[simp] theorem State.modLaunch_arcs (s : State) (lid : Nat) (f : Launch → Launch) : (s.modLaunch lid f).arcs = s.arcs := rfl
@[simp] theorem State.modLaunch_conts (s : State) (lid : Nat) (f : Launch → Launch) : (s.modLaunch lid f).conts = s.conts := rfl
@[simp] theorem State.modLaunch_readers (s : State) (lid : Nat) (f : Launch → Launch) : (s.modLaunch lid f).readers = s.readers := rfl
@[simp] theorem State.modLaunch_dies (s : State) (lid : Nat) (f : Launch → Launch) : (s.modLaunch lid f).dies = s.dies := rfl
@[simp] theorem State.modLaunch_eqs (s : State) (lid : Nat) (f : Launch → Launch) : (s.modLaunch lid f).eqs = s.eqs := rfl
@[simp] theorem State.modLaunch_ucie (s : State) (lid : Nat) (f : Launch → Launch) : (s.modLaunch lid f).ucie = s.ucie := rfl
@[simp] theorem State.modLaunch_peers (s : State) (lid : Nat) (f : Launch → Launch) : (s.modLaunch lid f).peers = s.peers := rfl
@[simp] theorem State.modLaunch_hostUp (s : State) (lid : Nat) (f : Launch → Launch) : (s.modLaunch lid f).hostUp = s.hostUp := rfl
@[simp] theorem State.modLaunch_cxlIn (s : State) (lid : Nat) (f : Launch → Launch) : (s.modLaunch lid f).cxlIn = s.cxlIn := rfl
@[simp] theorem State.modLaunch_barIn (s : State) (lid : Nat) (f : Launch → Launch) : (s.modLaunch lid f).barIn = s.barIn := rfl
@[simp] theorem State.modLaunch_cfgIn (s : State) (lid : Nat) (f : Launch → Launch) : (s.modLaunch lid f).cfgIn = s.cfgIn := rfl
@[simp] theorem State.modLaunch_mgmtIn (s : State) (lid : Nat) (f : Launch → Launch) : (s.modLaunch lid f).mgmtIn = s.mgmtIn := rfl
@[simp] theorem State.modLaunch_homeIn (s : State) (lid : Nat) (f : Launch → Launch) : (s.modLaunch lid f).homeIn = s.homeIn := rfl
@[simp] theorem State.modLaunch_cxlKeys (s : State) (lid : Nat) (f : Launch → Launch) : (s.modLaunch lid f).cxlKeys = s.cxlKeys := rfl
@[simp] theorem State.modLaunch_cxlAnswer (s : State) (lid : Nat) (f : Launch → Launch) : (s.modLaunch lid f).cxlAnswer = s.cxlAnswer := rfl
@[simp] theorem State.modLaunch_cfgAnswer (s : State) (lid : Nat) (f : Launch → Launch) : (s.modLaunch lid f).cfgAnswer = s.cfgAnswer := rfl
@[simp] theorem State.modLaunch_barAnswer (s : State) (lid : Nat) (f : Launch → Launch) : (s.modLaunch lid f).barAnswer = s.barAnswer := rfl
@[simp] theorem State.modLaunch_homeAnswer (s : State) (lid : Nat) (f : Launch → Launch) : (s.modLaunch lid f).homeAnswer = s.homeAnswer := rfl
@[simp] theorem State.modLaunch_msix (s : State) (lid : Nat) (f : Launch → Launch) : (s.modLaunch lid f).msix = s.msix := rfl
@[simp] theorem State.modLaunch_mctp (s : State) (lid : Nat) (f : Launch → Launch) : (s.modLaunch lid f).mctp = s.mctp := rfl
@[simp] theorem State.modLaunch_evict (s : State) (lid : Nat) (f : Launch → Launch) : (s.modLaunch lid f).evict = s.evict := rfl
@[simp] theorem State.modLaunch_evictPort (s : State) (lid : Nat) (f : Launch → Launch) : (s.modLaunch lid f).evictPort = s.evictPort := rfl
@[simp] theorem State.modLaunch_evictAt (s : State) (lid : Nat) (f : Launch → Launch) : (s.modLaunch lid f).evictAt = s.evictAt := rfl
@[simp] theorem State.modLaunch_evictRanges (s : State) (lid : Nat) (f : Launch → Launch) : (s.modLaunch lid f).evictRanges = s.evictRanges := rfl
@[simp] theorem State.modLaunch_evictSent (s : State) (lid : Nat) (f : Launch → Launch) : (s.modLaunch lid f).evictSent = s.evictSent := rfl
@[simp] theorem State.modLaunch_frozen (s : State) (lid : Nat) (f : Launch → Launch) : (s.modLaunch lid f).frozen = s.frozen := rfl
@[simp] theorem State.modLaunch_unlatched (s : State) (lid : Nat) (f : Launch → Launch) : (s.modLaunch lid f).unlatched = s.unlatched := rfl
@[simp] theorem State.modLaunch_level (s : State) (lid : Nat) (f : Launch → Launch) : (s.modLaunch lid f).level = s.level := rfl
@[simp] theorem State.modLaunch_levelAt (s : State) (lid : Nat) (f : Launch → Launch) : (s.modLaunch lid f).levelAt = s.levelAt := rfl
@[simp] theorem State.modLaunch_hotAt (s : State) (lid : Nat) (f : Launch → Launch) : (s.modLaunch lid f).hotAt = s.hotAt := rfl
@[simp] theorem State.modLaunch_coolAt (s : State) (lid : Nat) (f : Launch → Launch) : (s.modLaunch lid f).coolAt = s.coolAt := rfl
@[simp] theorem State.modLaunch_inlet (s : State) (lid : Nat) (f : Launch → Launch) : (s.modLaunch lid f).inlet = s.inlet := rfl
@[simp] theorem State.modLaunch_outlet (s : State) (lid : Nat) (f : Launch → Launch) : (s.modLaunch lid f).outlet = s.outlet := rfl
@[simp] theorem State.modLaunch_power (s : State) (lid : Nat) (f : Launch → Launch) : (s.modLaunch lid f).power = s.power := rfl
@[simp] theorem State.modLaunch_images (s : State) (lid : Nat) (f : Launch → Launch) : (s.modLaunch lid f).images = s.images := rfl
@[simp] theorem State.modLaunch_measured (s : State) (lid : Nat) (f : Launch → Launch) : (s.modLaunch lid f).measured = s.measured := rfl
@[simp] theorem State.modLaunch_started (s : State) (lid : Nat) (f : Launch → Launch) : (s.modLaunch lid f).started = s.started := rfl
@[simp] theorem State.modLaunch_identity (s : State) (lid : Nat) (f : Launch → Launch) : (s.modLaunch lid f).identity = s.identity := rfl
@[simp] theorem State.modLaunch_service (s : State) (lid : Nat) (f : Launch → Launch) : (s.modLaunch lid f).service = s.service := rfl
@[simp] theorem State.modLaunch_doe (s : State) (lid : Nat) (f : Launch → Launch) : (s.modLaunch lid f).doe = s.doe := rfl
@[simp] theorem State.modLaunch_cur (s : State) (lid : Nat) (f : Launch → Launch) : (s.modLaunch lid f).cur = s.cur := rfl
@[simp] theorem State.modLaunch_curStn (s : State) (lid : Nat) (f : Launch → Launch) : (s.modLaunch lid f).curStn = s.curStn := rfl
@[simp] theorem State.modLaunch_limm (s : State) (lid : Nat) (f : Launch → Launch) : (s.modLaunch lid f).limm = s.limm := rfl
@[simp] theorem State.modLaunch_late (s : State) (lid : Nat) (f : Launch → Launch) : (s.modLaunch lid f).late = s.late := rfl
@[simp] theorem State.modLaunch_cut (s : State) (lid : Nat) (f : Launch → Launch) : (s.modLaunch lid f).cut = s.cut := rfl
@[simp] theorem State.modLaunch_agenda (s : State) (lid : Nat) (f : Launch → Launch) : (s.modLaunch lid f).agenda = s.agenda := rfl
@[simp] theorem State.modLaunch_steps (s : State) (lid : Nat) (f : Launch → Launch) : (s.modLaunch lid f).steps = s.steps := rfl
@[simp] theorem State.modLaunch_now (s : State) (lid : Nat) (f : Launch → Launch) : (s.modLaunch lid f).now = s.now := rfl
@[simp] theorem State.modLaunch_resetAt (s : State) (lid : Nat) (f : Launch → Launch) : (s.modLaunch lid f).resetAt = s.resetAt := rfl
@[simp] theorem State.modLaunch_fresh (s : State) (lid : Nat) (f : Launch → Launch) : (s.modLaunch lid f).fresh = s.fresh := rfl
@[simp] theorem State.modLaunch_nextId (s : State) (lid : Nat) (f : Launch → Launch) : (s.modLaunch lid f).nextId = s.nextId := rfl

/-! ## setKnow: an agent's knowledge replaced -/

@[simp] theorem State.setKnow_cores (s : State) (k : Nat) (x : Know) : (s.setKnow k x).cores = s.cores := rfl
@[simp] theorem State.setKnow_stations (s : State) (k : Nat) (x : Know) : (s.setKnow k x).stations = s.stations := rfl
@[simp] theorem State.setKnow_mem (s : State) (k : Nat) (x : Know) : (s.setKnow k x).mem = s.mem := rfl
@[simp] theorem State.setKnow_tags (s : State) (k : Nat) (x : Know) : (s.setKnow k x).tags = s.tags := rfl
@[simp] theorem State.setKnow_skeys (s : State) (k : Nat) (x : Know) : (s.setKnow k x).skeys = s.skeys := rfl
@[simp] theorem State.setKnow_keys (s : State) (k : Nat) (x : Know) : (s.setKnow k x).keys = s.keys := rfl
@[simp] theorem State.setKnow_flying (s : State) (k : Nat) (x : Know) : (s.setKnow k x).flying = s.flying := rfl
@[simp] theorem State.setKnow_pend (s : State) (k : Nat) (x : Know) : (s.setKnow k x).pend = s.pend := rfl
@[simp] theorem State.setKnow_stale (s : State) (k : Nat) (x : Know) : (s.setKnow k x).stale = s.stale := rfl
@[simp] theorem State.setKnow_staleTags (s : State) (k : Nat) (x : Know) : (s.setKnow k x).staleTags = s.staleTags := rfl
@[simp] theorem State.setKnow_nextW (s : State) (k : Nat) (x : Know) : (s.setKnow k x).nextW = s.nextW := rfl
@[simp] theorem State.setKnow_nextCo (s : State) (k : Nat) (x : Know) : (s.setKnow k x).nextCo = s.nextCo := rfl
@[simp] theorem State.setKnow_tlb (s : State) (k : Nat) (x : Know) : (s.setKnow k x).tlb = s.tlb := rfl
@[simp] theorem State.setKnow_ecc (s : State) (k : Nat) (x : Know) : (s.setKnow k x).ecc = s.ecc := rfl
@[simp] theorem State.setKnow_recPool (s : State) (k : Nat) (x : Know) : (s.setKnow k x).recPool = s.recPool := rfl
@[simp] theorem State.setKnow_ctxTable (s : State) (k : Nat) (x : Know) : (s.setKnow k x).ctxTable = s.ctxTable := rfl
@[simp] theorem State.setKnow_configs (s : State) (k : Nat) (x : Know) : (s.setKnow k x).configs = s.configs := rfl
@[simp] theorem State.setKnow_launches (s : State) (k : Nat) (x : Know) : (s.setKnow k x).launches = s.launches := rfl
@[simp] theorem State.setKnow_wq (s : State) (k : Nat) (x : Know) : (s.setKnow k x).wq = s.wq := rfl
@[simp] theorem State.setKnow_wqNext (s : State) (k : Nat) (x : Know) : (s.setKnow k x).wqNext = s.wqNext := rfl
@[simp] theorem State.setKnow_lseq (s : State) (k : Nat) (x : Know) : (s.setKnow k x).lseq = s.lseq := rfl
@[simp] theorem State.setKnow_spilledRows (s : State) (k : Nat) (x : Know) : (s.setKnow k x).spilledRows = s.spilledRows := rfl
@[simp] theorem State.setKnow_spilledTables (s : State) (k : Nat) (x : Know) : (s.setKnow k x).spilledTables = s.spilledTables := rfl
@[simp] theorem State.setKnow_counters (s : State) (k : Nat) (x : Know) : (s.setKnow k x).counters = s.counters := rfl
@[simp] theorem State.setKnow_cmsgs (s : State) (k : Nat) (x : Know) : (s.setKnow k x).cmsgs = s.cmsgs := rfl
@[simp] theorem State.setKnow_engine (s : State) (k : Nat) (x : Know) : (s.setKnow k x).engine = s.engine := rfl
@[simp] theorem State.setKnow_spoiled (s : State) (k : Nat) (x : Know) : (s.setKnow k x).spoiled = s.spoiled := rfl
@[simp] theorem State.setKnow_net (s : State) (k : Nat) (x : Know) : (s.setKnow k x).net = s.net := rfl
@[simp] theorem State.setKnow_xnet (s : State) (k : Nat) (x : Know) : (s.setKnow k x).xnet = s.xnet := rfl
@[simp] theorem State.setKnow_tmsgs (s : State) (k : Nat) (x : Know) : (s.setKnow k x).tmsgs = s.tmsgs := rfl
@[simp] theorem State.setKnow_arcs (s : State) (k : Nat) (x : Know) : (s.setKnow k x).arcs = s.arcs := rfl
@[simp] theorem State.setKnow_conts (s : State) (k : Nat) (x : Know) : (s.setKnow k x).conts = s.conts := rfl
@[simp] theorem State.setKnow_readers (s : State) (k : Nat) (x : Know) : (s.setKnow k x).readers = s.readers := rfl
@[simp] theorem State.setKnow_dies (s : State) (k : Nat) (x : Know) : (s.setKnow k x).dies = s.dies := rfl
@[simp] theorem State.setKnow_eqs (s : State) (k : Nat) (x : Know) : (s.setKnow k x).eqs = s.eqs := rfl
@[simp] theorem State.setKnow_ucie (s : State) (k : Nat) (x : Know) : (s.setKnow k x).ucie = s.ucie := rfl
@[simp] theorem State.setKnow_peers (s : State) (k : Nat) (x : Know) : (s.setKnow k x).peers = s.peers := rfl
@[simp] theorem State.setKnow_hostUp (s : State) (k : Nat) (x : Know) : (s.setKnow k x).hostUp = s.hostUp := rfl
@[simp] theorem State.setKnow_cxlIn (s : State) (k : Nat) (x : Know) : (s.setKnow k x).cxlIn = s.cxlIn := rfl
@[simp] theorem State.setKnow_barIn (s : State) (k : Nat) (x : Know) : (s.setKnow k x).barIn = s.barIn := rfl
@[simp] theorem State.setKnow_cfgIn (s : State) (k : Nat) (x : Know) : (s.setKnow k x).cfgIn = s.cfgIn := rfl
@[simp] theorem State.setKnow_mgmtIn (s : State) (k : Nat) (x : Know) : (s.setKnow k x).mgmtIn = s.mgmtIn := rfl
@[simp] theorem State.setKnow_homeIn (s : State) (k : Nat) (x : Know) : (s.setKnow k x).homeIn = s.homeIn := rfl
@[simp] theorem State.setKnow_cxlKeys (s : State) (k : Nat) (x : Know) : (s.setKnow k x).cxlKeys = s.cxlKeys := rfl
@[simp] theorem State.setKnow_cxlAnswer (s : State) (k : Nat) (x : Know) : (s.setKnow k x).cxlAnswer = s.cxlAnswer := rfl
@[simp] theorem State.setKnow_cfgAnswer (s : State) (k : Nat) (x : Know) : (s.setKnow k x).cfgAnswer = s.cfgAnswer := rfl
@[simp] theorem State.setKnow_barAnswer (s : State) (k : Nat) (x : Know) : (s.setKnow k x).barAnswer = s.barAnswer := rfl
@[simp] theorem State.setKnow_homeAnswer (s : State) (k : Nat) (x : Know) : (s.setKnow k x).homeAnswer = s.homeAnswer := rfl
@[simp] theorem State.setKnow_msix (s : State) (k : Nat) (x : Know) : (s.setKnow k x).msix = s.msix := rfl
@[simp] theorem State.setKnow_mctp (s : State) (k : Nat) (x : Know) : (s.setKnow k x).mctp = s.mctp := rfl
@[simp] theorem State.setKnow_evict (s : State) (k : Nat) (x : Know) : (s.setKnow k x).evict = s.evict := rfl
@[simp] theorem State.setKnow_evictPort (s : State) (k : Nat) (x : Know) : (s.setKnow k x).evictPort = s.evictPort := rfl
@[simp] theorem State.setKnow_evictAt (s : State) (k : Nat) (x : Know) : (s.setKnow k x).evictAt = s.evictAt := rfl
@[simp] theorem State.setKnow_evictRanges (s : State) (k : Nat) (x : Know) : (s.setKnow k x).evictRanges = s.evictRanges := rfl
@[simp] theorem State.setKnow_evictSent (s : State) (k : Nat) (x : Know) : (s.setKnow k x).evictSent = s.evictSent := rfl
@[simp] theorem State.setKnow_frozen (s : State) (k : Nat) (x : Know) : (s.setKnow k x).frozen = s.frozen := rfl
@[simp] theorem State.setKnow_unlatched (s : State) (k : Nat) (x : Know) : (s.setKnow k x).unlatched = s.unlatched := rfl
@[simp] theorem State.setKnow_level (s : State) (k : Nat) (x : Know) : (s.setKnow k x).level = s.level := rfl
@[simp] theorem State.setKnow_levelAt (s : State) (k : Nat) (x : Know) : (s.setKnow k x).levelAt = s.levelAt := rfl
@[simp] theorem State.setKnow_hotAt (s : State) (k : Nat) (x : Know) : (s.setKnow k x).hotAt = s.hotAt := rfl
@[simp] theorem State.setKnow_coolAt (s : State) (k : Nat) (x : Know) : (s.setKnow k x).coolAt = s.coolAt := rfl
@[simp] theorem State.setKnow_inlet (s : State) (k : Nat) (x : Know) : (s.setKnow k x).inlet = s.inlet := rfl
@[simp] theorem State.setKnow_outlet (s : State) (k : Nat) (x : Know) : (s.setKnow k x).outlet = s.outlet := rfl
@[simp] theorem State.setKnow_power (s : State) (k : Nat) (x : Know) : (s.setKnow k x).power = s.power := rfl
@[simp] theorem State.setKnow_images (s : State) (k : Nat) (x : Know) : (s.setKnow k x).images = s.images := rfl
@[simp] theorem State.setKnow_measured (s : State) (k : Nat) (x : Know) : (s.setKnow k x).measured = s.measured := rfl
@[simp] theorem State.setKnow_started (s : State) (k : Nat) (x : Know) : (s.setKnow k x).started = s.started := rfl
@[simp] theorem State.setKnow_identity (s : State) (k : Nat) (x : Know) : (s.setKnow k x).identity = s.identity := rfl
@[simp] theorem State.setKnow_service (s : State) (k : Nat) (x : Know) : (s.setKnow k x).service = s.service := rfl
@[simp] theorem State.setKnow_doe (s : State) (k : Nat) (x : Know) : (s.setKnow k x).doe = s.doe := rfl
@[simp] theorem State.setKnow_cur (s : State) (k : Nat) (x : Know) : (s.setKnow k x).cur = s.cur := rfl
@[simp] theorem State.setKnow_curStn (s : State) (k : Nat) (x : Know) : (s.setKnow k x).curStn = s.curStn := rfl
@[simp] theorem State.setKnow_limm (s : State) (k : Nat) (x : Know) : (s.setKnow k x).limm = s.limm := rfl
@[simp] theorem State.setKnow_late (s : State) (k : Nat) (x : Know) : (s.setKnow k x).late = s.late := rfl
@[simp] theorem State.setKnow_cut (s : State) (k : Nat) (x : Know) : (s.setKnow k x).cut = s.cut := rfl
@[simp] theorem State.setKnow_agenda (s : State) (k : Nat) (x : Know) : (s.setKnow k x).agenda = s.agenda := rfl
@[simp] theorem State.setKnow_steps (s : State) (k : Nat) (x : Know) : (s.setKnow k x).steps = s.steps := rfl
@[simp] theorem State.setKnow_now (s : State) (k : Nat) (x : Know) : (s.setKnow k x).now = s.now := rfl
@[simp] theorem State.setKnow_resetAt (s : State) (k : Nat) (x : Know) : (s.setKnow k x).resetAt = s.resetAt := rfl
@[simp] theorem State.setKnow_fresh (s : State) (k : Nat) (x : Know) : (s.setKnow k x).fresh = s.fresh := rfl
@[simp] theorem State.setKnow_nextId (s : State) (k : Nat) (x : Know) : (s.setKnow k x).nextId = s.nextId := rfl

end Sys2Proof.Machine
end

