-- ==== Sys2Proof/Laws/Ops.lean ====
section
/-! SUPPORT. Laws of the operations over registers and cores: what a read gives after a write, and how an instruction of a core
ends. -/

namespace Sys2Proof.Machine

/-! ## Cores -/

/-- The core replaced is read. -/
@[simp] theorem State.core_setCore_self (s : State) (a : Agent) (c : Core) : (s.setCore a c).core a = c := by
  simp [State.core, State.setCore]

/-- Another core is as it was. -/
theorem State.core_setCore_ne (s : State) {a b : Agent} (c : Core) (h : agentIdx b ≠ agentIdx a) :
    (s.setCore a c).core b = s.core b := spGet_spInsert_ne _ s.cores c h

/-- The second of two replacements stands. -/
@[simp] theorem State.setCore_setCore (s : State) (a : Agent) (c d : Core) : (s.setCore a c).setCore a d = s.setCore a d := by
  simp [State.setCore]

/-- The issuing core replaced is read. -/
@[simp] theorem State.me_setMe (s : State) (c : Core) : (s.setMe c).me = c := State.core_setCore_self s s.cur c

/-- The second of two replacements of the issuing core stands. -/
@[simp] theorem State.setMe_setMe (s : State) (c d : Core) : (s.setMe c).setMe d = s.setMe d :=
  State.setCore_setCore s s.cur c d

/-- The state without its prefix has the same cores. -/
@[simp] theorem State.core_limm (s : State) (x : Option (BitVec 25)) (a : Agent) : State.core { s with limm := x } a = s.core a := rfl

/-- A station replaced is read. -/
@[simp] theorem State.stn_setStn_self (s : State) (n : Nat) (x : Station) : (s.setStn n x).stn n = x := by
  simp [State.stn, State.setStn]

/-- Another station is as it was. -/
theorem State.stn_setStn_ne (s : State) {n k : Nat} (x : Station) (h : k ≠ n) : (s.setStn n x).stn k = s.stn k :=
  spGet_spInsert_ne _ s.stations x h

/-- The second of two replacements stands. -/
@[simp] theorem State.setStn_setStn (s : State) (n : Nat) (x y : Station) : (s.setStn n x).setStn n y = s.setStn n y := by
  simp [State.setStn]

/-- A die's units replaced are read. -/
@[simp] theorem State.die_setDie_self (s : State) (d : Fin 8) (x : Die) : (s.setDie d x).die d = x := by
  simp [State.die, State.setDie]

/-- Another die's units are as they were. -/
theorem State.die_setDie_ne (s : State) {d e : Fin 8} (x : Die) (h : e ≠ d) : (s.setDie d x).die e = s.die e := by
  have : (d : Nat) ≠ e := fun k => h (Fin.ext k.symm)
  simp [State.die, State.setDie, this]

/-! ## Registers (R218) -/

/-- g0 reads 0. -/
@[simp] theorem Core.rg_zero (c : Core) : c.rg 0 = 0 := rfl

/-- A write to g0 is discarded. -/
@[simp] theorem Core.wg_zero (c : Core) (x : DWord) : c.wg 0 x = c := rfl

/-- A general register written is read. -/
theorem Core.rg_wg_self (c : Core) {n : GReg} (h : n ≠ 0) (x : DWord) : (c.wg n x).rg n = x := by simp [Core.rg, Core.wg, h]

/-- Another general register is as it was. -/
theorem Core.rg_wg_ne (c : Core) {n k : GReg} (h : k ≠ n) (x : DWord) : (c.wg n x).rg k = c.rg k := by
  have : (n : Nat) ≠ k := fun e => h (Fin.ext e.symm)
  by_cases h0 : n = 0 <;> simp [Core.rg, Core.wg, h0, this]

/-- p0 reads all ones. -/
@[simp] theorem Core.rp_zero (c : Core) : c.rp 0 = BitVec.allOnes 32 := rfl

/-- A write to p0 is discarded. -/
@[simp] theorem Core.wp_zero (c : Core) (x : Word) : c.wp 0 x = c := rfl

/-- A predicate written is read. -/
theorem Core.rp_wp_self (c : Core) {n : PReg} (h : n ≠ 0) (x : Word) : (c.wp n x).rp n = x := by simp [Core.rp, Core.wp, h]

/-- Another predicate is as it was. -/
theorem Core.rp_wp_ne (c : Core) {n k : PReg} (h : k ≠ n) (x : Word) : (c.wp n x).rp k = c.rp k := by
  have : (n : Nat) ≠ k := fun e => h (Fin.ext e.symm)
  by_cases h0 : n = 0 <;> simp [Core.rp, Core.wp, h0, this]

/-! ## How an instruction of a core ends -/

/-- An instruction that changes its core alone. -/
theorem finish_done_setMe (s : State) (c : Core) :
    finish s (.done (s.setMe c)) = { s.setMe (c.retire s.wordPc) with limm := none } := by
  simp [finish]

/-- An instruction with no effect. -/
theorem finish_done (s : State) : finish s (.done s) = { s.setMe (s.me.retire s.wordPc) with limm := none } := rfl

/-- An instruction that transfers control. -/
theorem finish_jump (s : State) (pc : BitVec 16) :
    finish s (.jump s pc) = { s.setMe { s.me with pc, wait := .none } with limm := none } := rfl

/-- An instruction whose guard is true. -/
theorem issue_true {s : State} {x : Guard} (h : s.me.guard x = true) (b : CoreOut) : issue x s b = .next (finish s b) := by
  simp [issue, h]

/-- An instruction whose guard is false has no effect (R299). -/
theorem issue_false {s : State} {x : Guard} (h : s.me.guard x = false) (b : CoreOut) :
    issue x s b = .next { s.setMe (s.me.retire s.wordPc) with limm := none } := by
  simp [issue, h, finish_done]

/-- A core instruction always answers a next state. -/
theorem issue_next (x : Guard) (s : State) (b : CoreOut) :
    issue x s b = .next (finish s (if s.me.guard x then b else .done s)) := rfl

end Sys2Proof.Machine
end

