-- ==== Sys2Proof/Tests/Slice0.lean ====
section
/-! SUPPORT. Tests of the model: the decoder on words written out from the spec's encodings, ill-formed terms, one step on small
states with results from the spec's tables, and for every statement states that meet its hypotheses. -/

set_option Elab.async false

namespace Sys2Proof.Tests

open Sys2Proof.Machine Sys2Proof.Claims

/-- The instruction of one core word. -/
def coreWord (w : Nat) : Option Instr := (decode w 0).toOption.map (·.1)

/-- The instruction of a station word. -/
def stationWord (w : Nat) : Option Instr := (decodeStation w).toOption

/-! ## Decoding -/

/-- Core words of Table 13-1 and 13-2, register forms, their fields placed as Tables 09-5 and 09-10 give them. -/
theorem test_decode_scalar_r_1 :
    [0x01714D80, 0x03714D80, 0x05714D80, 0x0D714D80, 0x0F714D80, 0x11714D80, 0x13714D80, 0x15714D80].map coreWord =
    [(.addR ⟨5, true⟩ 17 9 22 : Instr),
      .subR ⟨5, true⟩ 17 9 22,
      .mulR ⟨5, true⟩ 17 9 22,
      .andR ⟨5, true⟩ 17 9 22,
      .orR ⟨5, true⟩ 17 9 22,
      .xorR ⟨5, true⟩ 17 9 22,
      .andnR ⟨5, true⟩ 17 9 22,
      .shlR ⟨5, true⟩ 17 9 22].map some := by decide +kernel

/-- Core words of Table 13-1 and 13-2, register forms, their fields placed as Tables 09-5 and 09-10 give them. -/
theorem test_decode_scalar_r_2 :
    [0x17714D80, 0x19714D80, 0x07714D81, 0x09714D81, 0x0B714D81, 0x1B714D81, 0x1D714D81, 0x1F714D81].map coreWord =
    [(.shrR ⟨5, true⟩ 17 9 22 : Instr),
      .sraR ⟨5, true⟩ 17 9 22,
      .mulhR ⟨5, true⟩ true 17 9 22,
      .divR ⟨5, true⟩ true 17 9 22,
      .remR ⟨5, true⟩ true 17 9 22,
      .minR ⟨5, true⟩ true 17 9 22,
      .maxR ⟨5, true⟩ true 17 9 22,
      .sltR ⟨5, true⟩ true 17 9 22].map some := by decide +kernel

/-- Core words of Table 13-1 and 13-2, register forms, their fields placed as Tables 09-5 and 09-10 give them. -/
theorem test_decode_scalar_r_3 :
    [0x4163A002, 0x4366A2C7, 0x47661903, 0x47669806, 0x477A1807].map coreWord =
    [(.bitc ⟨5, true⟩ .ctz 3 20 : Instr),
      .cmpR ⟨5, true⟩ .leu 6 20 11,
      .plog ⟨5, true⟩ (.bool .andn 6 3 4),
      .plog ⟨5, true⟩ (.fromg 6 19),
      .plog ⟨5, true⟩ (.tog 26 3)].map some := by decide +kernel

/-- Core words of Table 13-1, immediate forms, their fields placed as Tables 09-5 and 09-10 give them. -/
theorem test_decode_scalar_i_1 :
    [0x217E66C3, 0x237E66C3, 0x257E66C3, 0x277E66C3, 0x297E66C3, 0x2B7E66C3, 0x2D7E66C3, 0x2F7E66C3].map coreWord =
    [(.addI ⟨5, true⟩ 30 12 0x6C3 : Instr),
      .subI ⟨5, true⟩ 30 12 0x6C3,
      .mulI ⟨5, true⟩ 30 12 0x6C3,
      .mulhI ⟨5, true⟩ 30 12 0x6C3,
      .divI ⟨5, true⟩ 30 12 0x6C3,
      .remI ⟨5, true⟩ 30 12 0x6C3,
      .andI ⟨5, true⟩ 30 12 0x6C3,
      .orI ⟨5, true⟩ 30 12 0x6C3].map some := by decide +kernel

/-- Core words of Table 13-1, immediate forms, their fields placed as Tables 09-5 and 09-10 give them. -/
theorem test_decode_scalar_i_2 :
    [0x317E66C3, 0x337E66C3, 0x357E66C3, 0x377E66C3, 0x397E66C3, 0x3B7E66C3, 0x3D7E66C3, 0x3F7E66C3].map coreWord =
    [(.xorI ⟨5, true⟩ 30 12 0x6C3 : Instr),
      .andnI ⟨5, true⟩ 30 12 0x6C3,
      .shlI ⟨5, true⟩ 30 12 0x6C3,
      .shrI ⟨5, true⟩ 30 12 0x6C3,
      .sraI ⟨5, true⟩ 30 12 0x6C3,
      .minI ⟨5, true⟩ 30 12 0x6C3,
      .maxI ⟨5, true⟩ 30 12 0x6C3,
      .sltI ⟨5, true⟩ 30 12 0x6C3].map some := by decide +kernel

/-- Core words of Table 13-1, immediate forms, their fields placed as Tables 09-5 and 09-10 give them. -/
theorem test_decode_scalar_i_3 :
    [0x457EA123].map coreWord =
    [(.cmpI ⟨5, true⟩ .ge 6 20 0x123 : Instr)].map some := by decide +kernel

/-- Core words of control transfer and loops, their fields placed as Tables 09-5 and 09-10 give them. -/
theorem test_decode_control_1 :
    [0x4B75A5A5, 0x4D60A800, 0x4F6A5A5A, 0x517FA800, 0x5360F800, 0x5561AB21, 0x5761AB40, 0x5761A801].map coreWord =
    [(.br ⟨5, true⟩ 0x15A5A5 : Instr),
      .jmp ⟨5, true⟩ 21,
      .callB ⟨5, true⟩ 0x0A5A5A,
      .callR ⟨5, true⟩ 31 21,
      .ret ⟨5, true⟩ 31,
      .loopI ⟨5, true⟩ 1 21 0x321,
      .loopSet ⟨5, true⟩ 1 21 13,
      .loopWlc ⟨5, true⟩ 1 21].map some := by decide +kernel

/-- Core words of control transfer and loops, their fields placed as Tables 09-5 and 09-10 give them. -/
theorem test_decode_control_2 :
    [0x57610342, 0x57610343].map coreWord =
    [(.loopWls ⟨5, true⟩ 1 13 : Instr),
      .loopWle ⟨5, true⟩ 1 13].map some := by decide +kernel

/-- Core words of memory, their fields placed as Tables 09-5 and 09-10 give them. -/
theorem test_decode_memory_1 :
    [0x61714959, 0x61714B14, 0x63714AA0, 0x65604808, 0x67714D80, 0x67714D81, 0x67714D82, 0x67714D83].map coreWord =
    [(.ld ⟨5, true⟩ .sext 1 true .dev 17 9 : Instr),
      .ld ⟨5, true⟩ .metaTag 3 false .die 17 9,
      .st ⟨5, true⟩ 2 true .sys 17 9,
      .pfetch ⟨5, true⟩ .core 9,
      .cpyMem ⟨5, true⟩ 17 9 22,
      .cpyAout ⟨5, true⟩ 17 9 22,
      .cpyAin ⟨5, true⟩ 17 9 22,
      .cpyTbl ⟨5, true⟩ 17 9 22].map some := by decide +kernel

/-- Core words of memory, their fields placed as Tables 09-5 and 09-10 give them. -/
theorem test_decode_memory_2 :
    [0x69600000, 0x69600001, 0x69600002, 0x6B664D80, 0x6D713002, 0x6F633000, 0x71603000, 0x737A4A50].map coreWord =
    [(.drainCm ⟨5, true⟩ : Instr),
      .drainTbl ⟨5, true⟩,
      .drainAcc ⟨5, true⟩,
      .fbopen ⟨5, true⟩ 6 9 22,
      .fbadv ⟨5, true⟩ .pos 17 6,
      .fbend ⟨5, true⟩ 3 6,
      .fbclose ⟨5, true⟩ 6,
      .vld ⟨5, true⟩ true .die 13 9].map some := by decide +kernel

/-- Core words of memory, their fields placed as Tables 09-5 and 09-10 give them. -/
theorem test_decode_memory_3 :
    [0x757A4A80, 0x777B40F9, 0x797B40D9].map coreWord =
    [(.vst ⟨5, true⟩ true .stn 13 9 : Instr),
      .vgath ⟨5, true⟩ true 13 10 3 25,
      .vscat ⟨5, true⟩ 13 10 3 25].map some := by decide +kernel

/-- Core words of vectors, their fields placed as Tables 09-5 and 09-10 give them. -/
theorem test_decode_vector_1 :
    [0x817B4CC9, 0x837B4CC1, 0x857B4CC2, 0x877B4CDF, 0x897B4CD1, 0x8B7B4CC8, 0x8D7B4CC5, 0x8F6B4CD6].map coreWord =
    [(.vadd ⟨5, true⟩ .uint32 1 13 10 6 3 : Instr),
      .vsub ⟨5, true⟩ .int32 1 13 10 6 3,
      .vmul ⟨5, true⟩ .int32 2 13 10 6 3,
      .vfma ⟨5, true⟩ .bf16 7 13 10 6 3,
      .vmin ⟨5, true⟩ .fp32 1 13 10 6 3,
      .vmax ⟨5, true⟩ .uint32 0 13 10 6 3,
      .vlogic ⟨5, true⟩ .int32 5 13 10 6 3,
      .vcmp ⟨5, true⟩ .fp32 6 5 10 6 3].map some := by decide +kernel

/-- Core words of vectors, their fields placed as Tables 09-5 and 09-10 give them. -/
theorem test_decode_vector_2 :
    [0x917B4CC0, 0x937B40D9, 0x957A00D9, 0x957B40F9, 0x977B40C5, 0x997B54FC].map coreWord =
    [(.vsel ⟨5, true⟩ 13 10 6 3 : Instr),
      .vcmprs ⟨5, true⟩ 13 10 3 25,
      .vbcastG ⟨5, true⟩ 13 3 25,
      .vbcastLane ⟨5, true⟩ 13 10 3 25,
      .vred ⟨5, true⟩ .int32 5 13 10 3,
      .vcvt ⟨5, true⟩ .e5m2 .int16 2 true 13 10 3].map some := by decide +kernel

/-- Core words of synchronisation and queues, their fields placed as Tables 09-5 and 09-10 give them. -/
theorem test_decode_sync_1 :
    [0xA1714BE6, 0xA3714A90, 0xA5714A5D, 0xA7714D38, 0xA960000B, 0xAB600004, 0xAD600002, 0xAF604D80].map coreWord =
    [(.amo ⟨5, true⟩ 6 true 3 .sys 17 9 : Instr),
      .famo ⟨5, true⟩ true .die 17 9,
      .acell ⟨5, true⟩ true true true .dev 17 9,
      .stmc ⟨5, true⟩ 3 true .sys 2 17 9,
      .fence ⟨5, true⟩ true .dev,
      .xfence ⟨5, true⟩ .sys,
      .bar ⟨5, true⟩ .all,
      .pcincR ⟨5, true⟩ 9 22].map some := by decide +kernel

/-- Core words of synchronisation and queues, their fields placed as Tables 09-5 and 09-10 give them. -/
theorem test_decode_sync_2 :
    [0xB1604DA5, 0xB3604D80, 0xB5604DA5, 0xB7604D80, 0xB9604DA5, 0xBB714D80, 0xBD714D80, 0xC3714D80].map coreWord =
    [(.pcincI ⟨5, true⟩ 9 0x5A5 : Instr),
      .pcsetR ⟨5, true⟩ 9 22,
      .pcsetI ⟨5, true⟩ 9 0x5A5,
      .pcwaitR ⟨5, true⟩ 9 22,
      .pcwaitI ⟨5, true⟩ 9 0x5A5,
      .qpush ⟨5, true⟩ 17 9 22,
      .qpop ⟨5, true⟩ 17 9 22,
      .eqpop ⟨5, true⟩ 17 9 22].map some := by decide +kernel

/-- Core words of synchronisation and queues, their fields placed as Tables 09-5 and 09-10 give them. -/
theorem test_decode_sync_3 :
    [0xC5714D80, 0xBF604D80, 0xC1604D80, 0xC7604D80, 0xF3714DBB].map coreWord =
    [(.fread ⟨5, true⟩ 17 9 22 : Instr),
      .eqcfg ⟨5, true⟩ 9 22,
      .eqpush ⟨5, true⟩ 9 22,
      .fwrite ⟨5, true⟩ 9 22,
      .amoCas ⟨5, true⟩ true 3 .dev 17 9 22].map some := by decide +kernel

/-- Core words of launch, tokens and system, their fields placed as Tables 09-5 and 09-10 give them. -/
theorem test_decode_system_1 :
    [0xC9604D97, 0xCB604800, 0xCD714D80, 0xCD714D81, 0xCF604800, 0xD1714D9D, 0xD3774CCD, 0xD5710580].map coreWord =
    [(.lpatch ⟨5, true⟩ 9 22 23 : Instr),
      .larm ⟨5, true⟩ 9,
      .shapeRequest ⟨5, true⟩ 17 9 22,
      .shapeQuery ⟨5, true⟩ 17 9 22,
      .gcfg ⟨5, true⟩ 9,
      .tinjR ⟨5, true⟩ true 13 17 9 22,
      .tinjV ⟨5, true⟩ 13 11 10 6 3,
      .trcvTake ⟨5, true⟩ 17 22].map some := by decide +kernel

/-- Core words of launch, tokens and system, their fields placed as Tables 09-5 and 09-10 give them. -/
theorem test_decode_system_2 :
    [0xD5710581, 0xD77B4C19, 0xD9714D82, 0xDB7B4CC1, 0xDD604D80, 0xDF6002A5, 0xE1600000, 0xE7600000].map coreWord =
    [(.trcvPeek ⟨5, true⟩ 17 22 : Instr),
      .trcvV ⟨5, true⟩ 13 10 6 25,
      .rngR ⟨5, true⟩ .bits 17 9 22,
      .rngV ⟨5, true⟩ .unif 13 10 6 3,
      .sclone ⟨5, true⟩ 9 22,
      .trap ⟨5, true⟩ 0x2A5,
      .rte ⟨5, true⟩,
      .yield ⟨5, true⟩].map some := by decide +kernel

/-- Core words of launch, tokens and system, their fields placed as Tables 09-5 and 09-10 give them. -/
theorem test_decode_system_3 :
    [0xED600000, 0xF1600000, 0xE3714C12, 0xE5714C12, 0xE9714D80, 0xEB604D80, 0xEB600581, 0xEB600002].map coreWord =
    [(.freeze ⟨5, true⟩ : Instr),
      .halt ⟨5, true⟩,
      .csrr ⟨5, true⟩ 17 9 0x412,
      .csrw ⟨5, true⟩ 17 9 0x412,
      .wfe ⟨5, true⟩ 17 9 22,
      .tlbiPage ⟨5, true⟩ 9 22,
      .tlbiCtx ⟨5, true⟩ 22,
      .tlbiAll ⟨5, true⟩].map some := by decide +kernel

/-- Core words of launch, tokens and system, their fields placed as Tables 09-5 and 09-10 give them. -/
theorem test_decode_system_4 :
    [0xEF714D80, 0xEF714D81, 0xEF714D82, 0xEF714D83, 0xEF714D84, 0xEF714D85].map coreWord =
    [(.lnkctlStatus ⟨5, true⟩ 17 9 22 : Instr),
      .lnkctlPause ⟨5, true⟩ 17 9 22,
      .lnkctlResume ⟨5, true⟩ 17 9 22,
      .lnkctlRemap ⟨5, true⟩ 17 9 22,
      .lnkctlRetrain ⟨5, true⟩ 17 9 22,
      .lnkctlClear ⟨5, true⟩ 17 9 22].map some := by decide +kernel

/-- Station words of Table 10-1, their fields placed as Table 09-3 gives them. -/
theorem test_decode_station_flow_1 :
    [0x00F05C58776C528B5266800000000000,
      0x01508C58776C528B5260000000000000,
      0x02B08458776C528B5260000000000000,
      0x03E09458776C528B5260000000000000,
      0x04605458776C528B5260000000000BCD,
      0x05800458776C528B5260009D0000007A].map stationWord =
    [(.pass ⟨1, 3, 2, some ⟨0x2C3B, 0xB, 1, 2⟩, some ⟨0x8A51, 6, 2, 1⟩⟩ .bsi12 : Instr),
      .steer ⟨2, 1, 2, some ⟨0x2C3B, 0xB, 1, 2⟩, some ⟨0x8A51, 6, 2, 1⟩⟩ .uint16,
      .merge ⟨2, 0, 2, some ⟨0x2C3B, 0xB, 1, 2⟩, some ⟨0x8A51, 6, 2, 1⟩⟩ .e5m2,
      .gate ⟨2, 2, 2, some ⟨0x2C3B, 0xB, 1, 2⟩, some ⟨0x8A51, 6, 2, 1⟩⟩ .e2m1b,
      .join ⟨1, 2, 2, some ⟨0x2C3B, 0xB, 1, 2⟩, some ⟨0x8A51, 6, 2, 1⟩⟩ 0x0BCD,
      .const ⟨0, 0, 2, some ⟨0x2C3B, 0xB, 1, 2⟩, some ⟨0x8A51, 6, 2, 1⟩⟩ .bsi8 0x9D 0x7A].map some := by decide +kernel

/-- Station words of Table 10-1, their fields placed as Table 09-3 gives them. -/
theorem test_decode_station_flow_2 :
    [0x06304400000000000000000089ABCDEF,
      0x07404C58776C528B52600000000000E1,
      0x08005658776C528B5460000000000000,
      0x09205C58776C528B5260000000000000,
      0x0AC04C58776C528B5260000000000000,
      0x0BD05458776C528B5260000000000000].map stationWord =
    [(.sink ⟨1, 0, 2, none, none⟩ .int64 0x89ABCDEF : Instr),
      .count ⟨1, 1, 2, some ⟨0x2C3B, 0xB, 1, 2⟩, some ⟨0x8A51, 6, 2, 1⟩⟩ .uint8 0xE1,
      .purge ⟨1, 2, 3, some ⟨0x2C3B, 0xB, 1, 2⟩, some ⟨0x8A51, 6, 2, 2⟩⟩ .int8,
      .wadv ⟨1, 3, 2, some ⟨0x2C3B, 0xB, 1, 2⟩, some ⟨0x8A51, 6, 2, 1⟩⟩ .int32,
      .nest ⟨1, 1, 2, some ⟨0x2C3B, 0xB, 1, 2⟩, some ⟨0x8A51, 6, 2, 1⟩⟩ .bf16,
      .unnest ⟨1, 2, 2, some ⟨0x2C3B, 0xB, 1, 2⟩, some ⟨0x8A51, 6, 2, 1⟩⟩ .fp32].map some := by decide +kernel

/-- Station words of Table 10-1, their fields placed as Table 09-3 gives them. -/
theorem test_decode_station_flow_3 :
    [0x0C108458776C528B5260000200000000,
      0x0D604458776C528B5260000400000000,
      0x0E704458776C528B5260000000000ABC,
      0x0F604458776C528B5260000000000000,
      0x10904458776C528B5260000000000000,
      0x11A04458776C528B5260000000000000].map stationWord =
    [(.tset ⟨2, 0, 2, some ⟨0x2C3B, 0xB, 1, 2⟩, some ⟨0x8A51, 6, 2, 1⟩⟩ .int16 2 : Instr),
      .tget ⟨1, 0, 2, some ⟨0x2C3B, 0xB, 1, 2⟩, some ⟨0x8A51, 6, 2, 1⟩⟩ 4,
      .rsplit ⟨1, 0, 2, some ⟨0x2C3B, 0xB, 1, 2⟩, some ⟨0x8A51, 6, 2, 1⟩⟩ .int4 0xABC,
      .rlen ⟨1, 0, 2, some ⟨0x2C3B, 0xB, 1, 2⟩, some ⟨0x8A51, 6, 2, 1⟩⟩,
      .expand ⟨1, 0, 2, some ⟨0x2C3B, 0xB, 1, 2⟩, some ⟨0x8A51, 6, 2, 1⟩⟩ .bsi16,
      .pack ⟨1, 0, 2, some ⟨0x2C3B, 0xB, 1, 2⟩, some ⟨0x8A51, 6, 2, 1⟩⟩ .e4m3].map some := by decide +kernel

/-- Station words of Table 10-1, their fields placed as Table 09-3 gives them. -/
theorem test_decode_station_flow_4 :
    [0x12204458000C528B4260000000000000].map stationWord =
    [(.xmit ⟨1, 0, 2, some ⟨0x2C00, 0, 1, 0⟩, some ⟨0x8A51, 6, 2, 1⟩⟩ .int32 : Instr)].map some := by decide +kernel

/-- Station words of Tables 10-1 and 10-4, their fields placed as Table 09-3 gives them. -/
theorem test_decode_station_nodes :
    [0x13304458776C528B52755556961005A5,
      0x14C08458776C528B52755568960005A5,
      0x15208458776C528B5275553296E005A5,
      0x16D08458776C528B52755540960005A5].map stationWord =
    [(.ldn ⟨1, 0, 2, some ⟨0x2C3B, 0xB, 1, 2⟩, some ⟨0x8A51, 6, 2, 1⟩⟩ .int64 ⟨0x55, 0x2A, true, 1, .dev, 0x4B, 0, true, 0x5A5⟩ : Instr),
      .stn ⟨2, 0, 2, some ⟨0x2C3B, 0xB, 1, 2⟩, some ⟨0x8A51, 6, 2, 1⟩⟩ .bf16 ⟨0x55, 0x2A, true, 2, .sys, 0x4B, 0, false, 0x5A5⟩,
      .amon ⟨2, 0, 2, some ⟨0x2C3B, 0xB, 1, 2⟩, some ⟨0x8A51, 6, 2, 1⟩⟩ .int32 ⟨0x55, 0x2A, false, 3, .core, 0x4B, 7, false, 0x5A5⟩,
      .famn ⟨2, 0, 2, some ⟨0x2C3B, 0xB, 1, 2⟩, some ⟨0x8A51, 6, 2, 1⟩⟩ ⟨0x55, 0x2A, true, 0, .stn, 0x4B, 0, false, 0x5A5⟩].map some := by decide +kernel

/-- Station words of Table 11-1, their fields placed as Table 09-3 gives them. -/
theorem test_decode_station_arith_1 :
    [0x20314458776C528B5260000089ABCDEF,
      0x21504458776C528B5260000000005678,
      0x22228458776C528B5260000000000000,
      0x23118458776C528B52E0000000001234,
      0x24004458776C528B526000000000007B,
      0x25608458776C528B5260000000000000].map stationWord =
    [(.iadd ⟨1, 0, 2, some ⟨0x2C3B, 0xB, 1, 2⟩, some ⟨0x8A51, 6, 2, 1⟩⟩ .int64 1 0x89ABCDEF : Instr),
      .isub ⟨1, 0, 2, some ⟨0x2C3B, 0xB, 1, 2⟩, some ⟨0x8A51, 6, 2, 1⟩⟩ .uint16 0 0x5678,
      .imul ⟨2, 0, 2, some ⟨0x2C3B, 0xB, 1, 2⟩, some ⟨0x8A51, 6, 2, 1⟩⟩ .int32 2 0,
      .imac ⟨2, 0, 2, some ⟨0x2C3B, 0xB, 1, 2⟩, some ⟨0x8A51, 6, 2, 1⟩⟩ .int16 1 true 0x1234,
      .imin ⟨1, 0, 2, some ⟨0x2C3B, 0xB, 1, 2⟩, some ⟨0x8A51, 6, 2, 1⟩⟩ .int8 0x7B,
      .imax ⟨2, 0, 2, some ⟨0x2C3B, 0xB, 1, 2⟩, some ⟨0x8A51, 6, 2, 1⟩⟩ .uint32 0].map some := by decide +kernel

/-- Station words of Table 11-1, their fields placed as Table 09-3 gives them. -/
theorem test_decode_station_arith_2 :
    [0x26214458776C528B5260000000000000,
      0x27634458776C528B5260000089ABCDEF,
      0x28328458776C528B5260000000000000,
      0x29248458776C528B5260000000000000,
      0x2A90C458776C528B5260000000000000,
      0x2B434458776C528B5260000000000000].map stationWord =
    [(.iabs ⟨1, 0, 2, some ⟨0x2C3B, 0xB, 1, 2⟩, some ⟨0x8A51, 6, 2, 1⟩⟩ .int32 1 : Instr),
      .logic ⟨1, 0, 2, some ⟨0x2C3B, 0xB, 1, 2⟩, some ⟨0x8A51, 6, 2, 1⟩⟩ .uint32 3 0x89ABCDEF,
      .shift ⟨2, 0, 2, some ⟨0x2C3B, 0xB, 1, 2⟩, some ⟨0x8A51, 6, 2, 1⟩⟩ .int64 2 0,
      .icmp ⟨2, 0, 2, some ⟨0x2C3B, 0xB, 1, 2⟩, some ⟨0x8A51, 6, 2, 1⟩⟩ .int32 4 0,
      .sel ⟨3, 0, 2, some ⟨0x2C3B, 0xB, 1, 2⟩, some ⟨0x8A51, 6, 2, 1⟩⟩ .bsi16,
      .slotBitc ⟨1, 0, 2, some ⟨0x2C3B, 0xB, 1, 2⟩, some ⟨0x8A51, 6, 2, 1⟩⟩ .uint8 3].map some := by decide +kernel

/-- Station words of Table 11-1, their fields placed as Table 09-3 gives them. -/
theorem test_decode_station_arith_3 :
    [0x2CD74458776C528B52E000003F800000,
      0x2DC48458776C528B5260000000000000,
      0x2ED38458776C528B52E0000040490FDB,
      0x2FC14458776C528B5260000000003F80,
      0x30D08458776C528B5260000000000000,
      0x31D68458776C528B5260000000000000].map stationWord =
    [(.fadd ⟨1, 0, 2, some ⟨0x2C3B, 0xB, 1, 2⟩, some ⟨0x8A51, 6, 2, 1⟩⟩ .fp32 7 true 0x3F800000 : Instr),
      .fmul ⟨2, 0, 2, some ⟨0x2C3B, 0xB, 1, 2⟩, some ⟨0x8A51, 6, 2, 1⟩⟩ .bf16 4 0,
      .ffma ⟨2, 0, 2, some ⟨0x2C3B, 0xB, 1, 2⟩, some ⟨0x8A51, 6, 2, 1⟩⟩ .fp32 3 true false 0x40490FDB,
      .fmin ⟨1, 0, 2, some ⟨0x2C3B, 0xB, 1, 2⟩, some ⟨0x8A51, 6, 2, 1⟩⟩ .bf16 1 0x3F80,
      .fmax ⟨2, 0, 2, some ⟨0x2C3B, 0xB, 1, 2⟩, some ⟨0x8A51, 6, 2, 1⟩⟩ .fp32 0 0,
      .fcmp ⟨2, 0, 2, some ⟨0x2C3B, 0xB, 1, 2⟩, some ⟨0x8A51, 6, 2, 1⟩⟩ .fp32 6 0].map some := by decide +kernel

/-- Station words of Table 11-1, their fields placed as Table 09-3 gives them. -/
theorem test_decode_station_arith_4 :
    [0x32D84458776C528B5260000000000000,
      0x33B44458776C528B52E0000000000000,
      0x34E24458776C528B5260000000000123,
      0x35C14458776C528B52600000000000F7,
      0x36255458776C528B526000000000001F,
      0x37D34458776C528B5260000000000345].map stationWord =
    [(.fspec ⟨1, 0, 2, some ⟨0x2C3B, 0xB, 1, 2⟩, some ⟨0x8A51, 6, 2, 1⟩⟩ .fp32 8 : Instr),
      .cvt ⟨1, 0, 2, some ⟨0x2C3B, 0xB, 1, 2⟩, some ⟨0x8A51, 6, 2, 1⟩⟩ .e5m2 4 true,
      .bqnt ⟨1, 0, 2, some ⟨0x2C3B, 0xB, 1, 2⟩, some ⟨0x8A51, 6, 2, 1⟩⟩ .e2m1b 2 0x123,
      .dqnt ⟨1, 0, 2, some ⟨0x2C3B, 0xB, 1, 2⟩, some ⟨0x8A51, 6, 2, 1⟩⟩ .bf16 1 0xF7,
      .redu ⟨1, 2, 2, some ⟨0x2C3B, 0xB, 1, 2⟩, some ⟨0x8A51, 6, 2, 1⟩⟩ .int32 5 31,
      .scan ⟨1, 0, 2, some ⟨0x2C3B, 0xB, 1, 2⟩, some ⟨0x8A51, 6, 2, 1⟩⟩ .fp32 3 0x345].map some := by decide +kernel

/-- Station words of Table 11-1, their fields placed as Table 09-3 gives them. -/
theorem test_decode_station_arith_5 :
    [0x38D18458776C528B526000090000CAFE].map stationWord =
    [(.slotRng ⟨2, 0, 2, some ⟨0x2C3B, 0xB, 1, 2⟩, some ⟨0x8A51, 6, 2, 1⟩⟩ .fp32 .unif true 1 0xCAFE : Instr)].map some := by decide +kernel

/-- Station words of Table 12-1, their fields placed as Table 09-3 gives them. -/
theorem test_decode_station_tables_1 :
    [0x40904458776C528B526015A984210FED,
      0x41104458776C528B5260005600000000,
      0x42104458776C528B5260005600000000,
      0x43104458776C528B5260005600000000,
      0x44104458776C528B5260005600000000,
      0x45804458776C528B52E0010100000000].map stationWord =
    [(.segt ⟨1, 0, 2, some ⟨0x2C3B, 0xB, 1, 2⟩, some ⟨0x8A51, 6, 2, 1⟩⟩ .bsi16 0x15 0xA9 0x8421 0x0FED : Instr),
      .sgpN32 ⟨1, 0, 2, some ⟨0x2C3B, 0xB, 1, 2⟩, some ⟨0x8A51, 6, 2, 1⟩⟩ .int16 ⟨0, 0x15, 2⟩,
      .sgpN64 ⟨1, 0, 2, some ⟨0x2C3B, 0xB, 1, 2⟩, some ⟨0x8A51, 6, 2, 1⟩⟩ .int16 ⟨0, 0x15, 2⟩,
      .dmacN32 ⟨1, 0, 2, some ⟨0x2C3B, 0xB, 1, 2⟩, some ⟨0x8A51, 6, 2, 1⟩⟩ .int16 ⟨0, 0x15, 2⟩,
      .dmacN64 ⟨1, 0, 2, some ⟨0x2C3B, 0xB, 1, 2⟩, some ⟨0x8A51, 6, 2, 1⟩⟩ .int16 ⟨0, 0x15, 2⟩,
      .spmc ⟨1, 0, 2, some ⟨0x2C3B, 0xB, 1, 2⟩, some ⟨0x8A51, 6, 2, 1⟩⟩ .bsi8 true ⟨2, 0, 1⟩].map some := by decide +kernel

/-- Station words of Table 12-1, their fields placed as Table 09-3 gives them. -/
theorem test_decode_station_tables_2 :
    [0x46328C58776C528B5260000000000000,
      0x47304458776C528B5260000300000000,
      0x48308458776C528B52E0000200000000,
      0x49208458776C528B52E0000100000000,
      0x4A404458776C528B52E00009BEEF1234,
      0x4B204458776C528B5260000300000000].map stationWord =
    [(.isect ⟨2, 1, 2, some ⟨0x2C3B, 0xB, 1, 2⟩, some ⟨0x8A51, 6, 2, 1⟩⟩ 2 : Instr),
      .tbld ⟨1, 0, 2, some ⟨0x2C3B, 0xB, 1, 2⟩, some ⟨0x8A51, 6, 2, 1⟩⟩ 3,
      .tupd ⟨2, 0, 2, some ⟨0x2C3B, 0xB, 1, 2⟩, some ⟨0x8A51, 6, 2, 1⟩⟩ .int64 true 2,
      .pupd ⟨2, 0, 2, some ⟨0x2C3B, 0xB, 1, 2⟩, some ⟨0x8A51, 6, 2, 1⟩⟩ .int32 true 1,
      .pbind ⟨1, 0, 2, some ⟨0x2C3B, 0xB, 1, 2⟩, some ⟨0x8A51, 6, 2, 1⟩⟩ .uint8 true 2 1 0xBEEF 0x1234,
      .tfold ⟨1, 0, 2, some ⟨0x2C3B, 0xB, 1, 2⟩, some ⟨0x8A51, 6, 2, 1⟩⟩ .int32 false 3].map some := by decide +kernel

/-- Station words of Table 12-1, their fields placed as Table 09-3 gives them. -/
theorem test_decode_station_tables_3 :
    [0x4C304C58776C528B5260000200000000,
      0x4D214458776C528B5260004E00000000,
      0x4ED24458776C528B5260006800000ABC,
      0x4FC34458776C528B52E000685C1B2345].map stationWord =
    [(.tsum ⟨1, 1, 2, some ⟨0x2C3B, 0xB, 1, 2⟩, some ⟨0x8A51, 6, 2, 1⟩⟩ .int64 2 : Instr),
      .trd ⟨1, 0, 2, some ⟨0x2C3B, 0xB, 1, 2⟩, some ⟨0x8A51, 6, 2, 1⟩⟩ .int32 1 0x13 2,
      .aclr ⟨1, 0, 2, some ⟨0x2C3B, 0xB, 1, 2⟩, some ⟨0x8A51, 6, 2, 1⟩⟩ .fp32 2 0 0x1A 0xABC,
      .aemit ⟨1, 0, 2, some ⟨0x2C3B, 0xB, 1, 2⟩, some ⟨0x8A51, 6, 2, 1⟩⟩ .bf16 3 false true 0 0 0x1A 0x5C 0x1B 0x2345].map some := by decide +kernel

/-- LIMM pairs (R215; Table 09-8), and the words of R217 and R222 that are none. -/
theorem test_decode_limm :
    (decode 0x48000024 0x20042345).toOption = some (.limm 0x24 (.addI ⟨0, false⟩ 4 4 0x345), 2) ∧
    (decode 0x49FFFFFF 0x21BE67FF).toOption = some (.limm 0x1FFFFFF (.addI ⟨6, true⟩ 30 12 0x7FF), 2) ∧
    coreWord 0 = some (.addR ⟨0, false⟩ 0 0 0) := by decide +kernel

/-- Why a word is refused. -/
def refusal {α : Type} : Except DecodeError α → Option DecodeError
  | .error e => some e
  | .ok _ => none

/-- Words refused by name (R212, R216, R221, R222): unassigned opcodes; values a field does not define; unused bits that are not 0. -/
theorem test_refused_words :
    refusal (decode 0x58000000 0) = some .unassignedOpcode ∧ refusal (decode 0xF4000000 0) = some .unassignedOpcode ∧
    refusal (decode 0x40000004 0) = some .reservedValue ∧ refusal (decode 0x60000028 0) = some .reservedValue ∧
    refusal (decode 0x00000001 0) = some .unusedField ∧ refusal (decode 0xF0000001 0) = some .unusedField ∧
    refusal (decode 0x60000304 0) = none ∧ refusal (decode 0x60000301 0) = some .illFormed ∧
    refusal (decode 0x48000001 0x48000000) = some .reservedValue ∧ refusal (decode 0x48000001 0x4A000000) = some .prefixRefused ∧
    refusal (decode 0x48000001 0x00000040) = some .prefixRefused ∧
    refusal (decodeStation 0x17004000000000000000000000000000) = some .unassignedOpcode ∧
    refusal (decodeStation 0x50004000000000000000000000000000) = some .unassignedOpcode ∧
    refusal (decodeStation 0x00F04000000000000006800000000000) = none ∧
    refusal (decodeStation 0x00F04000000000000007800000000000) = some .reservedValue ∧
    refusal (decodeStation 0x00004000000000000000000000000001) = some .unusedField ∧
    refusal (decodeStation 0x00008000000000000000000000000000) = some .illFormed := by decide +kernel

/-! ## Ill-formed terms, one for each check -/

/-- A head of an arity, tag operation and level, with no destination. -/
def hd (ar : BitVec 2) (op : BitVec 3 := 0) (lvl : BitVec 2 := 1) : Head := ⟨ar, op, lvl, none, none⟩

/-- Heads (R86, R89, R92): arity, reserved tag operation, nest at level 4, unnest at level 1, reserved port, reserved action. -/
theorem test_ill_heads :
    ([.pass (hd 1) .int32, .pass (hd 1 1 2) .int32, .pass (hd 1 2 1) .int32] : List Instr).all Instr.wf = true ∧
    ([.pass (hd 2) .int32, .pass (hd 1 4) .int32, .pass (hd 1 1 3) .int32, .pass (hd 1 2 0) .int32,
      .pass { hd 1 with d0 := some ⟨0, 0, 3, 0⟩ } .int32, .pass { hd 1 with d1 := some ⟨0, 0, 0, 3⟩ } .int32] : List Instr).any Instr.wf
      = false := by decide +kernel

/-- Chapter 10, Table 10-1 and R228 to R249: each term breaks one check. -/
theorem test_ill_flow :
    ([.pass (hd 1) .fp16, .expand (hd 1 1) .int8, .steer (hd 1) .int8, .join (hd 1) 0, .join (hd 1) 65537, .join (hd 1 0 2) 4097,
      .join (hd 1 1) 4, .const (hd 2) .int8 0 0, .const (hd 0) .int8 1 0, .const (hd 0) .int8 0 256, .sink { hd 1 with d0 := some ⟨0, 0, 0, 0⟩ } .int8 0,
      .count (hd 1) .int8 0, .purge { hd 1 with d0 := some ⟨0, 0, 0, 0⟩ } .int8, .wadv (hd 1) .int8, .nest (hd 1) .int8,
      .unnest (hd 1) .int8, .tset (hd 2 0 0) .int8 1, .tget (hd 1) 2, .tget (hd 1) 5, .rsplit (hd 1) .int8 0, .rsplit (hd 1) .int8 65537,
      .rlen (hd 1 1), .xmit (hd 1) .int8, .xmit { hd 1 with d0 := some ⟨1, 0, 0, 0⟩ } .int8, .xmit { hd 1 with d0 := some ⟨64, 0, 2, 0⟩ } .int8]
      : List Instr).any Instr.wf = false := by decide +kernel

/-- A node's fields (Table 10-4). -/
def nf (ord : BitVec 2) (node : BitVec 7) (func : BitVec 4) (fg : Bool) : NodeF := ⟨127, 127, false, ord, .die, node, func, fg, 0⟩

/-- Memory nodes (Table 10-4 and the types and orderings after it). -/
theorem test_ill_nodes :
    ([.ldn (hd 1) .int32 (nf 0 0 0 false), .stn (hd 2) .int32 (nf 2 0 0 false), .amon (hd 2) .int64 (nf 3 0 8 false)] : List Instr).all
      Instr.wf = true ∧
    ([.ldn (hd 1) .int4 (nf 0 0 0 false), .ldn (hd 1) .int32 (nf 2 0 0 false), .ldn (hd 1) .int32 (nf 0 0 1 false),
      .ldn (hd 1) .int32 (nf 0 0 0 true), .ldn (hd 1) .int32 (nf 0 127 0 false), .stn (hd 2) .int32 (nf 1 0 0 false),
      .stn (hd 2) .int32 (nf 0 0 0 true), .amon (hd 2) .int16 (nf 0 0 0 false), .amon (hd 2) .int32 (nf 0 0 9 false),
      .famn (hd 2) (nf 1 0 0 false), .famn (hd 1) (nf 0 0 0 false)] : List Instr).any Instr.wf = false := by decide +kernel

/-- Chapter 11, Table 11-1: types, functions, roundings, immediates, counts. -/
theorem test_ill_arithmetic :
    ([.iadd (hd 1) .fp32 0 0, .iadd (hd 1) .int8 2 0, .iadd (hd 2) .int8 0 1, .iadd (hd 1) .uint8 0 256, .imul (hd 1) .int8 3 0,
      .imac (hd 1) .int8 0 false 0, .iabs (hd 2) .int8 0, .logic (hd 1) .int8 6 0, .shift (hd 1) .int8 4 0, .icmp (hd 1) .int8 6 0,
      .sel (hd 2) .int8, .slotBitc (hd 1) .int8 4, .fadd (hd 1) .int8 0 false 0, .fadd (hd 1) .fp32 5 false 0, .fmul (hd 2) .fp32 0 1,
      .ffma (hd 2) .bf16 0 false false 0x10000, .fmin (hd 1) .fp32 2 0, .fcmp (hd 1) .fp32 7 0, .fspec (hd 1) .fp32 9, .cvt (hd 1) .bsi8 0 false,
      .bqnt (hd 1) .bsi2 0 1, .bqnt (hd 1) .bsi8 0 0, .dqnt (hd 1) .int8 0 0, .redu (hd 1) .fp32 3 1, .redu (hd 1 2) .int8 0 33,
      .redu (hd 1) .int8 8 1, .scan (hd 1) .int8 4 1, .scan (hd 1) .int8 0 0, .slotRng (hd 2) .int8 .unif false 7 0,
      .slotRng (hd 2) .fp32 .unif false 2 0] : List Instr).any Instr.wf = false := by decide +kernel

/-- Chapter 12, Table 12-1: types, rows, fields. -/
theorem test_ill_tables :
    ([.segt (hd 1) .int32 0 0 0 0, .segt (hd 1 0 2) .int8 0 0 0 4096, .sgpN32 (hd 1) .int32 ⟨0, 0, 0⟩, .sgpN32 (hd 1) .int8 ⟨7, 0, 0⟩,
      .dmacN64 (hd 1) .int8 ⟨2, 1, 0⟩, .isect (hd 2) 0, .isect (hd 2 1) 3, .tbld (hd 2) 0, .tupd (hd 2) .int8 false 0, .pupd (hd 1) .int32 false 0,
      .pbind (hd 1) .wide false 0 0 0 0, .tfold (hd 1) .int8 true 1, .tsum (hd 1) .int32 0, .trd (hd 1) .int32 2 0 0,
      .aclr (hd 1) .int8 3 0 0 0, .aemit (hd 1) .int64 0 false false 0 0 0 1 0 0, .aemit (hd 1) .int8 0 false false 1 0 0 0 0 0,
      .aemit { hd 1 with d0 := some ⟨0, 0, 0, 0⟩ } .int8 0 true false 0 0 0 0 0 0, .aemit (hd 1) .int8 0 false false 0 0 0 0 32 0,
      .aemit (hd 1) .int8 0 false false 0 0 0 0 1 0xFFFF] : List Instr).any Instr.wf = false := by decide +kernel

/-- Core instructions (chapters 13 and 14), and seconds of LIMM pairs (R215, R307, R356). -/
theorem test_ill_core :
    let g : Guard := ⟨0, false⟩
    ([.limm 7 (.loopI g 0 1 2047), .limm 0 (.trap g 1023), .limm 1 (.addR g 1 2 0), .limm 0 (.lpatch g 1 0 23)] : List Instr).all
      Instr.wf = true ∧
    ([.ld g .sext 3 false .die 1 2, .ld g .fg 2 false .die 1 2, .ld g .metaTag 3 true .die 1 2, .cmpI g .le 1 2 0, .loopI g 0 1 1024,
      .vadd g .int32 2 0 0 0 0, .vadd g .fp32 4 0 0 0 0, .vadd g .e4m3 0 0 0 0 0, .vmul g .int32 3 0 0 0 0, .vmin g .int32 1 0 0 0 0,
      .vlogic g .fp32 0 0 0 0 0, .vlogic g .int32 6 0 0 0 0, .vcmp g .int32 6 0 0 0 0, .vred g .fp32 3 0 0 0, .vcvt g .fp32 .int32 5 false 0 0 0,
      .stmc g 0 false .die 0 1 0, .stmc g 0 false .die 2 1 30, .xfence g .core, .lpatch g 1 2 24, .tinjV g 3 0 0 0 0, .rngV g .bits 0 0 0 0,
      .trap g 1024, .limm 0 (.limm 0 (.rte g)), .limm 0 (.rte g), .limm 1 (.addR g 1 2 3), .limm 8 (.loopI g 0 1 0), .limm 1 (.trap g 0),
      .illegalEncoding 0 0] : List Instr).any Instr.wf = false := by decide +kernel

/-- The words that Tables 13-13 and 14-10 work out. -/
theorem test_decode_worked_core :
    let g : Guard := ⟨0, false⟩
    [0x02033880, 0x080531C1, 0x44122064, 0x54014803, 0x80024610, 0x9208A0C6, 0xB0003001, 0xB60031C0, 0xAA000003, 0xA800000C, 0xC0005B00,
      0xC2084A80, 0xC8006B81, 0xF20521FB, 0xE2030001].map coreWord =
    [Instr.subR g 3 7 2, .divR g true 5 6 7, .cmpI g .lt 2 4 100, .loopI g 1 9 3, .vadd g .fp32 0 1 2 3 0, .vcmprs g 4 5 3 6, .pcincI g 6 1,
      .pcwaitR g 6 7, .xfence g .dev, .fence g true .sys, .eqpush g 11 12, .eqpop g 8 9 10, .lpatch g 13 14 1, .amoCas g true 3 .dev 5 4 7,
      .csrr g 3 0 1].map some ∧
    (decode 0x48000040 0x62052298).toOption.map (·.1) = some (.limm 0x40 (.st g 2 true .dev 5 4)) ∧
    (decode 0x48000240 0xD0002802).toOption.map (·.1) = some (.limm 0x240 (.tinjR g false 2 0 5 0)) := by decide +kernel

/-! ## Small states of cores, and results the spec works out or that follow from it by hand -/

/-- The guard that is always true. -/
def gT : Guard := ⟨0, false⟩

/-- An access core, a drain core and a collier. -/
def acc : Agent := ⟨.access, 0, 0⟩
/-- The drain core. -/
def dra : Agent := ⟨.drain, 0, 0⟩
/-- The collier. -/
def col : Agent := ⟨.collier, 0, 0⟩

/-- A running core of launch 5 with some general registers. -/
def cre (gs : List (Nat × DWord)) : Core :=
  { run := .running, lid := some 5, ctxid := 7, g := gs.foldl (fun v p => v.setIfInBounds p.1 p.2) (Vector.replicate 32 0) }

/-- The state after reset with a core c of an agent, which issues. -/
def sAt (a : Agent) (c : Core) : State := { State.reset.setCore a c with cur := a }

/-- Whether an instruction leaves a next state with a property. -/
def leads (i : Instr) (s : State) (p : State → Bool) : Bool := (nextOf (exec i s)).any p

/-- The issuing core after an instruction. -/
def meAfter (i : Instr) (s : State) : Core := ((nextOf (exec i s)).map State.me).getD {}

/-- g[3] after an instruction on g[1] and g[2]. -/
def g3of (i : Instr) (x y : DWord) : DWord := (meAfter i (sAt acc (cre [(1, x), (2, y)]))).rg 3

/-- R300 and R302 by hand: wraps, high halves, signs, shifts of 64 and more, and the corners of DIV and REM. -/
theorem test_scalar_registers :
    [g3of (.addR gT 3 1 2) (-1) 2, g3of (.subR gT 3 1 2) 1 2, g3of (.mulR gT 3 1 2) 0x8000000000000001 3,
      g3of (.mulhR gT false 3 1 2) (-1) 2, g3of (.mulhR gT true 3 1 2) (-1) 2, g3of (.divR gT false 3 1 2) (-7) 2,
      g3of (.divR gT true 3 1 2) 7 0, g3of (.divR gT false 3 1 2) 0x8000000000000000 (-1), g3of (.remR gT false 3 1 2) (-7) 2,
      g3of (.remR gT true 3 1 2) 7 0, g3of (.remR gT false 3 1 2) 0x8000000000000000 (-1), g3of (.andR gT 3 1 2) 12 10, g3of (.orR gT 3 1 2) 12 10,
      g3of (.xorR gT 3 1 2) 12 10, g3of (.andnR gT 3 1 2) 12 10, g3of (.shlR gT 3 1 2) 3 64, g3of (.shrR gT 3 1 2) 0x8000000000000000 63,
      g3of (.sraR gT 3 1 2) (-8) 70, g3of (.minR gT false 3 1 2) (-1) 1, g3of (.minR gT true 3 1 2) (-1) 1, g3of (.maxR gT true 3 1 2) (-1) 1,
      g3of (.sltR gT false 3 1 2) (-1) 1, g3of (.sltR gT true 3 1 2) (-1) 1] =
    [1, -1, 0x8000000000000003, -1, 1, -3, -1, 0x8000000000000000, -1, 7, 0, 8, 14, 6, 4, 0, 1, -1, -1, 1, -1, 1, 0] := by decide +kernel

/-- The immediate forms sign-extend imm11 (R207, R300). -/
theorem test_scalar_immediates :
    [g3of (.addI gT 3 1 0x7FF) 0 0, g3of (.subI gT 3 1 0x400) 0 0, g3of (.mulI gT 3 1 0x7FE) 3 0, g3of (.mulhI gT 3 1 0x7FF) 5 0,
      g3of (.divI gT 3 1 0x7FE) 7 0, g3of (.remI gT 3 1 0) 7 0, g3of (.andI gT 3 1 0x7F0) (-1) 0, g3of (.orI gT 3 1 3) 4 0, g3of (.xorI gT 3 1 0x7FF) 5 0,
      g3of (.andnI gT 3 1 1) 3 0, g3of (.shlI gT 3 1 63) 3 0, g3of (.shrI gT 3 1 1) (-1) 0, g3of (.sraI gT 3 1 1) (-8) 0, g3of (.minI gT 3 1 0x7FF) 3 0,
      g3of (.maxI gT 3 1 0x7FF) 3 0, g3of (.sltI gT 3 1 0) (-1) 0] =
    [-1, 1024, -6, -1, -3, 7, -16, 7, -6, 2, 0x8000000000000000, 0x7FFFFFFFFFFFFFFF, -4, -1, 3, 1] := by decide +kernel

/-- R303 to R305 by hand. -/
theorem test_bits_and_predicates :
    [g3of (.bitc gT .popc 3 1) 0xF0 0, g3of (.bitc gT .clz 3 1) 0 0, g3of (.bitc gT .ctz 3 1) 0x50 0, g3of (.bitc gT .brev 3 1) 1 0] =
      [4, 64, 4, 0x8000000000000000] ∧
    ([CRel.eq, .ne, .lt, .le, .gt, .ge, .ltu, .leu, .gtu, .geu].map fun r => (meAfter (.cmpR gT r 2 1 2) (sAt acc (cre [(1, -1), (2, 1)]))).rp 2)
      = [0, -1, -1, -1, 0, 0, 0, 0, -1, -1] ∧
    ([LogicFn.and, .or, .xor, .andn, .orn, .xnor].map fun f =>
      (meAfter (.plog gT (.bool f 3 1 2)) (sAt acc { cre [] with p := (Vector.replicate 8 0).set 1 12 |>.set 2 10 })).rp 3)
      = [8, 14, 6, 4, 0xFFFFFFFD, 0xFFFFFFF9] ∧
    (meAfter (.cmpI gT .ge 2 1 0x7FF) (sAt acc (cre [(1, -1)]))).rp 2 = -1 := by decide +kernel

/-- R306: CALL R by the register that its own link overwrites, and a misaligned target. -/
theorem test_call_and_align :
    leads (.callR gT 1 1) (sAt acc { cre [(1, 0x40)] with pc := 0x10 }) (fun t => t.me.pc == 0x40 && t.me.rg 1 == 0x14) = true ∧
    leads (.jmp gT 1) (sAt acc { cre [(1, 0x42)] with trapbase := 0x101 }) (fun t => t.me.pc == 0x100 && t.me.faddr == 0x42 && t.me.epc == 0)
      = true ∧
    leads (.br gT (-4)) (sAt acc { cre [] with pc := 0x10 }) (fun t => t.me.pc == 0) = true := by decide +kernel

/-- R134, R307 and R308: the LOOP of Table 13-13, a count of 0, and the back edge of the last word of a body. -/
theorem test_loops :
    leads (.loopI gT 1 9 3) (sAt acc { cre [(9, 5)] with pc := 0x20 })
      (fun t => t.me.pc == 0x24 && t.me.lc[1] == 5 && t.me.ls[1] == 0x24 && t.me.le[1] == 0x30) = true ∧
    leads (.loopI gT 1 9 3) (sAt acc { cre [] with pc := 0x20 }) (fun t => t.me.pc == 0x34 && t.me.lc[1] == 0) = true ∧
    leads (.orR gT 0 0 0) (sAt acc { cre [] with pc := 0x30, lc := #v[0, 2], ls := #v[0, 0x24], le := #v[0, 0x30] })
      (fun t => t.me.pc == 0x24 && t.me.lc[1] == 1) = true ∧
    leads (.orR gT 0 0 0) (sAt acc { cre [] with pc := 0x30, lc := #v[3, 1], ls := #v[8, 0x24], le := #v[0x30, 0x30] })
      (fun t => t.me.pc == 8 && t.me.lc == #v[2, 0]) = true := by decide +kernel

/-- Table 03-12 and R79. -/
theorem test_ember : ember 0 0 = 0x43EADA5C9E593F6C := by decide +kernel

/-- Table 03-10: FP32 to E4M3, the code and the flags of each mode. -/
theorem test_rounding_table :
    let toE4m3 (x : Nat) (r : Rm) : Nat := (match decodeF .fp32 x false with | .num e => (roundFmt e .e4m3 r false).1 | _ => 0)
    let fl (x : Nat) (r : Rm) : Flags := (match decodeF .fp32 x false with | .num e => (roundFmt e .e4m3 r false).2 | _ => 0)
    ([0x40280000, 0xC0280000, 0x43FA0000, 0x3A83126F].map fun x => [Rm.rne, .rtz, .rup, .rdn].map (toE4m3 x)) =
      [[0x42, 0x42, 0x43, 0x42], [0xC2, 0xC2, 0xC2, 0xC3], [0x7F, 0x7F, 0x7F, 0x7F], [1, 0, 1, 0]] ∧
    [toE4m3 0x40280000 (.sr 32768), toE4m3 0x40280000 (.sr 32767)] = [0x43, 0x42] ∧
    fl 0x40280000 .rne = fNX ∧ fl 0x43FA0000 .rne = fOF ||| fNX ∧ fl 0x43FA0000 .rtz = fNX ∧ fl 0x3A83126F .rdn = fUF ||| fNX := by
  decide +kernel

/-- Little-endian bytes stored from a key, in the state after reset. -/
def withBytes (s : State) (k n v : Nat) : State := { s with mem := s.mem.store k (leBytes n v) }

/-- R310 in core memory: little-endian, sign- and zero-extended, and a store of the low bytes; Table 13-7, its steps 2 to 5. -/
theorem test_loads_stores_streams :
    let s := withBytes (sAt acc (cre [(1, 0x100), (2, 0x1122334455667788)])) (coreMemBase 0 0 + 0x100) 8 0x80000000000000FE
    (meAfter (.ld gT .plain 0 false .core 3 1) s).rg 3 = 0xFE ∧ (meAfter (.ld gT .sext 0 false .core 3 1) s).rg 3 = -2 ∧
    (meAfter (.ld gT .plain 3 false .core 3 1) s).rg 3 = 0x80000000000000FE ∧
    leads (.st gT 1 false .core 2 1) s (fun t => t.mem.bytes (coreMemBase 0 0 + 0x100) 8 == leBytes 8 0x8000000000007788) = true ∧
    (let c : Core := { cre [] with st := (Vector.replicate 8 {}).set 2 ⟨0x10000, true, 3, 0, 0, []⟩ }
     let m := withBytes (sAt acc c) (coreMemBase 0 0 + 0x10000) 12 0x000000008000000100000000B4
     leads (.fbadv gT .next 3 2) (withBytes (sAt acc c) (coreMemBase 0 0 + 0x10000) 12 0x80000001000000B4)
        (fun t => t.me.rg 3 == 0xB4 && t.me.st[2].j == 1 && t.me.st[2].off == 4) = true ∧
     leads (.fbadv gT .next 3 2) (m.setMe { c with st := c.st.set 2 ⟨0x10000, true, 3, 1, 4, [(1, 0x80000001)]⟩ })
        (fun t => t.me.rg 3 == 0x480000001 && t.me.st[2].j == 2 && t.me.st[2].off == 6) = true ∧
     leads (.fbend gT 1 2) (sAt acc { c with st := c.st.set 2 ⟨0x10000, true, 3, 3, 6, []⟩ }) (fun t => t.me.rp 1 == -1) = true) := by
  decide +kernel

/-! ## Small states of stations -/

/-- A launch of context 7 that runs on core 0 of die 0. -/
def lau : Launch :=
  { lid := 5, recno := 0, bytes := [], st := .running, cls := 0, ctx := 7, cfgid := 1, since := 0, ageAt := 0, dev := false, source := 0
    deps := [], regions := [⟨0, 0, 1, 1⟩], placed := [⟨0, 0, 1, 1⟩] }

/-- A tag of context 7 with base b at level 1. -/
def tg1 (b : Nat) : DWord := setTagFld (setTagCtx 0 7) 1 b

/-- A token on [b, b + n) of level 1 at context 7. -/
def tkn (sh : Shape) (ty : Fmt) (b n : Nat) (lanes : List Word) : Token :=
  { stn := 9, slot := 3, port := 0, act := 0, shape := sh, ty, level := 0, n, exp := 127, tag := tg1 b, lanes }

/-- Station 9 with context 7 and other entries, its issue queue's head on [b, b + n) of slot 3 with tokens at L, R and P. -/
def sStn (b n : Nat) (l : List Token) (r : List Token := []) (p : List Token := []) (c : Ctx := {}) (x : Station := {}) : State :=
  let e (t : Token) : Entry := ⟨1, .normal, t, 9⟩
  let st : Station := { x with
    ctxs := (Vector.replicate 4 {}).set 1 { c with tag := some 7, cfgid := 1, lid := some 5 }
    issueq := [⟨1, 3, tg1 b, b, n, l.map e, r.map e, p.map e, 0⟩] }
  { (State.reset.setStn 9 st) with launches := [lau], curStn := 9 }

/-- A head of level 1 with one destination, slot 2 of station 12, port L. -/
def hd0 (ar : BitVec 2) (op : BitVec 3 := 0) : Head := ⟨ar, op, 0, some ⟨12, 2, 0, 0⟩, none⟩

/-- Both destinations: slots 2 and 4 of stations 12 and 13. -/
def hd2 (ar : BitVec 2) (op : BitVec 3 := 0) : Head := ⟨ar, op, 0, some ⟨12, 2, 0, 0⟩, some ⟨13, 4, 0, 0⟩⟩

/-- The tokens that an instruction sends: station, base at their level, length, lanes. -/
def sentBy (i : Instr) (s : State) : List (Nat × Nat × Nat × List Word) :=
  ((nextOf (exec i s)).map fun t => t.net.map fun f => (f.tok.stn.toNat, tagFld f.tok.tag (f.tok.level.toNat + 1), f.tok.n, f.tok.lanes)).getD []

/-- A dense token of INT8 lanes. -/
def dn (b : Nat) (v : List Word) : Token := tkn .dense .int8 b v.length v

/-- The worked case after Table 10-3. -/
theorem test_reshaping :
    [(sentBy (.pack (hd0 1) .int8) (sStn 0 8 [dn 0 [5, 5, 5, 0, 0, 7, 7, 7]]) == [(12, 0, 3, [5]), (12, 3, 2, [0]), (12, 5, 3, [7])]),
      (sentBy (.expand (hd0 1) .int8) (sStn 0 40 [tkn .run .int8 0 40 [3]]) == [(12, 0, 32, List.replicate 32 3), (12, 32, 8, List.replicate 8 3)]),
      (sentBy (.rsplit (hd0 1) .int8 16) (sStn 10 30 [tkn .run .int8 10 30 [3]]) == [(12, 10, 6, [3]), (12, 16, 16, [3]), (12, 32, 8, [3])]),
      (sentBy (.rlen (hd0 1)) (sStn 16 16 [tkn .run .int8 16 16 [3]]) == [(12, 16, 1, [16])])].all id = true := by decide +kernel

/-- Passing and steering (R228 to R231, R233, R239, R240). -/
theorem test_passing :
    [(sentBy (.pass (hd2 1) .int8) (sStn 4 2 [dn 4 [8, 9]]) == [(12, 4, 2, [8, 9]), (13, 4, 2, [8, 9])]),
      (sentBy (.steer (hd2 2) .int8) (sStn 0 4 [dn 0 [1, 2, 3, 4]] [dn 0 [0, 0, 1, 0]]) == [(13, 0, 2, [1, 2]), (12, 2, 1, [3]), (13, 3, 1, [4])]),
      (sentBy (.merge (hd0 2) .int8) (sStn 0 1 [tkn .scalar .int8 0 1 [6]]) == [(12, 0, 1, [6])]),
      (sentBy (.gate (hd0 2) .int8) (sStn 1 2 [dn 0 [1, 2, 3, 4]] [dn 1 [0, 0]]) == [(12, 1, 2, [2, 3])]),
      (sentBy (.const (hd0 1) .int8 0 0x85) (sStn 4 2 [dn 4 [8, 9]]) == [(12, 4, 2, [0xFFFFFF85])]),
      (sentBy (.wadv (hd0 1 3) .int8) (sStn 65535 1 [tkn .scalar .int8 65535 1 [1]]) == [(12, 0, 1, [1])]),
      (sentBy (.tset (hd0 2) .int8 0) (sStn 4 1 [tkn .scalar .int8 4 1 [1]] [tkn .scalar .uint32 4 1 [100]]) == [(12, 100, 1, [1])]),
      (sentBy (.tget (hd0 1) 0) (sStn 4 2 [dn 4 [8, 9]]) == [(12, 4, 2, [4, 5])]),
      (sentBy (.tget (hd0 1) 4) (sStn 4 2 [dn 4 [8, 9]]) == [(12, 4, 2, [7, 7])])].all id = true := by decide +kernel

/-- NEST and UNNEST (R237, R238), JOIN (R232), SINK and PURGE (R234, R235). -/
theorem test_levels_and_counts :
    [(sentBy (.nest { hd0 1 1 with level := 0 } .int8) (sStn 4 2 [dn 4 [8, 9]]) == [(12, 0, 1, [8]), (12, 0, 1, [9])]),
      (sentBy (.join (hd0 1) 4) (sStn 2 2 [dn 2 [8, 9]] (x := { store := [⟨1, .interval, dn 0 [6, 7], 8⟩] })) == [(12, 0, 1, [4])]),
      (leads (.sink ⟨1, 0, 0, none, none⟩ .int8 4) (sStn 2 2 [dn 2 [8, 9]] (c := { sinks := [(3, 1)] })) (fun t => (t.stn 9).ctxs[1].sinks == [(3, 3)])),
      (leads (.purge { hd0 1 with d0 := some ⟨12, 2, 0, 2⟩ } .int8) (sStn 2 2 [dn 2 [8, 9]]) (fun t => t.net.map (·.tok.act) == [2]))].all id = true := by
  decide +kernel

/-- Integer slots (R252 to R257) by hand: wrap, saturation, high half, form of IMAC, shift counts, compares. -/
theorem test_integer_slots :
    [(sentBy (.iadd (hd0 2) .int8 0 0) (sStn 0 2 [dn 0 [127, 0xFFFFFF80]] [dn 0 [1, 0xFFFFFFFF]]) == [(12, 0, 2, [0xFFFFFF80, 127])]),
      (sentBy (.iadd (hd0 2) .int8 1 0) (sStn 0 2 [dn 0 [127, 0xFFFFFF80]] [dn 0 [1, 0xFFFFFFFF]]) == [(12, 0, 2, [127, 0xFFFFFF80])]),
      (sentBy (.isub (hd0 1) .uint8 1 5) (sStn 0 1 [tkn .scalar .uint8 0 1 [3]]) == [(12, 0, 1, [0])]),
      (sentBy (.imul (hd0 2) .int8 2 0) (sStn 0 1 [dn 0 [0xFFFFFFFF]] [dn 0 [100]]) == [(12, 0, 1, [0xFFFFFFFF])]),
      (sentBy (.imin (hd0 1) .int8 0xFF) (sStn 0 2 [dn 0 [3, 0xFFFFFFF0]]) == [(12, 0, 2, [0xFFFFFFFF, 0xFFFFFFF0])]),
      (sentBy (.imax (hd0 1) .uint8 7) (sStn 0 1 [tkn .scalar .uint8 0 1 [3]]) == [(12, 0, 1, [7])]),
      (sentBy (.iabs (hd0 1) .int8 1) (sStn 0 2 [dn 0 [0xFFFFFF80, 0xFFFFFFFB]]) == [(12, 0, 2, [127, 5])]),
      (sentBy (.logic (hd0 1) .int8 3 0x0C) (sStn 0 1 [dn 0 [10]]) == [(12, 0, 1, [2])]),
      (sentBy (.icmp (hd0 2) .int8 2 0) (sStn 0 2 [dn 0 [0xFFFFFFFF, 2]] [dn 0 [1, 1]]) == [(12, 0, 2, [1, 0])]),
      (sentBy (.slotBitc (hd0 1) .int8 0) (sStn 0 1 [dn 0 [0xFFFFFFFF]]) == [(12, 0, 1, [8])])].all id = true := by decide +kernel

/-- Floating slots, CVT and DQNT by hand (R258 to R263, R266): 1.0 + 2^-24 under RNE and RUP, 1.5 * 2, an ordered compare with NaN. -/
theorem test_float_slots :
    [(sentBy (.fadd (hd0 2) .fp32 0 false 0) (sStn 0 1 [tkn .scalar .fp32 0 1 [0x3F800000]] [tkn .scalar .fp32 0 1 [0x33800000]]) == [(12, 0, 1, [0x3F800000])]),
      (sentBy (.fadd (hd0 2) .fp32 2 false 0) (sStn 0 1 [tkn .scalar .fp32 0 1 [0x3F800000]] [tkn .scalar .fp32 0 1 [0x33800000]]) == [(12, 0, 1, [0x3F800001])]),
      (sentBy (.fadd (hd0 1) .fp32 0 true 0x3F800000) (sStn 0 1 [tkn .scalar .fp32 0 1 [0x40000000]]) == [(12, 0, 1, [0x3F800000])]),
      (sentBy (.fmul (hd0 1) .bf16 0 0x4000) (sStn 0 1 [tkn .scalar .bf16 0 1 [0x3FC0]]) == [(12, 0, 1, [0x4040])]),
      (sentBy (.fmin (hd0 1) .fp32 0 0x3F800000) (sStn 0 1 [tkn .scalar .fp32 0 1 [0x7FC00000]]) == [(12, 0, 1, [0x3F800000])]),
      (sentBy (.fmax (hd0 1) .fp32 0 0x80000000) (sStn 0 1 [tkn .scalar .fp32 0 1 [0]]) == [(12, 0, 1, [0])]),
      (sentBy (.fcmp (hd0 1) .fp32 6 0x3F800000) (sStn 0 1 [tkn .scalar .fp32 0 1 [0x7FC00000]]) == [(12, 0, 1, [1])]),
      (sentBy (.cvt (hd0 1) .e4m3 0 false) (sStn 0 1 [tkn .scalar .fp32 0 1 [0x40280000]]) == [(12, 0, 1, [0x42])]),
      (sentBy (.dqnt (hd0 1) .fp32 0 1) (sStn 0 1 [tkn .scalar .bsi8 0 1 [0xFFFFFFFD]]) == [(12, 0, 1, [0xC0C00000])]),
      (sentBy (.sel (hd0 3) .int8) (sStn 0 2 [dn 0 [1, 2]] [dn 0 [3, 4]] [dn 0 [0, 1]]) == [(12, 0, 1, [3]), (12, 1, 1, [2])])].all id = true := by decide +kernel

/-- Blocks (R264 to R268): Table 11-2, its two rows; the sum and the extremes of a block; an inclusive scan of a first block. -/
theorem test_blocks :
    let blk (x2 : Word) : List Token := [tkn .dense .fp32 0 32 ([0x40400000, 0xBFA00000, x2, 0x3C23D70A] ++ List.replicate 28 0)]
    let q (x2 : Word) : List (Nat × List Word) :=
      ((nextOf (exec (.bqnt (hd0 1) .bsi8 0 32) (sStn 0 32 (blk x2)))).map fun t => t.net.map fun f => (f.tok.exp.toNat, f.tok.lanes.take 4)).getD []
    [(q 0x42C80000 == [(127, [3, 0xFFFFFFFF, 100, 0])]),
      (q 0x42FF3333 == [(128, [2, 0xFFFFFFFF, 64, 0])]),
      (sentBy (.redu (hd0 1) .int8 0 4) (sStn 0 4 [dn 0 [100, 27, 1, 0]]) == [(12, 0, 1, [0xFFFFFF80])]),
      (sentBy (.redu (hd2 1) .int8 6 4) (sStn 0 4 [dn 0 [3, 9, 9, 0xFFFFFFF0]]) == [(12, 0, 1, [9]), (13, 0, 1, [1])]),
      (sentBy (.scan (hd0 1) .int8 0 4) (sStn 0 4 [dn 0 [1, 2, 3, 4]]) == [(12, 0, 4, [1, 3, 6, 10])]),
      (sentBy (.scan (hd0 1) .int8 1 4) (sStn 0 4 [dn 0 [1, 2, 3, 4]]) == [(12, 0, 4, [0, 1, 3, 6])])].all id = true := by decide +kernel

/-! ## States that meet the statements' hypotheses -/

theorem ok_of_toOption {ε α : Type} {r : Except ε α} {l : α} : r.toOption = some l → r = .ok l :=
  match r with
  | .ok _ => fun h => congrArg _ (Option.some.inj h)
  | .error _ => nofun

/-- The fault of an access. -/
def faultOf {α : Type} : Except FI α → Option FI
  | .error f => some f
  | .ok _ => none

theorem error_of_faultOf {α : Type} {r : Except FI α} {f : FI} : faultOf r = some f → r = .error f :=
  match r with
  | .ok _ => nofun
  | .error _ => fun h => congrArg _ (Option.some.inj h)

theorem exists_ok {ε α : Type} {r : Except ε α} (h : r.toOption.isSome = true) : ∃ l, r = .ok l :=
  ⟨r.toOption.get h, ok_of_toOption (Option.some_get h).symm⟩

/-- A core's state with two megabytes of device memory mapped at 2^32 of context 7, from PA 0, under key 1. -/
def sDev (a : Agent) (c : Core) : State :=
  { sAt a c with tlb := [⟨0, 7, 2 ^ 32, 2 ^ 21, 0, 0, true⟩], keys := [(0, 1)], launches := [lau] }

/-- An address of that memory. -/
def dv (n : Nat) : DWord := BitVec.ofNat 64 (2 ^ 32 + n)

theorem test_resolve : (sDev acc (cre [])).access (sDev acc (cre [])).whoMe (2 ^ 32 + 0x40) 4 4 true = .ok ⟨.dev, 0x40, 1, []⟩ :=
  ok_of_toOption (by decide +kernel)

/-- A core with registers for the scalar statements. -/
def sA : State := sAt acc (cre [(1, 5), (2, 0xFFFFFFFFFFFFFFFF)])

/-- RegisterFiles, ScalarResults, DivRemEdges and PredicateResults: registers that are and are not g0, every form, a true guard and a
negated one. -/
theorem test_wit_scalar :
    (31 : GReg) ≠ 0 ∧ (0 : GReg) ≠ 31 ∧ (7 : PReg) ≠ 0 ∧ (0 : PReg) ≠ 7 ∧ sA.me.guard gT = true ∧ sA.me.guard ⟨3, true⟩ = true ∧
    ([.addR gT 3 1 2, .addI gT 0 1 5, .subR gT 3 1 2, .subI gT 3 1 5, .mulR gT 3 1 2, .mulI gT 3 1 5, .mulhR gT true 3 1 2, .mulhI gT 3 1 5,
      .andR gT 3 1 2, .andI gT 3 1 5, .orR gT 3 1 2, .orI gT 3 1 5, .xorR gT 3 1 2, .xorI gT 3 1 5, .andnR gT 3 1 2, .andnI gT 3 1 5,
      .shlR gT 3 1 2, .shlI gT 3 1 5, .shrR gT 3 1 2, .shrI gT 3 1 5, .sraR gT 3 1 2, .sraI gT 3 1 5, .minR gT false 3 1 2, .minI gT 3 1 5,
      .maxR gT true 3 1 2, .maxI gT 3 1 5, .sltR gT true 3 1 2, .sltI gT 3 1 5] : List Instr).all (fun i => (scalarSpec sA i).isSome) = true := by
  decide +kernel

/-- FalseGuardNoEffect: a well-formed instruction and a LIMM pair with a false guard and no prefix left over. -/
theorem test_wit_false_guard :
    (Instr.addR ⟨1, false⟩ 3 1 2).wf = true ∧ guardOf (.addR ⟨1, false⟩ 3 1 2) = some ⟨1, false⟩ ∧ sA.limm = none ∧
    sA.me.guard ⟨1, false⟩ = false ∧ sA.me.guard ⟨0, true⟩ = false ∧ (Instr.limm 7 (.addI ⟨1, false⟩ 3 1 2)).wf = true ∧
    guardOf (.limm 7 (.addI ⟨1, false⟩ 3 1 2)) = some ⟨1, false⟩ := by decide +kernel

/-- LimmPairs: a pair and a word that takes no prefix. ControlTransfer, LoopForms and BackEdgeTest: targets that are and are not
aligned, a count of 0, and each way an end is met. -/
theorem test_wit_control :
    let c (l0 l1 e0 e1 : DWord) : Core := { cre [] with lc := #v[l0, l1], ls := #v[4, 8], le := #v[e0, e1] }
    limmWf 5 (.addI gT 3 1 2) = true ∧ limmWf 5 (.rte gT) = false ∧ (sA.me.rg 0).toNat % 4 = 0 ∧ (sA.me.rg 1).toNat % 4 ≠ 0 ∧
    sA.me.rg 0 = 0 ∧ sA.me.rg 2 ≠ 0 ∧
    (loopHit (c 0 2 0 12) 1 12 ∧ (c 0 2 0 12).lc[1] - 1 ≠ 0) ∧
    (loopHit (c 2 1 12 12) 1 12 ∧ (c 2 1 12 12).lc[1] - 1 = 0 ∧ loopHit (c 2 1 12 12) 0 12 ∧ (c 2 1 12 12).lc[0] - 1 ≠ 0) ∧
    (loopHit (c 1 1 12 12) 1 12 ∧ (c 1 1 12 12).lc[1] - 1 = 0 ∧ loopHit (c 1 1 12 12) 0 12 ∧ (c 1 1 12 12).lc[0] - 1 = 0) ∧
    (loopHit (c 1 1 0 12) 1 12 ∧ (c 1 1 0 12).lc[1] - 1 = 0 ∧ ¬loopHit (c 1 1 0 12) 0 12) ∧
    (¬loopHit (c 2 0 12 12) 1 12 ∧ loopHit (c 2 0 12 12) 0 12 ∧ (c 2 0 12 12).lc[0] - 1 ≠ 0) ∧
    (¬loopHit (c 1 0 12 12) 1 12 ∧ loopHit (c 1 0 12 12) 0 12 ∧ (c 1 0 12 12).lc[0] - 1 = 0) ∧
    (¬loopHit (c 0 0 12 12) 1 12 ∧ ¬loopHit (c 0 0 12 12) 0 12) := by
  unfold loopHit; decide +kernel

/-- A core with device addresses: g1 at 0x80 of the mapping, g2 misaligned, g3 unmapped, g4 local. -/
def cDev : Core := cre [(1, dv 0x80), (2, dv 0x81), (3, dv (2 ^ 22)), (4, 0x100)]
/-- Its state. -/
def sD : State := sDev acc cDev

/-- A write of the access core that die 1 has not applied. -/
def owed : PendW := { id := 1, co := 1, cells := [(0, 0)], deps := [], agent := agentIdx acc, todo := 2 }
/-- A store of the access core to that line that is on its way. -/
def gone : Fly :=
  { id := 1, agent := acc, lid := some 5, loc := ⟨.dev, 0x80, 1, []⟩, n := 4, kind := .store [0, 0, 0, 0], deps := [], rel := none }
/-- The same with no key loaded. -/
def sNoKey : State := { sD with keys := [] }

/-- LoadResults and StoreResults: a place that resolves, in device memory and in core memory, one that is misaligned and one that is
not mapped; the line's own key; with and without a write to wait for. -/
theorem test_wit_memory :
    sD.me.guard gT = true ∧ sD.access sD.whoMe (sD.addrM 1) 128 128 true = .ok ⟨.dev, 0x80, 1, []⟩ ∧
    sD.access sD.whoMe (sD.addrM 4) 8 8 true = .ok ⟨.local_, coreMemBase 0 0 + 0x100, 0, []⟩ ∧
    sD.access sD.whoMe (sD.addrM 2) 2 2 false = .error { cls := 2, addr := 2 ^ 32 + 0x81 } ∧
    faultOf (sD.access sD.whoMe (sD.addrM 3) 4 4 true) ≠ none ∧ sD.resolve sD.whoMe (sD.addrM 1) 1 false = .ok ⟨.dev, 0x80, 1, []⟩ ∧
    sD.resolve sD.whoMe (sD.addrM 4) 1 false = .ok ⟨.local_, coreMemBase 0 0 + 0x100, 0, []⟩ ∧
    MustWait sD true .dev ⟨.dev, 0x80, 1, []⟩ = false ∧
    MustWait { sD with pend := [owed] } true .dev ⟨.dev, 0x80, 1, []⟩ = true ∧ sD.late = false ∧ May sD ⟨.dev, 0x80, 1, []⟩ 128 = true ∧
    May { sD with flying := [gone] } ⟨.dev, 0x80, 1, []⟩ 128 = false ∧
    (faultOf (sNoKey.resolve sNoKey.whoMe (sNoKey.addrM 1) 1 false)).map (·.cls) = some 4 ∧
    (sNoKey.page 0 sNoKey.me.ctx (sNoKey.addrM 1).toNat).toOption.isSome = true ∧
    (faultOf (sD.resolve sD.whoMe (sD.addrM 3) 1 false)).map (·.cls) = some 3 ∧
    InLine ⟨.dev, 0x80, 1, []⟩ 128 ∧ OwnKey sD ⟨.dev, 0x80, 1, []⟩ ∧ sD.Inv ∧ (sD.view 0 ⟨.dev, 0x80, 1, []⟩ 128).length = 128 := by
  refine ⟨?_, ok_of_toOption (by decide +kernel), ok_of_toOption (by decide +kernel), error_of_faultOf (by decide +kernel), ?_,
    ok_of_toOption (by decide +kernel), ok_of_toOption (by decide +kernel), ?_, ?_, ?_, ?_, ?_, ?_, ?_, ?_, ?_, ?_, ?_, ?_⟩ <;> try decide +kernel
  · unfold InLine; decide +kernel
  · unfold OwnKey; decide +kernel
  · unfold State.Inv; decide +kernel

/-- GatherScatter: lane j at g4 + 4j for every lane, which may be performed, and one that may not; an active lane that is misaligned, the
only one and so the first. -/
theorem test_wit_lanes :
    let v : Vector Word 32 := Vector.ofFn fun j => BitVec.ofNat 32 (4 * j.val)
    let s : State := sDev acc { cDev with v := (Vector.replicate 16 (Vector.replicate 32 0)).set 1 v, p := (Vector.replicate 8 0).set 2 1 }
    let place (j : Fin 32) : Loc := ⟨.local_, coreMemBase 0 0 + 0x100 + 4 * j.val, 0, []⟩
    (∀ (wr : Bool) (j : Fin 32), s.access s.whoMe (((s.me.rg 4).toNat + ((s.me.rv 1)[j]).toNat : Nat) : Int) 4 4 wr = .ok (place j)) ∧
    (∀ j : Fin 32, (place j).space = .local_ ∧ (place j).at_ % 4 = 0) ∧ (s.me.rp 0).getLsbD 31 = true ∧ (s.me.rp 2).getLsbD 1 = false ∧
    s.late = false ∧ ({ s with late := true } : State).late = true ∧ (∀ j, May s (place j) 4 = true) ∧
    May { s with flying := [{ gone with loc := place 3 }] } (place 3) 4 = false ∧
    (∀ wr : Bool, ∃ f : FI, FirstLane (fun j => s.access s.whoMe (((s.me.rg 2).toNat + ((s.me.rv 1)[j]).toNat : Nat) : Int) 4 4 wr)
      (fun j => (s.me.rp 2).getLsbD j.val) 0 f) := by
  refine ⟨fun wr j => ok_of_toOption (by revert wr j; decide +kernel), ?_, ?_, ?_, ?_, rfl, ?_, ?_, ?_⟩ <;> try decide +kernel
  · intro wr
    cases wr <;>
    · refine ⟨⟨2, 2 ^ 32 + 0x81, 0, 0⟩, by decide +kernel, error_of_faultOf (by decide +kernel), fun i g h hg => ?_⟩
      obtain rfl : i = 0 := (by decide +kernel : ∀ i : Fin 32, (1 : Word).getLsbD i.val = true → i = 0) i h
      obtain rfl : g = ⟨2, 2 ^ 32 + 0x81, 0, 0⟩ := Option.some.inj ((congrArg faultOf hg).symm.trans (by decide +kernel))
      exact Or.inr ⟨rfl, Nat.le_refl _⟩

/-- CopiesAndDrains: a length of 2^32 and one more; locators of rows of a helper core and of a collier, the last ones; a locator that is
none; a table range that ends at the last entry; and each kind of outstanding copy. -/
theorem test_wit_copies :
    let op (k : EngKind) : State := { sD with engine := [⟨1, acc, 7, some 5, 0, 0, k, [], false⟩] }
    (BitVec.ofNat 64 (2 ^ 32)).toNat ≤ 2 ^ 32 ∧ 2 ^ 32 < (BitVec.ofNat 64 (2 ^ 32 + 1)).toNat ∧
    AccRows sD 0x7FF 1 63 31 ∧ AccRows (sAt col (cre [])) 0x3FFFF 1 8191 31 ∧ (¬∃ stn row, AccRows sD 0 33 stn row) ∧ (dv 0x81).toNat % 8 ≠ 0 ∧
    (dv 0x80).toNat % 8 = 0 ∧ (63 < 64 ∧ 127 < 128 ∧ 1 ≤ 1 ∧ 8191 + 1 ≤ 8192 ∧ (8191 * 2 ^ 13 + 127 * 64 + 63 : Nat) < 2 ^ 64) ∧
    (sAt col (cre [])).cur.kind = .collier ∧ sD.cur.kind ≠ .collier ∧ (∀ e ∈ sD.engine, e.agent ≠ sD.cur) ∧
    (∃ e ∈ (op (.mem 0x100 0x200 8)).engine, e.agent = sD.cur ∧ e.kind = .mem 0x100 0x200 8) ∧
    (∃ e ∈ (op (.tbl 0 0 1 0)).engine, e.agent = sD.cur ∧ e.kind = .tbl 0 0 1 0) ∧
    (∃ e ∈ (op (.ain 0 0 1 0)).engine, e.agent = sD.cur ∧ e.kind = .ain 0 0 1 0) ∧
    (∃ q ∈ (9 :: sD.me.fed), ∃ b ∈ (spGet {} (sD.setStn 9 { bg := [⟨.build, 0, 7, ⟨0, 0, 0, 0, 1, [], [], [], 0⟩, 0⟩] }).stations q).bg, b.kind = .build) := by
  refine ⟨?_, ?_, ⟨by omega, by omega, by omega, ?_⟩, ⟨by omega, by omega, by omega, ?_⟩, ?_, ?_, ?_, ?_, ?_, ?_, ?_, ?_, ?_, ?_, ?_⟩ <;> try decide +kernel
  · rw [if_neg (by decide +kernel)]; exact ⟨63, by decide +kernel, by decide +kernel, by decide +kernel⟩
  · rw [if_pos (by decide +kernel)]; exact ⟨127, 63, by decide +kernel, by decide +kernel, by decide +kernel, by decide +kernel⟩
  · rintro ⟨stn, row, h⟩; have := h.2.1; omega

/-- FibreStreams: counts of 2^32 - 1 and 2^32, a misaligned base, a closed stream, an empty word past the last, a word read ahead, and one
still to be read from a place that resolves, and one from a place that does not. -/
theorem test_wit_streams :
    let ahead : Stream := ⟨0x100, true, 3, 1, 4, [(1, 0xB4)]⟩
    let fresh : Stream := ⟨0x100, true, 3, 0, 0, []⟩
    let done : Stream := ⟨0x100, true, 3, 3, 9, []⟩
    (BitVec.ofNat 64 (2 ^ 32 - 1)).toNat < 2 ^ 32 ∧ 2 ^ 32 ≤ (BitVec.ofNat 64 (2 ^ 32)).toNat ∧ (dv 0x81).toNat % 4 ≠ 0 ∧
    (sD.me.st[0]).isOpen = false ∧ WordReady ahead 0xB4 ∧ WordReady done 0 ∧ fresh.j < fresh.n ∧ spFind fresh.words fresh.j.toNat = none ∧
    sD.access sD.whoMe (fresh.base.toNat + 4 * fresh.j.toNat : Nat) 4 4 false = .ok ⟨.local_, coreMemBase 0 0 + 0x100, 0, []⟩ ∧
    May sD ⟨.local_, coreMemBase 0 0 + 0x100, 0, []⟩ 4 = true ∧ faultOf (sD.access sD.whoMe (2 ^ 40 : Nat) 4 4 false) ≠ none := by
  refine ⟨by decide +kernel, by decide +kernel, by decide +kernel, by decide +kernel, Or.inr ?_, Or.inl ?_, by decide +kernel, by decide +kernel,
    ok_of_toOption (by decide +kernel), by decide +kernel, by decide +kernel⟩ <;> decide +kernel

/-- VectorLanes and VectorComparesAndReductions: every form, integer and float. -/
theorem test_wit_vectors :
    ([.vadd gT .int32 1 1 2 3 0, .vsub gT .uint32 0 1 2 3 0, .vmul gT .int32 2 1 2 3 0, .vfma gT .fp32 7 1 2 3 0, .vmin gT .bf16 1 1 2 3 0,
      .vmax gT .int32 0 1 2 3 0, .vlogic gT .int32 5 1 2 3 0, .vbcastG gT 1 0 2, .vbcastLane gT 1 2 0 31, .vcvt gT .int8 .fp32 3 true 1 2 0]
      : List Instr).all (fun i => i.wf && (laneForm i).isSome) = true ∧
    ([.vcmp gT .uint32 5 1 2 3 0, .vcmp gT .fp32 6 1 2 3 0, .vred gT .int32 5 1 2 0, .vred gT .bf16 2 1 2 0] : List Instr).all Instr.wf = true ∧
    sD.me.guard gT = true := by decide +kernel

/-- FloatArithmetic: an exact zero; a tiny magnitude; one in range; one beyond the largest; sums that are and are not 0. -/
theorem test_wit_floats :
    let one : Exact := ⟨false, 1, 0, false⟩
    let neg : Exact := ⟨true, 1, 0, false⟩
    let tiny : Exact := ⟨true, 1, -127, false⟩
    let big : Exact := ⟨false, 1, 128, false⟩
    let z (n : Bool) : Exact := ⟨n, 0, 0, false⟩
    one.sticky = false ∧ (∀ k, Rm.sr 65535 = .sr k → k < 2 ^ 16) ∧ (z true).mag = 0 ∧ tiny.mag ≠ 0 ∧
    (Nat.log2 tiny.mag : Int) + tiny.exp < FF.fp32.Emin ∧ ¬((Nat.log2 one.mag : Int) + one.exp < FF.fp32.Emin) ∧
    (roundFmt big .fp32 .rne false).2.getLsbD 2 = true ∧ (roundFmt one .fp32 .rne false).2.getLsbD 2 = false ∧
    one.exp = neg.exp ∧ one.mag = neg.mag ∧ one.neg ≠ neg.neg ∧ (z true).neg = true ∧ (z false).neg = false := by
  refine ⟨?_, ?_, ?_, ?_, ?_, ?_, ?_, ?_, ?_, ?_, ?_, ?_, ?_⟩ <;> try decide +kernel
  rintro k h; cases h; decide

/-- A device place for atomics and wide cells. -/
def pl (n : Nat) : Loc := ⟨.dev, n, 1, []⟩

/-- AtomicResults and WideCells: a place that resolves for a read-modify-write, one that does not; the die up to date and not; a release
that is held; the place of a wide cell, and each fault of an address that is none. -/
theorem test_wit_atomics :
    sD.accessRmw sD.whoMe (sD.addrM 1) 8 = .ok (pl 0x80) ∧ sD.accessRmw sD.whoMe ((sD.me.rg 1).toNat : Int) 4 = .ok (pl 0x80) ∧
    faultOf (sD.accessRmw sD.whoMe (sD.addrM 2) 8) ≠ none ∧ faultOf (sD.accessRmw sD.whoMe ((sD.me.rg 3).toNat : Int) 8) ≠ none ∧
    AtomMay sD (pl 0x80) 8 ∧ ¬UpToDate { sD with pend := [{ owed with cells := [(0x80, 0)], todo := 1 }] } 0 (pl 0x80) 8 ∧
    MustWait sD true .sys (pl 0x80) = false ∧ MustWait { sD with pend := [owed] } true .sys (pl 0x80) = true ∧
    WideAt sD (sD.addrM 1) true (pl 0x80) ∧ WideAt sD (sD.addrM 1) false (pl 0x80) ∧ WideFault sD (sD.addrM 2) true ⟨2, 2 ^ 32 + 0x81, 0, 0⟩ ∧
    WideFault sD (sD.addrM 4) true ⟨7, 0x100, 0, 0⟩ ∧ (∃ f, WideFault sD (sD.addrM 3) true f) ∧ InLine (pl 0x80) 32 ∧ OwnKey sD (pl 0x80) := by
  have up : UpToDate sD 0 (pl 0x80) 8 := by intro _ w h; cases h
  refine ⟨ok_of_toOption (by decide +kernel), ok_of_toOption (by decide +kernel), ?_, ?_, ⟨up, ?_⟩, ?_, ?_, ?_, ⟨?_, ?_, ok_of_toOption (by
    decide +kernel), rfl, ?_⟩, ⟨?_, ?_, ok_of_toOption (by decide +kernel), rfl, ?_⟩, ?_, ?_, ?_, ?_, ?_⟩ <;> try decide +kernel
  · intro h
    have := h (by decide) _ (List.mem_singleton.mpr rfl) (by decide) _ (List.mem_singleton.mpr rfl)
    revert this; decide
  · unfold WideFault; rw [if_pos (by decide +kernel)]; decide +kernel
  · unfold WideFault; rw [if_neg (by decide +kernel), if_pos (by decide +kernel)]; decide +kernel
  · unfold WideFault; simp only [show ¬sD.addrM 3 % 32 ≠ 0 by decide +kernel, show ¬(0 ≤ sD.addrM 3 ∧ sD.addrM 3 < 2 ^ 32) by decide +kernel, if_false]
    generalize hr : sD.resolve sD.whoMe (sD.addrM 3) 32 true = r
    cases r with
    | error g => exact ⟨g, rfl⟩
    | ok l =>
      have : (sD.resolve sD.whoMe (sD.addrM 3) 32 true).toOption = none := by decide +kernel
      rw [hr] at this; cases this
  · unfold InLine; decide +kernel
  · unfold OwnKey; decide +kernel

/-- MulticastStores: a local address, one not mapped, the first and the last port, a port that is none, and a release that is held. -/
theorem test_wit_multicast :
    let far (p : Nat) : DWord := BitVec.ofNat 64 (p * 2 ^ 56 + 0x40)
    (dv 0x80).toNat / 2 ^ 56 = 0 ∧ sD.access sD.whoMe ((dv 0x80).toNat : Int) 4 4 true = .ok (pl 0x80) ∧
    faultOf (sD.access sD.whoMe ((dv (2 ^ 22)).toNat : Int) 4 4 true) ≠ none ∧ (far 1).toNat / 2 ^ 56 = (0 : Fin 18).val + 1 ∧
    (far 18).toNat / 2 ^ 56 = (17 : Fin 18).val + 1 ∧ 19 ≤ (far 19).toNat / 2 ^ 56 ∧ (∀ q : Fin 18, sD.peers[q].up = true) ∧
    ({ sD with pend := [owed] } : State).ownPending (agentIdx sD.cur) = true ∧
    (∃ r, sD.replica (dv 0x80) 4 = .ok r) ∧ hereOf (.here (pl 0x80)) = some (pl 0x80) ∧ MustWait sD true .sys ⟨.dev, 0, 0, []⟩ = false ∧
    (∀ q : Fin 18, sD.peers[q].txseq < 2 ^ 32) := by
  refine ⟨?_, ok_of_toOption (by decide +kernel), ?_, ?_, ?_, ?_, ?_, ?_, exists_ok (by decide +kernel), rfl, ?_, ?_⟩ <;> try decide +kernel

/-- FencesAndBarriers: nothing to wait for at any scope, a write of its own, an access on its way, a copy in its engine; a core that has
not yet registered, one that waits and one that goes on; a launch's cores waiting. -/
theorem test_wit_fences :
    let w : State := { sD with pend := [owed] }
    let g : State := { sD with flying := [gone] }
    let e : State := { sD with engine := [⟨1, acc, 7, some 5, 0, 0, .mem 0x100 0x200 8, [], false⟩] }
    let b (x : Wait) : State := sAt acc { cre [] with wait := x }
    (∀ sc, Reached sD sc) ∧ AllApplied sD (engKey sD.cur) ∧ Unapplied sD (agentIdx acc) [] ∧ ¬Reached w .dev ∧ ¬Reached g .die ∧
    (∀ o ∈ sD.engine, o.agent ≠ sD.cur) ∧ (¬∀ o ∈ e.engine, o.agent ≠ e.cur) ∧ (b (.bar .all true)).me.wait = .bar .all true ∧
    (b .none).me.wait = .none ∧ (b .none).me.guard gT = true ∧ (sAt col (cre [])).cur.kind = .collier ∧
    (b (.bar .all false)).cores.any (fun p => p.2.lid == some 5 && p.2.wait == .bar .all false) = true ∧ (b .none).me.lid = some 5 := by
  have none_ : NoneFlies sD := by intro f h; cases h
  have loads : NoLoadFlies sD := by intro f h; cases h
  have all (k : Nat) : AllApplied sD k := ⟨by intro f h; (cases h), by intro w h; cases h⟩
  have peers : PeersDone sD := by
    intro q hq w hw
    have : ∀ q ∈ sD.peers.toList, q.waiting = [] := by decide +kernel
    rw [this q hq] at hw; cases hw
  refine ⟨?_, all _, ?_, ?_, ?_, ?_, ?_, ?_, ?_, ?_, ?_, ?_, ?_⟩ <;> try decide +kernel
  · intro sc
    cases sc with
    | stn => trivial
    | core => exact loads
    | die => exact none_
    | dev => exact all _
    | sys => exact ⟨all _, peers⟩
  · intro id; constructor
    · intro h; cases h
    · rintro ⟨_, ⟨_, h, _⟩ | ⟨_, h, _⟩⟩ <;> cases h
  · intro h; exact absurd (h.2 _ (List.mem_singleton.mpr rfl) rfl) (by decide)
  · intro h; exact h _ (List.mem_singleton.mpr rfl) rfl

/-- ProgressCounters: the last counter and the first number that is none; a threshold that is met, one that is not; a message that may be
performed; a value on its way to a replica. -/
theorem test_wit_counters :
    let s : State := { sD with cmsgs := [⟨0, 16383, true, 1, []⟩] }
    (0x3FFF : DWord).toNat < 16384 ∧ 16384 ≤ (0x4000 : DWord).toNat ∧ ((2 : DWord) - 2).toNat < 2 ^ 63 ∧
    2 ^ 63 ≤ ((0xFFFFFFFFFFFFFFFE : DWord) - 2).toNat ∧ sD.me.wait = .none ∧ s.cmsgs[0]? = some ⟨0, 16383, true, 1, []⟩ ∧
    (({ (sD.setDie 3 { sD.die 3 with rmsgs := [(16383, 9)] }) with limm := none } : State).die 3).rmsgs = [(16383, 9)] := by decide +kernel

/-- sD with bytes at a device place, written under its key. -/
def devBytes (s : State) (n k v : Nat) : State := s.putHome (pl n) (leBytes k v)

/-- A device queue of 16 slots at 0x100, its entry at 0x140. -/
def sQ (pub tail head : Nat) : State :=
  devBytes (sDev acc (cre [(1, dv 0x100), (2, dv 0x140), (3, dv 0x101)])) 0x100 32 (4 * 2 ^ 132 + pub * 2 ^ 96 + tail * 2 ^ 64 + head * 2 ^ 32)

/-- DeviceQueues: a descriptor with good values and with none; a full queue and one with room, an empty one, a slot unpublished and
published; the die up to date and not; operands that are not aligned; a place in core memory and one that is not mapped. -/
theorem test_wit_queues :
    let D (s : State) : Nat := leValue (s.home (pl 0x100) 32)
    let w : State := { sQ 3 3 0 with pend := [{ owed with cells := [(0x104, 0)], todo := 1, agent := agentIdx dra }] }
    DescAt (sQ 16 16 0) (dv 0x100).toNat (dv 0x140).toNat (pl 0x100) (D (sQ 16 16 0)) ∧ DescGood (D (sQ 16 16 0)) ∧ ¬DescGood (2 ^ 188) ∧
    fld (D (sQ 16 16 0)) 95 64 = 16 ∧ fld (D (sQ 16 15 0)) 95 64 = 15 ∧ fld (D (sQ 16 15 0)) 63 32 = 0 ∧
    fld (D (sQ 2 3 2)) 63 32 = fld (D (sQ 2 3 2)) 127 96 ∧ fld (D (sQ 3 3 2)) 63 32 ≠ fld (D (sQ 3 3 2)) 127 96 ∧
    HomeMay (sQ 3 3 0) (pl 0x100) 32 ∧ ¬HomeMay w (pl 0x100) 32 ∧ (sQ 3 3 0).me.wait = .none ∧ (dv 0x101).toNat % 32 ≠ 0 ∧
    (dv 0x100).toNat % 32 = 0 ∧ (dv 0x140).toNat % 64 = 0 ∧ faultOf (sD.access sD.whoMe (dv (2 ^ 22)).toNat 32 32 true) ≠ none ∧
    (0x100 : Nat) % 32 = 0 ∧ sD.access sD.whoMe 0x100 32 32 true = .ok ⟨.local_, coreMemBase 0 0 + 0x100, 0, []⟩ := by
  refine ⟨⟨?_, ?_, ok_of_toOption (by decide +kernel), rfl, ?_, rfl, ?_⟩, ?_, ?_, ?_, ?_, ?_, ?_, ?_, ⟨?_, ?_⟩, ?_, ?_, ?_, ?_, ?_, ?_, ?_,
    ok_of_toOption (by decide +kernel)⟩ <;> try decide +kernel
  · unfold DescGood; decide +kernel
  · unfold DescGood; decide +kernel
  · intro _ w h; have : (sQ 3 3 0).pend = [] := by decide +kernel
    rw [this] at h; cases h
  · rintro ⟨h, _⟩
    have := h (by decide) _ (List.mem_singleton.mpr rfl) (by decide +kernel) _ (List.mem_singleton.mpr rfl)
    revert this; decide +kernel

/-- A core whose launch was given batch 3 of queue 5. -/
def sB (held : List EqBatch) : State :=
  let desc := 3 * 2 ^ 32 + 2 ^ 16 + 5
  { sDev acc (cre [(1, BitVec.ofNat 64 desc), (2, dv 0x100), (3, dv 0x101)]) with
    launches := [{ lau with batch := some (5, 3), bytes := leBytes 256 (desc * 2 ^ 512) }], eqs := [(5, { en := true, batches := held })] }

/-- ExpertQueueInstructions: the last queue and the first number that is none; a block at the ends of its ranges and one of zeros; a change
that is forbidden; a batch that is its own, untaken, taken, and one that is not its own. -/
theorem test_wit_expert :
    let B := 1 + 512 * 2 ^ 64 + 512 * 2 ^ 80 + 2 ^ 96
    let busy : EQueue := { en := true, recno := 1, entries := [⟨0, 0, .chip 0, none⟩] }
    (2047 : DWord).toNat < 2048 ∧ 2048 ≤ (2048 : DWord).toNat ∧ EqBlock B ∧ ¬EqBlock 0 ∧ EqBusy busy B ∧ ¬EqBusy {} B ∧
    leValue ((devBytes sD 0x80 32 B).view 0 (pl 0x80) 32) = B ∧ sD.access sD.whoMe (dv 0x80).toNat 32 32 false = .ok (pl 0x80) ∧
    faultOf (sD.access sD.whoMe (dv 0x81).toNat 32 32 false) ≠ none ∧
    OwnBatch (sB []) ((sB []).me.rg 1) ∧ ¬OwnBatch (sB []) ((sB []).me.rg 2) ∧
    ((sB []).eq 5).batches.find? (fun y => decide (y.bseq = 3) && !y.taking) = none ∧
    ((sB [⟨3, 1, false⟩]).eq 5).batches.find? (fun y => decide (y.bseq = 3) && !y.taking) = some ⟨3, 1, false⟩ ∧
    (dv 0x101).toNat % 32 ≠ 0 ∧ Reached sD .dev ∧ May sD (pl 0x80) 32 = true ∧ ¬Reached { sD with pend := [owed] } .dev ∧
    TookBatch (sB []) = false ∧ (sB []).cur.kind ≠ .collier := by
  refine ⟨?_, ?_, ?_, ?_, ?_, ?_, ?_, ok_of_toOption (by decide +kernel), ?_, ⟨_, ⟨5, ?_, rfl⟩, ?_, ?_⟩, ?_, ?_, ?_, ?_,
    ⟨fun _ h => (nomatch h), fun _ h => (nomatch h)⟩, ?_, ?_, ?_, ?_⟩ <;> try decide +kernel
  · unfold EqBlock; decide +kernel
  · unfold EqBlock; decide +kernel
  · unfold EqBusy; decide +kernel
  · unfold EqBusy; decide +kernel
  · rintro ⟨l, ⟨n, h1, h2⟩, h3, _⟩
    have h4 : (sB []).me.lid = some 5 := by decide +kernel
    rw [h4] at h1; obtain rfl := Option.some.inj h1
    have h5 : ((sB []).launch 5).map (·.batch) = some (some (5, 3)) := by decide +kernel
    rw [h2, Option.map_some, Option.some.injEq, h3] at h5
    revert h5; decide +kernel
  · intro h; exact absurd (h.2 _ (List.mem_singleton.mpr rfl) rfl) (by decide)

/-- A future at 0x80 with a head, a record of a kind at 0x200, and record 0 of the pool owned by context 7. -/
def sF (full : Bool) (head kind : Nat) : State :=
  let s := sDev acc (cre [(1, dv 0x80), (2, dv 0x200)])
  devBytes (devBytes (devBytes { s with recPool := 0x1000 } 0x1004 1 7) 0x80 16 ((if full then 2 ^ 127 else 0) + head * 2 ^ 64)) 0x200 32 (kind * 2 ^ 158)

/-- Futures: full and empty, with a record of each kind and without one; a head and none; its earlier writes applied and not; a record to
walk, the last one and one with a next. -/
theorem test_wit_futures :
    let k : Cont := ⟨acc, 7, some 5, 0, 0, 2 ^ 32 + 0x200, 9, []⟩
    let s := sF false 0 0
    s.access s.whoMe ((dv 0x80).toNat : Int) 16 16 true = .ok (pl 0x80) ∧ s.access s.whoMe ((dv 0x80).toNat : Int) 16 16 false = .ok (pl 0x80) ∧
    bitOf (leValue ((sF true 0 0).home (pl 0x80) 16)) 127 = true ∧ bitOf (leValue (s.home (pl 0x80) 16)) 127 = false ∧
    s.access s.whoMe ((dv 0x200).toNat : Int) 32 32 true = .ok (pl 0x200) ∧ s.accessFault (pl 0x200) 32 false (2 ^ 32 + 0x200) = none ∧
    (∃ bs, s.checkRecord (s.home (pl 0x200) 32) = .ok bs) ∧ (∃ bs, (sF false 0 1).checkRecord ((sF false 0 1).home (pl 0x200) 32) = .ok bs) ∧
    InLine (pl 0x200) 32 ∧ OwnKey s (pl 0x200) ∧ OwnKey s (pl 0x80) ∧ InLine (pl 0x80) 16 ∧ AtomMay s (pl 0x80) 16 ∧ Reached s .dev ∧
    ¬Reached { s with pend := [owed] } .dev ∧
    fld (leValue ((sF false 0x123 0).home (pl 0x80) 16)) 119 64 = 0x123 ∧
    s.access k.op.who k.addr 32 32 false = .ok (pl 0x200) ∧ (∀ id ∈ k.after, ¬NotYet s id) ∧ s.engOpen k.op k.addr 32 false = true ∧
    fld (leValue (s.view 0 (pl 0x200) 32)) 159 158 = 0 ∧ fld (leValue ((sF false 0 1).view 0 (pl 0x200) 32)) 159 158 = 1 := by
  refine ⟨ok_of_toOption (by decide +kernel), ok_of_toOption (by decide +kernel), ?_, ?_, ok_of_toOption (by decide +kernel), ?_, exists_ok
    (by decide +kernel), exists_ok (by decide +kernel), ?_, ?_, ?_, ?_, ⟨?_, ?_⟩, ?_, ?_, ?_, ok_of_toOption (by decide +kernel), 
    fun _ h => absurd h List.not_mem_nil, ?_, ?_, ?_⟩ <;> try decide +kernel
  · unfold InLine; decide +kernel
  · unfold OwnKey; decide +kernel
  · unfold OwnKey; decide +kernel
  · unfold InLine; decide +kernel
  · intro _ w h; have : (sF false 0 0).pend = [] := by decide +kernel
    rw [this] at h; cases h
  · have h1 : (sF false 0 0).pend = [] := by decide +kernel
    have h2 : (sF false 0 0).flying = [] := by decide +kernel
    constructor
    · intro f h; rw [h2] at h; cases h
    · intro w h; rw [h1] at h; cases h
  · intro h; exact absurd (h.2 _ (List.mem_singleton.mpr rfl) (by decide +kernel)) (by decide)

/-- LaunchControl: the last argument and the first that is none; the last record and the first that is none; a record of the core's
context and of another, idle and busy; shapes at the edges of a region of 4 by 2; a configuration that fits and one that is not there. -/
theorem test_wit_launch_control :
    let s := sF false 0 0
    let g : Region := ⟨0, 0, 4, 2⟩
    let t : State := { s with launches := [{ lau with recno := 9, regions := [g] }], configs := [⟨3, 0, 0, [], 0, [], [], []⟩] }
    let big (w h : Nat) : Prop := h ≤ g.h ∧ (w + 1) / 2 ≤ min w g.w
    (23 : BitVec 5).toNat < 24 ∧ 24 ≤ (24 : BitVec 5).toNat ∧ (0xFFFF : DWord).toNat < 65536 ∧ 65536 ≤ (0x10000 : DWord).toNat ∧
    s.recCtx 0 = .ok 7 ∧ sD.recCtx 0 = .ok 0 ∧ t.me.ctx = 7 ∧ (∃ l ∈ s.launches, l.recno = 0) ∧ (∀ l ∈ t.launches, l.recno ≠ 0) ∧
    t.recPool + 256 * 0 + 64 + 8 * 23 < devSize ∧ spFind t.keys 0 = some 1 ∧ t.lineFault (t.recPool + 64 + 184) 8 true (t.recPool + 248) = none ∧
    Mine t { lau with recno := 9, regions := [g] } ∧ big 8 2 ∧ ¬big 9 2 ∧ ¬big 8 3 ∧ (4 ≤ g.w ∧ 2 ≤ g.h) ∧ ¬(5 ≤ g.w ∧ 2 ≤ g.h) ∧
    (∃ r, t.gcfgCheck { lau with recno := 9, regions := [g] } t.me 3 = .ok r) ∧ (∀ c ∈ t.configs, c.cfgid.toNat ≠ 4) ∧
    t.me.wait = .none ∧ t.cur.kind ≠ .collier ∧ ([g] : List Region)[1]? = none := by
  refine ⟨?_, ?_, ?_, ?_, ok_of_toOption (by decide +kernel), ok_of_toOption (by decide +kernel), ?_, ?_, ?_, ?_, ?_, ?_, ⟨5, ?_, rfl⟩, ?_, ?_,
    ?_, ?_, ?_, exists_ok (by decide +kernel), ?_, ?_, ?_, rfl⟩ <;>
    decide +kernel

/-- Station 9 with PASS INT32 of a level in slot 3 of launch 5; a core with a descriptor for its L port in g2. -/
def sI (a : Agent) (lvl : Nat) (c : Core) : State :=
  let w : Nat := 0x00204000000000000000000000000000 + (lvl - 1) * 2 ^ 105
  { (sDev a c).setStn 9 { ctxs := (Vector.replicate 4 {}).set 1 { tag := some 7, lid := some 5, words := [(3, BitVec.ofNat 128 w)] } } with
    launches := [lau] }

/-- A descriptor for slot 3, port L of station 9 with a length. -/
def desc (len : Nat) : DWord := BitVec.ofNat 64 ((len - 1) * 2 ^ 32 + 9 * 2 ^ 6 + 3 * 2 ^ 2)

theorem reaches (a : Agent) (c : Core) (lvl : Nat) (len : Nat) (hc : (sI a lvl c).me.lid = some 5) (i : Instr)
    (hp : physOf lau.placed (BitVec.ofNat 16 (fld (desc len).toNat 21 6)) = some 9)
    (hi : (sI a lvl c).slotAt 5 9 (BitVec.ofNat 4 (fld (desc len).toNat 5 2)) = some i)
    (hq : BitVec.ofNat 2 (fld (desc len).toNat 1 0) ∈ slotPorts i)
    (hh : (stnHead i).map (fun h => h.level.toNat + 1) = some lvl) :
    Reaches (sI a lvl c) (desc len) 9 lvl := by
  cases h : stnHead i with
  | none => rw [h] at hh; cases hh
  | some hd =>
    rw [h] at hh
    exact ⟨lau, i, hd, ⟨5, hc, rfl⟩, hp, hi, hq, h, (Option.some.inj hh).symm⟩

/-- CoreTokens: a descriptor that reaches a slot of level 1 and of level 3, lengths at and past the size of its field, masks of 0, 32 and
no leading lanes; an empty queue and one with a dense and a run entry; a list of 1 and of 4,096 entries. -/
theorem test_wit_tokens :
    let c : Core := cre [(2, desc 65536)]
    (sI acc 1 c).cur.kind = .access ∧ DescOk (desc 65536) 2 .int32 ∧ DescOk (desc 4097) 2 .int32 ∧
    Reaches (sI acc 1 c) (desc 65536) 9 1 ∧ Reaches (sI acc 3 c) (desc 4097) 9 3 ∧ 4 ≤ ((sI acc 1 c).stn 9).free ∧ TokenMay (sI acc 1 c) ∧
    fmtEmulated .fp64 = true ∧ fmtEmulated .int32 = false ∧
    fld (desc 65536).toNat 47 32 + 1 ≤ fieldSize 1 ∧ fieldSize 3 < fld (desc 4097).toNat 47 32 + 1 ∧
    (0 : Word).toNat = 2 ^ 0 - 1 ∧ (BitVec.allOnes 32).toNat = 2 ^ 32 - 1 ∧ (∀ n, n ≤ 32 → (2 : Word).toNat ≠ 2 ^ n - 1) ∧
    sD.me.rq = [] ∧ (tkn .dense .int8 0 1 [1]).shape = .dense ∧ (tkn .run .int8 0 4 [1]).shape ≠ .dense ∧ sD.cur.kind ≠ .collier ∧
    (17 : DWord).toNat < 18 ∧ 18 ≤ (18 : DWord).toNat ∧ sD.access sD.whoMe ((dv 0x80).toNat : Int) 16 16 false = .ok (pl 0x80) ∧
    fld (leValue ((devBytes sD 0x80 16 4096).view 0 (pl 0x80) 16)) 15 0 = 4096 ∧
    fld (leValue ((devBytes sD 0x80 16 4097).view 0 (pl 0x80) 16)) 15 0 = 4097 ∧
    (let s := sAt dra (cre []); s.access s.whoMe (0xFFE10 : Nat) 16 16 false = .ok ⟨.local_, coreMemBase 0 0 + 0xFFE10, 0, []⟩) := by
  refine ⟨?_, ?_, ?_, reaches _ _ _ _ (by decide +kernel) (.pass ⟨1, 0, 0, none, none⟩ .int32) (by decide +kernel) (by decide +kernel) (by
    decide +kernel) (by decide +kernel), reaches _ _ _ _ (by decide +kernel) (.pass ⟨1, 0, 2, none, none⟩ .int32) (by decide +kernel) (by
    decide +kernel) (by decide +kernel) (by decide +kernel), ?_, ?_, ?_, ?_, ?_, ?_, ?_, ?_, ?_, ?_, rfl, ?_, ?_, ?_, ?_, ok_of_toOption (by
    decide +kernel), ?_, ?_, ok_of_toOption (by decide +kernel)⟩ <;> try decide +kernel
  · unfold DescOk; decide +kernel
  · unfold DescOk; decide +kernel
  · have h1 : (sI acc 1 (cre [(2, desc 65536)])).cmsgs = [] := by decide +kernel
    have h2 : (sI acc 1 (cre [(2, desc 65536)])).flying = [] := by decide +kernel
    constructor
    · intro f h; rw [h2] at h; cases h
    · intro m h; rw [h1] at h; cases h

/-- TrapsAndReturn: a fault that a handler takes, one met inside it and one of a class without a handler; a collier; TRAP's last code and the
first that is none; encodings that begin and do not begin a pair; RTE outside and inside a handler. -/
theorem test_wit_traps :
    let h (t : DWord) : State := { sAt acc { cre [] with trapbase := t } with launches := [lau] }
    Handles (h 1) { cls := 0x1B } ∧ ¬Handles (h 3) { cls := 0x01 } ∧ ¬Handles (h 1) { cls := 0x20 } ∧
    ¬Handles (sAt col (cre [])) { cls := 0x01 } ∧ (h 0).launch 5 = some lau ∧ lau.st = .running ∧
    ((h 0).immI 1023).toNat < 1024 ∧ 1024 ≤ ((h 0).immI 1024).toNat ∧ (0x48000000 : Word).toNat / 2 ^ 25 = 0x24 ∧
    (0xF4000000 : Word).toNat / 2 ^ 25 ≠ 0x24 ∧ (h 1).me.trapbase.getLsbD 1 = false ∧ (h 3).me.trapbase.getLsbD 1 = true ∧
    (h 3).me.guard gT = true ∧ (0xFF < 2 ^ 8 ∧ 1023 < 2 ^ 10 ∧ 2 ^ 56 - 1 < 2 ^ 56 ∧ 32767 < 2 ^ 15) := by
  refine ⟨?_, ?_, ?_, ?_, ?_, rfl, ?_⟩ <;> first | decide +kernel | (unfold Handles; decide +kernel)

/-- SpecialRegisters: each number, from a helper core and from a collier; a value whose mode is reserved and one whose is not; EPC's
reserved bit. -/
theorem test_wit_csrs :
    let s (a : Agent) (n : Nat) : State := sAt a (cre [(1, BitVec.ofNat 64 n), (2, 4), (3, 5)])
    let num (t : State) : Nat := (t.me.rg 1 + t.immI 0).toNat % 4096
    ([1, 2, 0x10, 0x11, 0x12, 0x13, 0x20, 0x21, 0x7FF, 0x800, 0x801, 0x805, 0x807, 0x808, 0x809, 0xFFF] : List Nat).all (fun n => num (s col n) == n) = true ∧
    (csrSpec (s acc 1) 1).isSome = true ∧ (csrSpec (s col 0x808) 0x808).isSome = true ∧ csrSpec (s acc 0x800) 0x800 = none ∧
    csrSpec (s col 0x809) 0x809 = none ∧ (4 : DWord).toNat % 8 < 5 ∧ 5 ≤ (5 : DWord).toNat % 8 ∧ (2 : DWord).getLsbD 1 = true ∧
    (s col 0).cur.kind = .collier ∧ (s acc 0).cur.kind ≠ .collier := by decide +kernel

/-- CoreSystem: no launch waits and one waits; masks of no event, of events a core has none of and of one that is there; the last counter;
a module at the package's edge and one inside; widths and lanes that LNKCTL takes and refuses. -/
theorem test_wit_system :
    let s (a : Agent) (m b : Nat) : State := { sAt a (cre [(1, BitVec.ofNat 64 m), (2, BitVec.ofNat 64 b)]) with launches := [lau] }
    let mayWait (t : State) : Prop := let m := (t.me.rg 1).toNat
      m < 8 ∧ (bitOf m 2 = true → t.cur.kind = .collier) ∧ (bitOf m 0 = true → t.cur.kind ≠ .collier)
    let q : State := sAt acc { cre [(1, 1)] with rq := [dn 0 [1]] }
    let at1 : State := { s ⟨.collier, 1, 0⟩ 0 64 with limm := none }
    (∀ l ∈ (s acc 0 0).launches, l.waits = false) ∧ mayWait (s acc 3 0) ∧ mayWait (s col 6 0) ∧ ¬mayWait (s acc 4 0) ∧ ¬mayWait (s acc 8 0) ∧
    ¬mayWait (s col 1 0) ∧ (16384 ≤ ((s acc 2 16384).src2 2).toNat ∧ ((s acc 2 16383).src2 2).toNat < 16384) ∧
    ((1 : Nat) &&& eventsOf q ≠ 0) ∧ ((2 : Nat) &&& eventsOf (s acc 2 0) = 0) ∧ (s acc 2 0).me.wait = .none ∧
    (∀ l, Mine (s acc 0 0) l → l.complete = false) ∧ (s col 0 0).cur.kind = .collier ∧
    ((4 * (s col 0 0).cur.die.val + ((s col 0 0).me.rg 1).toNat % 4) % 4 = 0 ∧ (s col 0 0).cur.die.val % 4 = 0) ∧
    ¬((4 * at1.cur.die.val + (at1.me.rg 1).toNat % 4) % 4 = 0 ∧ at1.cur.die.val % 4 = 0) ∧
    ((64 : DWord).toNat = 64 ∧ (63 : DWord).toNat ≠ 64 ∧ (63 : DWord).toNat ≠ 32) ∧
    (((List.range 64).filter fun j => (0xF : DWord).getLsbD j).length ≤ (at1.link 4).spares ∧
      (at1.link 4).spares < ((List.range 64).filter fun j => (0x1F : DWord).getLsbD j).length) := by
  and_intros <;> try decide +kernel
  rintro l ⟨n, h1, h2⟩
  have : ∀ l ∈ [lau], l.complete = false := by decide +kernel
  exact this l (List.mem_of_find?_eq_some h2)

/-! ## States of stations that meet the statements' hypotheses -/

/-- The head pair of sStn. -/
def pOf (b n : Nat) (l r p : List Token) : Pair :=
  ⟨1, 3, tg1 b, b, n, l.map (fun t => ⟨1, .normal, t, 9⟩), r.map (fun t => ⟨1, .normal, t, 9⟩), p.map (fun t => ⟨1, .normal, t, 9⟩), 0⟩

/-- The context of sStn. -/
def cOf (c : Ctx) : Ctx := { c with tag := some 7, cfgid := 1, lid := some 5 }

theorem stn_sStn (b n : Nat) (l r p : List Token) (c : Ctx) (x : Station) : (sStn b n l r p c x).stn 9 =
    { x with ctxs := (Vector.replicate 4 {}).set 1 (cOf c), issueq := [pOf b n l r p] } :=
  State.stn_setStn_self State.reset 9 _

/-- Every such state lets its head pair fire, with no cut: whole. -/
theorem firing (b n : Nat) (l r p : List Token) (c : Ctx) (x : Station) (h : Head) :
    Claims.Firing (sStn b n l r p c x) h (pOf b n l r p) (cOf c)
      ((sStn b n l r p c x).setStn 9 { (sStn b n l r p c x).stn 9 with issueq := [] }) := by
  refine ⟨pOf b n l r p, [], 5, lau, ?_, ?_, rfl, rfl, rfl, fun _ he => (List.not_mem_nil he).elim, rfl, rfl⟩
  · show ((sStn b n l r p c x).stn 9).issueq = _
    rw [stn_sStn]
  · show _ = ((sStn b n l r p c x).stn 9).ctxs[1]
    rw [stn_sStn]; rfl

/-- A token of a type. -/
def ot (ty : Fmt) : Token := tkn .dense ty 0 1 [1, 0]

/-- TagOperations: a token at the end of its field, of length 1, at the deepest and the outermost level, and one that advance cuts. -/
theorem test_wit_tags :
    let t (lvl b n : Nat) : Token := { tkn .run .int8 0 n [3] with level := BitVec.ofNat 2 (lvl - 1), tag := setTagFld (setTagCtx 0 7) lvl b }
    let ok (t : Token) : Bool := decide (1 ≤ t.n) && decide (t.base + t.n ≤ fieldSize t.L) && (cutTag t.tag t.L == t.tag)
    ok (t 1 0 65536) = true ∧ ok (t 4 4095 1) = true ∧ ok (t 3 0 4096) = true ∧ (t 3 0 4096).L < 4 ∧ 1 < (t 2 0 1).L ∧
    (t 1 0 65535).base + 1 + 65535 ≤ fieldSize 1 ∧ (t 1 65535 1).base + 1 = fieldSize 1 ∧
    ((t 1 0 65536).base + 1 < fieldSize 1 ∧ fieldSize 1 < (t 1 0 65536).base + 1 + 65536) := by decide +kernel

/-- IntegerSlots, FloatSlots and SelectConvertDraw: a pair may fire (firing), with one and two operands of the slot's type, with an
immediate, and of another type. -/
theorem test_wit_slots :
    let p (l r z : Fmt) : Pair := pOf 0 1 [ot l] [ot r] [ot z]
    let h1 : Head := hd0 1
    (integerSlot (.iabs h1 .int8 1)).isSome = true ∧ (integerSlot (.iadd (hd0 2) .int8 0 0)).isSome = true ∧
    codeOk (.logic h1 .int8 5 0) = true ∧ intForm .int64 = some (64, true) ∧ (p .int8 .int8 .int8).left.ty = .int8 ∧
    (p .int8 .int8 .int8).right.ty = .int8 ∧ (p .int8 .int8 .int8).left.ty ≠ .int16 ∧ immOk 8 false 255 ∧ immOk 8 true 0xFFFFFF80 ∧ 1 ≤ (p .int8 .int8 .int8).n ∧
    (floatSlot (.fspec h1 .fp32 8)).isSome = true ∧ (floatSlot (.fadd (hd0 2) .bf16 4 true 0)).isSome = true ∧ fmtFF .bf16 = some .bf16 ∧
    RandomOk 4 (randomOf h1 (p .fp32 .uint16 .uint32)) ∧ RandomOk 4 (randomOf (hd0 2) (p .fp32 .fp32 .uint32)) ∧
    ¬RandomOk 4 (randomOf h1 (p .fp32 .int8 .int8)) ∧ RandomOk 0 (ot .fp32) ∧ fmtEmulated .fp64 = true ∧
    (fmtEmulated .int8 = false ∧ (intForm (p .int8 .int8 .uint8).pred.ty).isSome = true ∧ intForm (p .int8 .int8 .fp32).pred.ty = none) ∧
    Fmt.bsi8 ∉ [Fmt.e2m1b, .wide, .fp16, .fp64] ∧ Fmt.e2m1b ∈ [Fmt.bsi8, .bsi16, .e2m1b] ∧ (ot .e2m1b).exp ≠ 0 ∧ ({ ot .e2m1b with exp := 0 } : Token).exp = 0 ∧
    (RngFn.unif, Fmt.fp32) ∈ [(RngFn.sr16, Fmt.uint16), (.unif, .fp32), (.bits, .int64)] ∧ Fmt.uint32 ∈ [Fmt.int32, .uint32, .int64] := by
  unfold immOk RandomOk; decide +kernel

/-- A block's element of a value type, its extreme codes among the values. -/
def blk (ty : Fmt) (v : List Word) : Pair := pOf 32 v.length [tkn .dense ty 32 v.length v] [ot .uint32] []

/-- BlockSlots (a pair may fire: firing): one element and 32; inputs of each type and of another; elements of zeros and not; a NaN and an
infinity; the codes at the ends of their ranges; a block of NaNs alone. -/
theorem test_wit_block_slots :
    let in1 (p : Pair) : Prop := (∀ e ∈ p.l, e.tok.ty ∈ [Fmt.fp32, .bf16, .int8, .int16, .int32]) ∧ ∀ e ∈ p.r, RandomOk 4 e.tok
    let one : Pair := blk .fp32 [0x3F800000]
    let many : Pair := blk .fp32 (List.replicate 32 0)
    let odd : Pair := blk .fp32 [0x7FC00000, 0x7F800000]
    1 ≤ one.n ∧ many.n = 32 ∧ in1 one ∧ in1 (blk .int32 [1]) ∧ ¬in1 (blk .int64 [1, 0]) ∧
    (∀ e ∈ one.l, e.tok.ty = .fp32) ∧ (∃ e ∈ one.l, e.tok.ty ≠ .int8) ∧ (blockExact one.fpMode one.l 32).mag ≠ 0 ∧
    (∀ i, i < 32 → (blockExact one.fpMode many.l (32 + i)).mag = 0) ∧ blockReal one.fpMode odd.l 32 = .nan ∧ blockReal one.fpMode odd.l 33 = .inf false ∧
    (∃ x, blockReal one.fpMode one.l 32 = .num x) ∧ intForm .int8 = some (8, true) ∧ fmtFF .fp32 = some .fp32 ∧
    ((5 : BitVec 4).toNat ≤ 5 ∧ (3 : BitVec 4).toNat ≤ 3 ∧ (2 : BitVec 4).toNat ≤ 2) ∧
    decodeF .fp32 (encodeF .fp32 (decodeF .fp32 (blockBits one.l 32) false)) false ≠ .nan := by
  refine ⟨?_, ?_, ⟨?_, ?_⟩, ⟨?_, ?_⟩, ?_, ?_, ?_, ?_, ?_, ?_, ?_, ⟨⟨false, 2 ^ 23, -23, false⟩, ?_⟩, rfl, rfl, ?_, ?_⟩ <;> try decide +kernel
  · intro e h; obtain rfl := List.mem_singleton.mp h; unfold RandomOk; decide
  · intro e h; obtain rfl := List.mem_singleton.mp h; unfold RandomOk; decide
  · rintro ⟨h, _⟩; exact absurd (h _ (List.mem_singleton.mpr rfl)) (by decide)

/-- PassingSlots and FlowSlots: values and counts of the types the slots take and of others; counts at the size of the inner field, one past it,
and 0; tags at, above and below the level; scalars, runs and dense values. -/
theorem test_wit_flow_slots :
    let p (l r : Token) : Pair := pOf 0 1 [l] [r] []
    let q := p (tkn .dense .uint32 0 1 [4096]) (ot .int32)
    (p (ot .int8) (ot .int8)).left.ty = .int8 ∧ fmtEmulated .int8 = false ∧ (intForm (ot .uint32).ty).isSome = true ∧ CountTy .uint32 ∧ CountTy .int32 ∧
    ¬CountTy .int8 ∧ intForm .fp32 = none ∧ (hd0 0).arity = 0 ∧ (hd0 1).arity ≠ 0 ∧ 1 ≤ q.n ∧ fieldSize 3 = 4096 ∧
    countAt q.left 0 ≤ fieldSize 3 ∧ fieldSize 3 < countAt (tkn .dense .uint32 0 1 [4097]) 0 ∧ countAt (tkn .dense .uint32 0 1 [0]) 0 = 0 ∧
    ((0 : BitVec 2).toNat + 1 < 2 ∧ ¬(1 : BitVec 2).toNat + 1 < 2 ∧ (tkn .run .int8 0 1 [1]).shape ≠ .dense) ∧
    ((4 : BitVec 3).toNat = 4 ∧ (0 : BitVec 3).toNat < 4 ∧ (0 : BitVec 3).toNat + 1 = 1) ∧ 1 ≤ (1 : Word).toNat := by
  unfold CountTy; decide +kernel

/-- A state with tokens in flight, entries of queues on their way, and a receive queue. -/
def sX (x : List XFlight) (rq : List Token) : State :=
  let s := sStn 0 1 [ot .int8] (c := { words := [(3, 0)] })
  { (s.setCore acc { cre [] with rq }) with xnet := x }

/-- ReceiveQueues: a queue with 63 entries and with 64; an entry that may arrive and one behind another; a link that is open and one that is
not up. -/
theorem test_wit_receive :
    let f : XFlight := ⟨144, acc, ot .int8⟩
    let s : State := sX [f, f] []
    let d : Dest := ⟨0, 0, 0, 0⟩
    (ot .int8).ty = .int8 ∧ queueAgent d acc ∧ Room (sX [] (List.replicate 63 (ot .int8))) acc ∧ ¬Room (sX [f] (List.replicate 63 (ot .int8))) acc ∧
    s.xnet[0]? = some f ∧ s.xnet[1]? = some f ∧ s.linkOpen (senderDie f.src) f.agent.die.val = true ∧
    (¬∃ k g, k < 0 ∧ s.xnet[k]? = some g ∧ g.src = f.src ∧ g.agent = f.agent) ∧ (∃ k g, k < 1 ∧ s.xnet[k]? = some g ∧ g.src = f.src ∧ g.agent = f.agent) ∧
    State.linkOpen { s with ucie := Vector.replicate 32 { paused := true } } (senderDie f.src) 1 = false := by
  refine ⟨rfl, ?_, ?_, ?_, rfl, rfl, by decide +kernel, ?_, ⟨0, _, by decide, rfl, rfl, rfl⟩, ?_⟩
  · unfold queueAgent; decide
  · unfold Room; decide +kernel
  · unfold Room; decide +kernel
  · rintro ⟨k, _, h, _⟩; exact absurd h (by omega)
  · decide +kernel

/-! ## Arrivals, memory nodes and tables -/

/-- Station 9 with an instruction in slot 3 of its context and the entries l; a token for that slot in flight from slot 2 of station 5. -/
def sN (i : Instr) (f : List Token) (l : List Entry) (q : List Pair := []) (paused : Bool := false) : State :=
  let st : Station := {
    ctxs := (Vector.replicate 4 {}).set 1 { tag := some 7, cfgid := 1, lid := some 5, words := [(3, BitVec.ofNat 128 (encStation i))] }
    store := l, issueq := q }
  let s := (State.reset.setStn 9 st).setCore acc (cre [])
  { s with launches := [lau], net := f.map fun t => ⟨82, some 5, t, none⟩, ucie := Vector.replicate 32 { paused } }

/-- An entry of context 1 that arrived first. -/
def en (k : EntryKind) (t : Token) : Entry := ⟨1, k, t, 1⟩

/-- TokenArrival: a token that may arrive, one behind another, over a paused link and at a full store; a context that serves it and one that
does not; partners that overlap, that do not, and are sticky; the ends of a block, of a JOIN and past them. -/
theorem test_wit_arrival :
    let add : Instr := .iadd (hd0 2) .int8 0 0
    let t : Token := dn 0 [1, 2]
    let r (b n : Nat) : Token := { tkn .run .int8 b n [3] with port := 1 }
    let one (i : Instr) (l : List Entry) : State := sN i [t] l
    let x := en .normal (r 1 4)
    (one add []).linkOpen (senderDie 82) (9 / 8192) = true ∧ (sN add [{ t with stn := 8192 }] [] [] true).linkOpen (senderDie 82) 1 = false ∧
    ((one add (List.replicate 60 x)).stn 9).free = 4 ∧ ((one add (List.replicate 61 x)).stn 9).free = 3 ∧
    (one add []).net[0]? = some ⟨82, some 5, t, none⟩ ∧ (one add []).net[1]? = none ∧
    ((one add []).stn 9).ctxs[1].tag = some (tagCtx t.tag) ∧ ((one add []).stn 9).ctxs[0].tag = none ∧
    ((one add []).core (stnAgent 9)).lid = some 5 ∧
    [add, .merge (hd0 2) .int8, .join (hd0 1) 4, .redu (hd0 1) .int8 0 2, .pass (hd0 1) .int8].all
      (fun i => (spFind ((one i []).stn 9).ctxs[1].words 3).map (fun w => (decodeStation w.toNat).toOption) == some (some i)) = true ∧
    (1 ≤ t.n ∧ actionOf add t = 0 ∧ actionOf add { t with act := 1 } = 1 ∧ actionOf add { t with act := 2 } = 2 ∧
      slotKind add = .plain ∧ slotPorts add = [0, 1] ∧ slotPorts (.pass (hd0 1) .int8) = [0] ∧ t.port ∈ slotPorts add) ∧
    (WaitsFor 1 t 1 x = true ∧ Meets x.tok t ∧ ¬Meets (r 2 4) t ∧ InField t ∧ InField (r 65535 1) ∧ x.tok.level = t.level ∧
      WaitsFor 1 t 0 (en .normal t) = true ∧ Meets (en .normal t).tok t) ∧
    ([en .sticky (r 0 4)].find? (fun x => x.kind == .sticky && WaitsFor 1 t 1 x) = some (en .sticky (r 0 4)) ∧ (en .sticky (r 0 4)).kind ≠ .normal) ∧
    (slotKind (.merge (hd0 2) .int8) = .merge ∧ slotKind (.join (hd0 1) 2) = .join 2 ∧ t.base + t.n ≤ 2 ∧ 1 < t.base + t.n ∧ t.n ≠ 3 ∧
      slotKind (.redu (hd0 1) .int8 0 2) = .block 2 false ∧ takesRandom (.redu (hd0 1) .int8 0 2) = false) := by
  refine ⟨?_, ?_, ?_, ?_, rfl, rfl, ?_, ?_, ?_, ?_, ?_, ?_, ?_, ?_⟩ <;> try decide +kernel
  unfold Meets InField; decide +kernel

/-- The state that the first flight of sN leaves. -/
def arrives (i : Instr) (f : List Token) (l : List Entry) (q : List Pair := []) : Option Station := (nextOf (exec (.tokenArrival 0) (sN i f l q))).map (·.stn 9)

/-- Arrivals (R97 to R102): the overlap fires and the remainders wait; a sticky token stays; a token taken already is held with TAG-COLLISION. -/
theorem test_arrivals :
    let add : Instr := .iadd (hd0 2) .int8 0 0
    let r (b n : Nat) : Token := { tkn .run .int8 b n [3] with port := 1 }
    let q (o : Option Station) : List (Nat × Nat) := (o.map fun st => st.issueq.map fun p => (p.base, p.n)).getD []
    let w (o : Option Station) : List (Nat × Nat × List Word) := (o.map fun st => st.store.map fun e => (e.tok.base, e.tok.n, e.tok.lanes)).getD []
    let o := arrives add [dn 0 [1, 2]] [en .normal (r 1 4)]
    [(q o == [(1, 1)]), (w o == [(2, 3, [3]), (0, 1, [1])]), (q (arrives add [dn 0 [1, 2]] [en .sticky (r 0 1)]) == [(0, 2)]),
      (((arrives add [dn 0 [1, 2]] [en .normal (dn 1 [4])]).map fun st => st.held.length) == some 1)].all id = true := by decide +kernel

/-- A pair of [0, n) with tokens at L and R; its context has an instruction i in slot 3. -/
def pL (n : Nat) (l r : Token) : Pair := pOf 0 n [l] [r] []

/-- A token of INT64 addresses or values. -/
def adr (vs : List Nat) : Token := tkn .dense .int64 0 vs.length (vs.map fun v => [BitVec.ofNat 32 v, BitVec.ofNat 32 (v / 2 ^ 32)]).flatten

/-- sDev with a station state at 9: pair p at the head, instruction i in its slot. -/
def sM (i : Instr) (st : Station) : State :=
  (sDev acc (cre [])).setStn 9 { st with
    ctxs := (Vector.replicate 4 {}).set 1 { tag := some 7, cfgid := 1, lid := some 5, words := [(3, BitVec.ofNat 128 (encStation i))] } }

/-- A node with number 3, predecessor 2 and successor 4, or with neither arc. -/
def nF (arcs : Bool) (sc : Scope) : NodeF := ⟨if arcs then 2 else 127, if arcs then 4 else 127, false, 0, sc, 3, 0, false, 0⟩

/-- MemoryNodes (a pair may fire: firing): addresses that are good, all bad, and bad in the middle; an arc that holds and one that does not; an
operation with accesses to perform, held ones alone, and all performed with a write that its scope waits for. -/
theorem test_wit_nodes :
    let f := nF false .die
    let a := 2 ^ 32 + 0x80
    let c : Ctx := { tag := some 7, lid := some 5 }
    let p (vs : List Nat) : Pair := pL vs.length (adr vs) (adr (vs.map fun _ => 5))
    let node (op : NodeOp) : State := sM (.ldn (hd0 1) .int64 (nF true .dev)) { nodeOps := [op] }
    let all : NodeOp := ⟨p [a], [0], [], [(0, 5, some 4)], [], none⟩
    let at_ (kind o : Nat) (vs : List Nat) := nodeAt sD 9 c kind .int64 f (p vs).left o
    [(nodeForm (.ldn (hd0 1) .int64 f)), (nodeForm (.stn (hd0 2) .int8 f)), (nodeForm (.amon (hd0 2) .int32 f)), (nodeForm (.famn (hd0 2) f))].all Option.isSome = true ∧
    (nodeType 0 .int64 ∧ nodeType 1 .int8 ∧ nodeType 2 .int32 ∧ nodeType 3 .fp32) ∧
    (∀ k, k < 4 → (at_ k 0 [a]).toOption.isSome = true) ∧ faultOf (at_ 0 0 [a + 1, a + 1]) ≠ none ∧
    faultOf (at_ 0 1 [a + 1, a + 1]) ≠ none ∧ (at_ 0 2 [a, a + 1, a]).toOption.isSome = true ∧ faultOf (at_ 0 1 [a, a + 1, a]) ≠ none ∧
    ArcHolds (node all) 5 (nF true .dev) all.pair 1 0 ∧ ¬ArcHolds (node all) 5 f all.pair 1 0 ∧
    ((node all).stn 9).nodeOps[0]? = some all ∧ ((node all).stn 9).ctxs[1].lid = some 5 ∧
    ((node all).stn 9).ctxs[1].instr 3 = some (.ldn (hd0 1) .int64 (nF true .dev)) ∧
    all.todo = [] ∧ all.main = List.range all.pair.n ∧ all.vals = (List.range all.pair.n).map (fun o => (o, (5, some 4))) ∧
    ¬NotYet (node all) 4 ∧ UpToDate sD (stnDie 9) (pl 0x80) 8 ∧ InLine (pl 0x80) 8 ∧ OwnKey sD (pl 0x80) ∧
    (all.pair.left.ty ∈ [Fmt.int32, .uint32, .int64] ∧ all.pair.right.ty = .int64 ∧ Fmt.int8 ∉ [Fmt.int32, .uint32, .int64]) := by
  refine ⟨?_, ?_, ?_, ?_, ?_, ?_, ?_, ?_, ?_, ?_, ?_, ?_, rfl, ?_, ?_, ?_, ?_, ?_, ?_, ?_⟩ <;> try decide +kernel
  · unfold nodeType; decide +kernel
  · unfold ArcHolds; decide +kernel
  · unfold ArcHolds; decide +kernel
  · rintro (⟨_, h, _⟩ | ⟨_, h, _⟩) <;> exact absurd h List.not_mem_nil
  · exact fun _ _ h => absurd h List.not_mem_nil
  · unfold InLine; decide +kernel
  · unfold OwnKey; decide +kernel

/-- A pair of three addresses, the second misaligned. -/
def pNode : Pair := pL 3 (adr [2 ^ 32 + 0x80, 2 ^ 32 + 0x81, 2 ^ 32 + 0x80]) (adr [5, 5, 5])

/-- An access of it that has a place has no fault. -/
theorem placeOf (o : Nat) (l : Loc)
    (h : (nodeAt sD 9 { tag := some 7, lid := some 5 } 0 .int64 (nF false .die) pNode.left o).toOption = some l) :
    ¬∃ e, nodeAt sD 9 { tag := some 7, lid := some 5 } 0 .int64 (nF false .die) pNode.left o = .error e :=
  fun ⟨_, he⟩ => nomatch (ok_of_toOption h).symm.trans he

/-- MemoryNodes at faults: of three addresses the second is misaligned, whose run, record and operand entries it makes; the same access faults
when it is performed, as the pair's first fault and after another; an access whose link is closed and one that may be performed. -/
theorem test_wit_node_faults :
    let f := nF false .die
    let a := 2 ^ 32 + 0x80
    let c : Ctx := { tag := some 7, lid := some 5 }
    let p : Pair := pNode
    let place (o : Nat) := nodeAt sD 9 c 0 .int64 f p.left o
    let bad (o : Nat) : Prop := ∃ e, place o = .error e
    let e : FI := ⟨2, a + 1, 0, 0⟩
    let old : FRec := { cls := 0x30 }
    let op (raised : Option FRec) (fs : List (Nat × Nat × Nat × Nat)) : NodeOp := ⟨p, [0, 1, 2], [1], [(0, 5, none)], fs, raised⟩
    let s (op : NodeOp) : State :=
      { sM (.ldn (hd0 1) .int64 f) { nodeOps := [op] } with launches := [{ lau with recs := [(0, old)] }] }
    RunsOf bad 3 [(1, 1)] ∧ place 1 = .error e ∧ (∃ r, PairRec 9 5 (hd0 1) c p [(1, e)] r) ∧
    (∃ r, PairRec 9 5 (hd0 1) c p [(0, ⟨0x30, 0, 0, 0⟩), (1, e)] r) ∧
    ((s (op none [])).stn 9).nodeOps[0]? = some (op none []) ∧ (op none []).todo = [1] ∧ 1 < p.n ∧ f.pred = 127 ∧
    (∃ x ∈ (((s (op (some old) [(0, 0x30, 0, 0)])).launch 5).getD lau).recs, x.2 = old) ∧ ((s (op none [])).launch 5).isSome = true ∧
    (sD.linkTo (stnDie 9) (pl 0x80) = true ∧ sD.depsMet (nodeKey 9 3) (stnDie 9) (pl 0x80) 8 = true) ∧
    State.linkTo { sD with ucie := Vector.replicate 32 { paused := true } } 1 (pl 0x80) = false := by
  have h0 := placeOf 0 (pl 0x80) (by decide +kernel)
  have h1 : nodeAt sD 9 { tag := some 7, lid := some 5 } 0 .int64 (nF false .die) (pNode.left) 1 = .error ⟨2, 2 ^ 32 + 0x81, 0, 0⟩ :=
    error_of_faultOf (by decide +kernel)
  have h2 := placeOf 2 (pl 0x80) (by decide +kernel)
  refine ⟨⟨fun o => ?_, by decide, by decide⟩, h1, ⟨_, 1, 1, _, ⟨_, .head _⟩, by decide, .head _, by decide, rfl⟩,
    ⟨_, 0, 1, _, ⟨_, .head _⟩, by decide, .tail _ (.head _), by decide, rfl⟩, ?_⟩
  · constructor
    · rintro ⟨q, hq, h3, h4⟩
      obtain rfl := List.mem_singleton.mp hq
      have : o = 1 := Nat.le_antisymm (Nat.lt_succ_iff.mp h4) h3
      exact ⟨by omega, this ▸ ⟨_, h1⟩⟩
    · rintro ⟨h3, hb⟩
      have h : o ≠ 0 ∧ o ≠ 2 := ⟨fun h => h0 (h ▸ hb), fun h => h2 (h ▸ hb)⟩
      exact ⟨_, .head _, by omega⟩
  · decide +kernel

/-- A table of context 7 with the weights 5 and 3 in its one column (Table 12-1's form): entries 0, 5, 8. -/
def tb9 (wide : Bool := false) (bind : Option Binding := none) : Table :=
  { ctx := 7, t := 0, lgC := 0, ks := 2, wide, k0 := 0, n0 := 0, ebase := 0, et := 0, wmax := 5, lsafe := 429496729, zflags := [.clear], bitmaps := [3]
    wgen := 0, bind, gen := 0, pgen := 0, journal := [], msgs := 0 }

/-- A station with that table, rows and background operations. -/
def stT (tb : Table) (rows : Sparse Row := []) (bg : List Bg := []) (q : List Pair := []) : Station :=
  { tstore := [(1, 5), (2, 8)], tables := [tb], rows, bg, issueq := q }

/-- SegmentProducts, RunsAndIntersections, AccumulatorRows (a pair may fire: firing): shapes taken and not; a table and none, of the width and not;
intervals that meet the table's range and do not; a row of the context and of another. -/
theorem test_wit_segments :
    let s (tb : Table) (rows : Sparse Row) : State := sM (.sgpN32 (hd2 1) .int8 ⟨0, 0, 0⟩) (stT tb rows)
    let t := tkn .run .int8 0 2 [3]
    let mine : State := s (tb9) [(0, { owner := some 7 })]
    [(productForm (.sgpN32 (hd2 1) .int8 ⟨0, 0, 0⟩)), (productForm (.dmacN64 (hd2 1) .bsi16 ⟨0, 0, 0⟩)), (productForm (.spmc (hd2 1) .int16 true ⟨0, 0, 0⟩))].all Option.isSome = true ∧
    (actBits .int8 = some 8 ∧ actBits .bsi16 = some 16 ∧ t.shape = .run ∧ (dn 0 [1]).shape ≠ .run) ∧
    TableAt mine 9 7 0 tb9 ∧ (sD.stn 9).table 7 0 = none ∧ ((7, 9, 0) : Byte × Nat × BitVec 2) ∉ sD.spilledTables ∧ (mine.stn 9).busy 7 0 = false ∧
    ((tb9).wide = false ∧ (tb9 true).wide = true ∧ (tb9).bind = none ∧ (tb9).lgC ≤ 5 ∧ 1 ≤ (tb9).lsafe ∧ 1 ≤ (tb9).ks) ∧
    (max 1 (tb9).k0 < min (1 + 1) ((tb9).k0 + (tb9).ks) ∧ ¬max 2 (tb9).k0 < min (2 + 4) ((tb9).k0 + (tb9).ks)) ∧
    (mine.row 9 0).owner = some 7 ∧ (mine.row 9 1).owner ≠ some 7 ∧ CacheTrue mine 9 tb9 ∧
    (t.n = 2 ∧ t.base = 0 ∧ (adr [5]).ty = .int64 ∧ (dn 0 [1]).ty ≠ .int64) ∧
    (RandomOk 0 t ∧ ¬RandomOk 4 t ∧ Fmt.int64 ∈ [Fmt.int8, .int16, .int32, .int64, .e4m3, .e5m2, .bf16, .fp32] ∧ (31 : BitVec 6).toNat + 1 ≤ 32) ∧
    ((tkn .dense .uint16 0 4 [1, 2, 3, 4]).n < 5 ∧ RandomOk 4 (tkn .dense .uint16 0 4 [1, 2, 3, 4])) := by
  refine ⟨?_, ?_, ⟨?_, rfl, rfl, ?_⟩, ?_, ?_, ?_, ?_, ?_, ?_, ?_, ⟨?_, ?_⟩, ?_, ⟨?_, ?_, ?_, ?_⟩, ?_, ?_⟩ <;> try decide +kernel
  · intro c i hc hi _
    have : c = 0 := by have : (2 : Nat) ^ (tb9).lgC = 1 := rfl; omega
    subst this
    match i, hi with
    | 0, _ => decide
    | 1, _ => decide
  · intro e h
    have : (State.die (sM (.sgpN32 (hd2 1) .int8 ⟨0, 0, 0⟩) (stT tb9 [(0, { owner := some 7 })])) (stnDie 9)).pcache = [] := by decide +kernel
    exact absurd (this ▸ h) (List.not_mem_nil)
  all_goals unfold RandomOk; decide

/-- AccumulatorRows: an ownership event waits at a station whose head uses a row of no context; none waits. -/
theorem test_wit_ownership :
    let i : Instr := .aclr (hd0 1) .int8 0 0 4 0
    let s : State := sM i { own := true, issueq := [pL 1 (dn 0 [1]) (dn 0 [1])] }
    (s.stn 9).own = true ∧ (s.stn 9).issueq = [pL 1 (dn 0 [1]) (dn 0 [1])] ∧ ((s.stn 9).ctxs[1]).tag = some 7 ∧ ((s.stn 9).ctxs[1]).instr 3 = some i ∧
    rowUse i (pL 1 (dn 0 [1]) (dn 0 [1])) = some 4 ∧ tableUse i = none ∧ (7, 32 * 9 + 4) ∉ s.spilledRows ∧ (s.row 9 4).owner ≠ some 7 ∧ (sD.stn 9).own = false := by
  decide +kernel

/-- A descriptor of a table of two rows and one column at entry 0, and the layout of a matrix of BSI8 tiles of zeros. -/
def sBuild (i : Instr) (d : Nat) (st : Station) : State :=
  let lay : Nat := Fmt.bsi8.code + (2 ^ 32 + 0x600) * 2 ^ 112 + (2 ^ 32 + 0x800) * 2 ^ 56
  devBytes (devBytes (sM i st) 0x200 32 (d + 2 * 2 ^ 27 + (2 ^ 32 + 0x400) * 2 ^ 72)) 0x400 32 lay

/-- The table that the descriptor gives. -/
def builtOf (d : Nat) : Except FI Built :=
  match (buildTable 9 7 0 (2 ^ 32 + 0x200)).run (sBuild (.tbld (hd0 1) 0) d {}) with
  | .ok (b, _) => .ok b
  | .error f => .error f

/-- SumTables (a pair may fire: firing): an address operand and another; a table that is being built and one that is not; overlaps and none; a
place at the ends of the table and past them; a delta that fits and one that does not; a build that succeeds and one that faults; a fold. -/
theorem test_wit_tables :
    let fold : Bg := ⟨.fold, 0, 7, pL 1 (dn 0 [1]) (dn 0 [1]), 1⟩
    let build : Bg := ⟨.build, 0, 7, pL 1 (adr [2 ^ 32 + 0x200]) (dn 0 [1]), 0⟩
    let s : State := sM (.tfold (hd0 1) .int32 false 0) (stT tb9 [] [fold])
    let b : State := sBuild (.tbld (hd0 1) 0) 0 { bg := [build] }
    let st := stT tb9
    let sum (d : Int) : Int := segSum st tb9 0 1 2 + d
    (adr [5]).ty = .int64 ∧ (dn 0 [1]).ty ≠ .int64 ∧ (s.stn 9).busy 7 0 = true ∧ (s.stn 9).busy 7 1 = false ∧
    b.displaced 9 7 build.pair 0 = [] ∧ TableAt (sM (.tfold (hd0 1) .int32 false 0) st) 9 7 0 tb9 ∧ st.table (tb9).ctx (tb9).t = some tb9 ∧
    spWf 0 st.tstore = true ∧ (¬(2 : Nat) ^ (tb9).lgC ≤ (0 : BitVec 5).toNat ∧ 2 ^ (tb9).lgC ≤ (1 : BitVec 5).toNat) ∧
    ((st.tables.filter fun tb => tb.ctx == 7).map (·.t) = [0] ∧ (st.tables.filter fun tb => tb.ctx == 8).map (·.t) = []) ∧
    ((0 : Int) < 2 ^ (tb9).lgC ∧ ¬(1 : Int) < 2 ^ (tb9).lgC ∧ (1 : Int) < (tb9).ks ∧ ¬(2 : Int) < (tb9).ks) ∧
    ((sum (2 ^ 31 - 4)).natAbs ≤ 2 ^ 31 - 1 ∧ 2 ^ 31 - 1 < (sum (2 ^ 31 - 3)).natAbs) ∧
    (s.stn 9).bg[0]? = some fold ∧ (b.stn 9).bg[0]? = some build ∧ (s.stn 9).ctxs[1].instr 3 = some (.tfold (hd0 1) .int32 false 0) ∧
    stnHead (.tfold (hd0 1) .int32 false 0) = some (hd0 1) ∧
    ((builtOf 0).toOption.map fun x => (x.ents, x.tb.wmax, x.tb.lsafe)) = some ([[0, 0, 0]], 0, 2) ∧ faultOf (builtOf 1) = some { cls := 0x25, detail := 4 } ∧
    (fld (countAt (tkn .dense .uint32 0 1 [0x001F0001]) 0) 31 21 = 0 ∧
      (stT tb9).update tb9 0 1 4 false = .ok { stT { tb9 with wmax := 7, lsafe := 306783378, wgen := 1 } with kindling := [⟨7, 0, 0, 1, 4⟩] }) := by
  refine ⟨rfl, ?_, ?_, ?_, ?_, ⟨?_, rfl, rfl, ?_⟩, ?_, ?_, ?_, ?_, ?_, ?_, rfl, ?_, ?_, rfl, ?_, ?_, ?_,
    ok_of_toOption (by decide +kernel)⟩ <;> decide +kernel

/-- TablePairs (a pair may fire: firing): a table bound and not, a message of each kind that its table can take, an exponent that is equal and one
that is not, and a partner that asks and one that is another. -/
theorem test_wit_table_pairs :
    let p := pL 1 (tkn .dense .uint32 0 1 [0x10000]) (tkn .dense .int32 0 1 [4])
    let bd : Binding := ⟨12, 0, true⟩
    let tb := tb9 false (some bd)
    let bg : Bg := ⟨.pupd, 0, 7, p, 0⟩
    let msg (k : TMsgKind) : TMsg := ⟨k, 12, 0, 9, 0, 7, some p⟩
    let s (k : TMsgKind) (i : Instr) : State := { sM i { stT tb [] [bg] with issueq := [p] } with tmsgs := [msg k] }
    let pu : Instr := .pupd (hd0 2) .int32 false 0
    let pb : Instr := .pbind (hd0 1) .int32 true 0 0 12 3
    let q := s (.update 0x10000 4 false 1) pu
    q.tmsgs[0]? = some (msg (.update 0x10000 4 false 1)) ∧ (q.stn 9).busy 7 0 = false ∧ (q.stn 9).table 7 0 = some tb ∧
    (tb.bind = some bd ∧ bd.stn = 12 ∧ bd.t = 0 ∧ bd.stn ≠ 13 ∧ (tb9).bind = none) ∧ (tb.et = 0 ∧ tb.et ≠ 1) ∧
    ((q.stn 9).ctxs[1].instr 3 = some pu ∧ stnHead pu = some (hd0 2)) ∧
    (((s (.bindAnswer true 0) pb).stn 9).ctxs[1].instr 3 = some pb ∧ stnHead pb = some (hd0 1)) ∧
    (q.stn 9).bg[0]? = some bg ∧ (bg.next + 1 = p.n ∧ bg.next + 1 ≠ (pL 2 (dn 0 [1, 1]) (dn 0 [1, 1])).n) ∧
    (∀ i x, i < 0 → (q.stn 9).bg[i]? = some x → ¬(x.kind = .pupd ∧ x.pair = p)) ∧
    (tb.wide = decide (Fmt.int32 = .int64) ∧ CountTy p.left.ty ∧ p.right.ty = .int32) ∧
    (pairPlace tb true 0x10000 = (0, 1) ∧ ((stT tb).update tb 0 1 4 false).toOption.isSome = true ∧ faultOf ((stT tb).update tb 0 2 4 false) ≠ none) ∧
    ((sD.stn 9).table 7 0 = none ∧ ((7, 9, 0) : Byte × Nat × BitVec 2) ∉ sD.spilledTables ∧ (∀ x ∈ (sD.stn 9).tables, x.t ≠ 0) ∧ ∃ x ∈ (stT { tb9 with ctx := 8 }).tables, x.t = 0) := by
  refine ⟨rfl, ?_, ?_, ?_, ?_, ?_, ?_, ?_, ?_, ?_, ?_, ?_, ?_⟩ <;> try decide +kernel
  · intro i x h; exact absurd h (by omega)
  · unfold CountTy; decide +kernel

/-! ## The scheduler, the colliers and the units -/

/-- A module whose context 7 maps 2^30 bytes at 2^32 from PA 0 under key 1 (Tables 06-1 and 06-2), its records at 0x8000. -/
def sPT : State :=
  let s : State := { State.reset with keys := [(0, 1)], ctxTable := 0x2000, recPool := 0x8000 }
  let s1 := devBytes s 0x20E0 32 (0x40 * 2 ^ 8 + 2 ^ 128)
  devBytes (devBytes (devBytes s1 0x4000 8 (0x50 * 2 ^ 8 + 1)) 0x5000 8 (0x60 * 2 ^ 8 + 1)) 0x6020 8 7

/-- A good record of context 7 for configuration 3 on die 0, one region of one core (Table 05-1). -/
def rec7 : Nat := 3 + 7 * 2 ^ 32 + 2 ^ 56

/-- A queue that is enabled, of 16 entries at 2^32 + 0x10000, with requests. -/
def wq7 (tail : Nat) : WorkQueue := { desc := BitVec.ofNat 128 (1 + 2 ^ 32 + 0x10000 + 7 * 2 ^ 64), tail := BitVec.ofNat 32 tail }

/-- sPT with record 0, configuration 3, a request of a queue for that record and an arm queue's. -/
def sArm (rec : Nat) (ls : List Launch) : State :=
  let s := devBytes sPT 0x8000 8 rec
  let c : Cfg := ⟨3, 0, 0, [], 0, [], [], []⟩
  { s.setDie 0 { s.die 0 with armq := [⟨0, none, 7, none, none, []⟩] } with configs := [c], launches := ls, wq := [(3, wq7 1), (5, wq7 1)] }

/-- An image of a configuration without code or slots, and one with a reserved bit. -/
def img (bad : Bool) : List Byte := leBytes 64 (3 + if bad then 2 ^ 400 else 0)

/-- LaunchRequests: a BAR0 access of each size and of another; an image that is taken and one that is refused; a free index, none, and the next
queue before and after the last; a record that is good, busy, and refused; entries that can be read and cannot. -/
theorem test_wit_requests :
    let s := sArm rec7 []
    let full : List Launch := [{ lau with recno := 0, lid := 0 }]
    (16383 < 16384 ∧ ((⟨8, 4, none⟩ : BarAccess).size = 4 ∧ (⟨8, 4, none⟩ : BarAccess).off % 4 = 0) ∧ ¬((⟨10, 4, none⟩ : BarAccess).off % 4 = 0)) ∧
    (parseImage (img false)).isSome = true ∧ parseImage (img true) = none ∧ fld (leValue ((img true).take 64)) 511 323 ≠ 0 ∧
    s.freeLid = some 0 ∧ (sArm rec7 full).freeLid = some 1 ∧
    s.scanNext = some 3 ∧ { s with wqNext := 4 }.scanNext = some 5 ∧ { s with wqNext := 6 }.scanNext = some 3 ∧ s.wq.Pairwise (fun a b => a.1 < b.1) ∧
    s.evict = .serving ∧ s.pend = [] ∧ (s.ringRead 7 (2 ^ 32 + 0x10000)).toOption.isSome = true ∧ faultOf (s.ringRead 7 (2 ^ 33)) ≠ none ∧
    (∃ l ∈ (sArm rec7 full).launches, l.recno = 0) ∧ (∀ l ∈ s.launches, l.recno ≠ 0) ∧
    (s.readRange s.recPool 256 3).toOption.isSome = true ∧ faultOf ({ s with keys := [] }.readRange s.recPool 256 3) ≠ none ∧
    RecordGood s rec7 7 ∧ ¬RecordGood s (rec7 + 2 ^ 127) 7 ∧ (s.die 0).armq = [⟨0, none, 7, none, none, []⟩] ∧
    DepMet s rec7 0 ∧ ¬DepMet s (2 ^ 143 + 2 ^ 256) 0 ∧ (7 ≤ 7 ∧ 17 + 7 ≤ 24 ∧ ¬18 + 7 ≤ 24) := by
  refine ⟨?_, ?_, ?_, ?_, ?_, ?_, ?_, ?_, ?_, ?_, rfl, ?_, ?_, ?_, ⟨_, List.mem_singleton.mpr rfl, rfl⟩, ?_, ?_, ?_, ⟨?_, ?_, ?_, ?_, ?_,
    ?_, ?_, ?_, ⟨⟨3, 0, 0, [], 0, [], [], []⟩, ?_, ?_⟩, ?_⟩, ?_, ?_, ?_, ?_, ?_⟩ <;> try decide +kernel
  · have h : ((sArm rec7 []).ctxEntry 7).toOption = some (0x40 * 2 ^ 8 + 2 ^ 128) := by decide +kernel
    exact ⟨_, ok_of_toOption h, by decide⟩
  · intro h; exact absurd h.1 (by decide)
  · unfold DepMet; decide +kernel
  · unfold DepMet; decide +kernel

/-- LaunchRequests: an entry in host memory whose link is down; a request whose host has nothing left to apply; a LARM whose earlier write
waits, and one whose die's link is closed. -/
theorem test_wit_ring_link :
    let s : State := { devBytes sPT 0x6028 8 (2 ^ 49 + 5) with hostUp := false }
    let r : ArmReq := ⟨0, none, 7, some acc, none, [1]⟩
    let t : State := { (sArm rec7 []).setDie 0 { (sArm rec7 []).die 0 with armq := [r] } with pend := [owed] }
    ((faultOf (s.ringRead 7 (5 * 2 ^ 30))).map (·.cls)) = some 0x30 ∧ s.flying = [] ∧ s.pend = [] ∧ s.linkOpen none 0 = true ∧
    ((t.die 0).armq = [r] ∧ ∃ w ∈ t.pend, w.id ∈ r.after ∧ w.todo ≠ 0) ∧ State.linkOpen { s with ucie := Vector.replicate 32 { paused := true } } none 1 = false := by
  decide +kernel

/-- A launch with a record, a class and a state. -/
def la (lid cls : Nat) (st : LState) (rec : Nat) : Launch := { lau with lid, recno := lid, bytes := leBytes 256 rec, cls, st }

/-- LaunchSelection: an age at its count and below; a launch that fits, one that does not but for which a victim suffices, and none; a grant of the
widest and of the least width; the last core, region and class. -/
theorem test_wit_selection :
    let ask (w : Nat) : Nat := rec7 + ((w - 1) + 7 * 16) * 2 ^ 192
    let holds (w cls : Nat) : Launch := { la 1 cls .running rec7 with regions := [⟨0, 0, w, 8⟩] }
    let s (ls : List Launch) : State := { State.reset with launches := ls }
    let t := la 0 2 .ready (ask 16)
    let lower (v : Launch) : Bool := decide (v.cls < t.cls)
    let got := t.fit (usedCores [holds 8 0])
    (2 ^ 20 * 14 ≤ (1468007 - t.ageAt) * 10 ∧ (1468006 - t.ageAt) * 10 < 2 ^ 20 * 14) ∧ (s [t]).launch 0 = some t ∧ t.st = .ready ∧
    got = some [⟨0, 8, 8, 8⟩] ∧ t.fit [] = some [⟨0, 0, 16, 8⟩] ∧ t.fit (usedCores [holds 9 0]) = none ∧
    (s [t, holds 9 0]).soonFits t = false ∧ (s [t, holds 9 0]).victims t lower = some [1] ∧ (s [t, holds 9 2]).victims t lower = none ∧
    (s []).evict = .serving ∧ (s []).mem.wf = true ∧ t.saved = none ∧ (leBytes 256 0).length = 256 ∧
    ((127 : Nat) < 128 ∧ (7 : Nat) < 8 ∧ (1 : Nat) ≤ 16 ∧ t.cls < 8) := by decide +kernel

/-- A launch of state st on core 0 whose cores are as they are given; station 0 holds entries of its context. -/
def sL (st : LState) (run : Run) (store : List Entry) (c : Cfg := ⟨1, 0, 0, [], 0, [], [], []⟩) : State :=
  let x : Station := { ctxs := (Vector.replicate 4 {}).set 1 { tag := some 7, cfgid := 1, lid := some 5 }, store }
  let s := (State.reset.setStn 0 x).setCore acc { cre [] with run }
  { s.setCore dra { cre [] with run := .halted } with launches := [{ lau with st, bytes := leBytes 256 (2 ^ 110) }], configs := [c] }

/-- sPT with launch 5 and the bytes of its save image, a header and no part, at the start of its context's image part. -/
def sImage (st : LState) (restoring : Bool) (net : List Flight := []) : State :=
  let l : Launch := { lau with st, restoring, saved := some [⟨0, 0, 1, 1⟩], saveAt := some (0, 128), bytes := leBytes 256 0 }
  let s := { sPT with launches := [l], configs := [⟨1, 0, 0, [], 0, [], [], []⟩], net }
  s.putHome ⟨.dev, 2 ^ 32, 1, []⟩ (putHeader 1 7 0 [⟨0, 0, 1, 1⟩])

/-- LaunchProgress, a launch that is resumed: its image can be read, with the grant it names and no part, or cannot, its context's entry
being damaged; it is being restored, with residue on its way and with none; where its image goes. -/
theorem test_wit_resume :
    let s := sImage .loading false
    let l := (s.launch 5).getD lau
    let bad : State := { s with ecc := [⟨false, 0, 0, 0x2080, true⟩] }
    let f : Flight := ⟨82, some 5, dn 0 [1], some 5⟩
    let read := ((s.cacheConfig l.cfgid l.regions).readImage l).toOption.map (·.1)
    s.launch 5 = some l ∧ s.mem.wf = true ∧ l.st = .loading ∧ l.restoring = false ∧ (∀ g ∈ l.regions, s.linkOpen none g.die.val = true) ∧
    (s.configs.find? (fun c => c.cfgid == l.cfgid)).isSome = true ∧ read = some ⟨1, l.regions, [], [], [], []⟩ ∧ l.saved = some l.regions ∧
    faultOf ((bad.cacheConfig l.cfgid l.regions).readImage l) ≠ none ∧ (s.imagePlace l).toOption = some (2 ^ 32, 128) ∧ faultOf (bad.imagePlace l) ≠ none ∧
    (spFind s.keys 0).isSome = true ∧ 2 ^ 32 % 128 = 0 ∧
    ((((sImage .loading true).launch 5).getD lau).restoring = true ∧ (∀ g ∈ (sImage .loading true).net, g.fifo ≠ some 5)) ∧
    (∃ g ∈ (sImage .loading true [f]).net, g.fifo = some 5) ∧ ¬(∀ g ∈ l.regions, State.linkOpen { s with ucie := Vector.replicate 32 { paused := true } } none g.die.val = true) := by
  decide +kernel

/-- AccumulatorRows: the save area of a context that has one, whose row can be written and read, and of one whose entry is damaged. -/
theorem test_wit_save_area :
    let i : Instr := .aclr (hd0 1) .int8 0 0 4 0
    let s : State := (devBytes sPT 0x2100 32 (2 ^ 128)).setStn 9 {
      ctxs := (Vector.replicate 4 {}).set 1 { tag := some 7, cfgid := 1, lid := some 5, words := [(3, BitVec.ofNat 128 (encStation i))] }
      own := true, issueq := [pL 1 (dn 0 [1]) (dn 0 [1])] }
    let b := 0
    let j := 32 * 9 + 4
    (s.stn 9).want = [] ∧ s.ecc = [] ∧ (s.saveBase 7).toOption = some b ∧ b % 128 = 0 ∧ b + 2 ^ 30 ≤ devSize ∧
    s.lineFault (b + 2 ^ 29 + 8 * j) 8 true ((b + 2 ^ 29 + 8 * j) / 128 * 128) = none ∧
    (s.readRange (b + 256 * j) 256 3 (some (stnDie 9))).toOption.isSome = true ∧ (s.readRange (b + 2 ^ 29 + 8 * j) 8 2 (some (stnDie 9))).toOption.isSome = true ∧
    (let t : State := { s with spilledRows := [(7, j)] }
     (7, j) ∈ t.spilledRows ∧ (t.row 9 4).owner = none) ∧
    (let t : State := s.setStn 9 { s.stn 9 with rows := [(4, { owner := some 8 })] }
     (t.row 9 4).owner = some 8 ∧ faultOf (State.saveBase { t with ecc := [⟨false, 0, 0, 0x2100, true⟩] } 8) ≠ none) := by
  decide +kernel

/-- LaunchProgress: a launch that is quiet and complete, with halted cores and with one that waits in GCFG; quiet and deadlocked; not quiet;
loading a configuration that passes its checks and one that does not, and an image; saving and closing, settled. -/
theorem test_wit_progress :
    let s := sL .running .halted []
    let w := (sL .running .running []).setCore acc { cre [] with wait := .gcfg none }
    let one (s : State) : Launch := (s.launch 5).getD lau
    let bad : Cfg := ⟨1, 0, 0, [], 0, [], [(0, 0, 2 ^ 127)], []⟩
    (s.launch 5).isSome = true ∧ s.mem.wf = true ∧
    s.quiet (one s) = true ∧ s.configDone (one s) = true ∧ (s.core acc).run = .halted ∧ w.quiet (one w) = true ∧ w.configDone (one w) = true ∧
    (acc ∈ agentsOf (one w) ∧ (w.core acc).wait = .gcfg none) ∧
    (let d := sL .running .halted [en .normal (dn 0 [1])]
     d.quiet (one d) = true ∧ d.configDone (one d) = false) ∧
    (let b := sL .running .running []; b.quiet (one b) = false) ∧
    (let l := sL .loading .halted []
     (one l).st = .loading ∧ (one l).saved = none ∧ (l.configs.find? fun c => c.cfgid == (one l).cfgid).isSome = true ∧
     (⟨1, 0, 0, [], 0, [], [], []⟩ : Cfg).check (one l).regions false = none ∧ (bad.check (one l).regions false).isSome = true) ∧
    ((coresOf (one s).regions).map (·.key)).Nodup ∧ (∀ p ∈ coresOf (one s).regions, p.core < 128) ∧
    (let v := sL .saving .stopped []
     (one v).st = .saving ∧ v.settled (one v) = true ∧ v.writesDone (one v) = true ∧ v.readsDone (one v) = true) ∧
    (let c := sL .closing .halted []
     (one c).st = .closing ∧ c.engine = [] ∧ c.writesDone (one c) = true ∧ bitOf (leValue (one c).bytes) 110 = true) := by decide +kernel

/-- Launch 5 in a state with records, its access core stopped, station 0 with a faulting pair back and a held token. -/
def sF5 (st : LState) (recs logged : List FRec) (x : Station := {}) : State :=
  let c : Core := { cre [] with run := .stopped, escalated := true }
  { (sStn 0 1 [dn 0 [1]] (x := x)).setCore acc c with launches := [{ lau with st, recs := recs.map (0, ·), logged }] }

/-- LaunchStops: a stop that has settled and one without records; the actions on a launch stopped, pre-empted with a fault, and running; damage that
makes resume end; a fault queue with room and a full one; a launch that LCANCEL withdraws and one that is not there; LCTL legal and not. -/
theorem test_wit_stops :
    let s := sF5 .stopped [] []
    let r : FRec := { cls := 0x01 }
    let ends (l : Launch) : Prop := ∃ r ∈ l.logged.drop l.handled, r.cls = 0x29 ∧ (r.detail.toNat % 16 = 2 ∨ r.detail.toNat % 16 = 3)
    let one (s : State) : Launch := (s.launch 5).getD lau
    let full : State := s.setCore col { s.core col with fqtail := 64 }
    let w (v : Nat) : State := { sAt col (cre [(1, 0x803), (2, BitVec.ofNat 64 v)]) with launches := s.launches }
    (s.launch 5).isSome = true ∧ s.mem.wf = true ∧ (sF5 .stopped [r] [r]).settled (one (sF5 .stopped [r] [r])) = true ∧ (one s).recs = [] ∧
    AtLctl (one s) ∧ AtLctl (one (sF5 (.preempted true) [] [])) ∧ ¬AtLctl (one (sF5 .running [] [])) ∧ (one s).batch = none ∧
    ¬ends (one s) ∧ ends { one s with logged := [{ r with cls := 0x29, detail := 3 }] } ∧ (agentsOf (one s)).Nodup ∧
    (∀ n ∈ stationsOf (one s).regions, ∀ h ∈ (s.stn n).held, h.lid ≠ 5) ∧ (∀ n ∈ stationsOf (one s).regions, (s.stn n).reshdr = []) ∧
    ((s.core acc).run = .stopped ∧ (s.core dra).run ≠ .stopped) ∧
    (((s.core col).fqtail.toNat + 128 - (s.core col).fqhead.toNat) % 128 ≠ 64 ∧ ((full.core col).fqtail.toNat + 128 - (full.core col).fqhead.toNat) % 128 = 64) ∧
    ((({ sD with launches := [la 5 0 .ready rec7] } : State).launches.find? fun (l : Launch) => l.recno == 5 && (l.st == .waiting || l.st == .ready)).isSome = true) ∧
    ((w 5).cur.kind = .collier ∧ (w 5).me.guard gT = true ∧ ((w 5).me.rg 1 + (w 5).immI 0).toNat % 4096 = 0x803 ∧
      ((w 5).me.rg 2).toNat / 2 ^ 16 % 4 < 3 ∧ ¬((w (5 + 3 * 2 ^ 16)).me.rg 2).toNat / 2 ^ 16 % 4 < 3) := by
  refine ⟨?_, ?_, ?_, ?_, Or.inl (by decide +kernel), Or.inr (by decide +kernel), ?_, ?_, ?_, ?_, ?_, ?_, ?_, ?_, ?_, ?_, ?_⟩ <;> try decide +kernel
  rintro (h | h) <;> exact absurd h (by decide +kernel)

/-- CollierServices: a queue with waiting records; pairs at gens that lag by one, are level, and lead; without the entry and with it; items of each kind
that WSEL selects and one that is no item; errors that the scrubber corrects and reports; the CSRs. -/
theorem test_wit_services :
    let bd : Option Binding := some ⟨1, 0, true⟩
    let tb (g : Nat) (j : List JEntry) (b : Option Binding) : Table := { tb9 false b with gen := BitVec.ofNat 16 g, journal := j }
    let e : JEntry := ⟨1, 0x10000, 4⟩
    let s (a b : Table) : State :=
      ((sF5 .stopped [] [] { faulted := [pOf 0 1 [dn 0 [9]] [] []] }).setStn 0 (stT a)).setStn 1 (stT b)
    let t := s (tb 0 [] bd) (tb 1 [e] (some ⟨0, 0, false⟩))
    let sel (src kind i : Nat) : Nat := src * 2 ^ 32 + kind * 2 ^ 30 + i
    let k9 := sF5 .stopped [] [] { faulted := [pOf 0 1 [dn 0 [9]] [] []] }
    let w (v : Nat) : State := sAt col { cre [(1, BitVec.ofNat 64 v), (2, BitVec.ofNat 64 (3 * 2 ^ 62))] with wsel := BitVec.ofNat 64 (sel 8192 0 0) }
    let found (s : State) (n : Nat) : Option (Option Table) := (s.svcTable n 7 0 5).toOption.map (·.1)
    (t.svcOwner 0 0 = some (7, 5) ∧ found t 0 = some (some (tb 0 [] bd)) ∧ found t 1 = some (some (tb 1 [e] (some ⟨0, 0, false⟩))) ∧
      (t.stn 1).table 7 0 = some (tb 1 [e] (some ⟨0, 0, false⟩))) ∧
    (found (s (tb 0 [] none) (tb 0 [] none)) 0 = some (some (tb 0 [] none)) ∧ found t 2 = some none ∧ ((7, 2, 0) : Byte × Nat × BitVec 2) ∉ t.spilledTables) ∧
    (sD.launches.all fun l => !(stationsOf l.regions).contains 8192) = true ∧ ServedFor t 0 0 ((t.launch 5).getD lau) ∧
    faultOf (State.svcTable { t with ecc := [⟨true, 4, 0, 4 * 7, true⟩] } 0 7 0 5) ≠ none ∧
    ((tb 1 [e] bd).gen - (tb 0 [] bd).gen).toNat = 1 ∧ 2 ^ 15 ≤ ((tb 0 [] bd).gen - (tb 1 [e] bd).gen).toNat ∧ ((tb 0 [] bd).gen - (tb 0 [] bd).gen).toNat = 0 ∧
    ((tb 1 [e] bd).journal.find? (fun x => x.gen == (tb 0 [] bd).gen + BitVec.ofNat 16 1) = some e ∧ ((stT tb9).update tb9 0 1 4 true).toOption.isSome = true) ∧
    Sees k9 0 (sel 0 1 3) ((k9.core acc).rg 3) (fun v => k9.setCore acc ((k9.core acc).wg 3 v)) ∧
    (∃ put, Sees k9 0 (sel 9 0 0) 9 put) ∧ (fld (sel 8192 0 0) 47 32 / 8192 ≠ 0 ∧ fld (sel 0 3 0) 31 30 = 3) ∧
    ((csrEvent 0 0x801 0).isSome = true ∧ (csrEvent 0 0x808 0).isSome = true ∧ (csrEvent 0 0x804 (2 ^ 62)).isSome = true ∧ csrEvent 0 0x806 0 = none) ∧
    ((w 0x804).cur = collierOf (w 0x804).cur.die ∧ (w 0x804).me.guard gT = true ∧ ((w 0x804).me.rg 1 + (w 0x804).immI 0).toNat % 4096 = 0x804 ∧
      fld ((w 0x804).me.rg 2).toNat 63 62 = 3 ∧ fld (w 0x806).me.wsel.toNat 47 32 / 8192 ≠ (w 0x806).cur.die.val) ∧
    ((0 : DWord).toNat < 128 ∧ (0 + 128 - ((3 : DWord) &&& 0x7F).toNat) % 128 = 125 ∧ (3 + 128 - ((0 : DWord) &&& 0x7F).toNat) % 128 ≤ 64) := by
  refine ⟨?_, ?_, ?_, ⟨?_, Or.inl ?_, ?_, Or.inl ?_⟩, ?_, ?_, ?_, ?_, ⟨?_, ?_⟩, ⟨?_, Or.inl ⟨Or.inl (by decide), ?_, ⟨5, _, ?_, rfl, rfl⟩, ?_, Or.inl ⟨3, ?_, rfl,
    rfl⟩⟩⟩, ⟨_, ?_, Or.inr ⟨?_, 5, ?_, ⟨5, _, rfl, rfl, rfl⟩, Or.inr (Or.inl ⟨pOf 0 1 [dn 0 [9]] [] [], [], ⟨1, .normal, dn 0 [9], 9⟩, [],
    9, 0, ?_, ?_, ?_, rfl, rfl, ?_, rfl⟩)⟩⟩, ?_, ?_, ?_, ?_⟩ <;> try decide +kernel

/-- A unit of die 0 with an arrival for queue 0, and the queue. -/
def sE (e : EQueue) (arr : List EqPush) (disp : List Firing := []) : State :=
  let s : State := { sD with eqs := [(0, e)], now := 10 }
  s.setDie 0 { s.die 0 with eqIn := arr, dispatch := disp }

/-- QueueEvents: a first arrival and one behind; places on the chip free, none, and spilled; a queue of the context and of another; a batch due on
fill and on age and not; firings of which one is idle; requests and slices there and not. -/
theorem test_wit_queue_events :
    let p : EqPush := ⟨0, 3, 7, some 5, 0x80, 1⟩
    let x (k : EqPlace) : EqEntry := ⟨3, 1, k, none⟩
    let q (l : List EqEntry) : EQueue := { en := true, ctx := 7, sbase := 2 ^ 32, scap := 2, recno := 1, age := 9, maxb := 2, fill := 1, entries := l }
    let s := sE (q []) [p, p]
    let f : Firing := ⟨0, 0, 1, 3, 0⟩
    let d := sE (q [x (.chip 0)]) [] [f]
    let id : Slice := ⟨9, 7, 0, 0, 0⟩
    let pc (l : List PEntry) (c : List Slice) : State :=
      (sM (.tfold (hd0 1) .int32 false 0) (stT tb9)).setDie 0 { preq := [id], pq := c, pcache := l }
    ((s.die 0).eqIn[0]? = some p ∧ (s.die 0).eqIn[1]? = some p ∧ (s.eq 0).held = none ∧ (s.eq 0).en = true ∧ (s.eq 0).ctx = p.ctx ∧ (q []).ctx ≠ 8) ∧
    ((∀ x ∈ (s.eq 0).entries, x.place ≠ .chip 0) ∧ [x (.spill 1)].length < 2 ∧ ¬[x (.spill 0), x (.spill 1)].length < 2) ∧
    (s.spillAccess 0 (2 ^ 32) true).toOption.isSome = true ∧
    (waitingAt (q [x (.chip 0)]) 10 = [x (.chip 0)] ∧ waitingAt (q [x (.chip 0)]) 1 = [] ∧ (∀ f ∈ (s.die 0).dispatch, f.q ≠ 0) ∧ (q []).age ≤ 10 - 1 ∧
      ¬(q []).age ≤ 9 - 1 ∧ (q []).fill ≤ [x (.chip 0)].length) ∧
    (f ∈ (d.die 0).dispatch ∧ (∀ l ∈ d.launches, l.recno ≠ 1) ∧ (∀ c, (d.die c).armq = []) ∧ (∃ l ∈ sD.launches, l.recno = 0) ∧ 64 ≤ ({ f with passed := 64 } : Firing).passed) ∧
    ((d.recCtx 1).toOption = some 0 ∧ ((sF false 0 0).recCtx 0).toOption = some 7) ∧
    (((pc [] []).die 0).preq = [id] ∧ ((pc [] []).die 0).pcache = [] ∧ 64 ≤ (List.replicate 64 id).length ∧ (∃ e ∈ [(⟨id, .pending, 0, false⟩ : PEntry)], e.slice = id)) ∧
    (((pc [] [id]).die 0).pq = [id] ∧ (pc [] [id]).ecc = [] ∧ ((pc [] [id]).stn 9).table 7 0 = some tb9 ∧ (tb9).wgen = id.wgen ∧ ({ tb9 with wgen := 1 } : Table).wgen ≠ id.wgen) := by
  decide +kernel

/-- An engine operation of the access core of launch 5. -/
def eo (k : EngKind) : EngOp := ⟨1, acc, 7, some 5, 4, 0, k, [], false⟩

/-- A state with one engine operation. -/
def sO (k : EngKind) (w : Wait := .none) : State := { sDev acc { cre [] with wait := w } with engine := [eo k] }

/-- EngineEvents: an operation of each kind, near and with its places good; ranges that are apart and that overlap; a place where nothing is; a write
that a die may apply and one that waits; an address in a leaf, not mapped, and walked; a stream that is open and one that is not. -/
theorem test_wit_engine :
    let rows : State := (sO (.aout 0x100 9 0 2)).setStn 9 { rows := [(0, { owner := some 7 }), (1, { owner := some 7 })], bg := [⟨.fold, 0, 7, pL 1 (dn 0 [1]) (dn 0 [1]), 1⟩] }
    let w : PendW := { id := 2, co := 2, cells := [(0x40, 1)], deps := [], agent := agentIdx acc, todo := 5 }
    let v : PendW := { w with id := 3, co := 3, cells := [(0x40, 2)], deps := [(2, .sys)] }
    let ps : State := { sD with pend := [w, v] }
    let e (o : State) : EngOp := (o.engine[0]?).getD (eo (.eqsent 0))
    let mem := sO (.mem 0x100 0x200 64)
    let str : State := sDev acc { cre [] with st := Vector.replicate 8 ({ base := 0x200, isOpen := true, n := 4 } : Stream) }
    (mem.engine[0]? = some (eo (.mem 0x100 0x200 64)) ∧ mem.engine[1]? = none ∧ mem.mem.wf = true ∧ mem.ecc = [] ∧ (e mem).agent.kind ≠ .collier) ∧
    (0x100 + 64 ≤ 2 ^ 20 ∧ 0x100 + 64 ≤ 0x200 ∧ ¬(0x100 + 64 ≤ 0x120 ∨ 0x120 + 64 ≤ 0x100) ∧ 2 ^ 20 ≤ (0x200000 : Nat) ∧ lau.st = .running ∧ mem.launch 5 = some lau) ∧
    ((∀ j, j < 2 → (rows.row 9 (0 + j)).owner = some (e rows).ctx) ∧ (∃ b ∈ (rows.stn 9).bg, b.kind ≠ .pupd) ∧ (mem.stn 9).bg = [] ∧ spWf 0 (mem.stn 9).tstore = true) ∧
    ((mem.access (e mem).who (dv 0x100).toNat 32 32 true).toOption.isSome = true ∧ (mem.access (e mem).who (dv 0x140).toNat 64 1 false).toOption.isSome = true ∧
      (mem.access (e mem).who ((dv 0x100).toNat + 12 : Nat) 4 1 false).toOption.isSome = true) ∧
    (let q := sQ 3 5 0; q.spoiled = [] ∧ fld (leValue (q.home (pl 0x100) 32)) 127 96 = 3) ∧
    ((sO (.qpop 0 0 0x100) (.engine 1 none)).core acc).wait = .engine 1 none ∧
    ((∀ x ∈ ((sE ({} : EQueue) []).eq 0).entries, ∃ c, x.place = .chip c) ∧ ((sE {} []).eq 0).held = none) ∧
    (let c := sO (.sclone 0 0x100 0 0 none)
     fld (leValue (c.mem.bytes (coreMemBase 0 0 + 0x100) 16)) 15 0 ≤ 0 ∧
     (let g := withBytes c (coreMemBase 0 0 + 0x100) 48 (1 + 300 * 2 ^ 256)
      0 < fld (leValue (g.mem.bytes (coreMemBase 0 0 + 0x100) 16)) 15 0 ∧ fld (leValue (g.mem.bytes (coreMemBase 0 0 + 0x110) 32)) 191 128 = 300 ∧ g.peers[0].up = true)) ∧
    (ps.pend.find? (fun w => w.id == 3) = some v ∧ v.todo.getLsbD 0 = true ∧ (∃ id ∈ v.deps, bindsDie v.agent id.2 0 = true ∧ ∃ x ∈ ps.pend, x.id = id.1 ∧ x.todo.getLsbD 0 = true) ∧ w.deps = [] ∧
      (w.cells.map Prod.fst).Nodup ∧ (∀ c ∈ w.cells, c.1 < 2 ^ 56) ∧ (ps.pend.map (·.id)).Nodup ∧ ps.wayTo 0 w = true ∧ (∀ q ∈ ps.peers.toList, q.acks = [])) ∧
    ((∃ l ∈ sD.tlb, l.die = 0 ∧ l.ctx = 7 ∧ l.va ≤ 2 ^ 32 ∧ 2 ^ 32 < l.va + l.size) ∧ sPT.tlb = [] ∧ (sPT.walk 7 (2 ^ 32)).toOption.isSome = true ∧ faultOf (sPT.walk 7 (2 ^ 40)) ≠ none) ∧
    (((str.core acc).st[(0 : SReg)]).isOpen = true ∧ spFind ((str.core acc).st[(0 : SReg)]).words 0 = none ∧ ((sD.core acc).st[(0 : SReg)]).isOpen = false ∧
      (str.access (str.who acc) (0x200 : Nat) 4 4 false).toOption.isSome = true) ∧
    (mem.engOpen (eo (.mem 0x100 0x200 64)) 0x200 64 false = true ∧ mem.engOpen (eo (.mem 0x100 0x200 64)) 0x100 64 true = true) ∧
    (let far : State := { sD with ucie := Vector.replicate 32 { paused := true }, tlb := [⟨0, 7, 2 ^ 32, 2 ^ 21, 0x1000, 0, true⟩] }
     far.engOpen (eo (.mem 0x100 0 64)) (2 ^ 32) 32 false = false) ∧
    (∃ k ∈ ({ sQ 3 5 0 with spoiled := [0x104] } : State).spoiled, 0x100 ≤ k ∧ k < 0x100 + 32) ∧
    (let q := sQ 3 5 0; q.descWaits 0 (pl 0x100) = false ∧ State.descWaits { q with pend := [{ owed with cells := [(0x104, 0)], todo := 1 }] } 0 (pl 0x100) = true) := by
  refine ⟨?_, ?_, ?_, ?_, ?_, ?_, ⟨?_, ?_⟩, ?_, ?_, ?_, ?_⟩ <;> try decide +kernel
  intro x h
  have : ((sE {} []).eq 0).entries = [] := by decide +kernel
  rw [this] at h; cases h

/-- The state after reset with a peer port changed, the module's key in slot 0, and one access waiting at the host's window and at the home
controllers. -/
def sH (q : Peer) (c : CxlAccess) (tag : BitVec 4 := 1) : State :=
  let h : HomeAccess := if c.write = [] then .read c.pa c.readLen else .write c.pa c.write
  { sPT with peers := sPT.peers.set 2 q, cxlIn := [c], tags := if tag = 1 then [] else [(0, tag)], homeIn := [h] }

/-- LinksAndHost: a module at an edge and one inside; training and trained; retries at the threshold and below; an access on its way to host
memory; a remote write and an SCLONE on a port; the state of an eviction through it and through another. -/
theorem test_wit_links :
    let u : Ucie := { training := some 32, retries := 1024 }
    let q : Peer := { en := true, ctxin := 7, rxseq := 3 }
    let s := sH q ⟨0, 0x60, [], 32⟩
    let f : Fly := { gone with loc := ⟨.host, hostBase, 0, []⟩ }
    let o : EngOp := eo (.sclone 2 0x100 0 0 (some 0x80))
    (((0 : Fin 4).val = 0 ∧ (4 : Fin 8).val % 4 = 0) ∧ ¬((1 : Fin 4).val = 0 ∧ (1 : Fin 8).val % 4 = 0) ∧ spWf 0 u.errs = true) ∧
    (u.training = some 32 ∧ 32 ≤ 64 ∧ u.reported = false ∧ 1024 ≤ u.retries ∧ ({ u with retries := 1023 } : Ucie).retries < 1024) ∧
    (s.flying = [] ∧ f.loc.space = .host ∧ f.lid = some lau.lid ∧ lau.st = .running) ∧
    (s.engine = [] ∧ (s.peers[2]).waiting = [] ∧ ({ q with waiting := [(1, some acc, some 5)] } : Peer).waiting = [(1, some acc, some 5)] ∧
      ({ q with waiting := [(1, none, some 5)] } : Peer).waiting = [(1, none, some 5)] ∧ Asks 2 0x80 o) ∧
    (s.evict = .serving ∧ ({ s with evict := .moving, evictPort := 2 } : State).evictPort = 2) := by
  refine ⟨by decide, by decide, by decide +kernel, ⟨?_, ?_, rfl, rfl, ⟨_, _, _, rfl⟩⟩, ?_⟩ <;> decide +kernel

/-- LinksAndHost, lines: an access in one line at its ends and past them, under a key and none, of a line whose data is there and is not; one over
a link that is closed; parts of two lines; a key slot, the last and one past it. -/
theorem test_wit_lines :
    let s := sH {} ⟨0, 0x60, [], 32⟩
    let w := sH {} ⟨0, 0x60, List.replicate 32 1, 0⟩
    let shut : State := { s with ucie := Vector.replicate 32 { paused := true } }
    (s.cxlIn = [⟨0, 0x60, [], 32⟩] ∧ s.homeIn = [.read 0x60 32] ∧ w.homeIn = [.write 0x60 (List.replicate 32 1)] ∧ s.hostUp = true ∧
      Untranslated s (s.cxlKeys[(0 : Fin 16)]).toNat 0x60 32 false 1 ∧ Untranslated w 0 0x60 32 true 1 ∧ spFind s.keys 1 = none ∧
      9 ≤ ((sH {} ⟨0, 0x60, [], 32⟩ 9).tag 0x60).toNat ∧ 0x6000000000 < 0x5FFFFFFFF0 + 32) ∧
    (0x60 % 128 + 32 ≤ 128 ∧ ¬(0x61 % 128 + 32 ≤ 128) ∧ 128 - 0x60 % 128 < 40) ∧
    (s.linkOpen none (homeDie 0x60) = true ∧ shut.linkOpen none (homeDie 0x1000) = false) ∧ (16383 < 2 ^ 14 ∧ ¬16384 < 2 ^ 14) := by
  refine ⟨⟨rfl, rfl, rfl, rfl, ?_, ?_, ?_, ?_, ?_⟩, ?_, ?_, ?_⟩ <;> first | decide +kernel | (unfold Untranslated; decide +kernel)

/-- LinksAndHost, peers: a request in turn and out of turn, on an open and a closed route, whose bytes are in one line and in two; a place that
is not mapped; an acknowledgement that waits and one that may go; each item of an eviction that the receiver reads, and a module that may
take it over. -/
theorem test_wit_peers :
    let q : Peer := { en := true, ctxin := 7, rxseq := 3 }
    let s := sH q ⟨0, 0x60, [], 32⟩
    let f : Flit := ⟨1, 4, 3, 2 ^ 32 + 0x100, [1, 2, 3, 4]⟩
    let pg : Page := ⟨2 ^ 32, 2 ^ 30, 0, 0, true, 2, [0x6020, 0x5000, 0x4000, 0x20E0]⟩
    let ln : Launch := { lau with lid := 0, bytes := List.replicate 256 0, st := .ready, deps := List.replicate 4 false, regions := [] }
    let it (i : MoveItem) : MoveItem := rxItem q ⟨4, 0, 3, 0, putItem i⟩
    (flitOf (Flit.bytes f) = f ∧ (s.peers[2]).up = true ∧ f.seq = (s.peers[2]).rxseq ∧ f.used = f.payload.length ∧ f.used ≤ 224 ∧ (s.peers[2]).en = true ∧
      (sPT.peers[2]).en = false) ∧
    (s.walk 7 f.addr = .ok pg ∧ (s.leafLoc pg f.addr 4 true).toOption = some ⟨.dev, 0x100, 1, pg.via⟩ ∧
      s.accessFault ⟨.dev, 0x100, 1, pg.via⟩ 4 true f.addr = none) ∧
    PeerPlaces s q true f.addr 4 [(⟨.dev, 0x100, 1, pg.via⟩, 4)] ∧ PlacesOpen s [(pl 0x100, 4)] ∧
    ¬PlacesOpen { s with ucie := Vector.replicate 32 { paused := true } } [(pl 0x1000, 4)] ∧
    AcksSent s { q with acks := [(0x100, [])] } ({ q with acks := [] }.send 5 0 0x100 []) ∧
    (it .opening = .opening ∧ it .ending = .ending ∧ it (.counters [5, 6]) = .counters [5, 6] ∧ it (.area 7 8 [1]) = .area 7 8 [1] ∧
      it (.spilled 7 [3] [(9, 1)]) = .spilled 7 [3] [(9, 1)] ∧ it (.dispatch 2 [⟨1, 2, 3, 0, 5⟩]) = .dispatch 2 [⟨1, 2, 3, 0, 5⟩] ∧
      it (.queue 3 { en := true, ctx := 7, entries := [⟨9, 4, .chip 2, none⟩] }) = .queue 3 { en := true, ctx := 7, entries := [⟨9, 4, .chip 2, none⟩] } ∧
      it (.launch ln [(1, 2)] []) = .launch ln [(1, 2)] [] ∧ ln.saved = none) ∧
    (s.launches = [] ∧ (∀ x ∈ s.eqs, x.2.en = false) ∧ s.freeLid = some 0 ∧ (s.saveBase 7).toOption = some 0 ∧
      freeRange s.launches 7 128 = some 0) := by
  have hw : (sH { en := true, ctxin := 7, rxseq := 3 } ⟨0, 0x60, [], 32⟩).walk 7 (2 ^ 32 + 0x100) =
    .ok ⟨2 ^ 32, 2 ^ 30, 0, 0, true, 2, [0x6020, 0x5000, 0x4000, 0x20E0]⟩ := ok_of_toOption (by decide +kernel)
  refine ⟨by decide +kernel, ⟨hw, by decide +kernel, by decide +kernel⟩,
    ⟨by decide, ⟨by decide, by decide, by decide, by decide, _, hw, ok_of_toOption (by decide +kernel), by decide +kernel⟩, rfl⟩, ?_, ?_,
    ⟨[(0x100, [])], [], rfl, ?_, nofun, rfl⟩, by decide +kernel, by decide +kernel⟩
  · unfold PlacesOpen; decide +kernel
  · unfold PlacesOpen; decide +kernel
  · intro a h id hid
    obtain rfl := List.mem_singleton.mp h
    cases hid

/-- EvictionAndManagement: each state of the handshake, with launches that are left and none, a port that is up and one that is down; times at the
limit and below; a module that is hot, cool and neither; inputs that wait. -/
theorem test_wit_management :
    let s (e : Evict) (ls : List Launch) (m : List MgmtMsg) : State := { State.reset with evict := e, launches := ls, mgmtIn := m }
    let q := s .fencing [la 1 0 .ready rec7] [.evict 3 true [(0, 128, 4096)]]
    let hot (o : Int) : Prop := 65 < o
    (q.mgmtIn = [.evict 3 true [(0, 128, 4096)]] ∧ (s .serving [] []).evict = .serving ∧ q.evict ≠ .serving ∧ (q.peers[3]).up = true ∧
      (({ q.peers[3] with up := false } : Peer)).up = false ∧ q.mem.wf = true ∧ q.quietModule = false) ∧
    ((∀ l ∈ q.launches, l.st = .waiting ∨ l.st = .ready ∨ l.st = .preempted false) ∧ (∀ d : Fin 8, (q.die d).armq = []) ∧ (∃ l ∈ [lau], l.st = .running) ∧
      (∃ l ∈ [{ lau with st := LState.loading }], l.st ≠ .running ∧ ¬(l.st = .waiting ∨ l.st = .ready ∨ l.st = .preempted false)) ∧
      (q.peers[q.evictPort]).waiting = [] ∧ q.pend = [] ∧ q.engine = [] ∧ q.flying = [] ∧ q.conts = [] ∧ q.cmsgs = []) ∧
    (∀ p : Fin 18, q.peers[p].en = false ∧ q.peers[p].waiting = [] ∧ ∀ f ∈ q.peers[p].out, f.kind = 3 ∨ f.kind = 5) ∧
    (q.evictAt + 42000000000 ≤ 42000000000 ∧ 41999999999 < q.evictAt + 42000000000) ∧
    ((s .failed [] []).evict = .failed ∧ (s .drained [] []).evict = .drained ∧ (s .draining [] []).evict = .draining ∧ (s .moving [] []).evict = .moving ∧
      ({ s .moving [] [] with evictSent := true } : State).evictSent = true ∧ (s .moving [] []).evictSent = false) ∧
    ((s .serving [] [.scan 0 4]).mgmtIn = [.scan 0 4] ∧ ({ q with frozen := true } : State).frozen = true ∧ q.frozen = false ∧
      (s .serving [] [.firmware 3 [1] [2]]).mgmtIn = [.firmware 3 [1] [2]] ∧ (s .serving [] [.spdm [1] true]).mgmtIn = [.spdm [1] true] ∧
      (s .serving [] [.eeprom 0 4]).mgmtIn = [.eeprom 0 4] ∧ (s .serving [] [.service 5]).mgmtIn = [.service 5] ∧ q.hostUp = true) ∧
    (hot 66 ∧ ¬hot 65 ∧ (59 : Int) < 60 ∧ (41 : Int) < 42 ∧ ¬(60 : Int) < 60 ∧ q.level = 0 ∧ (0 : Nat) + 1400000 ≤ 1400000) ∧
    ((((q.core (collierOf 0)).fqtail.toNat + 128 - (q.core (collierOf 0)).fqhead.toNat) % 128 ≠ 64) ∧ q.stations = []) := by decide +kernel

theorem test_wit_identity : State.reset.identity.length = 1024 := by
  simp only [State.reset, identityRecord, List.length_append, List.length_map, List.length_replicate]
  decide +kernel

/-- A module that is MOVING, with a row of context 7 in a station and a range to copy; ecc: the errors of its memory. -/
def sMove (ecc : List EccErr) : State :=
  { sPT.setStn 9 { rows := [(4, { owner := some 7 })] } with evict := .moving, evictRanges := [(0x80, 64, 2 ^ 33)], ecc }

/-- EvictionAndManagement, MOVING: what stands in a station can be spilled, or not, its context's entry being damaged; a range that can be read;
an item's flits. -/
theorem test_wit_moving :
    (sMove []).spillEverything.toOption.isSome = true ∧ faultOf (sMove [⟨false, 0, 0, 0x2080, true⟩]).spillEverything ≠ none ∧
    ((sMove []).readRange 0x80 64 2).toOption.isSome = true := by decide +kernel

theorem test_wit_item : ((putItem .opening).length + 223) / 224 ≤ 2 ^ 32 ∧ (putItem .opening).length < 224 * 2 ^ 24 := by decide +kernel

/-! ## The invariant, encodings and the step -/

/-- StepKeepsInvariant: the state after reset has the invariant, and a step from a state with a running core answers a next state. -/
theorem test_wit_invariant :
    State.reset.Inv ∧ (nextOf (step (State.reset.withFetchWord 32 0x20042008))).isSome = true ∧ (State.reset.withFetchWord 32 0x20042008).Inv := by
  unfold State.Inv; decide +kernel

/-- EncodingRoundTrip: a well-formed core instruction, a prefix pair, and a station instruction; words that decode. -/
theorem test_wit_encoding :
    let add : Instr := .addI ⟨7, true⟩ 31 31 0x7FF
    (isCore add = true ∧ add.wf = true) ∧ (isCore (.limm (BitVec.allOnes 25) add) = true ∧ (Instr.limm (BitVec.allOnes 25) add).wf = true) ∧
    (isStation (.pass (hd2 1) .int8) = true ∧ (Instr.pass (hd2 1) .int8).wf = true) ∧ (decode 0x20042008 0).toOption.isSome = true ∧
    (decodeStation 0x43004000000000000000000C00000000).toOption.isSome = true := by decide +kernel

/-- StepRunsDecoded: a core, a station and an event at the head of the agenda, a word that decodes, one that does not and a pair at the last word of
the store; a frozen module, and one that is unlatched. -/
theorem test_wit_step :
    let s := State.reset.withFetchWord 32 0x20042008
    let p := State.reset.withFetchWord 128 0x43004000000000000000000C00000000
    let q : State := { State.reset with frozen := true }
    s.unlatched = false ∧ s.agenda = [.core acc] ∧ s.quietModule = false ∧ (s.core acc).run = .running ∧ CleanFetch s acc ∧
    (wordsAt s acc).1 = 0x20042008 ∧ (decode 0xF4000000 0).toOption = none ∧ (decode 0x48000024 0x20042345).toOption.map (·.2) = some 2 ∧
    (decode 0x20042008 0).toOption.map (·.2) = some 1 ∧ (65532 : BitVec 16) ≠ 0 ∧
    (∃ n, p.agenda = [.station n] ∧ (p.stn n).issueq ≠ [] ∧ p.quietModule = false) ∧
    q.quietModule = true ∧ mgmtOnly (.core acc) = false ∧ ({ q with unlatched := true } : State).unlatched = true := by
  refine ⟨?_, ?_, ?_, ?_, ?_, ?_, ?_, ?_, ?_, ?_, ?_, ?_, ?_, rfl⟩ <;> try decide +kernel
  · intro e h
    have : (State.reset.withFetchWord 32 0x20042008).ecc = [] := by decide +kernel
    rw [this] at h; cases h
  · exact ⟨0, by decide +kernel, by decide +kernel, by decide +kernel⟩

end Sys2Proof.Tests
end

section
/-! SUPPORT. DIV and REM (R302) and PFETCH (R311): how their instructions end, the arithmetic of the edge cases, and the two
statements settled. -/

namespace Sys2Proof.Claims

open Sys2Proof.Machine

/-! ## How the instructions end -/

/-- Under a true guard the result goes to g[d] and the instruction retires. -/
theorem putResult_true {s : State} {x : Guard} (h : s.me.guard x = true) (d : GReg) (r : DWord) :
    putResult x d r s = .next (afterCore s (s.me.wg d r)) := by
  rw [putResult, issue_true h, State.putG, finish_done_setMe, afterCore]

/-- A body without effect retires the instruction, whatever the guard. -/
theorem issue_done_self (x : Guard) (s : State) : issue x s (.done s) = .next (afterCore s s.me) := by
  cases h : s.me.guard x with
  | true => rw [issue_true h, finish_done, afterCore]
  | false => rw [issue_false h, afterCore]

theorem exec_divR (x : Guard) (u : Bool) (d a b : GReg) (s : State) :
    exec (.divR x u d a b) s = putResult x d (aluDiv u (s.me.rg a) (s.src2 b)) s := rfl

theorem exec_remR (x : Guard) (u : Bool) (d a b : GReg) (s : State) :
    exec (.remR x u d a b) s = putResult x d (aluRem u (s.me.rg a) (s.src2 b)) s := rfl

theorem exec_divI (x : Guard) (d a : GReg) (i : BitVec 11) (s : State) :
    exec (.divI x d a i) s = putResult x d (aluDiv false (s.me.rg a) (s.immI i)) s := rfl

theorem exec_remI (x : Guard) (d a : GReg) (i : BitVec 11) (s : State) :
    exec (.remI x d a i) s = putResult x d (aluRem false (s.me.rg a) (s.immI i)) s := rfl

theorem exec_pfetch (x : Guard) (sc : Scope) (a : GReg) (s : State) : exec (.pfetch x sc a) s = issue x s (.done s) := rfl

/-! ## The arithmetic of DIV and REM -/

/-- The model names no overflow case: the exact quotient 2^63 of −2^63 and −1 wraps to the −2^63 that R302 gives. -/
theorem aluDiv_eq_divSpec (u : Bool) (x y : DWord) : aluDiv u x y = divSpec u x y := by
  unfold aluDiv divSpec
  split
  case isTrue => rfl
  case isFalse =>
    split
    case isTrue overflow =>
      obtain ⟨rfl, rfl, rfl⟩ := overflow
      decide
    case isFalse => rfl

/-- x − y × quotient is the remainder with the sign of x, and it is 0 where the quotient wraps. -/
theorem aluRem_eq_remSpec (u : Bool) (x y : DWord) : aluRem u x y = remSpec u x y := by
  unfold aluRem remSpec
  rw [← Int.tmod_def]
  split
  case isTrue => rfl
  case isFalse =>
    split
    case isTrue overflow =>
      obtain ⟨rfl, rfl, rfl⟩ := overflow
      decide
    case isFalse => rfl

/-! ## The statements -/

/-- Settles O3: the four forms write the model's quotient or remainder, which is R302's in every case. -/
theorem divRemEdges : Obligations.DivRemEdges := by
  intro s x u d a b i guard
  simp only [exec_divR, exec_remR, exec_divI, exec_remI, putResult_true guard, aluDiv_eq_divSpec, aluRem_eq_remSpec, and_self]

/-- Settles O12: PFETCH is a body without effect, which no address enters. -/
theorem prefetchHasNoEffect : Obligations.PrefetchHasNoEffect := by
  intro s x sc a
  rw [exec_pfetch, issue_done_self]

end Sys2Proof.Claims
end
